-- ==== Sys2Proof/Word.lean ====
section
/-!
DEFINITION. The word types of the block (00_scope R9, R12) and their plainest arithmetic.
-/

namespace Sys2Proof

/-- One byte of a buffer (00_scope R14). -/
abbrev Byte := BitVec 8

/-- A u32: reference IDs, qualities, commands, width-32 raw values (00_scope R12). -/
abbrev Word32 := BitVec 32

/-- The bit pattern of a u64 or an i64: timestamps, deltas, width-64 raw values (00_scope R12). -/
abbrev Word64 := BitVec 64

/-- A local code, 0 to 63 (30_encoding R100). -/
abbrev Code := BitVec 6

/-- i64::MAX, the "infinite" entry of the delta cache (10_state R27). -/
def i64Max : Word64 := 0x7FFFFFFFFFFFFFFF

end Sys2Proof
end

