-- ==== Sys2Proof/Config.lean ====
section
/-!
DEFINITION. The configuration parameters of the block (00_scope R9; 92_eei_decisions PA1 to PA5). A machine state
carries one `Config` that no step changes, so every claim over all states is a claim over all parameter values
(log 3). Only the state after reset names values.
-/

namespace Sys2Proof

/-- TYPE_CODE_MAP: the byte that names each value type on the wire (30_encoding R108). -/
structure TypeCodes where
  int32 : Byte
  uint32 : Byte
  single : Byte
  int64 : Byte
  uint64 : Byte
  double : Byte
deriving DecidableEq, Repr

/-- The default TYPE_CODE_MAP of 30_encoding R108. PRESUMED by the spec itself (its part B, item B1: the .NET
`System.TypeCode` numbers, "from general knowledge, not in source"); unsafe for a claim that needs one of these
bytes, log 4. -/
def TypeCodes.default : TypeCodes :=
  { int32 := 9, uint32 := 10, single := 13, int64 := 11, uint64 := 12, double := 14 }

/-- The parameters of 00_scope R9. -/
structure Config where
  /-- MAX_POINTS, 1 to 2^32: the capacity of each engine's point table. -/
  maxPoints : Nat
  /-- MAX_META_BYTES, 0 to 2^32-1: the largest registration metadata. -/
  maxMetaBytes : Nat
  /-- DEC_BUF_MAX, 0 to 2^32-1: the longest byte sequence DEC_LOAD accepts. -/
  decBufMax : Nat
  /-- ENC_BUF_MAX, 2 to 2^32-1: the longest output between ENC_TAKE requests. -/
  encBufMax : Nat
  /-- TYPE_CODE_MAP. -/
  typeCodes : TypeCodes
deriving DecidableEq, Repr

/-- The parameter values of the state after reset. DESIGN CHOICE (unsafe, log 3): the spec leaves them OPEN; these
are the largest of each range, which 46_control_codes R301 and 47_stream_engine R354 name as values that a model may
take. -/
def Config.largest : Config :=
  { maxPoints := 2 ^ 32, maxMetaBytes := 2 ^ 32 - 1, decBufMax := 2 ^ 32 - 1, encBufMax := 2 ^ 32 - 1,
    typeCodes := TypeCodes.default }

/-- TYPE_CODE_MAP is injective (00_scope R9). -/
abbrev TypeCodes.Injective (m : TypeCodes) : Prop :=
  [m.int32, m.uint32, m.single, m.int64, m.uint64, m.double].Nodup

/-- Every parameter lies in its range (00_scope R9). -/
abbrev Config.InRange (p : Config) : Prop :=
  1 ≤ p.maxPoints ∧ p.maxPoints ≤ 2 ^ 32 ∧ p.maxMetaBytes ≤ 2 ^ 32 - 1 ∧ p.decBufMax ≤ 2 ^ 32 - 1 ∧
    2 ≤ p.encBufMax ∧ p.encBufMax ≤ 2 ^ 32 - 1 ∧ p.typeCodes.Injective

end Sys2Proof
end

