-- ==== Sys2Proof/Syntax.lean ====
section
/-!
DEFINITION. The instructions of the block: one constructor of `Instr` for each row of spec/opcode_table.json, the
local codes of the wire format (30_encoding R101) and the host requests (30_encoding R114), with the types of their
operands.

A local code carries no operand here: its payload is read from the buffer by its meaning, in the order and after the
checks that the rules of 41 to 46 give (log 11). A value code has two rows, one for each point width (30_encoding
R111). A reserved row carries the bits its mask leaves free.
-/

namespace Sys2Proof

/-- The type tags of width 32 (00_scope R17). -/
inductive Tag32 where
  | int32
  | uint32
  | single
deriving DecidableEq, Repr

/-- The type tags of width 64 (00_scope R17). -/
inductive Tag64 where
  | int64
  | uint64
  | double
deriving DecidableEq, Repr

/-- The width of a point (00_scope R17). -/
inductive Width where
  | w32
  | w64
deriving DecidableEq, Repr

/-- A type tag (00_scope R17), sorted by its width. -/
inductive TypeTag where
  | narrow (t : Tag32)
  | wide (t : Tag64)
deriving DecidableEq, Repr

/-- The width of a tag: 32 for the first three tags of 00_scope R17 and 64 for the last three. -/
def TypeTag.width : TypeTag → Width
  | .narrow _ => .w32
  | .wide _ => .w64

/-- A value: a type tag and raw bits, a u32 for a width-32 tag and a u64 for a width-64 tag (30_encoding R114). -/
inductive Value where
  | narrow (tag : Tag32) (bits : Word32)
  | wide (tag : Tag64) (bits : Word64)
deriving DecidableEq, Repr

/-- The type tag of a value. -/
def Value.tag : Value → TypeTag
  | .narrow t _ => .narrow t
  | .wide t _ => .wide t

/-- A host request as the host presents it: a 4-bit opcode with its operands (30_encoding R114). An opcode reads only
the operands its row names; the others are ignored. The spec gives no bit layout of operands: DESIGN CHOICE, log 2. -/
structure Request where
  opcode : BitVec 4
  /-- `bytes` of DEC_LOAD, `metadata` of ENC_REGISTER, `payload` of ENC_USER_DATA. -/
  bytes : List Byte := []
  /-- `type` of ENC_REGISTER. -/
  typeByte : Byte := 0
  /-- `id` of ENC_WRITE. -/
  id : Word32 := 0
  /-- `timestamp` of ENC_WRITE, an i64. -/
  timestamp : Word64 := 0
  /-- `quality` of ENC_WRITE. -/
  quality : Word32 := 0
  /-- `value` of ENC_WRITE. -/
  value : Value := .narrow .int32 0
  /-- `command` of ENC_USER and ENC_USER_DATA. -/
  command : Word32 := 0
deriving DecidableEq, Repr

/-- The instructions. Local codes first, in the order of the code (30_encoding R101), then the host requests in the
order of the opcode (30_encoding R114). -/
inductive Instr where
  -- control codes (46_control_codes)
  | newPointId
  | userCommand
  | userCommandWithData
  | flushBits
  -- ID codes (41_point_id)
  | pointIDXOR4
  | pointIDXOR8
  | pointIDXOR12
  | pointIDXOR16
  | pointIDXOR20
  | pointIDXOR24
  | pointIDXOR32
  -- time codes (42_timestamp)
  | timeDelta1Forward
  | timeDelta2Forward
  | timeDelta3Forward
  | timeDelta4Forward
  | timeDelta1Reverse
  | timeDelta2Reverse
  | timeDelta3Reverse
  | timeDelta4Reverse
  | timestamp2
  | timeXOR7Bit
  -- quality codes (43_quality)
  | quality2
  | quality7Bit32
  -- reserved codes 23 to 31 (30_encoding R112)
  | reserved23
  | reserved24to31 (low : BitVec 3)
  -- value codes of a width-32 point (44_value32)
  | value1W32
  | value2W32
  | value3W32
  | valueZeroW32
  | valueXOR4W32
  | valueXOR8W32
  | valueXOR12W32
  | valueXOR16W32
  | valueXOR20W32
  | valueXOR24W32
  | valueXOR28W32
  | valueXOR32W32
  -- value codes of a width-64 point (45_value64)
  | value1W64
  | value2W64
  | value3W64
  | valueZeroW64
  | valueXOR8W64
  | valueXOR16W64
  | valueXOR24W64
  | valueXOR32W64
  | valueXOR40W64
  | valueXOR48W64
  | valueXOR56W64
  | valueXOR64W64
  -- reserved codes 44 to 63 (30_encoding R112)
  | reserved44to47 (low : BitVec 2)
  | reserved48to63 (low : BitVec 4)
  -- host requests (30_encoding R114)
  | decReset
  | decLoad (bytes : List Byte)
  | decGet
  | decStatus
  | reservedHost4to7 (low : BitVec 2)
  | encReset
  | encRegister (typeByte : Byte) (metadata : List Byte)
  | encWrite (id : Word32) (timestamp : Word64) (quality : Word32) (value : Value)
  | encUser (command : Word32)
  | encUserData (command : Word32) (payload : List Byte)
  | encFlush
  | encTake
  | encStatus
deriving DecidableEq, Repr

end Sys2Proof
end

