-- ==== Sys2Proof/WellFormed.lean ====
section
/-!
DEFINITION. Which terms of `Instr` an interface can present. Operand widths are in the types; what is left is the
length of the byte sequences and the width a value code belongs to.
-/

namespace Sys2Proof

/-- A byte sequence that a 32-bit index reaches (20_memory R60: "Indices are 32-bit unsigned"), so that its length is
a u32 (30_encoding R107). -/
def lengthIsU32 (bs : List Byte) : Bool :=
  decide (bs.length < 2 ^ 32)

/-- The width of point that an instruction's row of the opcode table is for; none where the row is for every
point. -/
def Instr.rowWidth : Instr → Option Width
  | .value1W32 | .value2W32 | .value3W32 | .valueZeroW32 | .valueXOR4W32 | .valueXOR8W32 | .valueXOR12W32
  | .valueXOR16W32 | .valueXOR20W32 | .valueXOR24W32 | .valueXOR28W32 | .valueXOR32W32 => some .w32
  | .value1W64 | .value2W64 | .value3W64 | .valueZeroW64 | .valueXOR8W64 | .valueXOR16W64 | .valueXOR24W64
  | .valueXOR32W64 | .valueXOR40W64 | .valueXOR48W64 | .valueXOR56W64 | .valueXOR64W64 => some .w64
  | .newPointId | .userCommand | .userCommandWithData | .flushBits
  | .pointIDXOR4 | .pointIDXOR8 | .pointIDXOR12 | .pointIDXOR16 | .pointIDXOR20 | .pointIDXOR24 | .pointIDXOR32
  | .timeDelta1Forward | .timeDelta2Forward | .timeDelta3Forward | .timeDelta4Forward
  | .timeDelta1Reverse | .timeDelta2Reverse | .timeDelta3Reverse | .timeDelta4Reverse
  | .timestamp2 | .timeXOR7Bit | .quality2 | .quality7Bit32
  | .reserved23 | .reserved24to31 _ | .reserved44to47 _ | .reserved48to63 _
  | .decReset | .decLoad _ | .decGet | .decStatus | .reservedHost4to7 _
  | .encReset | .encRegister _ _ | .encWrite _ _ _ _ | .encUser _ | .encUserData _ _
  | .encFlush | .encTake | .encStatus => none

/-- The instruction belongs to a point of width `w` (30_encoding R111). -/
def Instr.fitsWidth (w : Width) (i : Instr) : Bool :=
  match i.rowWidth with
  | none => true
  | some w' => w == w'

/-- The operands are ones the interface can carry. -/
def Instr.operandsOk : Instr → Bool
  | .decLoad bytes => lengthIsU32 bytes
  | .encRegister _ metadata => lengthIsU32 metadata
  | .encUserData _ payload => lengthIsU32 payload
  | .newPointId | .userCommand | .userCommandWithData | .flushBits
  | .pointIDXOR4 | .pointIDXOR8 | .pointIDXOR12 | .pointIDXOR16 | .pointIDXOR20 | .pointIDXOR24 | .pointIDXOR32
  | .timeDelta1Forward | .timeDelta2Forward | .timeDelta3Forward | .timeDelta4Forward
  | .timeDelta1Reverse | .timeDelta2Reverse | .timeDelta3Reverse | .timeDelta4Reverse
  | .timestamp2 | .timeXOR7Bit | .quality2 | .quality7Bit32
  | .reserved23 | .reserved24to31 _ | .reserved44to47 _ | .reserved48to63 _
  | .value1W32 | .value2W32 | .value3W32 | .valueZeroW32 | .valueXOR4W32 | .valueXOR8W32 | .valueXOR12W32
  | .valueXOR16W32 | .valueXOR20W32 | .valueXOR24W32 | .valueXOR28W32 | .valueXOR32W32
  | .value1W64 | .value2W64 | .value3W64 | .valueZeroW64 | .valueXOR8W64 | .valueXOR16W64 | .valueXOR24W64
  | .valueXOR32W64 | .valueXOR40W64 | .valueXOR48W64 | .valueXOR56W64 | .valueXOR64W64
  | .decReset | .decGet | .decStatus | .reservedHost4to7 _
  | .encReset | .encWrite _ _ _ _ | .encUser _ | .encFlush | .encTake | .encStatus => true

/-- A well-formed instruction for a stream whose current point has width `w`. -/
def Instr.wellFormed (w : Width) (i : Instr) : Bool :=
  i.fitsWidth w && i.operandsOk

end Sys2Proof
end

