-- ==== Sys2Proof/Decode.lean ====
section
/-!
DEFINITION. The decoder, total on every local code, every bit string and every host request, and after it the encoder,
written from the same tables (30_encoding R101, R102, R114). Nothing here touches the machine's state: a code word is
read under the list of escape codes that are active in the current model (30_encoding R102), first escape first.
-/

namespace Sys2Proof

/-! ### Bit fields -/

/-- The bits of a field, most-significant first (20_memory R63, R76). -/
def bitsOf {n : Nat} (v : BitVec n) : List Bool :=
  (List.range n).map v.getMsbD

/-- The number a bit string spells, most-significant bit first (20_memory R63). -/
def natOfBits (bits : List Bool) : Nat :=
  bits.foldl (fun v b => 2 * v + b.toNat) 0

/-- The bytes of a bit string: bit 7 of each byte is the first (20_memory R61, R69), and a last partial byte is filled
with zeros (20_memory R73). -/
def packBits : List Bool → List Byte
  | [] => []
  | b7 :: b6 :: b5 :: b4 :: b3 :: b2 :: b1 :: b0 :: rest =>
    BitVec.ofNat 8 (natOfBits [b7, b6, b5, b4, b3, b2, b1, b0]) :: packBits rest
  | short => [BitVec.ofNat 8 (natOfBits ((short ++ List.replicate 8 false).take 8))]

/-- The bits of a byte sequence in stream order (20_memory R61). -/
def unpackBytes (bytes : List Byte) : List Bool :=
  bytes.flatMap bitsOf

/-! ### TYPE_CODE_MAP -/

/-- TYPE_CODE_MAP(tag) (30_encoding R108). -/
def TypeCodes.byteOf (m : TypeCodes) : TypeTag → Byte
  | .narrow .int32 => m.int32
  | .narrow .uint32 => m.uint32
  | .narrow .single => m.single
  | .wide .int64 => m.int64
  | .wide .uint64 => m.uint64
  | .wide .double => m.double

/-- The six type tags, in the order of 00_scope R17. -/
def allTags : List TypeTag :=
  [.narrow .int32, .narrow .uint32, .narrow .single, .wide .int64, .wide .uint64, .wide .double]

/-- The tag that a type byte names; none outside the image of TYPE_CODE_MAP (46_control_codes R300). -/
def TypeCodes.tagOf (m : TypeCodes) (b : Byte) : Option TypeTag :=
  allTags.find? (fun t => m.byteOf t == b)

/-! ### Decoding -/

/-- The row for the point's width (30_encoding R111). -/
def forWidth (w : Width) (narrow wide : Instr) : Instr :=
  match w with
  | .w32 => narrow
  | .w64 => wide

/-- The instruction of local code `c` for a point of width `w` (30_encoding R101, R111, R112). Every code is a row: the
unassigned ones are the reserved rows. -/
def decodeCode (w : Width) (c : Code) : Instr :=
  match c.toNat with
  | 0 => .newPointId
  | 1 => .userCommand
  | 2 => .userCommandWithData
  | 3 => .flushBits
  | 4 => .pointIDXOR4
  | 5 => .pointIDXOR8
  | 6 => .pointIDXOR12
  | 7 => .pointIDXOR16
  | 8 => .pointIDXOR20
  | 9 => .pointIDXOR24
  | 10 => .pointIDXOR32
  | 11 => .timeDelta1Forward
  | 12 => .timeDelta2Forward
  | 13 => .timeDelta3Forward
  | 14 => .timeDelta4Forward
  | 15 => .timeDelta1Reverse
  | 16 => .timeDelta2Reverse
  | 17 => .timeDelta3Reverse
  | 18 => .timeDelta4Reverse
  | 19 => .timestamp2
  | 20 => .timeXOR7Bit
  | 21 => .quality2
  | 22 => .quality7Bit32
  | 23 => .reserved23
  | 32 => forWidth w .value1W32 .value1W64
  | 33 => forWidth w .value2W32 .value2W64
  | 34 => forWidth w .value3W32 .value3W64
  | 35 => forWidth w .valueZeroW32 .valueZeroW64
  | 36 => forWidth w .valueXOR4W32 .valueXOR8W64
  | 37 => forWidth w .valueXOR8W32 .valueXOR16W64
  | 38 => forWidth w .valueXOR12W32 .valueXOR24W64
  | 39 => forWidth w .valueXOR16W32 .valueXOR32W64
  | 40 => forWidth w .valueXOR20W32 .valueXOR40W64
  | 41 => forWidth w .valueXOR24W32 .valueXOR48W64
  | 42 => forWidth w .valueXOR28W32 .valueXOR56W64
  | 43 => forWidth w .valueXOR32W32 .valueXOR64W64
  | n =>
    if n < 32 then .reserved24to31 (c.extractLsb' 0 3)
    else if n < 48 then .reserved44to47 (c.extractLsb' 0 2)
    else .reserved48to63 (c.extractLsb' 0 4)

/-- The instruction of a host request (30_encoding R114). Every opcode is a row. -/
def decodeRequest (r : Request) : Instr :=
  match r.opcode.toNat with
  | 0 => .decReset
  | 1 => .decLoad r.bytes
  | 2 => .decGet
  | 3 => .decStatus
  | 8 => .encReset
  | 9 => .encRegister r.typeByte r.bytes
  | 10 => .encWrite r.id r.timestamp r.quality r.value
  | 11 => .encUser r.command
  | 12 => .encUserData r.command r.bytes
  | 13 => .encFlush
  | 14 => .encTake
  | 15 => .encStatus
  | _ => .reservedHost4to7 (r.opcode.extractLsb' 0 2)

/-- Why a bit string is no code word. -/
inductive WordError where
  /-- The bits run out inside the code word: the reader's BufferUnderrun (20_memory R62). -/
  | bitsRunOut
deriving DecidableEq, Repr

/-- Reads one code word from the front of a bit string under the active escapes (30_encoding R102, R104): a 1 ends the
word at the matching escape, and after a 0 for every escape the code itself follows as 6 bits. -/
def parseCodeWord : List Code → List Bool → Except WordError (Code × List Bool)
  | [], b5 :: b4 :: b3 :: b2 :: b1 :: b0 :: rest => .ok (BitVec.ofNat 6 (natOfBits [b5, b4, b3, b2, b1, b0]), rest)
  | [], _ => .error .bitsRunOut
  | _ :: _, [] => .error .bitsRunOut
  | e :: _, true :: rest => .ok (e, rest)
  | _ :: es, false :: rest => parseCodeWord es rest

/-! ### Encoding -/

/-- What an instruction is sent as: a local code or a host request. -/
inductive Encoded where
  | localCode (c : Code)
  | request (r : Request)
deriving DecidableEq, Repr

/-- The local code or the host request of an instruction (30_encoding R101, R114). -/
def encode : Instr → Encoded
  | .newPointId => .localCode 0
  | .userCommand => .localCode 1
  | .userCommandWithData => .localCode 2
  | .flushBits => .localCode 3
  | .pointIDXOR4 => .localCode 4
  | .pointIDXOR8 => .localCode 5
  | .pointIDXOR12 => .localCode 6
  | .pointIDXOR16 => .localCode 7
  | .pointIDXOR20 => .localCode 8
  | .pointIDXOR24 => .localCode 9
  | .pointIDXOR32 => .localCode 10
  | .timeDelta1Forward => .localCode 11
  | .timeDelta2Forward => .localCode 12
  | .timeDelta3Forward => .localCode 13
  | .timeDelta4Forward => .localCode 14
  | .timeDelta1Reverse => .localCode 15
  | .timeDelta2Reverse => .localCode 16
  | .timeDelta3Reverse => .localCode 17
  | .timeDelta4Reverse => .localCode 18
  | .timestamp2 => .localCode 19
  | .timeXOR7Bit => .localCode 20
  | .quality2 => .localCode 21
  | .quality7Bit32 => .localCode 22
  | .reserved23 => .localCode 23
  | .reserved24to31 low => .localCode (0b011#3 ++ low)
  | .value1W32 | .value1W64 => .localCode 32
  | .value2W32 | .value2W64 => .localCode 33
  | .value3W32 | .value3W64 => .localCode 34
  | .valueZeroW32 | .valueZeroW64 => .localCode 35
  | .valueXOR4W32 | .valueXOR8W64 => .localCode 36
  | .valueXOR8W32 | .valueXOR16W64 => .localCode 37
  | .valueXOR12W32 | .valueXOR24W64 => .localCode 38
  | .valueXOR16W32 | .valueXOR32W64 => .localCode 39
  | .valueXOR20W32 | .valueXOR40W64 => .localCode 40
  | .valueXOR24W32 | .valueXOR48W64 => .localCode 41
  | .valueXOR28W32 | .valueXOR56W64 => .localCode 42
  | .valueXOR32W32 | .valueXOR64W64 => .localCode 43
  | .reserved44to47 low => .localCode (0b1011#4 ++ low)
  | .reserved48to63 low => .localCode (0b11#2 ++ low)
  | .decReset => .request { opcode := 0x0 }
  | .decLoad bytes => .request { opcode := 0x1, bytes := bytes }
  | .decGet => .request { opcode := 0x2 }
  | .decStatus => .request { opcode := 0x3 }
  | .reservedHost4to7 low => .request { opcode := 0b01#2 ++ low }
  | .encReset => .request { opcode := 0x8 }
  | .encRegister typeByte metadata => .request { opcode := 0x9, typeByte := typeByte, bytes := metadata }
  | .encWrite id timestamp quality value =>
    .request { opcode := 0xA, id := id, timestamp := timestamp, quality := quality, value := value }
  | .encUser command => .request { opcode := 0xB, command := command }
  | .encUserData command payload => .request { opcode := 0xC, command := command, bytes := payload }
  | .encFlush => .request { opcode := 0xD }
  | .encTake => .request { opcode := 0xE }
  | .encStatus => .request { opcode := 0xF }

/-- The instruction that a point of width `w` reads from what was sent. -/
def decode (w : Width) : Encoded → Instr
  | .localCode c => decodeCode w c
  | .request r => decodeRequest r

/-- The code word of local code `c` under the active escapes (30_encoding R102): the pattern of the first escape that
is `c`, and otherwise a zero for every escape and the code as 6 bits. -/
def codeWord : List Code → Code → List Bool
  | [], c => bitsOf c
  | e :: es, c => if c = e then [true] else false :: codeWord es c

/-! ### The opcode table's words -/

/-- How many zero bytes are laid behind a table word: the longest payload of operand words that are all zero is
ValueXOR64's eight bytes (45_value64 R295). -/
def payloadZeros : Nat := 8

/-- The stream bits of the 8-bit number `w` of the opcode table: the code `w mod 64` as the code word under the active
escapes, and the number's two bits above the row after it. -/
def tableBits (escapes : List Code) (w : Nat) : List Bool :=
  codeWord escapes (BitVec.ofNat 6 w) ++ bitsOf (BitVec.ofNat 2 (w / 64))

/-- The buffer that holds table word `w` and zeros behind it, as the hardware stores it (20_memory R61, R76). -/
def tableBytes (escapes : List Code) (w : Nat) : List Byte :=
  packBits (tableBits escapes w) ++ List.replicate payloadZeros 0

/-- The host request of table word `w`, its operands zero. -/
def tableRequest (w : Nat) : Request :=
  { opcode := BitVec.ofNat 4 w }

/-- The instruction the decoder reads from the table word `w` of `nbits` bits. A word of at most 4 bits is a host
opcode, a longer one a local code, read with no escape active (mode 1, the model after reset) for a stream that holds
no width-64 point. The opcode table gives the host rows the same numbers as codes 0 to 15 and the width-64 rows the
same numbers as the width-32 rows, so with both in whole bytes only one of two rows can be answered (log 9). -/
def decodeTableWord (nbits w : Nat) : Option Instr :=
  if nbits ≤ 4 then
    if w < 16 then some (decodeRequest (tableRequest w)) else none
  else if nbits ≤ 8 ∧ w < 256 then
    match parseCodeWord [] (unpackBytes (tableBytes [] w)) with
    | .ok (c, _) => some (decodeCode .w32 c)
    | .error _ => none
  else none

end Sys2Proof
end

