-- ==== Sys2Proof/Machine/State.lean ====
section
/-!
DEFINITION. The state of the block as plain data (10_state), the responses it gives (30_encoding R115), the ways a
step can stop, and the state after reset (70_reset_and_hazards R450).
-/

namespace Sys2Proof.Machine

/-! ### The code-model record -/

/-- M.mode, 1 to 4 (10_state R36). -/
inductive Mode where
  | mode1
  | mode2
  | mode3
  | mode4
deriving DecidableEq, Repr

/-- A code-model record M (10_state R36). -/
structure CodeModel where
  mode : Mode
  mode2_1 : Code
  mode3_1 : Code
  mode3_01 : Code
  mode4_1 : Code
  mode4_01 : Code
  mode4_001 : Code
  /-- M.cnt[0..63]: how often each code was counted since the last retrain. -/
  cnt : Vector Nat 64
  /-- Codes processed since the last retrain. -/
  since : Nat
  /-- The training epoch, 0 to 2. -/
  epoch : Nat
deriving DecidableEq, Repr

/-- The initial code-model state (10_state R37). -/
def CodeModel.initial : CodeModel :=
  { mode := .mode1, mode2_1 := 0, mode3_1 := 0, mode3_01 := 1, mode4_1 := 0, mode4_01 := 1, mode4_001 := 2,
    cnt := Vector.replicate 64 0, since := 0, epoch := 0 }

/-! ### The point record -/

/-- P.v1, P.v2, P.v3: the three most recent raw values, most recent first (10_state R33). -/
structure History (n : Nat) where
  v1 : BitVec n
  v2 : BitVec n
  v3 : BitVec n
deriving DecidableEq, Repr

/-- P.type with the value history of the matching width (10_state R32, R33): u32 history for a width-32 tag, u64
history for a width-64 tag, so that no record of mismatched widths exists. -/
inductive PointValues where
  | narrow (tag : Tag32) (history : History 32)
  | wide (tag : Tag64) (history : History 64)
deriving DecidableEq, Repr

/-- P.type (10_state R32). -/
def PointValues.type : PointValues → TypeTag
  | .narrow t _ => .narrow t
  | .wide t _ => .wide t

/-- A point record P (10_state R32 to R34). -/
structure Point where
  id : Word32
  values : PointValues
  q1 : Word32
  q2 : Word32
  /-- P.meta: the registration metadata, kept as received (20_memory R86). -/
  metadata : List Byte
  /-- P.M. -/
  model : CodeModel
deriving DecidableEq, Repr

/-- P.type. -/
abbrev Point.type (p : Point) : TypeTag := p.values.type

/-! ### The stream state of an engine -/

/-- The part of the stream state S that both engines have (10_state R22, R23, R26 to R29); the part that stays equal
between a decoder and its encoder (47_stream_engine R363). -/
structure Stream where
  pts : List Point
  cursor : Word32
  t1 : Word64
  t2 : Word64
  dt1 : Word64
  dt2 : Word64
  dt3 : Word64
  dt4 : Word64
  tvalid : Bool
  boot : CodeModel
deriving DecidableEq, Repr

/-- The reset value of the common stream state (70_reset_and_hazards R450). -/
def Stream.reset : Stream :=
  { pts := [], cursor := 0, t1 := 0, t2 := 0, dt1 := i64Max, dt2 := i64Max, dt3 := i64Max, dt4 := i64Max,
    tvalid := false, boot := CodeModel.initial }

/-- The error codes (60_exceptions R400). -/
inductive ErrorCode where
  | none
  | malformedStream
  | unsupportedType
  | bufferUnderrun
  | encoderInvariantViolation
  | capacityExceeded
  | invalidRequest
deriving DecidableEq, Repr

/-- The fault record S.finfo (60_exceptions R409). -/
structure FaultRecord where
  fpos : BitVec 32
  fbits : BitVec 4
  fcode : BitVec 7
  fphase : BitVec 2
deriving DecidableEq, Repr

/-- The all-zero fault record (60_exceptions R402). -/
def FaultRecord.zero : FaultRecord :=
  { fpos := 0, fbits := 0, fcode := 0, fphase := 0 }

/-- The decoder engine (10_state R22 to R31). -/
structure Dec where
  stream : Stream
  /-- S.in. -/
  inBuf : List Byte
  /-- S.pos: the next byte of S.in. -/
  pos : Nat
  /-- S.rcache: the byte whose bits are being read. -/
  rcache : Byte
  /-- S.rcnt: how many bits of the cache are unread, 0 to 8. -/
  rcnt : Nat
  err : ErrorCode
  finfo : FaultRecord
deriving DecidableEq, Repr

/-- The reset state of the decoder (70_reset_and_hazards R450). -/
def Dec.reset : Dec :=
  { stream := Stream.reset, inBuf := [], pos := 0, rcache := 0x00, rcnt := 0, err := .none,
    finfo := FaultRecord.zero }

/-- The encoder engine (10_state R22, R23, R25 to R31). -/
structure Enc where
  stream : Stream
  /-- S.out. -/
  out : List Byte
  /-- S.wcache: the bits of the group being written. -/
  wcache : Byte
  /-- S.wcnt: how many bits of the group are written, 0 to 7. -/
  wcnt : Nat
  /-- S.wslot: the index of the byte reserved for the group. -/
  wslot : Nat
  err : ErrorCode
  finfo : FaultRecord
deriving DecidableEq, Repr

/-- The reset state of the encoder (70_reset_and_hazards R450). -/
def Enc.reset : Enc :=
  { stream := Stream.reset, out := [], wcache := 0x00, wcnt := 0, wslot := 0, err := .none,
    finfo := FaultRecord.zero }

/-! ### Responses -/

/-- The status record (10_state R39). -/
structure Status where
  err : BitVec 3
  failed : Bool
  atEos : Bool
  pos : BitVec 32
  len : BitVec 32
  bits : BitVec 4
  npts : BitVec 33
  cursor : BitVec 32
  finfo : FaultRecord
deriving DecidableEq, Repr

/-- The responses (30_encoding R115). -/
inductive Response where
  | ok
  | okId (id : Word32)
  | bytes (b : List Byte)
  | status (record : Status)
  | newPointRegistered (id : Word32) (type : TypeTag) (metadata : List Byte)
  | userData (command : Word32)
  | userDataWithValue (command : Word32) (payload : List Byte)
  | measurementRead (id : Word32) (timestamp : Word64) (quality : Word32) (value : Value)
  | endOfStream
  | error (code : ErrorCode) (finfo : FaultRecord)
deriving DecidableEq, Repr

/-! ### The request in progress -/

/-- The phase position k within a record (47_stream_engine R331): 0 before the first code, 1 after an ID code, 2 after
a time code, 3 after a quality code. -/
inductive Phase where
  | start
  | afterId
  | afterTime
  | afterQuality
deriving DecidableEq, Repr

/-- A DEC_GET in progress. It exists only between the request and its response (10_state R42; log 1). -/
structure GetContext where
  /-- The decoder as the request found it, for the undo of 60_exceptions R401. -/
  saved : Dec
  /-- The last local code read in the request, 64 for none (60_exceptions R409). -/
  code : BitVec 7
  /-- The phase position. -/
  phase : Phase
deriving DecidableEq, Repr

/-! ### Faults and refusals -/

/-- The model's own stops. `step` raises none of them: they answer a call of `exec` with an instruction that the
interface cannot present in that state (log 7). The errors of 60_exceptions are no stops; they are next states. -/
inductive Fault where
  /-- Raised by every local code when no DEC_GET is in progress: a local code is read only inside one
  (47_stream_engine R330). Safe: the model stops where the block has nothing to do. -/
  | codeOutsideGet
  /-- Raised by every host request while a DEC_GET is in progress: "the interface cannot express" overlapping requests
  (70_reset_and_hazards R464). Safe. -/
  | requestDuringGet
  /-- Raised by a value code of one width for a point of the other: the decoder never reads it there (30_encoding
  R111). Safe. -/
  | widthMismatch
deriving DecidableEq, Repr

/-- Refusals of the model. -/
inductive Refusal where
  /-- An instruction without a meaning yet; raised by `exec` for a row not reached. No arm of this model raises it.
  Safe. -/
  | notModelled (mnemonic : String)
deriving DecidableEq, Repr

/-! ### The whole state -/

/-- The state of the block. -/
structure State where
  /-- The parameters of 00_scope R9; no step writes them. -/
  cfg : Config
  dec : Dec
  enc : Enc
  /-- The DEC_GET in progress, none between requests (model's own field, log 1). -/
  get : Option GetContext
  /-- The requests the host has issued, oldest first (model's own field, log 2). -/
  pending : List Request
  /-- The responses given, oldest first (model's own field, log 2). -/
  responses : List Response
deriving DecidableEq, Repr

/-- The state after power-on (70_reset_and_hazards R450, R451): both engines in their reset state, no request issued,
no response given. The parameter values are the model's choice (log 3, log 4). -/
def State.reset : State :=
  { cfg := Config.largest, dec := Dec.reset, enc := Enc.reset, get := none, pending := [], responses := [] }

end Sys2Proof.Machine
end

