-- ==== Sys2Proof/Machine/CodeModel.lean ====
section
/-!
DEFINITION. The adaptive code model (40_code_model): which escapes are active, which model is the current one, the
statistics and the retrain. Reading and writing code words with it stand in Machine/Coding.lean.
-/

namespace Sys2Proof.Machine

/-- The escape codes that are active in the model's mode, in the order of their patterns 1, 01, 001 (30_encoding
R102). -/
def CodeModel.escapes (m : CodeModel) : List Code :=
  match m.mode with
  | .mode1 => []
  | .mode2 => [m.mode2_1]
  | .mode3 => [m.mode3_1, m.mode3_01]
  | .mode4 => [m.mode4_1, m.mode4_01, m.mode4_001]

/-- CodeLength(M, c) (40_code_model R144). -/
def CodeModel.codeLength (m : CodeModel) (c : Code) : Nat :=
  match m.mode with
  | .mode1 => 6
  | .mode2 => if c = m.mode2_1 then 1 else 7
  | .mode3 => if c = m.mode3_1 then 1 else if c = m.mode3_01 then 2 else 8
  | .mode4 => if c = m.mode4_1 then 1 else if c = m.mode4_01 then 2 else if c = m.mode4_001 then 3 else 9

/-- M.cnt[c]. -/
def CodeModel.count (m : CodeModel) (c : Code) : Nat :=
  m.cnt[c.toFin]

/-- The 64 codes, ascending. -/
def allCodes : List Code :=
  (List.range 64).map (BitVec.ofNat 6)

/-- The first of `codes` when they are sorted by their count, descending, then by code, ascending (40_code_model
R148). `codes` is ascending and not empty. -/
def firstByCount (count : Code → Nat) (codes : List Code) : Code :=
  match codes with
  | [] => 0
  | c :: rest => rest.foldl (fun best d => if count best < count d then d else best) c

/-- The first three of the 64 codes in that order: a1, a2, a3 of 40_code_model R148. -/
def CodeModel.topThree (m : CodeModel) : Code × Code × Code :=
  let a1 := firstByCount m.count allCodes
  let a2 := firstByCount m.count (allCodes.filter (· != a1))
  let a3 := firstByCount m.count ((allCodes.filter (· != a1)).filter (· != a2))
  (a1, a2, a3)

/-- The four candidate sizes of 40_code_model R148 for a total and the three highest counts. -/
def modelSizes (total n1 n2 n3 : Nat) : Nat × Nat × Nat × Nat :=
  (total * 6,
   n1 * 1 + (total - n1) * 7,
   n1 * 1 + n2 * 2 + (total - n1 - n2) * 8,
   n1 * 1 + n2 * 2 + n3 * 3 + (total - n1 - n2 - n3) * 9)

/-- The smallest mode whose size is the least of the four (40_code_model R148). -/
def leastMode : Nat × Nat × Nat × Nat → Mode
  | (size1, size2, size3, size4) =>
    let least := min (min size1 size2) (min size3 size4)
    if size1 = least then .mode1 else if size2 = least then .mode2 else if size3 = least then .mode3 else .mode4

/-- The sum of all counters, `total` of 40_code_model R148. -/
def CodeModel.total (m : CodeModel) : Nat :=
  m.cnt.toList.sum

/-- The mode that Adapt selects (40_code_model R148). -/
def CodeModel.chosenMode (m : CodeModel) : Mode :=
  let (a1, a2, a3) := m.topThree
  leastMode (modelSizes m.total (m.count a1) (m.count a2) (m.count a3))

/-- Adapt(M) (40_code_model R148): selects the mode, writes the escape fields of that mode only (R149), and clears the
statistics. -/
def CodeModel.adapt (m : CodeModel) : CodeModel :=
  let (a1, a2, a3) := m.topThree
  let cleared := { m with cnt := Vector.replicate 64 0, since := 0 }
  match m.chosenMode with
  | .mode1 => { cleared with mode := .mode1 }
  | .mode2 => { cleared with mode := .mode2, mode2_1 := a1 }
  | .mode3 => { cleared with mode := .mode3, mode3_1 := a1, mode3_01 := a2 }
  | .mode4 => { cleared with mode := .mode4, mode4_1 := a1, mode4_01 := a2, mode4_001 := a3 }

/-- The counting half of UpdateStats (40_code_model R145). -/
def CodeModel.countCode (m : CodeModel) (c : Code) : CodeModel :=
  { m with cnt := m.cnt.set c.toFin (m.count c + 1), since := m.since + 1 }

/-- The retrain half of UpdateStats (40_code_model R145). -/
def CodeModel.retrain (m : CodeModel) : CodeModel :=
  if m.epoch = 0 ∧ m.since > 5 then { m with epoch := 1 }.adapt
  else if m.epoch = 1 ∧ m.since > 20 then { m with epoch := 2 }.adapt
  else if m.epoch = 2 ∧ m.since > 100 then m.adapt
  else m

/-- UpdateStats(M, c) (40_code_model R145): count first, then the thresholds. -/
def CodeModel.updateStats (m : CodeModel) (c : Code) : CodeModel :=
  (m.countCode c).retrain

/-! ### The current model of a stream -/

/-- The point at the cursor: S.pts[S.cursor]. None while no point exists. -/
def Stream.target? (st : Stream) : Option Point :=
  st.pts[st.cursor.toNat]?

/-- CurModel() (40_code_model R141): the model of the point at the cursor, and S.boot while no point exists. -/
def Stream.curModel (st : Stream) : CodeModel :=
  match st.target? with
  | some p => p.model
  | none => st.boot

/-- Writes the point at the cursor. -/
def Stream.mapTarget (st : Stream) (f : Point → Point) : Stream :=
  { st with pts := st.pts.modify st.cursor.toNat f }

/-- UpdateStats(CurModel(), c) (40_code_model R141, R145). -/
def Stream.countCode (st : Stream) (c : Code) : Stream :=
  match st.target? with
  | some _ => st.mapTarget fun p => { p with model := p.model.updateStats c }
  | none => { st with boot := st.boot.updateStats c }

/-- The width that the meaning of codes 32 to 43 depends on: that of the point at the cursor (30_encoding R111). While
no point exists the choice is the model's; both readings raise MalformedStream there (log 10). -/
def Stream.targetWidth (st : Stream) : Width :=
  match st.target? with
  | some p => p.type.width
  | none => .w32

end Sys2Proof.Machine
end

