-- ==== Sys2Proof/Machine/Ops.lean ====
section
/-!
DEFINITION. The named operations over the buffers and the engines: memory, the bit reader and the bit writer
(20_memory), responses, taking an error and the reset that alone leaves it (60_exceptions R401, R402, R413;
70_reset_and_hazards R451), and the frame that every meaning stands in.
-/

namespace Sys2Proof.Machine

/-! ### Memory (00_scope R14, 20_memory R60) -/

/-- MemRead(addr, 1): the byte at an index of a buffer, none at or past its length. -/
def memRead (m : List Byte) (addr : Nat) : Option Byte :=
  m[addr]?

/-- MemWrite(addr, 1, v): sets the byte at an index, and appends at the length. -/
def memWrite (m : List Byte) (addr : Nat) (v : Byte) : List Byte :=
  if addr = m.length then m ++ [v] else m.set addr v

/-- The canonical form of a buffer: it is a byte sequence whose indices are u32 (20_memory R60). A list lists every
index below its length once and nothing else, so equal buffers are equal lists (log 6). -/
abbrev Memory.wf (m : List Byte) : Prop :=
  m.length < 2 ^ 32

/-! ### What a decoder primitive answers -/

/-- The answer of a decoder primitive: a value and the decoder after it, or an error raised with the decoder as it
stands at that moment (60_exceptions R401). -/
inductive ReadResult (α : Type) where
  | ok (a : α) (d : Dec)
  | raised (e : ErrorCode) (d : Dec)
deriving DecidableEq, Repr

/-- Program order inside a request (00_scope R13): go on with the value, or stop at the error. -/
def ReadResult.bind {α β : Type} (r : ReadResult α) (f : α → Dec → ReadResult β) : ReadResult β :=
  match r with
  | .ok a d => f a d
  | .raised e d => .raised e d

/-! ### The bit reader (20_memory R61 to R66) -/

/-- ReadBit() (20_memory R61, R62). -/
def Dec.readBit (d : Dec) : ReadResult Bool :=
  if d.rcnt = 0 then
    match memRead d.inBuf d.pos with
    | none => .raised .bufferUnderrun d
    | some b => .ok (b.getLsbD 7) { d with rcache := b, pos := d.pos + 1, rcnt := 7 }
  else
    .ok (d.rcache.getLsbD (d.rcnt - 1)) { d with rcnt := d.rcnt - 1 }

/-- The loop of ReadBits: `n` more bits below the bits `v` read so far (20_memory R63). -/
def Dec.readBitsFrom : Nat → Nat → Dec → ReadResult Nat
  | 0, v, d => .ok v d
  | n + 1, v, d => d.readBit.bind fun b d => Dec.readBitsFrom n (2 * v + b.toNat) d

/-- ReadBits(n) (20_memory R63): `n` calls of ReadBit, the first bit the most significant (R85). -/
def Dec.readBits (n : Nat) (d : Dec) : ReadResult (BitVec n) :=
  (Dec.readBitsFrom n 0 d).bind fun v d => .ok (BitVec.ofNat n v) d

/-- ReadByte() (20_memory R62, R64): the byte at the byte cursor; the bit cache is not touched. -/
def Dec.readByte (d : Dec) : ReadResult Byte :=
  match memRead d.inBuf d.pos with
  | none => .raised .bufferUnderrun d
  | some b => .ok b { d with pos := d.pos + 1 }

/-- DiscardBits() (20_memory R66). -/
def Dec.discardBits (d : Dec) : Dec :=
  { d with rcnt := 0 }

/-! ### The bit writer (20_memory R69 to R73) -/

/-- `v[i] <- b`. -/
def setBit (v : Byte) (i : Nat) (b : Bool) : Byte :=
  (v &&& ~~~ (1#8 <<< i)) ||| (if b then 1#8 <<< i else 0#8)

/-- Reserves the byte of a new bit group at the end of the output (20_memory R69, R70). -/
def Enc.reserveSlot (e : Enc) : Enc :=
  if e.wcnt = 0 then
    { e with wslot := e.out.length, out := memWrite e.out e.out.length 0x00, wcache := 0x00 }
  else e

/-- Stores a full group into its reserved byte (20_memory R69). -/
def Enc.storeFullGroup (e : Enc) : Enc :=
  if e.wcnt = 8 then { e with out := memWrite e.out e.wslot e.wcache, wcnt := 0 } else e

/-- WriteBit(b) (20_memory R69). -/
def Enc.writeBit (b : Bool) (e : Enc) : Enc :=
  let r := e.reserveSlot
  { r with wcache := setBit r.wcache (7 - r.wcnt) b, wcnt := r.wcnt + 1 }.storeFullGroup

/-- WriteBit for each bit of a string, in stream order. -/
def Enc.writeBitString (bits : List Bool) (e : Enc) : Enc :=
  bits.foldl (fun e b => e.writeBit b) e

/-- WriteBits(v, n) (20_memory R71): the most-significant bit first. -/
def Enc.writeBits {n : Nat} (v : BitVec n) (e : Enc) : Enc :=
  e.writeBitString (bitsOf v)

/-- WriteByte(b) (20_memory R72): appends, and leaves the bit cache alone. -/
def Enc.writeByte (b : Byte) (e : Enc) : Enc :=
  { e with out := memWrite e.out e.out.length b }

/-- WriteByte for each byte of a sequence. -/
def Enc.writeBytes (bs : List Byte) (e : Enc) : Enc :=
  bs.foldl (fun e b => e.writeByte b) e

/-- PadBits() (20_memory R73): the bits not written are 0. -/
def Enc.padBits (e : Enc) : Enc :=
  if e.wcnt > 0 then { e with out := memWrite e.out e.wslot e.wcache, wcnt := 0 } else e

/-! ### Numbers of codes and positions -/

/-- The number of an error code (60_exceptions R400). -/
def ErrorCode.number : ErrorCode → BitVec 3
  | .none => 0
  | .malformedStream => 1
  | .unsupportedType => 2
  | .bufferUnderrun => 3
  | .encoderInvariantViolation => 4
  | .capacityExceeded => 5
  | .invalidRequest => 6

/-- The phase position k (47_stream_engine R331). -/
def Phase.number : Phase → BitVec 2
  | .start => 0
  | .afterId => 1
  | .afterTime => 2
  | .afterQuality => 3

/-- `fcode` of a request that has read or written no local code (60_exceptions R409). -/
def noCode : BitVec 7 := 64

/-- `fcode` of a local code. -/
def codeField (c : Code) : BitVec 7 :=
  c.setWidth 7

/-! ### Responses -/

/-- Gives the response of a request (47_stream_engine R340). -/
def State.respond (s : State) (r : Response) : State :=
  { s with responses := s.responses ++ [r] }

/-- Ends the DEC_GET in progress with its response, the decoder as it stands. -/
def State.finishGet (s : State) (d : Dec) (r : Response) : State :=
  { s with dec := d, get := none }.respond r

/-- Refuses a request: no state changes, and the response carries the zero record (60_exceptions R402). -/
def State.refuse (s : State) (code : ErrorCode) : State :=
  s.respond (.error code FaultRecord.zero)

/-! ### Taking an error, and the way back -/

/-- The fault record of the decoder at the moment of an error (60_exceptions R409). -/
def Dec.faultRecord (d : Dec) (code : BitVec 7) (phase : Phase) : FaultRecord :=
  { fpos := BitVec.ofNat 32 d.pos, fbits := BitVec.ofNat 4 d.rcnt, fcode := code, fphase := phase.number }

/-- The fault record of the encoder at the moment of an error (60_exceptions R409). -/
def Enc.faultRecord (e : Enc) (code : BitVec 7) (phase : Phase) : FaultRecord :=
  { fpos := BitVec.ofNat 32 e.out.length, fbits := BitVec.ofNat 4 e.wcnt, fcode := code, fphase := phase.number }

/-- Takes a sticky error in the DEC_GET in progress (60_exceptions R401): captures the fault record from the decoder
`d` of that moment, undoes every other write of the request, sets S.err, and responds. -/
def State.takeDecError (s : State) (g : GetContext) (d : Dec) (code : ErrorCode) : State :=
  let record := d.faultRecord g.code g.phase
  s.finishGet { g.saved with err := code, finfo := record } (.error code record)

/-- Takes a sticky error in an encoder request (60_exceptions R401). The request's writes are all in `e`, so the state
`s` that is kept is the one from before the request. -/
def State.takeEncError (s : State) (e : Enc) (lastCode : BitVec 7) (phase : Phase) (code : ErrorCode) : State :=
  let record := e.faultRecord lastCode phase
  { s with enc := { s.enc with err := code, finfo := record } }.respond (.error code record)

/-- The return from a sticky error is the engine's reset and nothing else (60_exceptions R413): every DEC field at its
value of 70_reset_and_hazards R450, the other engine untouched (R451). -/
def State.resetDec (s : State) : State :=
  { s with dec := Dec.reset }

/-- As `State.resetDec`, for ENC. -/
def State.resetEnc (s : State) : State :=
  { s with enc := Enc.reset }

/-! ### The frame of a meaning -/

/-- The outcome type of a meaning. -/
abbrev StepOutcome := Host.Outcome State Fault Refusal

/-- The frame of a host request: it is accepted only between requests (00_scope R8). -/
def betweenRequests (s : State) (next : State) : StepOutcome :=
  match s.get with
  | none => .next next
  | some _ => .fault .requestDuringGet

/-- A failed decoder answers every request except reset and status with its error, and changes nothing
(47_stream_engine R342). -/
def State.unlessDecFailed (s : State) (next : State) : State :=
  if s.dec.err ≠ .none then s.respond (.error s.dec.err s.dec.finfo) else next

/-- As `State.unlessDecFailed`, for the encoder. -/
def State.unlessEncFailed (s : State) (next : State) : State :=
  if s.enc.err ≠ .none then s.respond (.error s.enc.err s.enc.finfo) else next

/-- The frame of a local code: it runs only inside a DEC_GET (47_stream_engine R330). -/
def duringGet (s : State) (run : GetContext → StepOutcome) : StepOutcome :=
  match s.get with
  | none => .fault .codeOutsideGet
  | some g => run g

/-- Ends a local code: goes on from what it read, or takes the error it raised. -/
def settleRead {α : Type} (s : State) (g : GetContext) (r : ReadResult α) (done : α → Dec → State) : StepOutcome :=
  match r with
  | .ok a d => .next (done a d)
  | .raised code d => .next (s.takeDecError g d code)

/-! ### The phase check (47_stream_engine R331) -/

/-- The codes allowed at a phase position, when `npts` points are registered (47_stream_engine R331). -/
def allowedAt (k : Phase) (npts : Nat) (c : Code) : Bool :=
  let n := c.toNat
  match k with
  | .start => n ≤ 3 || (0 < npts && ((4 ≤ n && n ≤ 22) || (32 ≤ n && n ≤ 43)))
  | .afterId => (11 ≤ n && n ≤ 22) || (32 ≤ n && n ≤ 43)
  | .afterTime => (21 ≤ n && n ≤ 22) || (32 ≤ n && n ≤ 43)
  | .afterQuality => 32 ≤ n && n ≤ 43

/-- The phase check: a code outside the allowed set raises MalformedStream. -/
def checkPhase (k : Phase) (c : Code) (d : Dec) : ReadResult Unit :=
  if allowedAt k d.stream.pts.length c then .ok () d else .raised .malformedStream d

/-- `P <- S.pts[S.cursor]` (47_stream_engine R332). A cursor that names no point, which 41_point_id R181 rules out,
raises that rule's MalformedStream (log 10). -/
def Dec.target (d : Dec) : ReadResult Point :=
  match d.stream.target? with
  | some p => .ok p d
  | none => .raised .malformedStream d

end Sys2Proof.Machine
end

