-- ==== Sys2Proof/Machine/Flags.lean ====
section
/-!
DEFINITION. What the block reports of itself. It has no flags or condition codes (10_state R40); the status record
(10_state R39), the end-of-stream test and the encoder's capacity test take their place.
-/

namespace Sys2Proof.Machine

/-- `at_eos` of DEC, and the end-of-stream test of 47_stream_engine R330, R333. -/
def Dec.atEos (d : Dec) : Bool :=
  decide (d.pos = d.inBuf.length) && decide (d.rcnt = 0)

/-- The status record of DEC (10_state R39). -/
def Dec.status (d : Dec) : Status :=
  { err := d.err.number
    failed := decide (d.err ≠ .none)
    atEos := d.atEos
    pos := BitVec.ofNat 32 d.pos
    len := BitVec.ofNat 32 d.inBuf.length
    bits := BitVec.ofNat 4 d.rcnt
    npts := BitVec.ofNat 33 d.stream.pts.length
    cursor := d.stream.cursor
    finfo := d.finfo }

/-- The status record of ENC (10_state R39). -/
def Enc.status (e : Enc) : Status :=
  { err := e.err.number
    failed := decide (e.err ≠ .none)
    atEos := decide (e.wcnt = 0)
    pos := BitVec.ofNat 32 e.out.length
    len := BitVec.ofNat 32 e.out.length
    bits := BitVec.ofNat 4 e.wcnt
    npts := BitVec.ofNat 33 e.stream.pts.length
    cursor := e.stream.cursor
    finfo := e.finfo }

/-- `len(S.out) + (1 if S.wcnt > 0 else 0)` (47_stream_engine R354). -/
def Enc.footprint (e : Enc) : Nat :=
  e.out.length + (if e.wcnt > 0 then 1 else 0)

/-- The encoder's capacity test on the state a request would produce (47_stream_engine R354). -/
def Enc.fits (p : Config) (e : Enc) : Bool :=
  decide (e.footprint ≤ p.encBufMax)

end Sys2Proof.Machine
end

