-- ==== Sys2Proof/Machine/Operands.lean ====
section
/-!
DEFINITION. Every operand form of the wire: XOR payloads (20_memory R68, R75), varints (R67, R74) and counted byte
sequences (30_encoding R107), read by the decoder and written by the encoder.
-/

namespace Sys2Proof.Machine

/-! ### Reading -/

/-- The byte loop of ReadXor: `nb` more bytes, the next one at bit `k` (20_memory R68). -/
def Dec.readXorBytes {w : Nat} : Nat → Nat → BitVec w → Dec → ReadResult (BitVec w)
  | 0, _, x, d => .ok x d
  | nb + 1, k, x, d => d.readByte.bind fun b d => Dec.readXorBytes nb (k + 8) (x ||| (b.setWidth w <<< k)) d

/-- ReadXor(w) (20_memory R68): a nibble for bits 3 to 0 when `w mod 8 = 4`, then whole bytes, least-significant
first. -/
def Dec.readXor (w : Nat) (d : Dec) : ReadResult (BitVec w) :=
  if w % 8 = 4 then
    (d.readBits 4).bind fun nibble d => Dec.readXorBytes ((w - 4) / 8) 4 (nibble.setWidth w) d
  else
    Dec.readXorBytes (w / 8) 0 0 d

/-- The loop of ReadVarint from group `k` on, with the value `v` so far (20_memory R67). `fuel` bounds the groups; the
caller gives more fuel than bytes are left, so BufferUnderrun at the end of the buffer comes first. -/
def Dec.readVarintFrom : Nat → Nat → Nat → Dec → ReadResult Nat
  | 0, _, _, d => .raised .bufferUnderrun d
  | fuel + 1, k, v, d => d.readByte.bind fun b d =>
    let v := v + (b.setWidth 7).toNat * 2 ^ (7 * k)
    if b.getLsbD 7 then Dec.readVarintFrom fuel (k + 1) v d else .ok v d

/-- ReadVarint(N) (20_memory R67): any number of groups, the result modulo 2^N. -/
def Dec.readVarint (n : Nat) (d : Dec) : ReadResult (BitVec n) :=
  (Dec.readVarintFrom (d.inBuf.length - d.pos + 1) 0 0 d).bind fun v d => .ok (BitVec.ofNat n v) d

/-- The next `n` raw bytes, each by ReadByte (46_control_codes R300, R304). -/
def Dec.readBytes : Nat → Dec → ReadResult (List Byte)
  | 0, d => .ok [] d
  | n + 1, d => d.readByte.bind fun b d => (Dec.readBytes n d).bind fun bs d => .ok (b :: bs) d

/-! ### Writing -/

/-- The bytes of WriteXor's byte loop: `nb` bytes of `x` from bit `k` up (20_memory R75). -/
def xorBytes {w : Nat} (x : BitVec w) : Nat → Nat → List Byte
  | 0, _ => []
  | nb + 1, k => x.extractLsb' k 8 :: xorBytes x nb (k + 8)

/-- WriteXor(w, x) (20_memory R75). -/
def Enc.writeXor {w : Nat} (x : BitVec w) (e : Enc) : Enc :=
  if w % 8 = 4 then
    (e.writeBits (x.extractLsb' 0 4)).writeBytes (xorBytes x ((w - 4) / 8) 4)
  else
    e.writeBytes (xorBytes x (w / 8) 0)

/-- The 7-bit groups of a number, shortest form, least-significant group first (20_memory R74). -/
def varintGroups : Nat → Nat → List Byte
  | 0, _ => []
  | fuel + 1, v =>
    if v / 128 ≠ 0 then BitVec.ofNat 8 (0x80 + v % 128) :: varintGroups fuel (v / 128)
    else [BitVec.ofNat 8 (v % 128)]

/-- The bytes of WriteVarint(v): at most ten, since a u64 takes 1 to 10 bytes (20_memory R74). -/
def varintBytes {n : Nat} (v : BitVec n) : List Byte :=
  varintGroups 10 v.toNat

/-- WriteVarint(v) (20_memory R74). -/
def Enc.writeVarint {n : Nat} (v : BitVec n) (e : Enc) : Enc :=
  e.writeBytes (varintBytes v)

/-! ### Widths -/

/-- The least of the widths that holds `x`, that is `x < 2^w` (41_point_id R182, 44_value32 R265, 45_value64 R283). The
last width of each list holds every value of its field. -/
def leastWidth (widths : List Nat) (x : Nat) : Nat :=
  (widths.find? (fun w => decide (x < 2 ^ w))).getD 0

/-- IDW (41_point_id R180). -/
def idWidths : List Nat := [4, 8, 12, 16, 20, 24, 32]

/-- The widths of the 32-bit value coder (44_value32 R265). -/
def valueWidths32 : List Nat := [4, 8, 12, 16, 20, 24, 28, 32]

/-- The widths of the 64-bit value coder (45_value64 R283). -/
def valueWidths64 : List Nat := [8, 16, 24, 32, 40, 48, 56, 64]

end Sys2Proof.Machine
end

