-- ==== Sys2Proof/Machine/Coding.lean ====
section
/-!
DEFINITION. ReadCode and WriteCode (40_code_model R142, R143), the run of an encoder request, and the frame that the
meanings of all local codes share.
-/

namespace Sys2Proof.Machine

/-! ### The decoder's side -/

/-- The code word under the active escapes, bit by bit (40_code_model R142, 30_encoding R104): a 1 ends it at the
matching escape, and after a 0 for every escape ReadBits(6) gives the code. -/
def Dec.readCodeWord : List Code → Dec → ReadResult Code
  | [], d => d.readBits 6
  | e :: es, d => d.readBit.bind fun b d => if b then .ok e d else Dec.readCodeWord es d

/-- ReadCode(CurModel()) (40_code_model R141, R142): the code, then its statistics in the same model. When the bits run
out the model is not updated. -/
def Dec.readCode (d : Dec) : ReadResult Code :=
  (Dec.readCodeWord d.stream.curModel.escapes d).bind fun c d => .ok c { d with stream := d.stream.countCode c }

/-- The record goes on at phase position `k`. -/
def State.continueAt (s : State) (g : GetContext) (k : Phase) (d : Dec) : State :=
  { s with dec := d, get := some { g with phase := k } }

/-- The head of DEC_GET's loop (47_stream_engine R330, R333): EndOfStream when the buffer and the cache are empty, and
otherwise a code is read next at position 0. -/
def State.loopHead (s : State) (g : GetContext) (d : Dec) : State :=
  if d.atEos then s.finishGet d .endOfStream else s.continueAt g .start d

/-- A local code after it was read: the phase check (47_stream_engine R331), then what its rule reads and does, then
`done`; an error raised on the way is taken (60_exceptions R401). -/
def runCode {α : Type} (c : Code) (s : State) (body : Dec → ReadResult α) (done : GetContext → α → Dec → State) :
    StepOutcome :=
  duringGet s fun g => settleRead s g ((checkPhase g.phase c s.dec).bind fun _ d => body d) (done g)

/-! ### The encoder's side -/

/-- An encoder request as it runs: the engine so far, and what a fault record would hold of the request (60_exceptions
R409): the last code written and the phase position. -/
structure EncRun where
  enc : Enc
  code : BitVec 7
  phase : Phase
deriving DecidableEq, Repr

/-- A request that has written nothing yet. -/
def EncRun.start (e : Enc) : EncRun :=
  { enc := e, code := noCode, phase := .start }

/-- WriteCode(CurModel(), c) (40_code_model R141, R143): the code word, then the statistics in the same model. -/
def Enc.writeCode (c : Code) (e : Enc) : Enc :=
  { e.writeBitString (codeWord e.stream.curModel.escapes c) with stream := e.stream.countCode c }

/-- WriteCode inside a request. -/
def EncRun.writeCode (c : Code) (r : EncRun) : EncRun :=
  { r with enc := r.enc.writeCode c, code := codeField c }

/-- A payload write inside a request. -/
def EncRun.payload (r : EncRun) (write : Enc → Enc) : EncRun :=
  { r with enc := write r.enc }

/-- A change of the stream state inside a request. -/
def EncRun.mapStream (r : EncRun) (f : Stream → Stream) : EncRun :=
  { r with enc := { r.enc with stream := f r.enc.stream } }

/-- The phase position moves on. -/
def EncRun.at (r : EncRun) (k : Phase) : EncRun :=
  { r with phase := k }

/-- Ends an encoder request: the capacity check on the state it would produce (47_stream_engine R354), then its
response. -/
def State.finishEnc (s : State) (e : Enc) (r : Response) : State :=
  if e.fits s.cfg then { s with enc := e }.respond r else s.refuse .capacityExceeded

end Sys2Proof.Machine
end

