-- ==== Sys2Proof/Machine/DecRequests.lean ====
section
/-!
DEFINITION. The host requests of the decoder (47_stream_engine R330, R350, R352; 70_reset_and_hazards R451) and the
reserved opcodes (47_stream_engine R353).
-/

namespace Sys2Proof.Machine

/-- DEC_RESET, opcode 0x0 (70_reset_and_hazards R451). -/
def execDecReset (s : State) : StepOutcome :=
  betweenRequests s (s.resetDec.respond .ok)

/-- The write of DEC_LOAD (47_stream_engine R350): the buffer and the read cursor; the stream state is kept. -/
def Dec.load (bytes : List Byte) (d : Dec) : Dec :=
  { d with inBuf := bytes, pos := 0, rcnt := 0, rcache := 0x00 }

/-- DEC_LOAD, opcode 0x1 (47_stream_engine R350). -/
def execDecLoad (bytes : List Byte) (s : State) : StepOutcome :=
  betweenRequests s (s.unlessDecFailed
    (if bytes.length > s.cfg.decBufMax then s.refuse .capacityExceeded
     else { s with dec := s.dec.load bytes }.respond .ok))

/-- The context of a DEC_GET that has read no code yet. -/
def GetContext.start (d : Dec) : GetContext :=
  { saved := d, code := noCode, phase := .start }

/-- DEC_GET, opcode 0x2 (47_stream_engine R330): the check for a failed engine and the head of the loop. Its codes are
the steps that follow, up to the one that gives the response (log 1). -/
def execDecGet (s : State) : StepOutcome :=
  betweenRequests s (s.unlessDecFailed (s.loopHead (GetContext.start s.dec) s.dec))

/-- DEC_STATUS, opcode 0x3 (47_stream_engine R352). -/
def execDecStatus (s : State) : StepOutcome :=
  betweenRequests s (s.respond (.status s.dec.status))

/-- The reserved opcodes 0x4 to 0x7 (47_stream_engine R353): refused in every state of either engine, whatever the
opcode's low bits. -/
def execReservedHost4to7 (_low : BitVec 2) (s : State) : StepOutcome :=
  betweenRequests s (s.refuse .invalidRequest)

end Sys2Proof.Machine
end

