-- ==== Sys2Proof/Machine/Control.lean ====
section
/-!
DEFINITION. The control codes (46_control_codes): NewPointId, UserCommand, UserCommandWithData and FlushBits, the
decoder's meanings and the encoder's side of each.
-/

namespace Sys2Proof.Machine

/-! ### Registration -/

/-- The history of a new point (10_state R33). -/
def History.zero {n : Nat} : History n :=
  { v1 := 0, v2 := 0, v3 := 0 }

/-- The values of a new point of a type (10_state R32, R33). -/
def PointValues.create : TypeTag → PointValues
  | .narrow t => .narrow t History.zero
  | .wide t => .wide t History.zero

/-- A new point record (46_control_codes R300, 10_state R32 to R34, R37). -/
def Point.create (id : Word32) (tag : TypeTag) (metadata : List Byte) : Point :=
  { id := id, values := PointValues.create tag, q1 := 0, q2 := 0, metadata := metadata,
    model := CodeModel.initial }

/-- The ID of the next point to be registered: len(S.pts). -/
def Stream.nextId (st : Stream) : Word32 :=
  BitVec.ofNat 32 st.pts.length

/-- Appends a new point and moves the cursor to it (46_control_codes R300). -/
def Stream.register (tag : TypeTag) (metadata : List Byte) (st : Stream) : Stream :=
  { st with pts := st.pts ++ [Point.create st.nextId tag metadata], cursor := st.nextId }

/-- The type byte's tag, or UnsupportedType (46_control_codes R300). -/
def Dec.typeOfByte (p : Config) (b : Byte) (d : Dec) : ReadResult TypeTag :=
  match p.typeCodes.tagOf b with
  | some tag => .ok tag d
  | none => .raised .unsupportedType d

/-- CapacityExceeded when a limit is reached (46_control_codes R300, R301). -/
def Dec.within (ok : Bool) (d : Dec) : ReadResult Unit :=
  if ok then .ok () d else .raised .capacityExceeded d

/-- DecodeNewPoint() (46_control_codes R300) up to the response: the checks stand where the rule puts them between the
reads. -/
def Dec.decodeNewPoint (p : Config) (d : Dec) : ReadResult (Word32 × TypeTag × List Byte) :=
  d.readByte.bind fun tb d =>
  (d.typeOfByte p tb).bind fun tag d =>
  (d.within (d.stream.pts.length != p.maxPoints)).bind fun _ d =>
  (d.readVarint 32).bind fun len d =>
  (d.within (decide (len.toNat ≤ p.maxMetaBytes))).bind fun _ d =>
  (d.readBytes len.toNat).bind fun metadata d =>
  .ok (d.stream.nextId, tag, metadata) { d with stream := d.stream.register tag metadata }

/-- NewPointId, code 0 (46_control_codes R300). -/
def execNewPointId (s : State) : StepOutcome :=
  runCode 0 s (Dec.decodeNewPoint s.cfg) fun _ r d => s.finishGet d (.newPointRegistered r.1 r.2.1 r.2.2)

/-! ### User commands -/

/-- UserCommand, code 1 (46_control_codes R302). -/
def execUserCommand (s : State) : StepOutcome :=
  runCode 1 s (Dec.readVarint 32) fun _ cmd d => s.finishGet d (.userData cmd)

/-- The operands of UserCommandWithData (46_control_codes R304): command, length, payload. -/
def Dec.readCommandWithData (d : Dec) : ReadResult (Word32 × List Byte) :=
  (d.readVarint 32).bind fun cmd d =>
  (d.readVarint 32).bind fun len d =>
  (d.readBytes len.toNat).bind fun payload d => .ok (cmd, payload) d

/-- UserCommandWithData, code 2 (46_control_codes R304). -/
def execUserCommandWithData (s : State) : StepOutcome :=
  runCode 2 s Dec.readCommandWithData fun _ r d => s.finishGet d (.userDataWithValue r.1 r.2)

/-! ### FlushBits -/

/-- FlushBits, code 3 (46_control_codes R303): drops the cached bits and goes back to the head of the loop. -/
def execFlushBits (s : State) : StepOutcome :=
  runCode 3 s (fun d => .ok () d.discardBits) fun g _ d => s.loopHead g d

/-! ### The encoder's side -/

/-- EncodeNewPoint(tag, meta) (46_control_codes R300). -/
def encodeNewPoint (p : Config) (tag : TypeTag) (metadata : List Byte) (r : EncRun) : EncRun :=
  (((r.writeCode 0).payload (Enc.writeByte (p.typeCodes.byteOf tag))).payload
    (Enc.writeVarint (BitVec.ofNat 32 metadata.length))).payload (Enc.writeBytes metadata)
    |>.mapStream (Stream.register tag metadata)

/-- The encode of UserCommand (46_control_codes R302). -/
def encodeUserCommand (command : Word32) (r : EncRun) : EncRun :=
  (r.writeCode 1).payload (Enc.writeVarint command)

/-- The encode of UserCommandWithData (46_control_codes R304). -/
def encodeUserCommandWithData (command : Word32) (payload : List Byte) (r : EncRun) : EncRun :=
  (((r.writeCode 2).payload (Enc.writeVarint command)).payload
    (Enc.writeVarint (BitVec.ofNat 32 payload.length))).payload (Enc.writeBytes payload)

/-- EncodeFlush() (46_control_codes R308). -/
def encodeFlush (r : EncRun) : EncRun :=
  (r.writeCode 3).payload Enc.padBits

end Sys2Proof.Machine
end

