-- ==== Sys2Proof/Machine/PointId.lean ====
section
/-!
DEFINITION. Point-ID delta coding, codes 4 to 10 (41_point_id).
-/

namespace Sys2Proof.Machine

/-- CheckCursor() (41_point_id R181). -/
def Dec.checkCursor (d : Dec) : ReadResult Unit :=
  if d.stream.pts.length ≤ d.stream.cursor.toNat then .raised .malformedStream d else .ok () d

/-- `S.cursor <- S.cursor XOR zext_32(x)` (41_point_id R180). -/
def Stream.moveCursor (x : Word32) (st : Stream) : Stream :=
  { st with cursor := st.cursor ^^^ x }

/-- DecodeId with width `w` (41_point_id R180). -/
def Dec.decodeId (w : Nat) (d : Dec) : ReadResult Unit :=
  (d.readXor w).bind fun x d => { d with stream := d.stream.moveCursor (x.setWidth 32) }.checkCursor

/-- The ID code `c` of width `w`: the record goes on at position 1. -/
def runIdCode (c : Code) (w : Nat) (s : State) : StepOutcome :=
  runCode c s (Dec.decodeId w) fun g _ d => s.continueAt g .afterId d

/-- PointIDXOR4, code 4 (41_point_id R184). -/
def execPointIDXOR4 (s : State) : StepOutcome := runIdCode 4 4 s

/-- PointIDXOR8, code 5 (41_point_id R185). -/
def execPointIDXOR8 (s : State) : StepOutcome := runIdCode 5 8 s

/-- PointIDXOR12, code 6 (41_point_id R186). -/
def execPointIDXOR12 (s : State) : StepOutcome := runIdCode 6 12 s

/-- PointIDXOR16, code 7 (41_point_id R187). -/
def execPointIDXOR16 (s : State) : StepOutcome := runIdCode 7 16 s

/-- PointIDXOR20, code 8 (41_point_id R188). -/
def execPointIDXOR20 (s : State) : StepOutcome := runIdCode 8 20 s

/-- PointIDXOR24, code 9 (41_point_id R189). -/
def execPointIDXOR24 (s : State) : StepOutcome := runIdCode 9 24 s

/-- PointIDXOR32, code 10 (41_point_id R190). -/
def execPointIDXOR32 (s : State) : StepOutcome := runIdCode 10 32 s

/-! ### The encoder's side -/

/-- EncodeId(id) (41_point_id R182). -/
def encodeId (id : Word32) (r : EncRun) : EncRun :=
  if id = r.enc.stream.cursor then r
  else
    let x := id ^^^ r.enc.stream.cursor
    let w := leastWidth idWidths x.toNat
    (((r.writeCode (BitVec.ofNat 6 (4 + idWidths.idxOf w))).payload (Enc.writeXor (x.setWidth w))).mapStream
      fun st => { st with cursor := id }).at .afterId

end Sys2Proof.Machine
end

