-- ==== Sys2Proof/Machine/Quality.lean ====
section
/-!
DEFINITION. Quality coding, codes 21 and 22 (43_quality).
-/

namespace Sys2Proof.Machine

/-- UpdateQuality(P, q) (43_quality R230). -/
def Point.updateQuality (q : Word32) (p : Point) : Point :=
  { p with q2 := p.q1, q1 := q }

/-- UpdateQuality on the target point. -/
def Stream.updateQuality (q : Word32) (st : Stream) : Stream :=
  st.mapTarget (Point.updateQuality q)

/-- The quality code `c` whose rule computes the quality of the target point by `newQuality` (43_quality R230): the
record goes on at position 3. -/
def runQualityCode (c : Code) (newQuality : Point → Dec → ReadResult Word32) (s : State) : StepOutcome :=
  runCode c s (fun d => d.target.bind newQuality) fun g q d =>
    s.continueAt g .afterQuality { d with stream := d.stream.updateQuality q }

/-- Quality2, code 21 (43_quality R231). -/
def execQuality2 (s : State) : StepOutcome := runQualityCode 21 (fun p d => .ok p.q2 d) s

/-- Quality7Bit32, code 22 (43_quality R232). -/
def execQuality7Bit32 (s : State) : StepOutcome := runQualityCode 22 (fun _ d => d.readVarint 32) s

/-! ### The encoder's side -/

/-- EncodeQuality(P, q) for the point `p` (43_quality R234). -/
def encodeQuality (p : Point) (q : Word32) (r : EncRun) : EncRun :=
  if q = p.q1 then r
  else
    let r := if q = p.q2 then r.writeCode 21 else (r.writeCode 22).payload (Enc.writeVarint q)
    (r.mapStream (Stream.updateQuality q)).at .afterQuality

end Sys2Proof.Machine
end

