-- ==== Sys2Proof/Machine/Time.lean ====
section
/-!
DEFINITION. Timestamp delta coding, codes 11 to 20 (42_timestamp). Timestamps and deltas are i64 patterns; `+` and `-`
on them are wrap64 addition and subtraction (42_timestamp R214), and comparisons read them as integers.
-/

namespace Sys2Proof.Machine

/-- `|S.t1 - ts|`, the exact integer (42_timestamp R211). -/
def timeDelta (t1 ts : Word64) : Nat :=
  (t1.toInt - ts.toInt).natAbs

/-- The cache insertion of UpdateTime (42_timestamp R211): a delta below the fourth entry and not present already goes
to its sorted place, and the largest leaves. -/
def Stream.insertDelta (d : Nat) (st : Stream) : Stream :=
  let n : Int := d
  let v : Word64 := BitVec.ofNat 64 d
  if n < st.dt4.toInt ∧ n ≠ st.dt1.toInt ∧ n ≠ st.dt2.toInt ∧ n ≠ st.dt3.toInt then
    if n < st.dt1.toInt then { st with dt1 := v, dt2 := st.dt1, dt3 := st.dt2, dt4 := st.dt3 }
    else if n < st.dt2.toInt then { st with dt2 := v, dt3 := st.dt2, dt4 := st.dt3 }
    else if n < st.dt3.toInt then { st with dt3 := v, dt4 := st.dt3 }
    else { st with dt4 := v }
  else st

/-- UpdateTime(ts) (42_timestamp R211). -/
def Stream.updateTime (ts : Word64) (st : Stream) : Stream :=
  let st' := if st.tvalid then st.insertDelta (timeDelta st.t1 ts) else st
  { st' with t2 := st.t1, t1 := ts, tvalid := true }

/-- The time code `c` whose rule computes the timestamp by `newTime` (42_timestamp R200): the record goes on at
position 2. -/
def runTimeCode (c : Code) (newTime : Dec → ReadResult Word64) (s : State) : StepOutcome :=
  runCode c s newTime fun g ts d => s.continueAt g .afterTime { d with stream := d.stream.updateTime ts }

/-- A timestamp computed from the stream state alone. -/
def timeFrom (f : Stream → Word64) (d : Dec) : ReadResult Word64 :=
  .ok (f d.stream) d

/-- TimeDelta1Forward, code 11 (42_timestamp R201). -/
def execTimeDelta1Forward (s : State) : StepOutcome := runTimeCode 11 (timeFrom fun st => st.t1 + st.dt1) s

/-- TimeDelta2Forward, code 12 (42_timestamp R202). -/
def execTimeDelta2Forward (s : State) : StepOutcome := runTimeCode 12 (timeFrom fun st => st.t1 + st.dt2) s

/-- TimeDelta3Forward, code 13 (42_timestamp R203). -/
def execTimeDelta3Forward (s : State) : StepOutcome := runTimeCode 13 (timeFrom fun st => st.t1 + st.dt3) s

/-- TimeDelta4Forward, code 14 (42_timestamp R204). -/
def execTimeDelta4Forward (s : State) : StepOutcome := runTimeCode 14 (timeFrom fun st => st.t1 + st.dt4) s

/-- TimeDelta1Reverse, code 15 (42_timestamp R205). -/
def execTimeDelta1Reverse (s : State) : StepOutcome := runTimeCode 15 (timeFrom fun st => st.t1 - st.dt1) s

/-- TimeDelta2Reverse, code 16 (42_timestamp R206). -/
def execTimeDelta2Reverse (s : State) : StepOutcome := runTimeCode 16 (timeFrom fun st => st.t1 - st.dt2) s

/-- TimeDelta3Reverse, code 17 (42_timestamp R207). -/
def execTimeDelta3Reverse (s : State) : StepOutcome := runTimeCode 17 (timeFrom fun st => st.t1 - st.dt3) s

/-- TimeDelta4Reverse, code 18 (42_timestamp R208). -/
def execTimeDelta4Reverse (s : State) : StepOutcome := runTimeCode 18 (timeFrom fun st => st.t1 - st.dt4) s

/-- Timestamp2, code 19 (42_timestamp R209). -/
def execTimestamp2 (s : State) : StepOutcome := runTimeCode 19 (timeFrom fun st => st.t2) s

/-- The timestamp of TimeXOR7Bit (42_timestamp R210). -/
def Dec.timeXor (d : Dec) : ReadResult Word64 :=
  (d.readVarint 64).bind fun r d => .ok (d.stream.t1 ^^^ r) d

/-- TimeXOR7Bit, code 20 (42_timestamp R210). -/
def execTimeXOR7Bit (s : State) : StepOutcome := runTimeCode 20 Dec.timeXor s

/-! ### The encoder's side -/

/-- A delta slot applies to a timestamp (42_timestamp R213): it is not "infinite" and its sum or difference gives
`ts`. -/
def slotApplies (slot moved ts : Word64) : Bool :=
  slot != i64Max && moved == ts

/-- The time code the encoder chooses, the first that applies (42_timestamp R213). -/
def chooseTimeCode (st : Stream) (ts : Word64) : Code :=
  if slotApplies st.dt1 (st.t1 + st.dt1) ts then 11
  else if slotApplies st.dt2 (st.t1 + st.dt2) ts then 12
  else if slotApplies st.dt3 (st.t1 + st.dt3) ts then 13
  else if slotApplies st.dt4 (st.t1 + st.dt4) ts then 14
  else if slotApplies st.dt1 (st.t1 - st.dt1) ts then 15
  else if slotApplies st.dt2 (st.t1 - st.dt2) ts then 16
  else if slotApplies st.dt3 (st.t1 - st.dt3) ts then 17
  else if slotApplies st.dt4 (st.t1 - st.dt4) ts then 18
  else if ts = st.t2 then 19
  else 20

/-- EncodeTime(ts) (42_timestamp R213). -/
def encodeTime (ts : Word64) (r : EncRun) : EncRun :=
  let st := r.enc.stream
  if ts = st.t1 then r
  else
    let c := chooseTimeCode st ts
    let r := r.writeCode c
    let r := if c = 20 then r.payload (Enc.writeVarint (ts ^^^ st.t1)) else r
    (r.mapStream (Stream.updateTime ts)).at .afterTime

end Sys2Proof.Machine
end

