-- ==== Sys2Proof/Machine/ValueCoder.lean ====
section
/-!
DEFINITION. What the 32-bit and the 64-bit value coder share (44_value32 R250, R264, R265; 45_value64 R280, R283): the
history operations, the encoder's choice and the end of a measurement record.
-/

namespace Sys2Proof.Machine

/-! ### The history (44_value32 R264) -/

/-- Push(P, v): the new value enters, the oldest leaves. -/
def History.push {n : Nat} (v : BitVec n) (h : History n) : History n :=
  { v1 := v, v2 := h.v1, v3 := h.v2 }

/-- Hit2(P). -/
def History.hit2 {n : Nat} (h : History n) : History n :=
  { v1 := h.v2, v2 := h.v1, v3 := h.v3 }

/-- Hit3(P). -/
def History.hit3 {n : Nat} (h : History n) : History n :=
  { v1 := h.v3, v2 := h.v1, v3 := h.v2 }

/-! ### What a value code decodes to -/

/-- A value code's rule: from the history of the target point, the raw value and the history after it. -/
abbrev ValueRule (n : Nat) := History n → Dec → ReadResult (BitVec n × History n)

/-- Value1 (44_value32 R252, 45_value64 R284): the history is unchanged. -/
def ValueRule.value1 {n : Nat} : ValueRule n :=
  fun h d => .ok (h.v1, h) d

/-- Value2 (44_value32 R253, 45_value64 R285). -/
def ValueRule.value2 {n : Nat} : ValueRule n :=
  fun h d => .ok (h.v2, h.hit2) d

/-- Value3 (44_value32 R254, 45_value64 R286). -/
def ValueRule.value3 {n : Nat} : ValueRule n :=
  fun h d => .ok (h.v3, h.hit3) d

/-- ValueZero (44_value32 R255, 45_value64 R287). -/
def ValueRule.valueZero {n : Nat} : ValueRule n :=
  fun h d => .ok (0, h.push 0) d

/-- ValueXORw (44_value32 R256 to R263, 45_value64 R288 to R295). -/
def ValueRule.valueXor {n : Nat} (w : Nat) : ValueRule n :=
  fun h d => (d.readXor w).bind fun x d =>
    let v := h.v1 ^^^ x.setWidth n
    .ok (v, h.push v) d

/-- Sets the history of the target point. -/
def Stream.setValues (vs : PointValues) (st : Stream) : Stream :=
  st.mapTarget fun p => { p with values := vs }

/-- The end of a measurement record (47_stream_engine R332): the history of the point is written and the record is the
response. The timestamp is S.t1: the time phase has left the record's timestamp there, and a record without one has
that timestamp (42_timestamp R211, R212). The quality is P.q1 for the same reason (43_quality R230, R233). -/
def State.finishMeasurement (s : State) (p : Point) (vs : PointValues) (v : Value) (d : Dec) : State :=
  s.finishGet { d with stream := d.stream.setValues vs } (.measurementRead p.id d.stream.t1 p.q1 v)

/-- The value code `c` of the 32-bit coder (44_value32 R250). -/
def runValue32 (c : Code) (rule : ValueRule 32) (s : State) : StepOutcome :=
  duringGet s fun g =>
    match (checkPhase g.phase c s.dec).bind fun _ d => d.target with
    | .raised code d => .next (s.takeDecError g d code)
    | .ok p d =>
      match p.values with
      | .narrow tag h => settleRead s g (rule h d) fun r d =>
          s.finishMeasurement p (.narrow tag r.2) (.narrow tag r.1) d
      | .wide _ _ => .fault .widthMismatch

/-- The value code `c` of the 64-bit coder (45_value64 R280). -/
def runValue64 (c : Code) (rule : ValueRule 64) (s : State) : StepOutcome :=
  duringGet s fun g =>
    match (checkPhase g.phase c s.dec).bind fun _ d => d.target with
    | .raised code d => .next (s.takeDecError g d code)
    | .ok p d =>
      match p.values with
      | .wide tag h => settleRead s g (rule h d) fun r d =>
          s.finishMeasurement p (.wide tag r.2) (.wide tag r.1) d
      | .narrow _ _ => .fault .widthMismatch

/-! ### The encoder's side -/

/-- What the value encoder chooses for a raw value. -/
inductive ValueChoice (n : Nat) where
  | value1
  | valueZero
  | value2
  | value3
  | xor (w : Nat) (x : BitVec n)
  /-- `bits_changed = 0` at the XOR branch: EncoderInvariantViolation (44_value32 R266). -/
  | violation
deriving DecidableEq, Repr

/-- The choice of 44_value32 R265 and 45_value64 R283, in their order. -/
def chooseValue {n : Nat} (widths : List Nat) (h : History n) (v : BitVec n) : ValueChoice n :=
  if v = h.v1 then .value1
  else if v = 0 then .valueZero
  else if v = h.v2 then .value2
  else if v = h.v3 then .value3
  else
    let x := v ^^^ h.v1
    if x = 0 then .violation else .xor (leastWidth widths x.toNat) x

/-- The outcome of the value phase of the encoder. -/
inductive ValueEncoded where
  | done (r : EncRun)
  /-- EncoderInvariantViolation was raised in the run `r` (44_value32 R266). -/
  | violated (r : EncRun)
deriving DecidableEq, Repr

/-- Writes code `c` and leaves the history of the target point as decoding `c` leaves it. -/
def EncRun.valueCode (r : EncRun) (c : Code) (vs : PointValues) : EncRun :=
  (r.writeCode c).mapStream (Stream.setValues vs)

/-- EncodeValue32 and EncodeValue64 (44_value32 R265, 45_value64 R283): `unit` is 4 or 8, the step of the code in its
width, `wrap` puts a history back into the point. -/
def encodeValue {n : Nat} (widths : List Nat) (unit : Nat) (wrap : History n → PointValues) (h : History n)
    (v : BitVec n) (r : EncRun) : ValueEncoded :=
  match chooseValue widths h v with
  | .value1 => .done (r.valueCode 32 (wrap h))
  | .valueZero => .done (r.valueCode 35 (wrap (h.push 0)))
  | .value2 => .done (r.valueCode 33 (wrap h.hit2))
  | .value3 => .done (r.valueCode 34 (wrap h.hit3))
  | .xor w x =>
    .done (((r.writeCode (BitVec.ofNat 6 (35 + w / unit))).payload (Enc.writeXor (x.setWidth w))).mapStream
      (Stream.setValues (wrap (h.push v))))
  | .violation => .violated r

end Sys2Proof.Machine
end

