-- ==== Sys2Proof/Machine/Value32.lean ====
section
/-!
DEFINITION. The 32-bit value coder, codes 32 to 43 of a width-32 point (44_value32).
-/

namespace Sys2Proof.Machine

/-- Value1, code 32 of a width-32 point (44_value32 R252). -/
def execValue1W32 (s : State) : StepOutcome := runValue32 32 ValueRule.value1 s

/-- Value2, code 33 of a width-32 point (44_value32 R253). -/
def execValue2W32 (s : State) : StepOutcome := runValue32 33 ValueRule.value2 s

/-- Value3, code 34 of a width-32 point (44_value32 R254). -/
def execValue3W32 (s : State) : StepOutcome := runValue32 34 ValueRule.value3 s

/-- ValueZero, code 35 of a width-32 point (44_value32 R255). -/
def execValueZeroW32 (s : State) : StepOutcome := runValue32 35 ValueRule.valueZero s

/-- ValueXOR4, code 36 of a width-32 point (44_value32 R256). -/
def execValueXOR4W32 (s : State) : StepOutcome := runValue32 36 (ValueRule.valueXor 4) s

/-- ValueXOR8, code 37 of a width-32 point (44_value32 R257). -/
def execValueXOR8W32 (s : State) : StepOutcome := runValue32 37 (ValueRule.valueXor 8) s

/-- ValueXOR12, code 38 of a width-32 point (44_value32 R258). -/
def execValueXOR12W32 (s : State) : StepOutcome := runValue32 38 (ValueRule.valueXor 12) s

/-- ValueXOR16, code 39 of a width-32 point (44_value32 R259). -/
def execValueXOR16W32 (s : State) : StepOutcome := runValue32 39 (ValueRule.valueXor 16) s

/-- ValueXOR20, code 40 of a width-32 point (44_value32 R260). -/
def execValueXOR20W32 (s : State) : StepOutcome := runValue32 40 (ValueRule.valueXor 20) s

/-- ValueXOR24, code 41 of a width-32 point (44_value32 R261). -/
def execValueXOR24W32 (s : State) : StepOutcome := runValue32 41 (ValueRule.valueXor 24) s

/-- ValueXOR28, code 42 of a width-32 point (44_value32 R262). -/
def execValueXOR28W32 (s : State) : StepOutcome := runValue32 42 (ValueRule.valueXor 28) s

/-- ValueXOR32, code 43 of a width-32 point (44_value32 R263). -/
def execValueXOR32W32 (s : State) : StepOutcome := runValue32 43 (ValueRule.valueXor 32) s

/-! ### The encoder's side -/

/-- EncodeValue32(P, v) for a point of tag `tag` and history `h` (44_value32 R265). -/
def encodeValue32 (tag : Tag32) (h : History 32) (v : Word32) (r : EncRun) : ValueEncoded :=
  encodeValue valueWidths32 4 (.narrow tag) h v r

end Sys2Proof.Machine
end

