-- ==== Sys2Proof/Machine/Value64.lean ====
section
/-!
DEFINITION. The 64-bit value coder, codes 32 to 43 of a width-64 point (45_value64). The decoder decodes every one of
them (45_value64 R282).
-/

namespace Sys2Proof.Machine

/-- Value1, code 32 of a width-64 point (45_value64 R284). -/
def execValue1W64 (s : State) : StepOutcome := runValue64 32 ValueRule.value1 s

/-- Value2, code 33 of a width-64 point (45_value64 R285). -/
def execValue2W64 (s : State) : StepOutcome := runValue64 33 ValueRule.value2 s

/-- Value3, code 34 of a width-64 point (45_value64 R286). -/
def execValue3W64 (s : State) : StepOutcome := runValue64 34 ValueRule.value3 s

/-- ValueZero, code 35 of a width-64 point (45_value64 R287). -/
def execValueZeroW64 (s : State) : StepOutcome := runValue64 35 ValueRule.valueZero s

/-- ValueXOR8, code 36 of a width-64 point (45_value64 R288). -/
def execValueXOR8W64 (s : State) : StepOutcome := runValue64 36 (ValueRule.valueXor 8) s

/-- ValueXOR16, code 37 of a width-64 point (45_value64 R289). -/
def execValueXOR16W64 (s : State) : StepOutcome := runValue64 37 (ValueRule.valueXor 16) s

/-- ValueXOR24, code 38 of a width-64 point (45_value64 R290). -/
def execValueXOR24W64 (s : State) : StepOutcome := runValue64 38 (ValueRule.valueXor 24) s

/-- ValueXOR32, code 39 of a width-64 point (45_value64 R291). -/
def execValueXOR32W64 (s : State) : StepOutcome := runValue64 39 (ValueRule.valueXor 32) s

/-- ValueXOR40, code 40 of a width-64 point (45_value64 R292). -/
def execValueXOR40W64 (s : State) : StepOutcome := runValue64 40 (ValueRule.valueXor 40) s

/-- ValueXOR48, code 41 of a width-64 point (45_value64 R293). -/
def execValueXOR48W64 (s : State) : StepOutcome := runValue64 41 (ValueRule.valueXor 48) s

/-- ValueXOR56, code 42 of a width-64 point (45_value64 R294). -/
def execValueXOR56W64 (s : State) : StepOutcome := runValue64 42 (ValueRule.valueXor 56) s

/-- ValueXOR64, code 43 of a width-64 point (45_value64 R295). -/
def execValueXOR64W64 (s : State) : StepOutcome := runValue64 43 (ValueRule.valueXor 64) s

/-! ### The encoder's side -/

/-- EncodeValue64(P, v) for a point of tag `tag` and history `h` (45_value64 R283). -/
def encodeValue64 (tag : Tag64) (h : History 64) (v : Word64) (r : EncRun) : ValueEncoded :=
  encodeValue valueWidths64 8 (.wide tag) h v r

end Sys2Proof.Machine
end

