-- ==== Sys2Proof/Machine/EncRequests.lean ====
section
/-!
DEFINITION. The host requests of the encoder (47_stream_engine R352 to R361; 70_reset_and_hazards R451). Each runs in
one step: it either gives the engine it produced, or is refused and leaves the engine as it was.
-/

namespace Sys2Proof.Machine

/-- ENC_RESET, opcode 0x8 (70_reset_and_hazards R451). -/
def execEncReset (s : State) : StepOutcome :=
  betweenRequests s (s.resetEnc.respond .ok)

/-- The body of ENC_REGISTER on a live engine (47_stream_engine R355). -/
def State.encRegister (s : State) (typeByte : Byte) (metadata : List Byte) : State :=
  match s.cfg.typeCodes.tagOf typeByte with
  | none => s.refuse .unsupportedType
  | some tag =>
    if s.enc.stream.pts.length = s.cfg.maxPoints then s.refuse .capacityExceeded
    else if metadata.length > s.cfg.maxMetaBytes then s.refuse .capacityExceeded
    else s.finishEnc (encodeNewPoint s.cfg tag metadata (EncRun.start s.enc)).enc (.okId s.enc.stream.nextId)

/-- ENC_REGISTER, opcode 0x9 (47_stream_engine R355). -/
def execEncRegister (typeByte : Byte) (metadata : List Byte) (s : State) : StepOutcome :=
  betweenRequests s (s.unlessEncFailed (s.encRegister typeByte metadata))

/-- The phases of ENC_WRITE before the value (47_stream_engine R356): ID, time, quality of the point `p`. -/
def encodePhases (id : Word32) (timestamp : Word64) (quality : Word32) (p : Point) (r : EncRun) : EncRun :=
  encodeQuality p quality (encodeTime timestamp (encodeId id r))

/-- Ends ENC_WRITE after its value phase: the capacity check, or the sticky error (44_value32 R266). -/
def State.finishWrite (s : State) (v : ValueEncoded) : State :=
  match v with
  | .done r => s.finishEnc r.enc .ok
  | .violated r => s.takeEncError r.enc r.code r.phase .encoderInvariantViolation

/-- The body of ENC_WRITE on a live engine (47_stream_engine R356): an unregistered ID and a tag other than the point's
are refused; the value history `h` is not touched by the phases before it. -/
def State.encWrite (s : State) (id : Word32) (timestamp : Word64) (quality : Word32) (value : Value) : State :=
  match s.enc.stream.pts[id.toNat]? with
  | none => s.refuse .invalidRequest
  | some p =>
    let r := encodePhases id timestamp quality p (EncRun.start s.enc)
    match p.values, value with
    | .narrow t h, .narrow t' v =>
      if t' = t then s.finishWrite (encodeValue32 t h v r) else s.refuse .invalidRequest
    | .wide t h, .wide t' v =>
      if t' = t then s.finishWrite (encodeValue64 t h v r) else s.refuse .invalidRequest
    | .narrow _ _, .wide _ _ => s.refuse .invalidRequest
    | .wide _ _, .narrow _ _ => s.refuse .invalidRequest

/-- ENC_WRITE, opcode 0xA (47_stream_engine R356). -/
def execEncWrite (id : Word32) (timestamp : Word64) (quality : Word32) (value : Value) (s : State) : StepOutcome :=
  betweenRequests s (s.unlessEncFailed (s.encWrite id timestamp quality value))

/-- ENC_USER, opcode 0xB (47_stream_engine R357). -/
def execEncUser (command : Word32) (s : State) : StepOutcome :=
  betweenRequests s (s.unlessEncFailed (s.finishEnc (encodeUserCommand command (EncRun.start s.enc)).enc .ok))

/-- ENC_USER_DATA, opcode 0xC (47_stream_engine R358). -/
def execEncUserData (command : Word32) (payload : List Byte) (s : State) : StepOutcome :=
  betweenRequests s (s.unlessEncFailed
    (s.finishEnc (encodeUserCommandWithData command payload (EncRun.start s.enc)).enc .ok))

/-- ENC_FLUSH, opcode 0xD (47_stream_engine R359): runs even when no bits are pending. -/
def execEncFlush (s : State) : StepOutcome :=
  betweenRequests s (s.unlessEncFailed (s.finishEnc (encodeFlush (EncRun.start s.enc)).enc .ok))

/-- The encoder with no bits pending, as ENC_TAKE makes it (47_stream_engine R361). -/
def Enc.flushed (e : Enc) : Enc :=
  if e.wcnt > 0 then (encodeFlush (EncRun.start e)).enc else e

/-- The body of ENC_TAKE on a live engine (47_stream_engine R361); it has no capacity check (R354). -/
def State.encTake (s : State) : State :=
  let e := s.enc.flushed
  { s with enc := { e with out := [], wslot := 0 } }.respond (.bytes e.out)

/-- ENC_TAKE, opcode 0xE (47_stream_engine R361). -/
def execEncTake (s : State) : StepOutcome :=
  betweenRequests s (s.unlessEncFailed s.encTake)

/-- ENC_STATUS, opcode 0xF (47_stream_engine R352). -/
def execEncStatus (s : State) : StepOutcome :=
  betweenRequests s (s.respond (.status s.enc.status))

end Sys2Proof.Machine
end

