-- ==== Sys2Proof/Machine/Reserved.lean ====
section
/-!
DEFINITION. The reserved local codes 23 to 31 and 44 to 63 (30_encoding R112): in every phase and for every point they
raise MalformedStream, which is sticky (60_exceptions R405).
-/

namespace Sys2Proof.Machine

/-- A reserved code: the phase check never allows it (47_stream_engine R331), so MalformedStream is taken. -/
def runReservedCode (c : Code) (s : State) : StepOutcome :=
  runCode c s (fun d => .raised .malformedStream d) fun g (_ : Unit) d => s.continueAt g g.phase d

/-- Code 23 (30_encoding R112). -/
def execReserved23 (s : State) : StepOutcome := runReservedCode 23 s

/-- Codes 24 to 31 (30_encoding R112). -/
def execReserved24to31 (low : BitVec 3) (s : State) : StepOutcome := runReservedCode (0b011#3 ++ low) s

/-- Codes 44 to 47 (30_encoding R112). -/
def execReserved44to47 (low : BitVec 2) (s : State) : StepOutcome := runReservedCode (0b1011#4 ++ low) s

/-- Codes 48 to 63 (30_encoding R112). -/
def execReserved48to63 (low : BitVec 4) (s : State) : StepOutcome := runReservedCode (0b11#2 ++ low) s

end Sys2Proof.Machine
end

