-- ==== Sys2Proof/Machine/Dispatch.lean ====
section
/-!
DEFINITION. `exec`: one arm for each row of the opcode table, one direct call of the row's meaning.
-/

namespace Sys2Proof.Machine

/-- The meaning of an instruction in a state. -/
def exec (i : Instr) (s : State) : Host.Outcome State Fault Refusal :=
  match i with
  | .newPointId => Sys2Proof.Machine.execNewPointId s
  | .userCommand => Sys2Proof.Machine.execUserCommand s
  | .userCommandWithData => Sys2Proof.Machine.execUserCommandWithData s
  | .flushBits => Sys2Proof.Machine.execFlushBits s
  | .pointIDXOR4 => Sys2Proof.Machine.execPointIDXOR4 s
  | .pointIDXOR8 => Sys2Proof.Machine.execPointIDXOR8 s
  | .pointIDXOR12 => Sys2Proof.Machine.execPointIDXOR12 s
  | .pointIDXOR16 => Sys2Proof.Machine.execPointIDXOR16 s
  | .pointIDXOR20 => Sys2Proof.Machine.execPointIDXOR20 s
  | .pointIDXOR24 => Sys2Proof.Machine.execPointIDXOR24 s
  | .pointIDXOR32 => Sys2Proof.Machine.execPointIDXOR32 s
  | .timeDelta1Forward => Sys2Proof.Machine.execTimeDelta1Forward s
  | .timeDelta2Forward => Sys2Proof.Machine.execTimeDelta2Forward s
  | .timeDelta3Forward => Sys2Proof.Machine.execTimeDelta3Forward s
  | .timeDelta4Forward => Sys2Proof.Machine.execTimeDelta4Forward s
  | .timeDelta1Reverse => Sys2Proof.Machine.execTimeDelta1Reverse s
  | .timeDelta2Reverse => Sys2Proof.Machine.execTimeDelta2Reverse s
  | .timeDelta3Reverse => Sys2Proof.Machine.execTimeDelta3Reverse s
  | .timeDelta4Reverse => Sys2Proof.Machine.execTimeDelta4Reverse s
  | .timestamp2 => Sys2Proof.Machine.execTimestamp2 s
  | .timeXOR7Bit => Sys2Proof.Machine.execTimeXOR7Bit s
  | .quality2 => Sys2Proof.Machine.execQuality2 s
  | .quality7Bit32 => Sys2Proof.Machine.execQuality7Bit32 s
  | .reserved23 => Sys2Proof.Machine.execReserved23 s
  | .reserved24to31 low => Sys2Proof.Machine.execReserved24to31 low s
  | .value1W32 => Sys2Proof.Machine.execValue1W32 s
  | .value2W32 => Sys2Proof.Machine.execValue2W32 s
  | .value3W32 => Sys2Proof.Machine.execValue3W32 s
  | .valueZeroW32 => Sys2Proof.Machine.execValueZeroW32 s
  | .valueXOR4W32 => Sys2Proof.Machine.execValueXOR4W32 s
  | .valueXOR8W32 => Sys2Proof.Machine.execValueXOR8W32 s
  | .valueXOR12W32 => Sys2Proof.Machine.execValueXOR12W32 s
  | .valueXOR16W32 => Sys2Proof.Machine.execValueXOR16W32 s
  | .valueXOR20W32 => Sys2Proof.Machine.execValueXOR20W32 s
  | .valueXOR24W32 => Sys2Proof.Machine.execValueXOR24W32 s
  | .valueXOR28W32 => Sys2Proof.Machine.execValueXOR28W32 s
  | .valueXOR32W32 => Sys2Proof.Machine.execValueXOR32W32 s
  | .value1W64 => Sys2Proof.Machine.execValue1W64 s
  | .value2W64 => Sys2Proof.Machine.execValue2W64 s
  | .value3W64 => Sys2Proof.Machine.execValue3W64 s
  | .valueZeroW64 => Sys2Proof.Machine.execValueZeroW64 s
  | .valueXOR8W64 => Sys2Proof.Machine.execValueXOR8W64 s
  | .valueXOR16W64 => Sys2Proof.Machine.execValueXOR16W64 s
  | .valueXOR24W64 => Sys2Proof.Machine.execValueXOR24W64 s
  | .valueXOR32W64 => Sys2Proof.Machine.execValueXOR32W64 s
  | .valueXOR40W64 => Sys2Proof.Machine.execValueXOR40W64 s
  | .valueXOR48W64 => Sys2Proof.Machine.execValueXOR48W64 s
  | .valueXOR56W64 => Sys2Proof.Machine.execValueXOR56W64 s
  | .valueXOR64W64 => Sys2Proof.Machine.execValueXOR64W64 s
  | .reserved44to47 low => Sys2Proof.Machine.execReserved44to47 low s
  | .reserved48to63 low => Sys2Proof.Machine.execReserved48to63 low s
  | .decReset => Sys2Proof.Machine.execDecReset s
  | .decLoad bytes => Sys2Proof.Machine.execDecLoad bytes s
  | .decGet => Sys2Proof.Machine.execDecGet s
  | .decStatus => Sys2Proof.Machine.execDecStatus s
  | .reservedHost4to7 low => Sys2Proof.Machine.execReservedHost4to7 low s
  | .encReset => Sys2Proof.Machine.execEncReset s
  | .encRegister typeByte metadata => Sys2Proof.Machine.execEncRegister typeByte metadata s
  | .encWrite id timestamp quality value => Sys2Proof.Machine.execEncWrite id timestamp quality value s
  | .encUser command => Sys2Proof.Machine.execEncUser command s
  | .encUserData command payload => Sys2Proof.Machine.execEncUserData command payload s
  | .encFlush => Sys2Proof.Machine.execEncFlush s
  | .encTake => Sys2Proof.Machine.execEncTake s
  | .encStatus => Sys2Proof.Machine.execEncStatus s

end Sys2Proof.Machine
end

