-- ==== Sys2Proof/Machine/Fetch.lean ====
section
/-!
DEFINITION. Where the next instruction comes from. Inside a DEC_GET it is the local code at the read cursor (10_state
R21, 40_code_model R141, R142); between requests it is the oldest request the host has issued (20_memory R80).
-/

namespace Sys2Proof.Machine

/-- A DEC_GET's next instruction, read with the current model, and the decoder after the read. The width that picks
the row of codes 32 to 43 is that of the point at the cursor (30_encoding R111). -/
def Dec.fetch (d : Dec) : ReadResult (Code × Instr) :=
  d.readCode.bind fun c d => .ok (c, decodeCode d.stream.targetWidth c) d

/-- The state in which the fetched code runs: the read cursor and the model have moved on, and the code is the last one
read (60_exceptions R409). -/
def State.fetched (s : State) (g : GetContext) (c : Code) (d : Dec) : State :=
  { s with dec := d, get := some { g with code := codeField c } }

/-- The state in which the oldest request runs. -/
def State.accepted (s : State) (rest : List Request) : State :=
  { s with pending := rest }

/-- The decoder with `bytes` at its read cursor, as DEC_LOAD leaves it. -/
def Dec.placed (d : Dec) (bytes : List Byte) : Dec :=
  { d with inBuf := bytes, pos := 0, rcnt := 0, rcache := 0x00 }

/-- A local code of the opcode table, placed where the next step fetches: DEC_LOAD and DEC_GET have been served, and
the buffer holds the code word of the current model and zeros behind it. -/
def State.withCodeWord (s : State) (w : Nat) : State :=
  let d := s.dec.placed (tableBytes s.dec.stream.curModel.escapes w)
  { s with dec := d, get := some { saved := d, code := noCode, phase := .start } }

/-- A host opcode of the opcode table, placed where the next step fetches: it is the oldest request waiting. -/
def State.withRequestWord (s : State) (w : Nat) : State :=
  { s with get := none, pending := tableRequest w :: s.pending }

end Sys2Proof.Machine
end

