-- ==== Sys2Proof/Machine/Step.lean ====
section
/-!
DEFINITION. One step of the block: one instruction is fetched and run. Inside a DEC_GET that is the next local code,
between requests the oldest request issued. With nothing to do the block rests (60_exceptions R421, log 8).
-/

namespace Sys2Proof.Machine

/-- One step. -/
def step (s : State) : Host.Outcome State Fault Refusal :=
  match s.get with
  | some g =>
    match s.dec.fetch with
    | .ok (c, i) d => exec i (s.fetched g c d)
    | .raised code d => .next (s.takeDecError g d code)
  | none =>
    match s.pending with
    | [] => .next s
    | r :: rest => exec (decodeRequest r) (s.accepted rest)

/-- The state `s` with the table word `w` of `nbits` bits placed where `step` fetches its next instruction: a host
opcode for at most 4 bits, a local code otherwise (log 8, log 9). -/
def State.withFetchWord (s : State) (nbits w : Nat) : State :=
  if nbits ≤ 4 then s.withRequestWord w else s.withCodeWord w

end Sys2Proof.Machine
end

