-- ==== Sys2Proof/Safety.lean ====
section
/-!
DEFINITION. The terms claims are stated in: runs of steps, the invariants of the spec (10_state R27, R35, R38;
40_code_model R147), what a read may change, and when a decoder stands where an encoder stands (47_stream_engine R363).
-/

namespace Sys2Proof.Machine

/-! ### Runs -/

/-- `n` steps lead from one state to another, none of them a stop. -/
def StepsTo : Nat → State → State → Prop
  | 0, s, t => t = s
  | n + 1, s, t => ∃ u, step s = .next u ∧ StepsTo n u t

/-- A bound on the bits that a DEC_GET can still read (70_reset_and_hazards R471). -/
def Dec.bitsLeft (d : Dec) : Nat :=
  8 * (d.inBuf.length - d.pos) + d.rcnt

/-- Between two requests (00_scope R8). -/
abbrev State.idle (s : State) : Prop :=
  s.get = none

/-! ### Invariants -/

/-- What holds of a code model between codes: the active escapes are distinct (10_state R38), the counters add up to
`since`, which is at most 100 (40_code_model R147), and the epoch is 0 to 2 (10_state R36). -/
structure CodeModel.Wf (m : CodeModel) : Prop where
  escapes_distinct : m.escapes.Nodup
  total_eq_since : m.total = m.since
  since_le : m.since ≤ 100
  epoch_le : m.epoch ≤ 2

/-- Every model of the stream is well formed. -/
def Stream.ModelsWf (st : Stream) : Prop :=
  st.boot.Wf ∧ ∀ p ∈ st.pts, p.model.Wf

/-- The delta-cache invariant (10_state R27): not negative, ascending, and equal neighbours only at i64::MAX. -/
structure Stream.DeltaCacheWf (st : Stream) : Prop where
  nonneg : 0 ≤ st.dt1.toInt
  le12 : st.dt1.toInt ≤ st.dt2.toInt
  le23 : st.dt2.toInt ≤ st.dt3.toInt
  le34 : st.dt3.toInt ≤ st.dt4.toInt
  distinct12 : st.dt1 = st.dt2 → st.dt1 = i64Max
  distinct23 : st.dt2 = st.dt3 → st.dt2 = i64Max
  distinct34 : st.dt3 = st.dt4 → st.dt3 = i64Max

/-- The point-table invariant (10_state R22, R35): at most MAX_POINTS points, each at the index that is its ID, and a
cursor that names one of them, or is 0 when there is none. -/
structure Stream.TableWf (p : Config) (st : Stream) : Prop where
  capacity : st.pts.length ≤ p.maxPoints
  ids : ∀ i q, st.pts[i]? = some q → q.id = BitVec.ofNat 32 i
  cursor_lt : st.pts ≠ [] → st.cursor.toNat < st.pts.length
  cursor_zero : st.pts = [] → st.cursor = 0

/-- The ranges of the decoder's read state (10_state R24, 00_scope R9). -/
structure Dec.BufferWf (p : Config) (d : Dec) : Prop where
  len_le : d.inBuf.length ≤ p.decBufMax
  pos_le : d.pos ≤ d.inBuf.length
  rcnt_le : d.rcnt ≤ 8

/-- The ranges of the encoder's write state (10_state R25, 47_stream_engine R354): the reserved byte is in the output
while bits are pending, and the output keeps a byte in hand. -/
structure Enc.BufferWf (p : Config) (e : Enc) : Prop where
  wcnt_le : e.wcnt ≤ 7
  slot_lt : 0 < e.wcnt → e.wslot < e.out.length
  footprint_le : e.footprint ≤ p.encBufMax

/-- The bits of the pending group that are not written yet are 0 (20_memory R73: "bits not written are 0"). -/
def Enc.PadsWithZeros (e : Enc) : Prop :=
  0 < e.wcnt → ∀ j, j < 8 - e.wcnt → e.wcache.getLsbD j = false

/-- The stream states that a machine state holds: those of the engines, and that of the decoder a DEC_GET in progress
would go back to. -/
def State.streams (s : State) : List Stream :=
  s.dec.stream :: s.enc.stream :: (match s.get with | none => [] | some g => [g.saved.stream])

/-- The decoders that a machine state holds. -/
def State.decoders (s : State) : List Dec :=
  s.dec :: (match s.get with | none => [] | some g => [g.saved])

/-- Every code model the block holds is well formed. -/
def State.ModelsInv (s : State) : Prop :=
  ∀ st ∈ s.streams, st.ModelsWf

/-- Every delta cache the block holds is well formed. -/
def State.DeltaCachesInv (s : State) : Prop :=
  ∀ st ∈ s.streams, st.DeltaCacheWf

/-- The parameters lie in their ranges and every point table the block holds is well formed. -/
def State.TablesInv (s : State) : Prop :=
  s.cfg.InRange ∧ ∀ st ∈ s.streams, st.TableWf s.cfg

/-- Every read and write state the block holds is in range. -/
def State.BuffersInv (s : State) : Prop :=
  (∀ d ∈ s.decoders, d.BufferWf s.cfg) ∧ s.enc.BufferWf s.cfg

/-! ### What a read may change -/

/-- The decoder `d` with the read cursor and the bit cache of `d'`, and everything else as in `d`. -/
def Dec.movedTo (d d' : Dec) : Dec :=
  { d with pos := d'.pos, rcache := d'.rcache, rcnt := d'.rcnt }

/-- The bits the decoder has not read yet: those of the cache, then those of the bytes at and past the cursor, as a bit
read meets them (20_memory R61). -/
def Dec.unreadBits (d : Dec) : List Bool :=
  (bitsOf d.rcache).drop (8 - d.rcnt) ++ unpackBytes (d.inBuf.drop d.pos)

/-! ### A decoder where an encoder stands -/

/-- The byte sequence `f` may become the encoder's output: it has every byte written so far, except that of the
reserved byte only the bits written so far are fixed (20_memory R69, R70). -/
def Enc.Extends (e : Enc) (f : List Byte) : Prop :=
  e.out.length ≤ f.length ∧
  (∀ i, i < e.out.length → (e.wcnt = 0 ∨ i ≠ e.wslot) → f[i]? = e.out[i]?) ∧
  (0 < e.wcnt → ∃ b, f[e.wslot]? = some b ∧ ∀ j, j < e.wcnt → b.getLsbD (7 - j) = e.wcache.getLsbD (7 - j))

/-- A decoder that has `pre ++ f` loaded stands where the encoder stands, `pre` being the bytes of earlier takes: its
byte cursor is at the encoder's output length, and its cache holds the bits of the reserved byte that the encoder has not
written yet (47_stream_engine R363). -/
def Dec.At (d : Dec) (e : Enc) (pre f : List Byte) : Prop :=
  d.inBuf = pre ++ f ∧ d.pos = pre.length + e.out.length ∧
  (e.wcnt = 0 → d.rcnt = 0) ∧
  (0 < e.wcnt → d.rcnt = 8 - e.wcnt ∧ f[e.wslot]? = some d.rcache)

/-- The decoder is in step with the encoder on the output `pre ++ f`: it stands where the encoder stands and holds the
same stream state (47_stream_engine R363). -/
def Dec.InStep (d : Dec) (e : Enc) (pre f : List Byte) : Prop :=
  d.At e pre f ∧ d.stream = e.stream

/-! ### What the encoder chooses -/

/-- Time code `c` may code the timestamp `ts` (42_timestamp R213). -/
def Stream.timeCodeApplies (st : Stream) (ts : Word64) (c : Code) : Prop :=
  match c.toNat with
  | 11 => st.dt1 ≠ i64Max ∧ st.t1 + st.dt1 = ts
  | 12 => st.dt2 ≠ i64Max ∧ st.t1 + st.dt2 = ts
  | 13 => st.dt3 ≠ i64Max ∧ st.t1 + st.dt3 = ts
  | 14 => st.dt4 ≠ i64Max ∧ st.t1 + st.dt4 = ts
  | 15 => st.dt1 ≠ i64Max ∧ st.t1 - st.dt1 = ts
  | 16 => st.dt2 ≠ i64Max ∧ st.t1 - st.dt2 = ts
  | 17 => st.dt3 ≠ i64Max ∧ st.t1 - st.dt3 = ts
  | 18 => st.dt4 ≠ i64Max ∧ st.t1 - st.dt4 = ts
  | 19 => ts = st.t2
  | 20 => True
  | _ => False

/-- Code `a` stands before code `b` when the codes are sorted by count, descending, then by code, ascending
(40_code_model R148). -/
abbrev CodeModel.Before (m : CodeModel) (a b : Code) : Prop :=
  m.count b < m.count a ∨ (m.count b = m.count a ∧ a < b)

/-- The history after the encoder wrote the raw value `v` (44_value32 R264, R265; 45_value64 R283): unchanged for the
latest value, a hit for an older one, and a push for zero and for a new value. -/
def History.afterWrite {n : Nat} (v : BitVec n) (h : History n) : History n :=
  if v = h.v1 then h
  else if v = 0 then { v1 := 0, v2 := h.v1, v3 := h.v2 }
  else if v = h.v2 then { v1 := h.v2, v2 := h.v1, v3 := h.v3 }
  else if v = h.v3 then { v1 := h.v3, v2 := h.v1, v3 := h.v2 }
  else { v1 := v, v2 := h.v1, v3 := h.v2 }

/-- The values of a point after a value of its type was written. -/
def PointValues.afterWrite : PointValues → Value → PointValues
  | .narrow t h, .narrow _ v => .narrow t (h.afterWrite v)
  | .wide t h, .wide _ v => .wide t (h.afterWrite v)
  | .narrow t h, .wide _ _ => .narrow t h
  | .wide t h, .narrow _ _ => .wide t h

/-! ### What the encoder writes for a measurement -/

/-- WriteCode(CurModel(), c), then the payload, then the change of the stream state that decoding the code makes
(47_stream_engine R356). -/
def Enc.sends (c : Code) (payload : Enc → Enc) (change : Stream → Stream) (e : Enc) : Enc :=
  let e' := payload (e.writeCode c)
  { e' with stream := change e'.stream }

/-- Of the codes with an XOR payload, `c` is the one of the least width `w` that holds `x`. -/
def LeastWidth (codes : List (Code × Nat)) (x : Nat) (c : Code) (w : Nat) : Prop :=
  (c, w) ∈ codes ∧ x < 2 ^ w ∧ ∀ c' w', (c', w') ∈ codes → x < 2 ^ w' → w ≤ w'

/-- The ID codes with their widths (30_encoding R101, 41_point_id R184 to R190). -/
def idCodes : List (Code × Nat) :=
  [(4, 4), (5, 8), (6, 12), (7, 16), (8, 20), (9, 24), (10, 32)]

/-- The XOR codes of a width-32 point (44_value32 R256 to R263). -/
def valueCodes32 : List (Code × Nat) :=
  [(36, 4), (37, 8), (38, 12), (39, 16), (40, 20), (41, 24), (42, 28), (43, 32)]

/-- The XOR codes of a width-64 point (45_value64 R288 to R295). -/
def valueCodes64 : List (Code × Nat) :=
  [(36, 8), (37, 16), (38, 24), (39, 32), (40, 40), (41, 48), (42, 56), (43, 64)]

/-- The ID phase of a record leads from the encoder `e` to `e'` (41_point_id R182). -/
def Enc.SendsId (id : Word32) (e e' : Enc) : Prop :=
  if id = e.stream.cursor then e' = e
  else
    let x := id ^^^ e.stream.cursor
    ∃ c w, LeastWidth idCodes x.toNat c w ∧
      e' = e.sends c (Enc.writeXor (x.setWidth w)) fun st => { st with cursor := id }

/-- The time phase (42_timestamp R213): the lowest code that applies. -/
def Enc.SendsTime (ts : Word64) (e e' : Enc) : Prop :=
  if ts = e.stream.t1 then e' = e
  else
    ∃ c, e.stream.timeCodeApplies ts c ∧ (∀ c', e.stream.timeCodeApplies ts c' → c ≤ c') ∧
      e' = e.sends c (if c = 20 then Enc.writeVarint (ts ^^^ e.stream.t1) else fun e => e) (Stream.updateTime ts)

/-- The quality phase for the target point `p` (43_quality R234). -/
def Enc.SendsQuality (p : Point) (q : Word32) (e e' : Enc) : Prop :=
  let update : Stream → Stream := fun st => st.mapTarget fun p => { p with q1 := q, q2 := p.q1 }
  if q = p.q1 then e' = e
  else if q = p.q2 then e' = e.sends 21 (fun e => e) update
  else e' = e.sends 22 (Enc.writeVarint q) update

/-- The value phase for a target point with history `h`, whose XOR codes are `codes` (44_value32 R265, 45_value64
R283). -/
def Enc.SendsValue {n : Nat} (codes : List (Code × Nat)) (wrap : History n → PointValues) (h : History n)
    (v : BitVec n) (e e' : Enc) : Prop :=
  let update : Stream → Stream := fun st => st.mapTarget fun p => { p with values := wrap (h.afterWrite v) }
  if v = h.v1 then e' = e.sends 32 (fun e => e) update
  else if v = 0 then e' = e.sends 35 (fun e => e) update
  else if v = h.v2 then e' = e.sends 33 (fun e => e) update
  else if v = h.v3 then e' = e.sends 34 (fun e => e) update
  else
    let x := v ^^^ h.v1
    ∃ c w, LeastWidth codes x.toNat c w ∧ e' = e.sends c (Enc.writeXor (x.setWidth w)) update

/-- The value phase for the target point `p` (47_stream_engine R356): the coder is that of the point's width. -/
def Enc.SendsValueOf (p : Point) (value : Value) (e e' : Enc) : Prop :=
  match p.values, value with
  | .narrow tag h, .narrow _ v => e.SendsValue valueCodes32 (.narrow tag) h v e'
  | .wide tag h, .wide _ v => e.SendsValue valueCodes64 (.wide tag) h v e'
  | .narrow _ _, .wide _ _ => False
  | .wide _ _, .narrow _ _ => False

/-! ### What the decoder is to answer -/

/-- The request was not answered with an error. -/
def Response.succeeds : Response → Bool
  | .error _ _ => false
  | .ok | .okId _ | .bytes _ | .status _ | .newPointRegistered _ _ _ | .userData _ | .userDataWithValue _ _
  | .measurementRead _ _ _ _ | .endOfStream => true

/-- The bytes that an ENC_TAKE handed out. -/
def Response.taken : Response → List Byte
  | .bytes b => b
  | .ok | .okId _ | .status _ | .newPointRegistered _ _ _ | .userData _ | .userDataWithValue _ _
  | .measurementRead _ _ _ _ | .endOfStream | .error _ _ => []

/-- What the decoder answers to the codes of the encoder request `r`, which the encoder answered with `answer`
(47_stream_engine R362). -/
def decodedAnswers (p : Config) (r : Request) (answer : Response) : List Response :=
  match r.opcode.toNat with
  | 0x9 =>
    match answer, p.typeCodes.tagOf r.typeByte with
    | .okId id, some tag => [.newPointRegistered id tag r.bytes]
    | _, _ => []
  | 0xA => [.measurementRead r.id r.timestamp r.quality r.value]
  | 0xB => [.userData r.command]
  | 0xC => [.userDataWithValue r.command r.bytes]
  | _ => []

end Sys2Proof.Machine
end

