-- ==== Sys2Proof/Certificates/Slice0/Obligations.lean ====
section
/-!
DEFINITION. The statements for the provers. A statement of what an instruction does gives its whole next state as an
equation, so it says what is left unchanged as well as what is written. `s.dec.movedTo d'` is the decoder of `s` with
the read cursor and the bit cache of `d'` and nothing else changed.
-/

open Sys2Proof Sys2Proof.Machine

/-! ### Encoding -/

/-- A few words of the opcode table, written out bit by bit from 30_encoding R101, R102, R111 and R114. That the word of
ENC_WRITE alone stands for operands of zeros is the model's choice, notes/assumptions/9.md. -/
def Obligations.WrittenOutWordsDecode : Prop :=
  decodeTableWord 4 0b0010 = some .decGet ∧
  decodeTableWord 4 0b0110 = some (.reservedHost4to7 0b10) ∧
  decodeTableWord 4 0b1010 = some (.encWrite 0 0 0 (.narrow .int32 0)) ∧
  decodeTableWord 6 0b000000 = some .newPointId ∧
  decodeTableWord 6 0b000100 = some .pointIDXOR4 ∧
  decodeTableWord 6 0b010100 = some .timeXOR7Bit ∧
  decodeTableWord 6 0b010101 = some .quality2 ∧
  decodeTableWord 6 0b101110 = some (.reserved44to47 0b10) ∧
  decodeCode .w32 0b101011#6 = .valueXOR32W32 ∧
  decodeCode .w64 0b101011#6 = .valueXOR64W64 ∧
  parseCodeWord [20, 32] [false, true] = .ok (32, []) ∧
  parseCodeWord [20, 32] [false, false, true, false, true, false, true, true] = .ok (43, [])

/-- Decode and encode agree: the code word of a local code, under any active escapes and before any further bits,
decodes to its instruction, and a host request decodes to its instruction; and every one of the 64 codes is the code of
the instruction it decodes to (30_encoding R101, R111, R112, R114). -/
def Obligations.CodeWordDecodesToItsInstruction : Prop :=
  (∀ (w : Width) (i : Instr), i.wellFormed w = true →
    match encode i with
    | .localCode c => ∀ (es : List Code) (rest : List Bool),
        ∃ c', parseCodeWord es (codeWord es c ++ rest) = .ok (c', rest) ∧ decodeCode w c' = i
    | .request r => decodeRequest r = i) ∧
  ∀ (w : Width) (c : Code), encode (decodeCode w c) = .localCode c ∧ (decodeCode w c).fitsWidth w = true

/-- The bit-by-bit reader of a code word takes what the parse of the unread bits takes, and raises BufferUnderrun
exactly when the bits run out in the word (30_encoding R104, 40_code_model R142). -/
def Obligations.CodeWordReaderMatchesTheParse : Prop :=
  ∀ (es : List Code) (d : Dec), d.rcnt ≤ 8 →
    match parseCodeWord es d.unreadBits with
    | .ok (c, rest) =>
        ∃ d', Dec.readCodeWord es d = .ok c d' ∧ d' = d.movedTo d' ∧ d'.unreadBits = rest
    | .error _ => ∃ d', Dec.readCodeWord es d = .raised .bufferUnderrun d' ∧ d' = d.movedTo d'

/-- CodeLength (40_code_model R144): how many bits the code word has that WriteCode writes, and how many ReadCode takes
from it. -/
def Obligations.CodeWordLengthByMode : Prop :=
  ∀ (m : CodeModel) (c : Code),
    m.codeLength c =
      (match m.mode with
       | .mode1 => 6
       | .mode2 => if c = m.mode2_1 then 1 else 7
       | .mode3 => if c = m.mode3_1 then 1 else if c = m.mode3_01 then 2 else 8
       | .mode4 => if c = m.mode4_1 then 1 else if c = m.mode4_01 then 2 else if c = m.mode4_001 then 3 else 9) ∧
    (codeWord m.escapes c).length = m.codeLength c ∧
    (∀ e : Enc, e.stream.curModel = m →
      e.writeCode c = { e.writeBitString (codeWord m.escapes c) with stream := e.stream.countCode c }) ∧
    ∀ (d : Dec) (rest : List Bool), d.rcnt ≤ 8 → d.unreadBits = codeWord m.escapes c ++ rest →
      ∃ d', Dec.readCodeWord m.escapes d = .ok c d' ∧ d'.unreadBits = rest

/-- The fall-through form of any code is accepted and yields the code, and the encoder never writes it for an escaped
code (30_encoding R105). -/
def Obligations.FallThroughFormIsAccepted : Prop :=
  ∀ (m : CodeModel) (c : Code),
    (∀ (d : Dec) (rest : List Bool), d.rcnt ≤ 8 →
      d.unreadBits = List.replicate m.escapes.length false ++ bitsOf c ++ rest →
      ∃ d', Dec.readCodeWord m.escapes d = .ok c d' ∧ d'.unreadBits = rest) ∧
    (c ∈ m.escapes → ∃ word, word ≠ List.replicate m.escapes.length false ++ bitsOf c ∧
      ∀ e : Enc, e.stream.curModel = m →
        e.writeCode c = { e.writeBitString word with stream := e.stream.countCode c })

/-! ### Bits, bytes and payloads -/

/-- ReadBits(n) is n calls of ReadBit: it takes the next n bits, the first as the most significant, and raises
BufferUnderrun when fewer are left (20_memory R61, R62, R63). -/
def Obligations.ReadBitsTakesTheNextBits : Prop :=
  ∀ (n : Nat) (d : Dec), d.rcnt ≤ 8 →
    (n ≤ d.unreadBits.length →
      ∃ (v : BitVec n) (d' : Dec), d.readBits n = .ok v d' ∧ d' = d.movedTo d' ∧
        d'.unreadBits = d.unreadBits.drop n ∧ ∀ i, i < n → d.unreadBits[i]? = some (v.getMsbD i)) ∧
    (d.unreadBits.length < n → ∃ d', d.readBits n = .raised .bufferUnderrun d')

/-- ReadByte() (20_memory R62, R64) takes the byte at the byte cursor and leaves the bit cache alone, and raises
BufferUnderrun at the end of the buffer. The next n raw bytes of a metadata or payload field (46_control_codes R300,
R304) are n such reads: the bytes in buffer order, or BufferUnderrun at the end of the buffer when fewer are left. -/
def Obligations.RawBytesAreTakenInOrder : Prop :=
  ∀ d : Dec,
    d.readByte =
      (match d.inBuf[d.pos]? with
       | some b => .ok b { d with pos := d.pos + 1 }
       | none => .raised .bufferUnderrun d) ∧
    ∀ n : Nat, d.pos ≤ d.inBuf.length →
      Dec.readBytes n d =
        if d.pos + n ≤ d.inBuf.length then .ok ((d.inBuf.drop d.pos).take n) { d with pos := d.pos + n }
        else .raised .bufferUnderrun { d with pos := d.inBuf.length }

/-- ReadXor(w) (20_memory R68): a nibble in bits 3 to 0 when `w mod 8 = 4`, whole bytes above it, the least
significant first, and BufferUnderrun when either runs past the buffer. -/
def Obligations.XorPayloadIsNibbleThenBytes : Prop :=
  ∀ w ∈ [4, 8, 12, 16, 20, 24, 28, 32, 40, 48, 56, 64], ∀ d : Dec, d.pos ≤ d.inBuf.length →
    (w % 8 = 0 →
      if d.pos + w / 8 ≤ d.inBuf.length then
        ∃ x : BitVec w, d.readXor w = .ok x { d with pos := d.pos + w / 8 } ∧
          ∀ i, i < w / 8 → d.inBuf[d.pos + i]? = some (x.extractLsb' (8 * i) 8)
      else ∃ d', d.readXor w = .raised .bufferUnderrun d') ∧
    (w % 8 = 4 →
      match d.readBits 4 with
      | .ok nibble d1 =>
        if d1.pos + (w - 4) / 8 ≤ d1.inBuf.length then
          ∃ x : BitVec w, d.readXor w = .ok x { d1 with pos := d1.pos + (w - 4) / 8 } ∧
            x.extractLsb' 0 4 = nibble ∧
            ∀ i, i < (w - 4) / 8 → d1.inBuf[d1.pos + i]? = some (x.extractLsb' (4 + 8 * i) 8)
        else ∃ d', d.readXor w = .raised .bufferUnderrun d'
      | .raised _ _ => ∃ d', d.readXor w = .raised .bufferUnderrun d')

/-- ReadVarint(N) takes any number of 7-bit groups, the least significant first, reduces the number modulo 2^N, and
raises BufferUnderrun when the buffer ends before the varint does (20_memory R67). WriteVarint(v) appends the shortest
varint of v: 1 to 5 bytes for a u32, 1 to 10 for a u64, one zero byte for zero; and ReadVarint(N) of the bytes returns v
(20_memory R74). -/
def Obligations.VarintsReadBackAndMayBeLonger : Prop :=
  (∀ (n : Nat) (d : Dec) (groups : List (BitVec 7)) (last : BitVec 7) (rest : List Byte),
    (d.inBuf.drop d.pos = groups.map (fun g => 0x80#8 ||| g.setWidth 8) ++ last.setWidth 8 :: rest →
      d.readVarint n =
        .ok (BitVec.ofNat n ((groups ++ [last]).foldr (fun g v => g.toNat + 128 * v) 0))
          { d with pos := d.pos + groups.length + 1 }) ∧
    (d.inBuf.drop d.pos = groups.map (fun g => 0x80#8 ||| g.setWidth 8) →
      ∃ d', d.readVarint n = .raised .bufferUnderrun d')) ∧
  ∀ n ∈ [32, 64], ∀ (v : BitVec n) (e : Enc), ∃ bytes : List Byte,
    e.writeVarint v = { e with out := e.out ++ bytes } ∧
    (v = 0 → bytes = [0x00]) ∧
    (v ≠ 0 → 128 ^ (bytes.length - 1) ≤ v.toNat ∧ v.toNat < 128 ^ bytes.length) ∧
    1 ≤ bytes.length ∧ bytes.length ≤ (if n = 32 then 5 else 10) ∧
    ∀ (d : Dec) (rest : List Byte), d.inBuf.drop d.pos = bytes ++ rest →
      d.readVarint n = .ok v { d with pos := d.pos + bytes.length }

/-- What the writer wrote, the reader reads, bits and raw bytes in the same places (20_memory R70, R72, R75): a decoder
that stands where the encoder stands reads each bit, each byte and each XOR payload that the encoder writes next, and
then stands where the encoder stands. -/
def Obligations.WriterAndReaderStayInStep : Prop :=
  ∀ (e : Enc) (d : Dec) (pre f : List Byte), e.wcnt ≤ 7 → (0 < e.wcnt → e.wslot < e.out.length) → d.At e pre f →
    (∀ b : Bool, (e.writeBit b).Extends f →
      ∃ d', d.readBit = .ok b d' ∧ d'.At (e.writeBit b) pre f ∧ d' = d.movedTo d') ∧
    (∀ b : Byte, (e.writeByte b).Extends f →
      ∃ d', d.readByte = .ok b d' ∧ d'.At (e.writeByte b) pre f ∧ d' = d.movedTo d') ∧
    (∀ w ∈ [4, 8, 12, 16, 20, 24, 28, 32, 40, 48, 56, 64], ∀ x : BitVec w, (e.writeXor x).Extends f →
      ∃ d', d.readXor w = .ok x d' ∧ d'.At (e.writeXor x) pre f ∧ d' = d.movedTo d')

/-- The memory frame of the encoder (20_memory R60): whatever an instruction other than ENC_TAKE and ENC_RESET does,
every byte of the output reads as before, but for the one byte reserved while bits are pending; and the output does not
get shorter. -/
def Obligations.OutputBytesAreKept : Prop :=
  ∀ (i : Instr) (s t : State), i ≠ .encTake → i ≠ .encReset → s.enc.BufferWf s.cfg → exec i s = .next t →
    s.enc.out.length ≤ t.enc.out.length ∧
    ∀ a, a < s.enc.out.length → (s.enc.wcnt = 0 ∨ a ≠ s.enc.wslot) →
      memRead t.enc.out a = memRead s.enc.out a

/-! ### The code model -/

/-- The retrain points (40_code_model R146): counted from the model's creation, code number 6, 27, 128, 229 and so on
is counted and then retrains the model, in the epoch that R145 gives; every other code is counted and nothing else. -/
def Obligations.RetrainsAfterCodes6And27And128 : Prop :=
  ∀ (cs : List Code) (c : Code),
    let m := cs.foldl CodeModel.updateStats CodeModel.initial
    let n := cs.length + 1
    m.since = (if n ≤ 6 then n - 1 else if n ≤ 27 then n - 7 else (n - 28) % 101) ∧
    m.updateStats c =
      if n = 6 then { m.countCode c with epoch := 1 }.adapt
      else if 27 ≤ n ∧ (n - 27) % 101 = 0 then { m.countCode c with epoch := 2 }.adapt
      else m.countCode c

/-- Adapt (40_code_model R148, R149): from the first three codes in the sorted order it selects the least size, the
lowest mode on a tie, writes the escape fields of that mode only and clears the statistics. -/
def Obligations.AdaptSelectsTheCheapestMode : Prop :=
  ∀ (m : CodeModel) (a1 a2 a3 : Code),
    (∀ c, c ≠ a1 → m.Before a1 c) → (∀ c, c ≠ a1 → c ≠ a2 → m.Before a2 c) →
    (∀ c, c ≠ a1 → c ≠ a2 → c ≠ a3 → m.Before a3 c) → a1 ≠ a2 → a1 ≠ a3 → a2 ≠ a3 →
    let total := (allCodes.map m.count).sum
    let n1 := m.count a1
    let n2 := m.count a2
    let n3 := m.count a3
    let size1 := total * 6
    let size2 := n1 * 1 + (total - n1) * 7
    let size3 := n1 * 1 + n2 * 2 + (total - n1 - n2) * 8
    let size4 := n1 * 1 + n2 * 2 + n3 * 3 + (total - n1 - n2 - n3) * 9
    let cleared := { m with cnt := Vector.replicate 64 0, since := 0 }
    (size1 ≤ size2 ∧ size1 ≤ size3 ∧ size1 ≤ size4 ∧ m.adapt = { cleared with mode := .mode1 }) ∨
    (size2 < size1 ∧ size2 ≤ size3 ∧ size2 ≤ size4 ∧ m.adapt = { cleared with mode := .mode2, mode2_1 := a1 }) ∨
    (size3 < size1 ∧ size3 < size2 ∧ size3 ≤ size4 ∧
      m.adapt = { cleared with mode := .mode3, mode3_1 := a1, mode3_01 := a2 }) ∨
    (size4 < size1 ∧ size4 < size2 ∧ size4 < size3 ∧
      m.adapt = { cleared with mode := .mode4, mode4_1 := a1, mode4_01 := a2, mode4_001 := a3 })

/-- Every escape that a retrain installs was counted at least once, and the installed escapes are distinct
(40_code_model R150). -/
def Obligations.InstalledEscapesWereCounted : Prop :=
  ∀ m : CodeModel, 6 ≤ m.total → m.adapt.escapes.Nodup ∧ ∀ c ∈ m.adapt.escapes, 1 ≤ m.count c

/-- Adaptive convergence (40_code_model R153): a model that processes only code `c` is in mode 2 with that escape from
the sixth code on, so that each further code costs one bit. -/
def Obligations.RepeatedCodeConvergesToOneBit : Prop :=
  ∀ (c : Code) (n : Nat),
    let m := (List.replicate n c).foldl CodeModel.updateStats CodeModel.initial
    (n < 6 → m.mode = .mode1 ∧ m.codeLength c = 6) ∧
    (6 ≤ n → m.mode = .mode2 ∧ m.mode2_1 = c ∧ m.codeLength c = 1)

/-- Model selection (40_code_model R141 to R143): a code is read and written with the model of the point at the cursor,
or with S.boot while no point exists, and is counted in that model alone. -/
def Obligations.CodeIsCountedInTheCurrentModel : Prop :=
  (∀ (d d' : Dec) (c : Code), d.readCode = .ok c d' →
    (d.stream.pts = [] → ∃ d1, Dec.readCodeWord d.stream.boot.escapes d = .ok c d1 ∧
      d' = { d.movedTo d1 with stream := { d.stream with boot := d.stream.boot.updateStats c } }) ∧
    (∀ p, d.stream.pts[d.stream.cursor.toNat]? = some p → ∃ d1, Dec.readCodeWord p.model.escapes d = .ok c d1 ∧
      d' = { d.movedTo d1 with stream := { d.stream with
        pts := d.stream.pts.set d.stream.cursor.toNat { p with model := p.model.updateStats c } } })) ∧
  (∀ (e : Enc) (c : Code),
    (e.stream.pts = [] → e.writeCode c = { e.writeBitString (codeWord e.stream.boot.escapes c) with
      stream := { e.stream with boot := e.stream.boot.updateStats c } }) ∧
    (∀ p, e.stream.pts[e.stream.cursor.toNat]? = some p →
      e.writeCode c = { e.writeBitString (codeWord p.model.escapes c) with stream := { e.stream with
        pts := e.stream.pts.set e.stream.cursor.toNat { p with model := p.model.updateStats c } } }))

/-! ### Timestamps and the encoder's choices -/

/-- UpdateTime (42_timestamp R211): the timestamp history moves on; while S.tvalid is set, a delta that is not in the
cache goes to its sorted place and the largest of the five leaves; nothing else changes. -/
def Obligations.DeltaCacheKeepsTheFourSmallest : Prop :=
  ∀ (st : Stream) (ts : Word64), st.DeltaCacheWf →
    let st' := st.updateTime ts
    let old := [st.dt1, st.dt2, st.dt3, st.dt4].map BitVec.toInt
    let d : Int := |st.t1.toInt - ts.toInt|
    st' = { st with
      t1 := ts, t2 := st.t1, tvalid := true, dt1 := st'.dt1, dt2 := st'.dt2, dt3 := st'.dt3, dt4 := st'.dt4 } ∧
    [st'.dt1, st'.dt2, st'.dt3, st'.dt4].map BitVec.toInt =
      if st.tvalid = true ∧ d ∉ old then (old.orderedInsert (· ≤ ·) d).take 4 else old

/-- The encoder's time code is the lowest that applies, and EncodeTime writes that code, with the varint of
`ts XOR S.t1` behind code 20 alone, and updates the time; for `ts = S.t1` it writes nothing (42_timestamp R213). -/
def Obligations.EncoderTakesTheLowestTimeCode : Prop :=
  (∀ (st : Stream) (ts : Word64), st.timeCodeApplies ts (chooseTimeCode st ts) ∧
    ∀ c, st.timeCodeApplies ts c → chooseTimeCode st ts ≤ c) ∧
  ∀ (ts : Word64) (r : EncRun),
    let st := r.enc.stream
    let c := chooseTimeCode st ts
    (ts = st.t1 → encodeTime ts r = r) ∧
    (ts ≠ st.t1 → (encodeTime ts r).enc =
      if c = 20 then r.enc.sends 20 (Enc.writeVarint (ts ^^^ st.t1)) (Stream.updateTime ts)
      else r.enc.sends c (fun e => e) (Stream.updateTime ts))

/-- The value encoder uses an XOR code only for a value that is not in the history and not zero, at the least width of
its coder that holds the delta, and never reaches EncoderInvariantViolation (44_value32 R265, R266; 45_value64 R283;
47_stream_engine R364). EncodeValue writes the code of the choice, with its payload, and the history after it. -/
def Obligations.ValueXorIsOfLeastWidth : Prop :=
  (∀ (h : History 32) (v : Word32), chooseValue valueWidths32 h v ≠ .violation ∧
    ∀ w x, chooseValue valueWidths32 h v = .xor w x →
      v ∉ [h.v1, h.v2, h.v3, 0] ∧ x = v ^^^ h.v1 ∧ w ∈ [4, 8, 12, 16, 20, 24, 28, 32] ∧ x.toNat < 2 ^ w ∧
      ∀ w' ∈ [4, 8, 12, 16, 20, 24, 28, 32], x.toNat < 2 ^ w' → w ≤ w') ∧
  (∀ (h : History 64) (v : Word64), chooseValue valueWidths64 h v ≠ .violation ∧
    ∀ w x, chooseValue valueWidths64 h v = .xor w x →
      v ∉ [h.v1, h.v2, h.v3, 0] ∧ x = v ^^^ h.v1 ∧ w ∈ [8, 16, 24, 32, 40, 48, 56, 64] ∧ x.toNat < 2 ^ w ∧
      ∀ w' ∈ [8, 16, 24, 32, 40, 48, 56, 64], x.toNat < 2 ^ w' → w ≤ w') ∧
  (∀ (tag : Tag32) (h : History 32) (v : Word32) (r : EncRun), ∃ r', encodeValue32 tag h v r = .done r' ∧
    r.enc.SendsValue valueCodes32 (.narrow tag) h v r'.enc) ∧
  ∀ (tag : Tag64) (h : History 64) (v : Word64) (r : EncRun), ∃ r', encodeValue64 tag h v r = .done r' ∧
    r.enc.SendsValue valueCodes64 (.wide tag) h v r'.enc

/-! ### The local codes -/

/-- The ID codes (41_point_id R180, R181, R184 to R190), at the start of a record with a point registered: the payload is
XORed into the cursor; where that names a registered point the record goes on after the ID, and where it does not
CheckCursor raises MalformedStream. That the step ends after the code, the record standing in State.get, is the model's
choice, notes/assumptions/1.md. -/
def Obligations.PointIdCodesMoveTheCursor : Prop :=
  ∀ (i : Instr) (w : Nat), (i, w) ∈ [(Instr.pointIDXOR4, 4), (Instr.pointIDXOR8, 8), (Instr.pointIDXOR12, 12),
      (Instr.pointIDXOR16, 16), (Instr.pointIDXOR20, 20), (Instr.pointIDXOR24, 24), (Instr.pointIDXOR32, 32)] →
    ∀ (s : State) (g : GetContext) (x : BitVec w) (d' : Dec), s.get = some g → g.phase = .start →
      s.dec.stream.pts ≠ [] → s.dec.readXor w = .ok x d' →
      let cursor := s.dec.stream.cursor ^^^ x.setWidth 32
      (cursor.toNat < s.dec.stream.pts.length →
        exec i s = .next { s with
          dec := { s.dec.movedTo d' with stream := { s.dec.stream with cursor := cursor } }
          get := some { g with phase := .afterId } }) ∧
      (s.dec.stream.pts.length ≤ cursor.toNat →
        let record : FaultRecord :=
          { fpos := BitVec.ofNat 32 d'.pos, fbits := BitVec.ofNat 4 d'.rcnt, fcode := g.code, fphase := 0 }
        exec i s = .next { s with
          dec := { g.saved with err := .malformedStream, finfo := record }
          get := none
          responses := s.responses ++ [.error .malformedStream record] })

/-- The time codes (42_timestamp R200 to R210, R214), at the start of a record with a point registered or after the ID:
the timestamp is computed modulo 2^64 from the timestamp history and the delta cache, or is S.t1 XORed with a varint for
TimeXOR7Bit; UpdateTime follows, and the record goes on after the time.That the step ends
there is the model's choice, notes/assumptions/1.md. -/
def Obligations.TimeCodesSetTheTimestamp : Prop :=
  ∀ (s : State) (g : GetContext), s.get = some g →
    (g.phase = .start ∧ s.dec.stream.pts ≠ [] ∨ g.phase = .afterId) →
    (∀ (i : Instr) (ts : Word64),
      (i, ts) ∈ [(Instr.timeDelta1Forward, s.dec.stream.t1 + s.dec.stream.dt1),
        (Instr.timeDelta2Forward, s.dec.stream.t1 + s.dec.stream.dt2),
        (Instr.timeDelta3Forward, s.dec.stream.t1 + s.dec.stream.dt3),
        (Instr.timeDelta4Forward, s.dec.stream.t1 + s.dec.stream.dt4),
        (Instr.timeDelta1Reverse, s.dec.stream.t1 - s.dec.stream.dt1),
        (Instr.timeDelta2Reverse, s.dec.stream.t1 - s.dec.stream.dt2),
        (Instr.timeDelta3Reverse, s.dec.stream.t1 - s.dec.stream.dt3),
        (Instr.timeDelta4Reverse, s.dec.stream.t1 - s.dec.stream.dt4),
        (Instr.timestamp2, s.dec.stream.t2)] →
      exec i s = .next { s with
        dec := { s.dec with stream := s.dec.stream.updateTime ts }
        get := some { g with phase := .afterTime } }) ∧
    ∀ (r : Word64) (d' : Dec), s.dec.readVarint 64 = .ok r d' →
      exec .timeXOR7Bit s = .next { s with
        dec := { s.dec.movedTo d' with stream := s.dec.stream.updateTime (s.dec.stream.t1 ^^^ r) }
        get := some { g with phase := .afterTime } }

/-- The quality codes (43_quality R230 to R232), at any position before the quality: the new quality enters the history
of the target point, the point at the cursor, and the record goes on after the quality. That the step ends there is the
model's choice, notes/assumptions/1.md. -/
def Obligations.QualityCodesUpdateTheTarget : Prop :=
  ∀ (s : State) (g : GetContext) (p : Point), s.get = some g → g.phase ≠ .afterQuality →
    s.dec.stream.pts[s.dec.stream.cursor.toNat]? = some p →
    exec .quality2 s = .next { s with
      dec := { s.dec with stream := { s.dec.stream with
        pts := s.dec.stream.pts.set s.dec.stream.cursor.toNat { p with q1 := p.q2, q2 := p.q1 } } }
      get := some { g with phase := .afterQuality } } ∧
    ∀ (q : Word32) (d' : Dec), s.dec.readVarint 32 = .ok q d' →
      exec .quality7Bit32 s = .next { s with
        dec := { s.dec.movedTo d' with stream := { s.dec.stream with
          pts := s.dec.stream.pts.set s.dec.stream.cursor.toNat { p with q1 := q, q2 := p.q1 } } }
        get := some { g with phase := .afterQuality } }

/-- The repeat and zero codes of both value coders (44_value32 R252 to R255, R264; 45_value64 R284 to R287), at every
position of a record of a point of their width: the value, the history after it, and the record as the response. Its
timestamp is S.t1 and its quality P.q1, whether the record carried them or not (42_timestamp R212, 43_quality R233). -/
def Obligations.RepeatAndZeroCodesYieldTheHistory : Prop :=
  ∀ (s : State) (g : GetContext) (p : Point), s.get = some g →
    s.dec.stream.pts[s.dec.stream.cursor.toNat]? = some p →
    let ends (values : PointValues) (value : Value) : StepOutcome :=
      .next { s with
        dec := { s.dec with stream := { s.dec.stream with
          pts := s.dec.stream.pts.set s.dec.stream.cursor.toNat { p with values := values } } }
        get := none
        responses := s.responses ++ [.measurementRead p.id s.dec.stream.t1 p.q1 value] }
    (∀ (tag : Tag32) (h : History 32), p.values = .narrow tag h →
      exec .value1W32 s = ends p.values (.narrow tag h.v1) ∧
      exec .value2W32 s = ends (.narrow tag { v1 := h.v2, v2 := h.v1, v3 := h.v3 }) (.narrow tag h.v2) ∧
      exec .value3W32 s = ends (.narrow tag { v1 := h.v3, v2 := h.v1, v3 := h.v2 }) (.narrow tag h.v3) ∧
      exec .valueZeroW32 s = ends (.narrow tag { v1 := 0, v2 := h.v1, v3 := h.v2 }) (.narrow tag 0)) ∧
    (∀ (tag : Tag64) (h : History 64), p.values = .wide tag h →
      exec .value1W64 s = ends p.values (.wide tag h.v1) ∧
      exec .value2W64 s = ends (.wide tag { v1 := h.v2, v2 := h.v1, v3 := h.v3 }) (.wide tag h.v2) ∧
      exec .value3W64 s = ends (.wide tag { v1 := h.v3, v2 := h.v1, v3 := h.v2 }) (.wide tag h.v3) ∧
      exec .valueZeroW64 s = ends (.wide tag { v1 := 0, v2 := h.v1, v3 := h.v2 }) (.wide tag 0))

/-- The XOR codes of both value coders (44_value32 R256 to R263; 45_value64 R288 to R295), at every position of a record
of a point of their width: the payload, zero-extended, is XORed into P.v1, the value is pushed, and the record is the
response. -/
def Obligations.ValueXorCodesPushTheValue : Prop :=
  ∀ (s : State) (g : GetContext) (p : Point) (w : Nat) (x : BitVec w) (d' : Dec), s.get = some g →
    s.dec.stream.pts[s.dec.stream.cursor.toNat]? = some p → s.dec.readXor w = .ok x d' →
    let ends (values : PointValues) (value : Value) : StepOutcome :=
      .next { s with
        dec := { s.dec.movedTo d' with stream := { s.dec.stream with
          pts := s.dec.stream.pts.set s.dec.stream.cursor.toNat { p with values := values } } }
        get := none
        responses := s.responses ++ [.measurementRead p.id s.dec.stream.t1 p.q1 value] }
    (∀ (i : Instr) (tag : Tag32) (h : History 32),
      (i, w) ∈ [(Instr.valueXOR4W32, 4), (Instr.valueXOR8W32, 8), (Instr.valueXOR12W32, 12), (Instr.valueXOR16W32, 16),
        (Instr.valueXOR20W32, 20), (Instr.valueXOR24W32, 24), (Instr.valueXOR28W32, 28), (Instr.valueXOR32W32, 32)] →
      p.values = .narrow tag h →
      let v := h.v1 ^^^ x.setWidth 32
      exec i s = ends (.narrow tag { v1 := v, v2 := h.v1, v3 := h.v2 }) (.narrow tag v)) ∧
    (∀ (i : Instr) (tag : Tag64) (h : History 64),
      (i, w) ∈ [(Instr.valueXOR8W64, 8), (Instr.valueXOR16W64, 16), (Instr.valueXOR24W64, 24), (Instr.valueXOR32W64, 32),
        (Instr.valueXOR40W64, 40), (Instr.valueXOR48W64, 48), (Instr.valueXOR56W64, 56), (Instr.valueXOR64W64, 64)] →
      p.values = .wide tag h →
      let v := h.v1 ^^^ x.setWidth 64
      exec i s = ends (.wide tag { v1 := v, v2 := h.v1, v3 := h.v2 }) (.wide tag v))

/-- NewPointId (46_control_codes R300, 10_state R32 to R34): the operands are read in order, a new point with the
creation values is appended, the cursor moves to it, and it is the response. The tag is the one whose TYPE_CODE_MAP byte
was read: of the six bytes of an injective map each names its own tag, and every other byte names none (30_encoding
R108). -/
def Obligations.NewPointIdRegistersAPoint : Prop :=
  (∀ m : TypeCodes, m.Injective →
    m.tagOf m.int32 = some (.narrow .int32) ∧ m.tagOf m.uint32 = some (.narrow .uint32) ∧
    m.tagOf m.single = some (.narrow .single) ∧ m.tagOf m.int64 = some (.wide .int64) ∧
    m.tagOf m.uint64 = some (.wide .uint64) ∧ m.tagOf m.double = some (.wide .double) ∧
    ∀ b, b ∉ [m.int32, m.uint32, m.single, m.int64, m.uint64, m.double] → m.tagOf b = none) ∧
  ∀ (s : State) (g : GetContext) (tb : Byte) (tag : TypeTag) (len : Word32) (md : List Byte) (d1 d2 d3 : Dec),
    s.get = some g → g.phase = .start →
    s.dec.readByte = .ok tb d1 → s.cfg.typeCodes.tagOf tb = some tag → s.dec.stream.pts.length ≠ s.cfg.maxPoints →
    d1.readVarint 32 = .ok len d2 → len.toNat ≤ s.cfg.maxMetaBytes → Dec.readBytes len.toNat d2 = .ok md d3 →
    let id : Word32 := BitVec.ofNat 32 s.dec.stream.pts.length
    let p : Point :=
      { id := id
        values := match tag with
          | .narrow t => .narrow t { v1 := 0, v2 := 0, v3 := 0 }
          | .wide t => .wide t { v1 := 0, v2 := 0, v3 := 0 }
        q1 := 0, q2 := 0, metadata := md, model := CodeModel.initial }
    exec .newPointId s = .next { s with
      dec := { s.dec.movedTo d3 with stream := { s.dec.stream with pts := s.dec.stream.pts ++ [p], cursor := id } }
      get := none
      responses := s.responses ++ [.newPointRegistered id tag md] }

/-- The errors of NewPointId (46_control_codes R300, R301): an unknown type byte, then a full table, then metadata
longer than MAX_META_BYTES, each where the rule puts it between the reads. -/
def Obligations.NewPointIdErrorsInOrder : Prop :=
  ∀ (s : State) (g : GetContext) (tb : Byte) (d1 : Dec), s.get = some g → g.phase = .start →
    s.dec.readByte = .ok tb d1 →
    let failed (code : ErrorCode) (d : Dec) : State :=
      let record : FaultRecord :=
        { fpos := BitVec.ofNat 32 d.pos, fbits := BitVec.ofNat 4 d.rcnt, fcode := g.code, fphase := 0 }
      { s with
        dec := { g.saved with err := code, finfo := record }
        get := none
        responses := s.responses ++ [.error code record] }
    (s.cfg.typeCodes.tagOf tb = none → exec .newPointId s = .next (failed .unsupportedType d1)) ∧
    (s.cfg.typeCodes.tagOf tb ≠ none → s.dec.stream.pts.length = s.cfg.maxPoints →
      exec .newPointId s = .next (failed .capacityExceeded d1)) ∧
    (∀ (len : Word32) (d2 : Dec), s.cfg.typeCodes.tagOf tb ≠ none → s.dec.stream.pts.length ≠ s.cfg.maxPoints →
      d1.readVarint 32 = .ok len d2 → s.cfg.maxMetaBytes < len.toNat →
      exec .newPointId s = .next (failed .capacityExceeded d2))

/-- The user commands (46_control_codes R302, R304, R309): the operands are read in order and are the response; no
point, cursor, timestamp or quality changes. -/
def Obligations.UserCommandsAreReturned : Prop :=
  (∀ (s : State) (g : GetContext) (cmd : Word32) (d1 : Dec), s.get = some g → g.phase = .start →
    s.dec.readVarint 32 = .ok cmd d1 →
    exec .userCommand s = .next { s with
      dec := s.dec.movedTo d1, get := none, responses := s.responses ++ [.userData cmd] }) ∧
  (∀ (s : State) (g : GetContext) (cmd len : Word32) (payload : List Byte) (d1 d2 d3 : Dec), s.get = some g →
    g.phase = .start → s.dec.readVarint 32 = .ok cmd d1 → d1.readVarint 32 = .ok len d2 →
    Dec.readBytes len.toNat d2 = .ok payload d3 →
    exec .userCommandWithData s = .next { s with
      dec := s.dec.movedTo d3, get := none, responses := s.responses ++ [.userDataWithValue cmd payload] })

/-- FlushBits (46_control_codes R303, 20_memory R66): the cached bits are dropped and the request goes on, with the next
code or with EndOfStream at the end of the buffer. That the step ends before the next code is the model's choice,
notes/assumptions/1.md. -/
def Obligations.FlushBitsDropsTheCachedBits : Prop :=
  ∀ (s : State) (g : GetContext), s.get = some g → g.phase = .start →
    exec .flushBits s =
      if s.dec.pos = s.dec.inBuf.length then
        .next { s with
          dec := { s.dec with rcnt := 0 }, get := none, responses := s.responses ++ [.endOfStream] }
      else .next { s with dec := { s.dec with rcnt := 0 } }

/-- A reserved code raises MalformedStream at every position (30_encoding R112). -/
def Obligations.ReservedCodesAreMalformed : Prop :=
  ∀ (i : Instr), (i = .reserved23 ∨ (∃ low, i = .reserved24to31 low) ∨ (∃ low, i = .reserved44to47 low) ∨
      (∃ low, i = .reserved48to63 low)) →
    ∀ (s : State) (g : GetContext), s.get = some g →
      let record : FaultRecord :=
        { fpos := BitVec.ofNat 32 s.dec.pos, fbits := BitVec.ofNat 4 s.dec.rcnt, fcode := g.code
          fphase := match g.phase with
            | .start => 0
            | .afterId => 1
            | .afterTime => 2
            | .afterQuality => 3 }
      exec i s = .next { s with
        dec := { g.saved with err := .malformedStream, finfo := record }
        get := none
        responses := s.responses ++ [.error .malformedStream record] }

/-- A payload that runs past the buffer is BufferUnderrun (20_memory R62, 60_exceptions R401, R409), for every local
code with a payload and, where it has several fields (46_control_codes R300, R304), for every field: the type byte, the
length and the metadata of NewPointId, and the command, the length and the payload of UserCommandWithData. -/
def Obligations.TruncatedPayloadUnderruns : Prop :=
  ∀ (s : State) (g : GetContext), s.get = some g →
    let failed (d : Dec) : State :=
      let record : FaultRecord :=
        { fpos := BitVec.ofNat 32 d.pos, fbits := BitVec.ofNat 4 d.rcnt, fcode := g.code, fphase := g.phase.number }
      { s with
        dec := { g.saved with err := .bufferUnderrun, finfo := record }
        get := none
        responses := s.responses ++ [.error .bufferUnderrun record] }
    (∀ i w e d, (i, w) ∈ [(Instr.pointIDXOR4, 4), (Instr.pointIDXOR8, 8), (Instr.pointIDXOR12, 12),
        (Instr.pointIDXOR16, 16), (Instr.pointIDXOR20, 20), (Instr.pointIDXOR24, 24), (Instr.pointIDXOR32, 32)] →
      g.phase = .start → s.dec.stream.pts ≠ [] → s.dec.readXor w = .raised e d → exec i s = .next (failed d)) ∧
    (∀ i w e d p tag h, (i, w) ∈ [(Instr.valueXOR4W32, 4), (Instr.valueXOR8W32, 8), (Instr.valueXOR12W32, 12),
        (Instr.valueXOR16W32, 16), (Instr.valueXOR20W32, 20), (Instr.valueXOR24W32, 24), (Instr.valueXOR28W32, 28),
        (Instr.valueXOR32W32, 32)] →
      s.dec.stream.pts[s.dec.stream.cursor.toNat]? = some p → p.values = .narrow tag h →
      s.dec.readXor w = .raised e d → exec i s = .next (failed d)) ∧
    (∀ i w e d p tag h, (i, w) ∈ [(Instr.valueXOR8W64, 8), (Instr.valueXOR16W64, 16), (Instr.valueXOR24W64, 24),
        (Instr.valueXOR32W64, 32), (Instr.valueXOR40W64, 40), (Instr.valueXOR48W64, 48), (Instr.valueXOR56W64, 56),
        (Instr.valueXOR64W64, 64)] →
      s.dec.stream.pts[s.dec.stream.cursor.toNat]? = some p → p.values = .wide tag h →
      s.dec.readXor w = .raised e d → exec i s = .next (failed d)) ∧
    (∀ e d, (g.phase = .start ∧ s.dec.stream.pts ≠ [] ∨ g.phase = .afterId) →
      s.dec.readVarint 64 = .raised e d → exec .timeXOR7Bit s = .next (failed d)) ∧
    (∀ e d p, g.phase ≠ .afterQuality → s.dec.stream.pts[s.dec.stream.cursor.toNat]? = some p →
      s.dec.readVarint 32 = .raised e d → exec .quality7Bit32 s = .next (failed d)) ∧
    (∀ e d, g.phase = .start → s.dec.readVarint 32 = .raised e d →
      exec .userCommand s = .next (failed d) ∧ exec .userCommandWithData s = .next (failed d)) ∧
    (∀ cmd d1 e d, g.phase = .start → s.dec.readVarint 32 = .ok cmd d1 → d1.readVarint 32 = .raised e d →
      exec .userCommandWithData s = .next (failed d)) ∧
    (∀ (cmd len : Word32) d1 d2 e d, g.phase = .start → s.dec.readVarint 32 = .ok cmd d1 →
      d1.readVarint 32 = .ok len d2 → Dec.readBytes len.toNat d2 = .raised e d →
      exec .userCommandWithData s = .next (failed d)) ∧
    (∀ e d, g.phase = .start → s.dec.readByte = .raised e d → exec .newPointId s = .next (failed d)) ∧
    (∀ tb d1, g.phase = .start → s.dec.readByte = .ok tb d1 → s.cfg.typeCodes.tagOf tb ≠ none →
      s.dec.stream.pts.length ≠ s.cfg.maxPoints →
      (∀ e d, d1.readVarint 32 = .raised e d → exec .newPointId s = .next (failed d)) ∧
      ∀ (len : Word32) d2 e d, d1.readVarint 32 = .ok len d2 → len.toNat ≤ s.cfg.maxMetaBytes →
        Dec.readBytes len.toNat d2 = .raised e d → exec .newPointId s = .next (failed d))

/-- The phase check (47_stream_engine R331): a code outside the set allowed at its position raises MalformedStream. -/
def Obligations.PhaseCheckRaisesMalformedStream : Prop :=
  ∀ (i : Instr) (c : Code) (s : State) (g : GetContext), encode i = .localCode c → s.get = some g →
    ¬ (match g.phase with
       | .start => c.toNat ≤ 3 ∨
           (s.dec.stream.pts ≠ [] ∧ (4 ≤ c.toNat ∧ c.toNat ≤ 22 ∨ 32 ≤ c.toNat ∧ c.toNat ≤ 43))
       | .afterId => 11 ≤ c.toNat ∧ c.toNat ≤ 22 ∨ 32 ≤ c.toNat ∧ c.toNat ≤ 43
       | .afterTime => 21 ≤ c.toNat ∧ c.toNat ≤ 22 ∨ 32 ≤ c.toNat ∧ c.toNat ≤ 43
       | .afterQuality => 32 ≤ c.toNat ∧ c.toNat ≤ 43) →
    let record : FaultRecord :=
      { fpos := BitVec.ofNat 32 s.dec.pos, fbits := BitVec.ofNat 4 s.dec.rcnt, fcode := g.code
        fphase := g.phase.number }
    exec i s = .next { s with
      dec := { g.saved with err := .malformedStream, finfo := record }
      get := none
      responses := s.responses ++ [.error .malformedStream record] }

/-! ### The requests of the decoder -/

/-- DEC_RESET and ENC_RESET (70_reset_and_hazards R450, R451, 10_state R37): each sets its engine to the reset values in
every state, failed ones included, answers Ok and leaves the other engine alone; power-on leaves both so. -/
def Obligations.ResetSetsEveryFieldOfItsEngine : Prop :=
  let model : CodeModel :=
    { mode := .mode1, mode2_1 := 0, mode3_1 := 0, mode3_01 := 1, mode4_1 := 0, mode4_01 := 1, mode4_001 := 2
      cnt := Vector.replicate 64 0, since := 0, epoch := 0 }
  let stream : Stream :=
    { pts := [], cursor := 0, t1 := 0, t2 := 0, dt1 := 0x7FFFFFFFFFFFFFFF, dt2 := 0x7FFFFFFFFFFFFFFF
      dt3 := 0x7FFFFFFFFFFFFFFF, dt4 := 0x7FFFFFFFFFFFFFFF, tvalid := false, boot := model }
  let record : FaultRecord := { fpos := 0, fbits := 0, fcode := 0, fphase := 0 }
  let dec : Dec := { stream := stream, inBuf := [], pos := 0, rcache := 0x00, rcnt := 0, err := .none, finfo := record }
  let enc : Enc :=
    { stream := stream, out := [], wcache := 0x00, wcnt := 0, wslot := 0, err := .none, finfo := record }
  State.reset.dec = dec ∧ State.reset.enc = enc ∧
  ∀ s : State, s.get = none →
    exec .decReset s = .next { s with dec := dec, responses := s.responses ++ [.ok] } ∧
    exec .encReset s = .next { s with enc := enc, responses := s.responses ++ [.ok] }

/-- DEC_LOAD (47_stream_engine R350): replaces the buffer and keeps all other stream state; refused past DEC_BUF_MAX. -/
def Obligations.DecLoadReplacesTheBuffer : Prop :=
  ∀ (s : State) (bytes : List Byte), s.get = none →
    exec (.decLoad bytes) s =
      if s.dec.err ≠ .none then .next { s with responses := s.responses ++ [.error s.dec.err s.dec.finfo] }
      else if s.cfg.decBufMax < bytes.length then
        .next { s with
          responses := s.responses ++
            [.error .capacityExceeded { fpos := 0, fbits := 0, fcode := 0, fphase := 0 }] }
      else
        .next { s with
          dec := { s.dec with inBuf := bytes, pos := 0, rcnt := 0, rcache := 0x00 }
          responses := s.responses ++ [.ok] }

/-- DEC_GET (47_stream_engine R330, R333, R334): at the end of the buffer with an empty cache it answers EndOfStream and
changes nothing. Otherwise the request is open, at position 0, with the decoder it found saved for the undo (R341) and
64 as the code read, for none (60_exceptions R409). That the step ends here, with no response yet and State.get set, is
the model's choice, notes/assumptions/1.md: by R330, R340 and R341 the request runs to its one response. -/
def Obligations.DecGetOpensOrEndsTheStream : Prop :=
  ∀ s : State, s.get = none → s.dec.err = .none →
    exec .decGet s =
      if s.dec.pos = s.dec.inBuf.length ∧ s.dec.rcnt = 0 then
        .next { s with responses := s.responses ++ [.endOfStream] }
      else .next { s with get := some { saved := s.dec, code := 64, phase := .start } }

/-- DEC_STATUS and ENC_STATUS (47_stream_engine R352, 10_state R39): the status record in every state, and no change.
The error is reported by its number (10_state R30, 60_exceptions R400). -/
def Obligations.StatusReportsTheEngine : Prop :=
  let number : ErrorCode → BitVec 3
    | .none => 0
    | .malformedStream => 1
    | .unsupportedType => 2
    | .bufferUnderrun => 3
    | .encoderInvariantViolation => 4
    | .capacityExceeded => 5
    | .invalidRequest => 6
  ∀ s : State, s.get = none →
    (∃ r : Status, exec .decStatus s = .next { s with responses := s.responses ++ [.status r] } ∧
      r.err = number s.dec.err ∧ r.failed = decide (s.dec.err ≠ .none) ∧
      r.atEos = decide (s.dec.pos = s.dec.inBuf.length ∧ s.dec.rcnt = 0) ∧
      r.pos = BitVec.ofNat 32 s.dec.pos ∧ r.len = BitVec.ofNat 32 s.dec.inBuf.length ∧
      r.bits = BitVec.ofNat 4 s.dec.rcnt ∧ r.npts = BitVec.ofNat 33 s.dec.stream.pts.length ∧
      r.cursor = s.dec.stream.cursor ∧ r.finfo = s.dec.finfo) ∧
    (∃ r : Status, exec .encStatus s = .next { s with responses := s.responses ++ [.status r] } ∧
      r.err = number s.enc.err ∧ r.failed = decide (s.enc.err ≠ .none) ∧ r.atEos = decide (s.enc.wcnt = 0) ∧
      r.pos = BitVec.ofNat 32 s.enc.out.length ∧ r.len = BitVec.ofNat 32 s.enc.out.length ∧
      r.bits = BitVec.ofNat 4 s.enc.wcnt ∧ r.npts = BitVec.ofNat 33 s.enc.stream.pts.length ∧
      r.cursor = s.enc.stream.cursor ∧ r.finfo = s.enc.finfo)

/-! ### The requests of the encoder -/

/-- ENC_REGISTER (47_stream_engine R355, 46_control_codes R300): code 0, the type byte, the length and the metadata are
written; the new point is appended, the cursor moves to it, and its ID is the answer. -/
def Obligations.EncRegisterWritesANewPoint : Prop :=
  ∀ (s : State) (tb : Byte) (tag : TypeTag) (md : List Byte), s.get = none → s.enc.err = .none →
    s.cfg.typeCodes.tagOf tb = some tag → s.enc.stream.pts.length ≠ s.cfg.maxPoints →
    md.length ≤ s.cfg.maxMetaBytes →
    let e := (((s.enc.writeCode 0).writeByte tb).writeVarint (BitVec.ofNat 32 md.length)).writeBytes md
    let id : Word32 := BitVec.ofNat 32 s.enc.stream.pts.length
    let p : Point :=
      { id := id
        values := match tag with
          | .narrow t => .narrow t { v1 := 0, v2 := 0, v3 := 0 }
          | .wide t => .wide t { v1 := 0, v2 := 0, v3 := 0 }
        q1 := 0, q2 := 0, metadata := md, model := CodeModel.initial }
    e.out.length + (if 0 < e.wcnt then 1 else 0) ≤ s.cfg.encBufMax →
    exec (.encRegister tb md) s = .next { s with
      enc := { e with stream := { s.enc.stream.countCode 0 with
        pts := (s.enc.stream.countCode 0).pts ++ [p], cursor := id } }
      responses := s.responses ++ [.okId id] }

/-- ENC_WRITE (47_stream_engine R356; 41_point_id R182; 42_timestamp R213; 43_quality R234; 44_value32 R265; 45_value64
R283), with room for the longest record: it answers Ok, and it has written exactly the codes and payloads of the four
phases, each phase as its rule gives it: no ID code for the point at the cursor and otherwise the least width; no time
code for the last timestamp and otherwise the lowest that applies; no quality code for the last quality, 21 for the one
before it and otherwise 22; and the value code of the point's width. The stream state has moved as decoding the record
moves it: the cursor, the timestamps and the delta cache, the quality and value history of the point. Of the other
points only the one at the old cursor may have counted a code. -/
def Obligations.EncWriteMovesTheStreamState : Prop :=
  ∀ (s : State) (id : Word32) (ts : Word64) (q : Word32) (value : Value) (p : Point), s.get = none →
    s.enc.err = .none → s.enc.BufferWf s.cfg → s.enc.stream.TableWf s.cfg →
    s.enc.footprint + 40 ≤ s.cfg.encBufMax →
    s.enc.stream.pts[id.toNat]? = some p → value.tag = p.type →
    ∃ e1 e2 e3 e' : Enc,
      s.enc.SendsId id e1 ∧ e1.SendsTime ts e2 ∧ e2.SendsQuality p q e3 ∧ e3.SendsValueOf p value e' ∧
      exec (.encWrite id ts q value) s = .next { s with enc := e', responses := s.responses ++ [.ok] } ∧
      e'.err = .none ∧ e'.finfo = s.enc.finfo ∧ e'.stream.boot = s.enc.stream.boot ∧
      e'.stream.cursor = id ∧ e'.stream.t1 = ts ∧
      (let timed := if ts = s.enc.stream.t1 then s.enc.stream else s.enc.stream.updateTime ts
       e'.stream.t2 = timed.t2 ∧ e'.stream.dt1 = timed.dt1 ∧ e'.stream.dt2 = timed.dt2 ∧
       e'.stream.dt3 = timed.dt3 ∧ e'.stream.dt4 = timed.dt4 ∧ e'.stream.tvalid = timed.tvalid) ∧
      e'.stream.pts.length = s.enc.stream.pts.length ∧
      (∃ m, e'.stream.pts[id.toNat]? = some { p with
        q1 := q, q2 := if q = p.q1 then p.q2 else p.q1, values := p.values.afterWrite value, model := m }) ∧
      ∀ j p', j ≠ id.toNat → s.enc.stream.pts[j]? = some p' →
        ∃ m, e'.stream.pts[j]? = some { p' with model := m } ∧
          (j ≠ s.enc.stream.cursor.toNat → m = p'.model)

/-- ENC_USER and ENC_USER_DATA (47_stream_engine R357, R358; 46_control_codes R302, R304, R309): the code and its operands
are written, and only the model in use changes in the stream state. -/
def Obligations.EncUserWritesACommand : Prop :=
  ∀ (s : State) (command : Word32) (payload : List Byte), s.get = none → s.enc.err = .none →
    (let e := (s.enc.writeCode 1).writeVarint command
     e.out.length + (if 0 < e.wcnt then 1 else 0) ≤ s.cfg.encBufMax →
     exec (.encUser command) s = .next { s with enc := e, responses := s.responses ++ [.ok] } ∧
     e.stream = s.enc.stream.countCode 1) ∧
    (let e := (((s.enc.writeCode 2).writeVarint command).writeVarint (BitVec.ofNat 32 payload.length)).writeBytes payload
     e.out.length + (if 0 < e.wcnt then 1 else 0) ≤ s.cfg.encBufMax →
     exec (.encUserData command payload) s = .next { s with enc := e, responses := s.responses ++ [.ok] } ∧
     e.stream = s.enc.stream.countCode 2)

/-- ENC_FLUSH (47_stream_engine R359, 46_control_codes R308): code 3 is written and the bit group ends, even when no bits
were pending, and no bits are pending after it. The group is padded with zeros (20_memory R73): the bits of the cache
that are not written are 0 after reset and after every step, and so are those bits of the byte that ends the group. -/
def Obligations.EncFlushEndsTheBitGroup : Prop :=
  (State.reset.enc.PadsWithZeros ∧
    ∀ s t : State, s.enc.PadsWithZeros → step s = .next t → t.enc.PadsWithZeros) ∧
  ∀ s : State, s.get = none → s.enc.err = .none →
    let e := s.enc.writeCode 3
    let out := if e.wcnt = 0 then e.out else memWrite e.out e.wslot e.wcache
    out.length ≤ s.cfg.encBufMax →
    exec .encFlush s = .next { s with
      enc := { e with out := out, wcnt := 0 }
      responses := s.responses ++ [.ok] } ∧
    (s.enc.PadsWithZeros → (0 < s.enc.wcnt → s.enc.wslot < s.enc.out.length) → 0 < e.wcnt →
      ∃ b, memRead out e.wslot = some b ∧ ∀ j, j < 8 - e.wcnt → b.getLsbD j = false)

/-- ENC_TAKE (47_stream_engine R361): FlushBits when bits are pending, then the output bytes are the answer and the output
is empty; the rest of the stream state is kept. It has no capacity check (R354). -/
def Obligations.EncTakeHandsOutTheBytes : Prop :=
  ∀ s : State, s.get = none → s.enc.err = .none →
    (s.enc.wcnt = 0 → exec .encTake s = .next { s with
      enc := { s.enc with out := [], wslot := 0 }
      responses := s.responses ++ [.bytes s.enc.out] }) ∧
    (0 < s.enc.wcnt →
      let e := (s.enc.writeCode 3).padBits
      exec .encTake s = .next { s with
        enc := { e with out := [], wslot := 0 }
        responses := s.responses ++ [.bytes e.out] } ∧ e.wcnt = 0)

/-- Encoder capacity (47_stream_engine R354): the check is on the state the request would produce. What a request does
under any other limit, it does under this one if that state fits, and otherwise it is refused and changes nothing. And
the byte kept in hand is enough for the FlushBits of an ENC_TAKE. -/
def Obligations.OutputOverTheLimitIsRefused : Prop :=
  (∀ s : State, s.enc.BufferWf s.cfg → 0 < s.enc.wcnt →
    (s.enc.writeCode 3).padBits.out.length ≤ s.cfg.encBufMax) ∧
  ∀ i : Instr, ((∃ tb md, i = .encRegister tb md) ∨ (∃ id ts q v, i = .encWrite id ts q v) ∨ (∃ c, i = .encUser c) ∨
      (∃ c b, i = .encUserData c b) ∨ i = .encFlush) →
    ∀ (s u : State) (n : Nat) (r : Response), exec i { s with cfg := { s.cfg with encBufMax := n } } = .next u →
      u.responses = s.responses ++ [r] → r.succeeds = true →
      exec i s =
        if u.enc.out.length + (if 0 < u.enc.wcnt then 1 else 0) ≤ s.cfg.encBufMax then .next { u with cfg := s.cfg }
        else .next { s with
          responses := s.responses ++
            [.error .capacityExceeded { fpos := 0, fbits := 0, fcode := 0, fphase := 0 }] }

/-! ### Errors -/

/-- The refusals that stand before a request's effect (60_exceptions R402, R407, R408; 47_stream_engine R350, R353, R355,
R356): the zero record is answered and nothing changes. -/
def Obligations.RefusalsChangeNothing : Prop :=
  ∀ s : State, s.get = none →
    let refused (code : ErrorCode) : State := { s with
      responses := s.responses ++ [.error code { fpos := 0, fbits := 0, fcode := 0, fphase := 0 }] }
    (∀ low, exec (.reservedHost4to7 low) s = .next (refused .invalidRequest)) ∧
    (∀ bytes, s.dec.err = .none → s.cfg.decBufMax < bytes.length →
      exec (.decLoad bytes) s = .next (refused .capacityExceeded)) ∧
    (s.enc.err = .none →
      (∀ tb md, s.cfg.typeCodes.tagOf tb = none → exec (.encRegister tb md) s = .next (refused .unsupportedType)) ∧
      (∀ tb md, s.cfg.typeCodes.tagOf tb ≠ none → s.enc.stream.pts.length = s.cfg.maxPoints →
        exec (.encRegister tb md) s = .next (refused .capacityExceeded)) ∧
      (∀ tb md, s.cfg.typeCodes.tagOf tb ≠ none → s.cfg.maxMetaBytes < md.length →
        exec (.encRegister tb md) s = .next (refused .capacityExceeded)) ∧
      (∀ id ts q v, s.enc.stream.pts.length ≤ id.toNat →
        exec (.encWrite id ts q v) s = .next (refused .invalidRequest)) ∧
      (∀ id ts q v p, s.enc.stream.pts[id.toNat]? = some p → v.tag ≠ p.type →
        exec (.encWrite id ts q v) s = .next (refused .invalidRequest)))

/-- A failed engine (47_stream_engine R342): every request but reset, status and the reserved opcodes answers its error
and changes nothing. The reserved opcodes answer InvalidRequest with the zero record in every state of either engine and
change nothing (47_stream_engine R353). -/
def Obligations.FailedEngineAnswersItsError : Prop :=
  ∀ s : State, s.get = none →
    (s.dec.err ≠ .none →
      let answered : State := { s with responses := s.responses ++ [.error s.dec.err s.dec.finfo] }
      (∀ bytes, exec (.decLoad bytes) s = .next answered) ∧ exec .decGet s = .next answered) ∧
    (s.enc.err ≠ .none →
      let answered : State := { s with responses := s.responses ++ [.error s.enc.err s.enc.finfo] }
      (∀ tb md, exec (.encRegister tb md) s = .next answered) ∧
      (∀ id ts q v, exec (.encWrite id ts q v) s = .next answered) ∧
      (∀ c, exec (.encUser c) s = .next answered) ∧ (∀ c b, exec (.encUserData c b) s = .next answered) ∧
      exec .encFlush s = .next answered ∧ exec .encTake s = .next answered) ∧
    ∀ low, exec (.reservedHost4to7 low) s = .next { s with
      responses := s.responses ++ [.error .invalidRequest { fpos := 0, fbits := 0, fcode := 0, fphase := 0 }] }

/-- Taking a sticky error (60_exceptions R401, R409; 47_stream_engine R341): when a step of a DEC_GET raises one, the
decoder is the one the request found but for S.err and S.finfo, the error with that record is the answer, and the record
names the last code read and the phase position. Nothing else changes. A step is one local code, and the decoder to go
back to is saved in State.get, by notes/assumptions/1.md. -/
def Obligations.StickyErrorUndoesTheRequest : Prop :=
  ∀ (s t : State) (g : GetContext), s.get = some g → s.dec.err = .none → g.saved.err = .none →
    step s = .next t → t.dec.err ≠ .none →
    ∃ record : FaultRecord,
      t = { s with
        dec := { g.saved with err := t.dec.err, finfo := record }
        get := none
        responses := s.responses ++ [.error t.dec.err record] } ∧
      t.dec.err ∈ [.malformedStream, .unsupportedType, .bufferUnderrun, .capacityExceeded] ∧
      record.fphase = g.phase.number ∧
      ((∃ e d, s.dec.readCode = .raised e d ∧ record.fcode = g.code ∧ t.dec.err = .bufferUnderrun) ∨
       (∃ c d, s.dec.readCode = .ok c d ∧ record.fcode = c.setWidth 7))

/-- A code word cut off by the end of the buffer (20_memory R62, 60_exceptions R403, R410): BufferUnderrun, with the
cursor at the end of the buffer, and the code not counted. -/
def Obligations.TruncatedCodeWordUnderruns : Prop :=
  ∀ (s : State) (g : GetContext), s.get = some g → s.dec.rcnt ≤ 8 → s.dec.pos ≤ s.dec.inBuf.length →
    (∃ e, parseCodeWord s.dec.stream.curModel.escapes s.dec.unreadBits = .error e) →
    let record : FaultRecord :=
      { fpos := BitVec.ofNat 32 s.dec.inBuf.length, fbits := 0, fcode := g.code, fphase := g.phase.number }
    step s = .next { s with
      dec := { g.saved with err := .bufferUnderrun, finfo := record }
      get := none
      responses := s.responses ++ [.error .bufferUnderrun record] }

/-- Which errors an engine can hold, kept by every step: InvalidRequest is never stored (10_state R30, 60_exceptions
R408), EncoderInvariantViolation is unreachable (60_exceptions R404), and every other encoder error is a refusal
(60_exceptions R400). -/
def Obligations.StoredErrorsStayLegal : Prop :=
  let legal (s : State) : Prop := s.enc.err = .none ∧ ∀ d ∈ s.decoders,
    d.err ∈ [.none, .malformedStream, .unsupportedType, .bufferUnderrun, .capacityExceeded]
  legal State.reset ∧ ∀ s t : State, legal s → step s = .next t → legal t

/-- A failed engine keeps its first error and its fault record until its reset (60_exceptions R413). -/
def Obligations.OnlyResetClearsAnError : Prop :=
  ∀ s t : State, s.get = none → step s = .next t →
    (s.dec.err ≠ .none → t.dec = s.dec ∨ ∃ r rest, s.pending = r :: rest ∧ r.opcode = 0x0 ∧ t.dec = State.reset.dec) ∧
    (s.enc.err ≠ .none → t.enc = s.enc ∨ ∃ r rest, s.pending = r :: rest ∧ r.opcode = 0x8 ∧ t.enc = State.reset.enc)

/-! ### The machine -/

/-- A step runs the decoded instruction: inside a DEC_GET the code word at the read cursor, after the cursor has moved
past it and its code was counted (40_code_model R142); between requests the oldest request issued (20_memory R80). With
nothing to do a step changes nothing. The step of one local code and the resting step are the model's choices,
notes/assumptions/1.md and notes/assumptions/8.md. -/
def Obligations.StepRunsTheDecodedInstruction : Prop :=
  (∀ (s : State) (g : GetContext) (c : Code) (rest : List Bool), s.get = some g → s.dec.rcnt ≤ 8 →
    parseCodeWord s.dec.stream.curModel.escapes s.dec.unreadBits = .ok (c, rest) →
    ∃ d', (s.dec.movedTo d').unreadBits = rest ∧
      step s = exec (decodeCode s.dec.stream.targetWidth c) { s with
        dec := { s.dec.movedTo d' with stream := s.dec.stream.countCode c }
        get := some { g with code := c.setWidth 7 } }) ∧
  (∀ (s : State) (r : Request) (rest : List Request), s.get = none → s.pending = r :: rest →
    step s = exec (decodeRequest r) { s with pending := rest }) ∧
  (∀ s : State, s.get = none → s.pending = [] → step s = .next s)

/-- No step of the machine stops, in any state: every error the spec names is a next state (60_exceptions R401, R402),
and the model's own faults answer only a call of `exec` out of place (notes/assumptions/7.md). -/
def Obligations.EveryStepAnswersANextState : Prop :=
  ∀ s : State, ∃ t, step s = .next t

/-- Every request is answered exactly once and ends after a bounded number of steps (47_stream_engine R340,
70_reset_and_hazards R471): at most one step more than the decoder has bits left to read, and the step that accepts it.
That a step inside a DEC_GET is one local code is the model's choice, notes/assumptions/1.md. -/
def Obligations.EveryRequestIsAnsweredOnce : Prop :=
  ∀ (s : State) (r : Request) (rest : List Request), s.get = none → s.pending = r :: rest →
    ∃ n t answer, n ≤ s.dec.bitsLeft + 2 ∧ StepsTo n s t ∧ t.get = none ∧ t.pending = rest ∧
      t.responses = s.responses ++ [answer]

/-- The engines are independent (60_exceptions R411, 20_memory R80, 00_scope R8): a step of a decoder request neither
reads nor writes the encoder, and a step of an encoder request neither reads nor writes the decoder. -/
def Obligations.EnginesDoNotInterfere : Prop :=
  ∀ s t : State, step s = .next t →
    ((s.get ≠ none ∨ ∃ r rest, s.pending = r :: rest ∧ r.opcode.toNat < 8) →
      ∀ e : Enc, t.enc = s.enc ∧ step { s with enc := e } = .next { t with enc := e }) ∧
    (s.get = none → (∃ r rest, s.pending = r :: rest ∧ 8 ≤ r.opcode.toNat) →
      ∀ d : Dec, t.dec = s.dec ∧ step { s with dec := d } = .next { t with dec := d })

/-- Points are never removed or reordered, and a point keeps its ID, its type and its metadata (10_state R22, R32,
20_memory R86); the parameters never change (00_scope R9), and a DEC_GET never writes the input buffer (20_memory R60,
R83). Resets and the undo of a failed request apart. -/
def Obligations.RegisteredPointsArePermanent : Prop :=
  let kept (a b : Stream) : Prop := ∀ (i : Nat) (p : Point), a.pts[i]? = some p →
    ∃ p', b.pts[i]? = some p' ∧ p'.id = p.id ∧ p'.type = p.type ∧ p'.metadata = p.metadata
  ∀ s t : State, step s = .next t →
    t.cfg = s.cfg ∧
    ((∀ r rest, s.get = none → s.pending = r :: rest → r.opcode ≠ 0x8) → kept s.enc.stream t.enc.stream) ∧
    ((∀ r rest, s.get = none → s.pending = r :: rest → r.opcode ≠ 0x0) →
      (s.get = none ∨ s.dec.err = .none ∧ t.dec.err = .none) → kept s.dec.stream t.dec.stream) ∧
    (∀ g, s.get = some g → g.saved.inBuf = s.dec.inBuf → t.dec.inBuf = s.dec.inBuf)

/-! ### Invariants -/

/-- Every step keeps every code model well formed (40_code_model R147, 10_state R36, R38). -/
def Obligations.StepKeepsCodeModelsWellFormed : Prop :=
  ∀ s t : State, s.ModelsInv → step s = .next t → t.ModelsInv

/-- Every step keeps every delta cache sorted and its finite entries distinct (10_state R27, 42_timestamp R215). -/
def Obligations.StepKeepsDeltaCachesSorted : Prop :=
  ∀ s t : State, s.DeltaCachesInv → step s = .next t → t.DeltaCachesInv

/-- Every step keeps every point table dense, within MAX_POINTS, with the cursor on a registered point (10_state R22,
R23, R35). -/
def Obligations.StepKeepsPointTablesDense : Prop :=
  ∀ s t : State, s.TablesInv → step s = .next t → t.TablesInv

/-- Every step keeps the read and write states in their ranges and the buffers within their limits (10_state R24, R25;
47_stream_engine R354), so that the buffers keep their canonical form (20_memory R60). -/
def Obligations.StepKeepsBuffersInRange : Prop :=
  (∀ s t : State, s.BuffersInv → step s = .next t → t.BuffersInv) ∧
  ∀ s : State, s.cfg.InRange → s.BuffersInv → Memory.wf s.dec.inBuf ∧ Memory.wf s.enc.out

/-- The invariants hold after reset. That the parameters lie in their ranges there is a fact about the values that the
model chose for them, notes/assumptions/3.md. -/
def Obligations.ResetMeetsTheInvariants : Prop :=
  State.reset.ModelsInv ∧ State.reset.DeltaCachesInv ∧ State.reset.TablesInv ∧ State.reset.BuffersInv

/-! ### Round trip -/

/-- What ENC_WRITE writes, DEC_GET reads (47_stream_engine R362, R363): a decoder in step with the encoder before an
accepted ENC_WRITE, whose buffer goes on with the bytes that request writes, answers one DEC_GET with the measurement
written and is in step with the encoder after it. -/
def Obligations.DecoderReadsWhatEncWriteWrote : Prop :=
  ∀ (s t : State) (id : Word32) (ts : Word64) (q : Word32) (v : Value) (pre f : List Byte), s.get = none →
    s.dec.err = .none → s.TablesInv → s.BuffersInv →
    exec (.encWrite id ts q v) s = .next t → t.responses = s.responses ++ [.ok] →
    s.dec.InStep s.enc pre f → t.enc.Extends f →
    ∃ n u, StepsTo n { t with pending := [{ opcode := 0x2 }] } u ∧ u.get = none ∧ u.pending = [] ∧
      u.responses = t.responses ++ [.measurementRead id ts q v] ∧ u.dec.InStep t.enc pre f ∧ u.enc = t.enc

/-- As for ENC_WRITE, for the control records (46_control_codes R300, R302, R304, R308): what ENC_REGISTER, ENC_USER and
ENC_USER_DATA write one DEC_GET answers, and what ENC_FLUSH writes an open DEC_GET passes over in one step. The counts of
steps rest on notes/assumptions/1.md. -/
def Obligations.DecoderReadsTheControlRecords : Prop :=
  ∀ (s t : State) (pre f : List Byte), s.get = none → s.dec.err = .none → s.TablesInv → s.BuffersInv →
    s.dec.InStep s.enc pre f → t.enc.Extends f →
    (∀ (i : Instr) (sent answer : Response),
      ((∃ tb md tag id, s.cfg.typeCodes.tagOf tb = some tag ∧ i = .encRegister tb md ∧ sent = .okId id ∧
          answer = .newPointRegistered id tag md) ∨
       (∃ c, i = .encUser c ∧ sent = .ok ∧ answer = .userData c) ∨
       (∃ c b, i = .encUserData c b ∧ sent = .ok ∧ answer = .userDataWithValue c b)) →
      exec i s = .next t → t.responses = s.responses ++ [sent] →
      ∃ u, StepsTo 2 { t with pending := [{ opcode := 0x2 }] } u ∧ u.get = none ∧ u.pending = [] ∧
        u.responses = t.responses ++ [answer] ∧ u.dec.InStep t.enc pre f ∧ u.enc = t.enc) ∧
    (∀ g, exec .encFlush s = .next t → t.responses = s.responses ++ [.ok] → g.phase = .start →
      ∃ u, step { t with get := some g } = .next u ∧ u.dec.InStep t.enc pre f ∧ u.enc = t.enc ∧
        if t.enc.out.length = f.length then u.get = none ∧ u.responses = t.responses ++ [.endOfStream]
        else u.get = some { g with code := 3 } ∧ u.responses = t.responses)

/-- The round trip (47_stream_engine R362): take any successful encoder requests from reset, the last of them an
ENC_TAKE, and load the bytes of all its takes into a decoder fresh from reset; then DEC_GET until EndOfStream answers, in
order, with the registrations, the measurements and the user commands of those requests, and the decoder's stream state
equals the encoder's (R363). -/
def Obligations.DecodingUndoesEncoding : Prop :=
  ∀ (s t : State) (rs : List Request) (last : Request) (answers : List Response),
    s.cfg.InRange → s.dec = Dec.reset → s.enc = Enc.reset → s.get = none → s.responses = [] →
    s.pending = rs ++ [last] → (∀ r ∈ rs, 9 ≤ r.opcode.toNat) → last.opcode = 0xE →
    StepsTo (rs.length + 1) s t → t.responses = answers → (∀ a ∈ answers, a.succeeds = true) →
    let bytes := answers.flatMap Response.taken
    let decoded := ((rs ++ [last]).zip answers).flatMap fun ra => decodedAnswers s.cfg ra.1 ra.2
    bytes.length ≤ s.cfg.decBufMax →
    ∃ n u, StepsTo n { t with pending :=
        { opcode := 0x1, bytes := bytes } :: List.replicate (decoded.length + 1) { opcode := 0x2 } } u ∧
      u.get = none ∧ u.pending = [] ∧ u.responses = answers ++ [.ok] ++ decoded ++ [.endOfStream] ∧
      u.dec.stream = t.enc.stream ∧ u.enc = t.enc
end

