-- ==== Sys2Proof/Laws/State.lean ====
section
/-!
SUPPORT. One lemma for each field of each update, so that no later proof unfolds a record update.
-/

namespace Sys2Proof.Machine

/-! ### State.respond -/

@[simp] theorem State.respond_cfg (s : State) (r : Response) : (s.respond r).cfg = s.cfg := rfl
@[simp] theorem State.respond_dec (s : State) (r : Response) : (s.respond r).dec = s.dec := rfl
@[simp] theorem State.respond_enc (s : State) (r : Response) : (s.respond r).enc = s.enc := rfl
@[simp] theorem State.respond_get (s : State) (r : Response) : (s.respond r).get = s.get := rfl
@[simp] theorem State.respond_pending (s : State) (r : Response) : (s.respond r).pending = s.pending := rfl
@[simp] theorem State.respond_responses (s : State) (r : Response) : (s.respond r).responses = s.responses ++ [r] := rfl

/-! ### State.refuse -/

@[simp] theorem State.refuse_cfg (s : State) (c : ErrorCode) : (s.refuse c).cfg = s.cfg := rfl
@[simp] theorem State.refuse_dec (s : State) (c : ErrorCode) : (s.refuse c).dec = s.dec := rfl
@[simp] theorem State.refuse_enc (s : State) (c : ErrorCode) : (s.refuse c).enc = s.enc := rfl
@[simp] theorem State.refuse_get (s : State) (c : ErrorCode) : (s.refuse c).get = s.get := rfl
@[simp] theorem State.refuse_pending (s : State) (c : ErrorCode) : (s.refuse c).pending = s.pending := rfl
@[simp] theorem State.refuse_responses (s : State) (c : ErrorCode) : (s.refuse c).responses = s.responses ++ [.error c FaultRecord.zero] := rfl

/-! ### State.finishGet -/

@[simp] theorem State.finishGet_cfg (s : State) (d : Dec) (r : Response) : (s.finishGet d r).cfg = s.cfg := rfl
@[simp] theorem State.finishGet_dec (s : State) (d : Dec) (r : Response) : (s.finishGet d r).dec = d := rfl
@[simp] theorem State.finishGet_enc (s : State) (d : Dec) (r : Response) : (s.finishGet d r).enc = s.enc := rfl
@[simp] theorem State.finishGet_get (s : State) (d : Dec) (r : Response) : (s.finishGet d r).get = none := rfl
@[simp] theorem State.finishGet_pending (s : State) (d : Dec) (r : Response) : (s.finishGet d r).pending = s.pending := rfl
@[simp] theorem State.finishGet_responses (s : State) (d : Dec) (r : Response) : (s.finishGet d r).responses = s.responses ++ [r] := rfl

/-! ### State.takeDecError -/

@[simp] theorem State.takeDecError_cfg (s : State) (g : GetContext) (d : Dec) (c : ErrorCode) : (s.takeDecError g d c).cfg = s.cfg := rfl
@[simp] theorem State.takeDecError_dec (s : State) (g : GetContext) (d : Dec) (c : ErrorCode) : (s.takeDecError g d c).dec = { g.saved with err := c, finfo := d.faultRecord g.code g.phase } := rfl
@[simp] theorem State.takeDecError_enc (s : State) (g : GetContext) (d : Dec) (c : ErrorCode) : (s.takeDecError g d c).enc = s.enc := rfl
@[simp] theorem State.takeDecError_get (s : State) (g : GetContext) (d : Dec) (c : ErrorCode) : (s.takeDecError g d c).get = none := rfl
@[simp] theorem State.takeDecError_pending (s : State) (g : GetContext) (d : Dec) (c : ErrorCode) : (s.takeDecError g d c).pending = s.pending := rfl
@[simp] theorem State.takeDecError_responses (s : State) (g : GetContext) (d : Dec) (c : ErrorCode) : (s.takeDecError g d c).responses = s.responses ++ [.error c (d.faultRecord g.code g.phase)] := rfl

/-! ### State.takeEncError -/

@[simp] theorem State.takeEncError_cfg (s : State) (e : Enc) (l : BitVec 7) (k : Phase) (c : ErrorCode) : (s.takeEncError e l k c).cfg = s.cfg := rfl
@[simp] theorem State.takeEncError_dec (s : State) (e : Enc) (l : BitVec 7) (k : Phase) (c : ErrorCode) : (s.takeEncError e l k c).dec = s.dec := rfl
@[simp] theorem State.takeEncError_enc (s : State) (e : Enc) (l : BitVec 7) (k : Phase) (c : ErrorCode) : (s.takeEncError e l k c).enc = { s.enc with err := c, finfo := e.faultRecord l k } := rfl
@[simp] theorem State.takeEncError_get (s : State) (e : Enc) (l : BitVec 7) (k : Phase) (c : ErrorCode) : (s.takeEncError e l k c).get = s.get := rfl
@[simp] theorem State.takeEncError_pending (s : State) (e : Enc) (l : BitVec 7) (k : Phase) (c : ErrorCode) : (s.takeEncError e l k c).pending = s.pending := rfl
@[simp] theorem State.takeEncError_responses (s : State) (e : Enc) (l : BitVec 7) (k : Phase) (c : ErrorCode) : (s.takeEncError e l k c).responses = s.responses ++ [.error c (e.faultRecord l k)] := rfl

/-! ### State.resetDec -/

@[simp] theorem State.resetDec_cfg (s : State) : (s.resetDec).cfg = s.cfg := rfl
@[simp] theorem State.resetDec_dec (s : State) : (s.resetDec).dec = Dec.reset := rfl
@[simp] theorem State.resetDec_enc (s : State) : (s.resetDec).enc = s.enc := rfl
@[simp] theorem State.resetDec_get (s : State) : (s.resetDec).get = s.get := rfl
@[simp] theorem State.resetDec_pending (s : State) : (s.resetDec).pending = s.pending := rfl
@[simp] theorem State.resetDec_responses (s : State) : (s.resetDec).responses = s.responses := rfl

/-! ### State.resetEnc -/

@[simp] theorem State.resetEnc_cfg (s : State) : (s.resetEnc).cfg = s.cfg := rfl
@[simp] theorem State.resetEnc_dec (s : State) : (s.resetEnc).dec = s.dec := rfl
@[simp] theorem State.resetEnc_enc (s : State) : (s.resetEnc).enc = Enc.reset := rfl
@[simp] theorem State.resetEnc_get (s : State) : (s.resetEnc).get = s.get := rfl
@[simp] theorem State.resetEnc_pending (s : State) : (s.resetEnc).pending = s.pending := rfl
@[simp] theorem State.resetEnc_responses (s : State) : (s.resetEnc).responses = s.responses := rfl

/-! ### State.continueAt -/

@[simp] theorem State.continueAt_cfg (s : State) (g : GetContext) (k : Phase) (d : Dec) : (s.continueAt g k d).cfg = s.cfg := rfl
@[simp] theorem State.continueAt_dec (s : State) (g : GetContext) (k : Phase) (d : Dec) : (s.continueAt g k d).dec = d := rfl
@[simp] theorem State.continueAt_enc (s : State) (g : GetContext) (k : Phase) (d : Dec) : (s.continueAt g k d).enc = s.enc := rfl
@[simp] theorem State.continueAt_get (s : State) (g : GetContext) (k : Phase) (d : Dec) : (s.continueAt g k d).get = some { g with phase := k } := rfl
@[simp] theorem State.continueAt_pending (s : State) (g : GetContext) (k : Phase) (d : Dec) : (s.continueAt g k d).pending = s.pending := rfl
@[simp] theorem State.continueAt_responses (s : State) (g : GetContext) (k : Phase) (d : Dec) : (s.continueAt g k d).responses = s.responses := rfl

/-! ### State.fetched -/

@[simp] theorem State.fetched_cfg (s : State) (g : GetContext) (c : Code) (d : Dec) : (s.fetched g c d).cfg = s.cfg := rfl
@[simp] theorem State.fetched_dec (s : State) (g : GetContext) (c : Code) (d : Dec) : (s.fetched g c d).dec = d := rfl
@[simp] theorem State.fetched_enc (s : State) (g : GetContext) (c : Code) (d : Dec) : (s.fetched g c d).enc = s.enc := rfl
@[simp] theorem State.fetched_get (s : State) (g : GetContext) (c : Code) (d : Dec) : (s.fetched g c d).get = some { g with code := codeField c } := rfl
@[simp] theorem State.fetched_pending (s : State) (g : GetContext) (c : Code) (d : Dec) : (s.fetched g c d).pending = s.pending := rfl
@[simp] theorem State.fetched_responses (s : State) (g : GetContext) (c : Code) (d : Dec) : (s.fetched g c d).responses = s.responses := rfl

/-! ### State.accepted -/

@[simp] theorem State.accepted_cfg (s : State) (rest : List Request) : (s.accepted rest).cfg = s.cfg := rfl
@[simp] theorem State.accepted_dec (s : State) (rest : List Request) : (s.accepted rest).dec = s.dec := rfl
@[simp] theorem State.accepted_enc (s : State) (rest : List Request) : (s.accepted rest).enc = s.enc := rfl
@[simp] theorem State.accepted_get (s : State) (rest : List Request) : (s.accepted rest).get = s.get := rfl
@[simp] theorem State.accepted_pending (s : State) (rest : List Request) : (s.accepted rest).pending = rest := rfl
@[simp] theorem State.accepted_responses (s : State) (rest : List Request) : (s.accepted rest).responses = s.responses := rfl

/-! ### State.finishMeasurement -/

@[simp] theorem State.finishMeasurement_cfg (s : State) (p : Point) (vs : PointValues) (v : Value) (d : Dec) : (s.finishMeasurement p vs v d).cfg = s.cfg := rfl
@[simp] theorem State.finishMeasurement_dec (s : State) (p : Point) (vs : PointValues) (v : Value) (d : Dec) : (s.finishMeasurement p vs v d).dec = { d with stream := d.stream.setValues vs } := rfl
@[simp] theorem State.finishMeasurement_enc (s : State) (p : Point) (vs : PointValues) (v : Value) (d : Dec) : (s.finishMeasurement p vs v d).enc = s.enc := rfl
@[simp] theorem State.finishMeasurement_get (s : State) (p : Point) (vs : PointValues) (v : Value) (d : Dec) : (s.finishMeasurement p vs v d).get = none := rfl
@[simp] theorem State.finishMeasurement_pending (s : State) (p : Point) (vs : PointValues) (v : Value) (d : Dec) : (s.finishMeasurement p vs v d).pending = s.pending := rfl
@[simp] theorem State.finishMeasurement_responses (s : State) (p : Point) (vs : PointValues) (v : Value) (d : Dec) : (s.finishMeasurement p vs v d).responses = s.responses ++ [.measurementRead p.id d.stream.t1 p.q1 v] := rfl

/-! ### Dec.discardBits -/

@[simp] theorem Dec.discardBits_stream (d : Dec) : (d.discardBits).stream = d.stream := rfl
@[simp] theorem Dec.discardBits_inBuf (d : Dec) : (d.discardBits).inBuf = d.inBuf := rfl
@[simp] theorem Dec.discardBits_pos (d : Dec) : (d.discardBits).pos = d.pos := rfl
@[simp] theorem Dec.discardBits_rcache (d : Dec) : (d.discardBits).rcache = d.rcache := rfl
@[simp] theorem Dec.discardBits_rcnt (d : Dec) : (d.discardBits).rcnt = 0 := rfl
@[simp] theorem Dec.discardBits_err (d : Dec) : (d.discardBits).err = d.err := rfl
@[simp] theorem Dec.discardBits_finfo (d : Dec) : (d.discardBits).finfo = d.finfo := rfl

/-! ### Dec.load -/

@[simp] theorem Dec.load_stream (d : Dec) (b : List Byte) : (d.load b).stream = d.stream := rfl
@[simp] theorem Dec.load_inBuf (d : Dec) (b : List Byte) : (d.load b).inBuf = b := rfl
@[simp] theorem Dec.load_pos (d : Dec) (b : List Byte) : (d.load b).pos = 0 := rfl
@[simp] theorem Dec.load_rcache (d : Dec) (b : List Byte) : (d.load b).rcache = 0x00 := rfl
@[simp] theorem Dec.load_rcnt (d : Dec) (b : List Byte) : (d.load b).rcnt = 0 := rfl
@[simp] theorem Dec.load_err (d : Dec) (b : List Byte) : (d.load b).err = d.err := rfl
@[simp] theorem Dec.load_finfo (d : Dec) (b : List Byte) : (d.load b).finfo = d.finfo := rfl

/-! ### Dec.placed -/

@[simp] theorem Dec.placed_stream (d : Dec) (b : List Byte) : (d.placed b).stream = d.stream := rfl
@[simp] theorem Dec.placed_inBuf (d : Dec) (b : List Byte) : (d.placed b).inBuf = b := rfl
@[simp] theorem Dec.placed_pos (d : Dec) (b : List Byte) : (d.placed b).pos = 0 := rfl
@[simp] theorem Dec.placed_rcache (d : Dec) (b : List Byte) : (d.placed b).rcache = 0x00 := rfl
@[simp] theorem Dec.placed_rcnt (d : Dec) (b : List Byte) : (d.placed b).rcnt = 0 := rfl
@[simp] theorem Dec.placed_err (d : Dec) (b : List Byte) : (d.placed b).err = d.err := rfl
@[simp] theorem Dec.placed_finfo (d : Dec) (b : List Byte) : (d.placed b).finfo = d.finfo := rfl

/-! ### Dec.movedTo -/

@[simp] theorem Dec.movedTo_stream (d d' : Dec) : (d.movedTo d').stream = d.stream := rfl
@[simp] theorem Dec.movedTo_inBuf (d d' : Dec) : (d.movedTo d').inBuf = d.inBuf := rfl
@[simp] theorem Dec.movedTo_pos (d d' : Dec) : (d.movedTo d').pos = d'.pos := rfl
@[simp] theorem Dec.movedTo_rcache (d d' : Dec) : (d.movedTo d').rcache = d'.rcache := rfl
@[simp] theorem Dec.movedTo_rcnt (d d' : Dec) : (d.movedTo d').rcnt = d'.rcnt := rfl
@[simp] theorem Dec.movedTo_err (d d' : Dec) : (d.movedTo d').err = d.err := rfl
@[simp] theorem Dec.movedTo_finfo (d d' : Dec) : (d.movedTo d').finfo = d.finfo := rfl

/-! ### Enc.writeByte -/

@[simp] theorem Enc.writeByte_stream (e : Enc) (b : Byte) : (e.writeByte b).stream = e.stream := rfl
@[simp] theorem Enc.writeByte_out (e : Enc) (b : Byte) : (e.writeByte b).out = memWrite e.out e.out.length b := rfl
@[simp] theorem Enc.writeByte_wcache (e : Enc) (b : Byte) : (e.writeByte b).wcache = e.wcache := rfl
@[simp] theorem Enc.writeByte_wcnt (e : Enc) (b : Byte) : (e.writeByte b).wcnt = e.wcnt := rfl
@[simp] theorem Enc.writeByte_wslot (e : Enc) (b : Byte) : (e.writeByte b).wslot = e.wslot := rfl
@[simp] theorem Enc.writeByte_err (e : Enc) (b : Byte) : (e.writeByte b).err = e.err := rfl
@[simp] theorem Enc.writeByte_finfo (e : Enc) (b : Byte) : (e.writeByte b).finfo = e.finfo := rfl

/-! ### Stream.register -/

@[simp] theorem Stream.register_pts (st : Stream) (t : TypeTag) (m : List Byte) : (st.register t m).pts = st.pts ++ [Point.create st.nextId t m] := rfl
@[simp] theorem Stream.register_cursor (st : Stream) (t : TypeTag) (m : List Byte) : (st.register t m).cursor = st.nextId := rfl
@[simp] theorem Stream.register_t1 (st : Stream) (t : TypeTag) (m : List Byte) : (st.register t m).t1 = st.t1 := rfl
@[simp] theorem Stream.register_t2 (st : Stream) (t : TypeTag) (m : List Byte) : (st.register t m).t2 = st.t2 := rfl
@[simp] theorem Stream.register_dt1 (st : Stream) (t : TypeTag) (m : List Byte) : (st.register t m).dt1 = st.dt1 := rfl
@[simp] theorem Stream.register_dt2 (st : Stream) (t : TypeTag) (m : List Byte) : (st.register t m).dt2 = st.dt2 := rfl
@[simp] theorem Stream.register_dt3 (st : Stream) (t : TypeTag) (m : List Byte) : (st.register t m).dt3 = st.dt3 := rfl
@[simp] theorem Stream.register_dt4 (st : Stream) (t : TypeTag) (m : List Byte) : (st.register t m).dt4 = st.dt4 := rfl
@[simp] theorem Stream.register_tvalid (st : Stream) (t : TypeTag) (m : List Byte) : (st.register t m).tvalid = st.tvalid := rfl
@[simp] theorem Stream.register_boot (st : Stream) (t : TypeTag) (m : List Byte) : (st.register t m).boot = st.boot := rfl

/-! ### Stream.moveCursor -/

@[simp] theorem Stream.moveCursor_pts (st : Stream) (x : Word32) : (st.moveCursor x).pts = st.pts := rfl
@[simp] theorem Stream.moveCursor_cursor (st : Stream) (x : Word32) : (st.moveCursor x).cursor = st.cursor ^^^ x := rfl
@[simp] theorem Stream.moveCursor_t1 (st : Stream) (x : Word32) : (st.moveCursor x).t1 = st.t1 := rfl
@[simp] theorem Stream.moveCursor_t2 (st : Stream) (x : Word32) : (st.moveCursor x).t2 = st.t2 := rfl
@[simp] theorem Stream.moveCursor_dt1 (st : Stream) (x : Word32) : (st.moveCursor x).dt1 = st.dt1 := rfl
@[simp] theorem Stream.moveCursor_dt2 (st : Stream) (x : Word32) : (st.moveCursor x).dt2 = st.dt2 := rfl
@[simp] theorem Stream.moveCursor_dt3 (st : Stream) (x : Word32) : (st.moveCursor x).dt3 = st.dt3 := rfl
@[simp] theorem Stream.moveCursor_dt4 (st : Stream) (x : Word32) : (st.moveCursor x).dt4 = st.dt4 := rfl
@[simp] theorem Stream.moveCursor_tvalid (st : Stream) (x : Word32) : (st.moveCursor x).tvalid = st.tvalid := rfl
@[simp] theorem Stream.moveCursor_boot (st : Stream) (x : Word32) : (st.moveCursor x).boot = st.boot := rfl

/-! ### Stream.mapTarget -/

@[simp] theorem Stream.mapTarget_pts (st : Stream) (f : Point → Point) : (st.mapTarget f).pts = st.pts.modify st.cursor.toNat f := rfl
@[simp] theorem Stream.mapTarget_cursor (st : Stream) (f : Point → Point) : (st.mapTarget f).cursor = st.cursor := rfl
@[simp] theorem Stream.mapTarget_t1 (st : Stream) (f : Point → Point) : (st.mapTarget f).t1 = st.t1 := rfl
@[simp] theorem Stream.mapTarget_t2 (st : Stream) (f : Point → Point) : (st.mapTarget f).t2 = st.t2 := rfl
@[simp] theorem Stream.mapTarget_dt1 (st : Stream) (f : Point → Point) : (st.mapTarget f).dt1 = st.dt1 := rfl
@[simp] theorem Stream.mapTarget_dt2 (st : Stream) (f : Point → Point) : (st.mapTarget f).dt2 = st.dt2 := rfl
@[simp] theorem Stream.mapTarget_dt3 (st : Stream) (f : Point → Point) : (st.mapTarget f).dt3 = st.dt3 := rfl
@[simp] theorem Stream.mapTarget_dt4 (st : Stream) (f : Point → Point) : (st.mapTarget f).dt4 = st.dt4 := rfl
@[simp] theorem Stream.mapTarget_tvalid (st : Stream) (f : Point → Point) : (st.mapTarget f).tvalid = st.tvalid := rfl
@[simp] theorem Stream.mapTarget_boot (st : Stream) (f : Point → Point) : (st.mapTarget f).boot = st.boot := rfl

/-! ### Stream.setValues -/

@[simp] theorem Stream.setValues_pts (st : Stream) (vs : PointValues) : (st.setValues vs).pts = st.pts.modify st.cursor.toNat fun p => { p with values := vs } := rfl
@[simp] theorem Stream.setValues_cursor (st : Stream) (vs : PointValues) : (st.setValues vs).cursor = st.cursor := rfl
@[simp] theorem Stream.setValues_t1 (st : Stream) (vs : PointValues) : (st.setValues vs).t1 = st.t1 := rfl
@[simp] theorem Stream.setValues_t2 (st : Stream) (vs : PointValues) : (st.setValues vs).t2 = st.t2 := rfl
@[simp] theorem Stream.setValues_dt1 (st : Stream) (vs : PointValues) : (st.setValues vs).dt1 = st.dt1 := rfl
@[simp] theorem Stream.setValues_dt2 (st : Stream) (vs : PointValues) : (st.setValues vs).dt2 = st.dt2 := rfl
@[simp] theorem Stream.setValues_dt3 (st : Stream) (vs : PointValues) : (st.setValues vs).dt3 = st.dt3 := rfl
@[simp] theorem Stream.setValues_dt4 (st : Stream) (vs : PointValues) : (st.setValues vs).dt4 = st.dt4 := rfl
@[simp] theorem Stream.setValues_tvalid (st : Stream) (vs : PointValues) : (st.setValues vs).tvalid = st.tvalid := rfl
@[simp] theorem Stream.setValues_boot (st : Stream) (vs : PointValues) : (st.setValues vs).boot = st.boot := rfl

/-! ### Stream.updateQuality -/

@[simp] theorem Stream.updateQuality_pts (st : Stream) (q : Word32) : (st.updateQuality q).pts = st.pts.modify st.cursor.toNat (Point.updateQuality q) := rfl
@[simp] theorem Stream.updateQuality_cursor (st : Stream) (q : Word32) : (st.updateQuality q).cursor = st.cursor := rfl
@[simp] theorem Stream.updateQuality_t1 (st : Stream) (q : Word32) : (st.updateQuality q).t1 = st.t1 := rfl
@[simp] theorem Stream.updateQuality_t2 (st : Stream) (q : Word32) : (st.updateQuality q).t2 = st.t2 := rfl
@[simp] theorem Stream.updateQuality_dt1 (st : Stream) (q : Word32) : (st.updateQuality q).dt1 = st.dt1 := rfl
@[simp] theorem Stream.updateQuality_dt2 (st : Stream) (q : Word32) : (st.updateQuality q).dt2 = st.dt2 := rfl
@[simp] theorem Stream.updateQuality_dt3 (st : Stream) (q : Word32) : (st.updateQuality q).dt3 = st.dt3 := rfl
@[simp] theorem Stream.updateQuality_dt4 (st : Stream) (q : Word32) : (st.updateQuality q).dt4 = st.dt4 := rfl
@[simp] theorem Stream.updateQuality_tvalid (st : Stream) (q : Word32) : (st.updateQuality q).tvalid = st.tvalid := rfl
@[simp] theorem Stream.updateQuality_boot (st : Stream) (q : Word32) : (st.updateQuality q).boot = st.boot := rfl

/-! ### Point.updateQuality -/

@[simp] theorem Point.updateQuality_id (p : Point) (q : Word32) : (p.updateQuality q).id = p.id := rfl
@[simp] theorem Point.updateQuality_values (p : Point) (q : Word32) : (p.updateQuality q).values = p.values := rfl
@[simp] theorem Point.updateQuality_q1 (p : Point) (q : Word32) : (p.updateQuality q).q1 = q := rfl
@[simp] theorem Point.updateQuality_q2 (p : Point) (q : Word32) : (p.updateQuality q).q2 = p.q1 := rfl
@[simp] theorem Point.updateQuality_metadata (p : Point) (q : Word32) : (p.updateQuality q).metadata = p.metadata := rfl
@[simp] theorem Point.updateQuality_model (p : Point) (q : Word32) : (p.updateQuality q).model = p.model := rfl

/-! ### History.push -/

@[simp] theorem History.push_v1 {n : Nat} (h : History n) (v : BitVec n) : (h.push v).v1 = v := rfl
@[simp] theorem History.push_v2 {n : Nat} (h : History n) (v : BitVec n) : (h.push v).v2 = h.v1 := rfl
@[simp] theorem History.push_v3 {n : Nat} (h : History n) (v : BitVec n) : (h.push v).v3 = h.v2 := rfl

/-! ### History.hit2 -/

@[simp] theorem History.hit2_v1 {n : Nat} (h : History n) : (h.hit2).v1 = h.v2 := rfl
@[simp] theorem History.hit2_v2 {n : Nat} (h : History n) : (h.hit2).v2 = h.v1 := rfl
@[simp] theorem History.hit2_v3 {n : Nat} (h : History n) : (h.hit2).v3 = h.v3 := rfl

/-! ### History.hit3 -/

@[simp] theorem History.hit3_v1 {n : Nat} (h : History n) : (h.hit3).v1 = h.v3 := rfl
@[simp] theorem History.hit3_v2 {n : Nat} (h : History n) : (h.hit3).v2 = h.v1 := rfl
@[simp] theorem History.hit3_v3 {n : Nat} (h : History n) : (h.hit3).v3 = h.v2 := rfl

/-! ### EncRun.start -/

@[simp] theorem EncRun.start_enc (e : Enc) : (EncRun.start e).enc = e := rfl
@[simp] theorem EncRun.start_code (e : Enc) : (EncRun.start e).code = noCode := rfl
@[simp] theorem EncRun.start_phase (e : Enc) : (EncRun.start e).phase = .start := rfl

/-! ### EncRun.writeCode -/

@[simp] theorem EncRun.writeCode_enc (r : EncRun) (c : Code) : (r.writeCode c).enc = r.enc.writeCode c := rfl
@[simp] theorem EncRun.writeCode_code (r : EncRun) (c : Code) : (r.writeCode c).code = codeField c := rfl
@[simp] theorem EncRun.writeCode_phase (r : EncRun) (c : Code) : (r.writeCode c).phase = r.phase := rfl

/-! ### EncRun.payload -/

@[simp] theorem EncRun.payload_enc (r : EncRun) (f : Enc → Enc) : (r.payload f).enc = f r.enc := rfl
@[simp] theorem EncRun.payload_code (r : EncRun) (f : Enc → Enc) : (r.payload f).code = r.code := rfl
@[simp] theorem EncRun.payload_phase (r : EncRun) (f : Enc → Enc) : (r.payload f).phase = r.phase := rfl

/-! ### EncRun.mapStream -/

@[simp] theorem EncRun.mapStream_enc (r : EncRun) (f : Stream → Stream) : (r.mapStream f).enc = { r.enc with stream := f r.enc.stream } := rfl
@[simp] theorem EncRun.mapStream_code (r : EncRun) (f : Stream → Stream) : (r.mapStream f).code = r.code := rfl
@[simp] theorem EncRun.mapStream_phase (r : EncRun) (f : Stream → Stream) : (r.mapStream f).phase = r.phase := rfl

/-! ### EncRun.at -/

@[simp] theorem EncRun.at_enc (r : EncRun) (k : Phase) : (r.at k).enc = r.enc := rfl
@[simp] theorem EncRun.at_code (r : EncRun) (k : Phase) : (r.at k).code = r.code := rfl
@[simp] theorem EncRun.at_phase (r : EncRun) (k : Phase) : (r.at k).phase = k := rfl

/-! ### CodeModel.countCode -/

@[simp] theorem CodeModel.countCode_mode (m : CodeModel) (c : Code) : (m.countCode c).mode = m.mode := rfl
@[simp] theorem CodeModel.countCode_mode2_1 (m : CodeModel) (c : Code) : (m.countCode c).mode2_1 = m.mode2_1 := rfl
@[simp] theorem CodeModel.countCode_mode3_1 (m : CodeModel) (c : Code) : (m.countCode c).mode3_1 = m.mode3_1 := rfl
@[simp] theorem CodeModel.countCode_mode3_01 (m : CodeModel) (c : Code) : (m.countCode c).mode3_01 = m.mode3_01 := rfl
@[simp] theorem CodeModel.countCode_mode4_1 (m : CodeModel) (c : Code) : (m.countCode c).mode4_1 = m.mode4_1 := rfl
@[simp] theorem CodeModel.countCode_mode4_01 (m : CodeModel) (c : Code) : (m.countCode c).mode4_01 = m.mode4_01 := rfl
@[simp] theorem CodeModel.countCode_mode4_001 (m : CodeModel) (c : Code) : (m.countCode c).mode4_001 = m.mode4_001 := rfl
@[simp] theorem CodeModel.countCode_cnt (m : CodeModel) (c : Code) : (m.countCode c).cnt = m.cnt.set c.toFin (m.count c + 1) := rfl
@[simp] theorem CodeModel.countCode_since (m : CodeModel) (c : Code) : (m.countCode c).since = m.since + 1 := rfl
@[simp] theorem CodeModel.countCode_epoch (m : CodeModel) (c : Code) : (m.countCode c).epoch = m.epoch := rfl

/-! ### Updates that keep the stream tables by cases -/

/-- The cache insertion writes nothing but the cache (42_timestamp R211). -/
@[simp] theorem Stream.insertDelta_pts (st : Stream) (n : Nat) : (st.insertDelta n).pts = st.pts := by
  unfold Stream.insertDelta; dsimp only; split_ifs <;> rfl

@[simp] theorem Stream.insertDelta_cursor (st : Stream) (n : Nat) : (st.insertDelta n).cursor = st.cursor := by
  unfold Stream.insertDelta; dsimp only; split_ifs <;> rfl

@[simp] theorem Stream.insertDelta_boot (st : Stream) (n : Nat) : (st.insertDelta n).boot = st.boot := by
  unfold Stream.insertDelta; dsimp only; split_ifs <;> rfl

@[simp] theorem Stream.updateTime_t1 (st : Stream) (ts : Word64) : (st.updateTime ts).t1 = ts := rfl
@[simp] theorem Stream.updateTime_t2 (st : Stream) (ts : Word64) : (st.updateTime ts).t2 = st.t1 := rfl
@[simp] theorem Stream.updateTime_tvalid (st : Stream) (ts : Word64) : (st.updateTime ts).tvalid = true := rfl

@[simp] theorem Stream.updateTime_pts (st : Stream) (ts : Word64) : (st.updateTime ts).pts = st.pts := by
  unfold Stream.updateTime; simp only; split <;> simp

@[simp] theorem Stream.updateTime_cursor (st : Stream) (ts : Word64) : (st.updateTime ts).cursor = st.cursor := by
  unfold Stream.updateTime; simp only; split <;> simp

@[simp] theorem Stream.updateTime_boot (st : Stream) (ts : Word64) : (st.updateTime ts).boot = st.boot := by
  unfold Stream.updateTime; simp only; split <;> simp

end Sys2Proof.Machine
end

