-- ==== Sys2Proof/Laws/Read.lean ====
section
/-!
SUPPORT. What the decoder's read primitives can do, said once: a read moves the read cursor and the bit cache and
nothing else, never moves them back, keeps them in range, and raises BufferUnderrun only.
-/

namespace Sys2Proof.Machine

/-! ### Program order -/

@[simp] theorem ReadResult.bind_ok {α β : Type} (a : α) (d : Dec) (f : α → Dec → ReadResult β) :
    (ReadResult.ok a d).bind f = f a d := rfl

@[simp] theorem ReadResult.bind_raised {α β : Type} (e : ErrorCode) (d : Dec) (f : α → Dec → ReadResult β) :
    (ReadResult.raised e d : ReadResult α).bind f = .raised e d := rfl

theorem ReadResult.bind_eq_ok {α β : Type} {r : ReadResult α} {f : α → Dec → ReadResult β} {b : β} {d' : Dec} :
    r.bind f = .ok b d' ↔ ∃ a d, r = .ok a d ∧ f a d = .ok b d' := by
  cases r <;> simp

theorem ReadResult.bind_eq_raised {α β : Type} {r : ReadResult α} {f : α → Dec → ReadResult β} {e : ErrorCode}
    {d' : Dec} :
    r.bind f = .raised e d' ↔ r = .raised e d' ∨ ∃ a d, r = .ok a d ∧ f a d = .raised e d' := by
  cases r <;> simp

theorem ReadResult.bind_assoc {α β γ : Type} (r : ReadResult α) (f : α → Dec → ReadResult β)
    (g : β → Dec → ReadResult γ) : (r.bind f).bind g = r.bind fun a d => (f a d).bind g := by
  cases r <;> rfl

/-- The decoder after a read, whether it answered or raised. -/
def ReadResult.after {α : Type} : ReadResult α → Dec
  | .ok _ d => d
  | .raised _ d => d

@[simp] theorem ReadResult.after_ok {α : Type} (a : α) (d : Dec) : (ReadResult.ok a d).after = d := rfl

@[simp] theorem ReadResult.after_raised {α : Type} (e : ErrorCode) (d : Dec) :
    (ReadResult.raised e d : ReadResult α).after = d := rfl

/-! ### Moving the read cursor -/

@[simp] theorem Dec.movedTo_self (d : Dec) : d.movedTo d = d := rfl

@[simp] theorem Dec.movedTo_movedTo (d d' d'' : Dec) : (d.movedTo d').movedTo d'' = d.movedTo d'' := rfl

theorem Dec.eq_movedTo_trans {d d' d'' : Dec} (h : d' = d.movedTo d') (h' : d'' = d'.movedTo d'') :
    d'' = d.movedTo d'' := by
  rw [h', h]; rfl

/-- Everything a read from `d` can do. -/
structure ReadLaw {α : Type} (d : Dec) (r : ReadResult α) : Prop where
  moved : r.after = d.movedTo r.after
  bitsLeft_le : r.after.bitsLeft ≤ d.bitsLeft
  pos_ge : d.pos ≤ r.after.pos
  pos_le : d.pos ≤ d.inBuf.length → r.after.pos ≤ d.inBuf.length
  rcnt_le : d.rcnt ≤ 8 → r.after.rcnt ≤ 8
  raised_underrun : ∀ e d', r = .raised e d' → e = .bufferUnderrun

theorem ReadLaw.inBuf {α : Type} {d : Dec} {r : ReadResult α} (h : ReadLaw d r) : r.after.inBuf = d.inBuf := by
  rw [h.moved]; rfl

theorem ReadLaw.stream {α : Type} {d : Dec} {r : ReadResult α} (h : ReadLaw d r) : r.after.stream = d.stream := by
  rw [h.moved]; rfl

theorem ReadLaw.err {α : Type} {d : Dec} {r : ReadResult α} (h : ReadLaw d r) : r.after.err = d.err := by
  rw [h.moved]; rfl

theorem ReadLaw.ok {α : Type} (a : α) (d : Dec) : ReadLaw d (.ok a d) where
  moved := rfl
  bitsLeft_le := le_rfl
  pos_ge := le_rfl
  pos_le := id
  rcnt_le := id
  raised_underrun := by simp

/-- Reads compose. -/
theorem ReadLaw.bind {α β : Type} {d : Dec} {r : ReadResult α} {f : α → Dec → ReadResult β} (hr : ReadLaw d r)
    (hf : ∀ a d', r = .ok a d' → ReadLaw d' (f a d')) : ReadLaw d (r.bind f) := by
  cases r with
  | raised e d' =>
    exact ⟨hr.moved, hr.bitsLeft_le, hr.pos_ge, hr.pos_le, hr.rcnt_le, fun e' d'' h => by
      obtain ⟨rfl, rfl⟩ := by simpa using h
      exact hr.raised_underrun _ _ rfl⟩
  | ok a d' =>
    have h := hf a d' rfl
    have hin : d'.inBuf = d.inBuf := hr.inBuf
    exact ⟨Dec.eq_movedTo_trans hr.moved h.moved, h.bitsLeft_le.trans hr.bitsLeft_le, hr.pos_ge.trans h.pos_ge,
      fun hp => hin ▸ h.pos_le (hin ▸ hr.pos_le hp), fun hc => h.rcnt_le (hr.rcnt_le hc), h.raised_underrun⟩

/-! ### The primitives -/

/-- What ReadBit answers when it answers (20_memory R61): the next bit of the cache, or bit 7 of the next byte. -/
theorem Dec.readBit_eq_ok {d d' : Dec} {b : Bool} (h : d.readBit = .ok b d') :
    (d.rcnt = 0 ∧ ∃ v, d.inBuf[d.pos]? = some v ∧ b = v.getLsbD 7 ∧
      d' = { d with rcache := v, pos := d.pos + 1, rcnt := 7 }) ∨
    (0 < d.rcnt ∧ b = d.rcache.getLsbD (d.rcnt - 1) ∧ d' = { d with rcnt := d.rcnt - 1 }) := by
  unfold Dec.readBit memRead at h
  split at h
  · rename_i h0
    split at h
    · cases h
    · rename_i v hv
      obtain ⟨rfl, rfl⟩ := by simpa using h
      exact .inl ⟨h0, v, hv, rfl, rfl⟩
  · rename_i h0
    obtain ⟨rfl, rfl⟩ := by simpa using h
    exact .inr ⟨Nat.pos_of_ne_zero h0, rfl, rfl⟩

/-- ReadBit raises only at the end of the buffer, with the cache empty, and changes nothing (20_memory R62). -/
theorem Dec.readBit_eq_raised {d d' : Dec} {e : ErrorCode} (h : d.readBit = .raised e d') :
    d.rcnt = 0 ∧ d.inBuf.length ≤ d.pos ∧ e = .bufferUnderrun ∧ d' = d := by
  unfold Dec.readBit memRead at h
  split at h
  · rename_i h0
    split at h
    · rename_i hn
      obtain ⟨rfl, rfl⟩ := by simpa using h
      exact ⟨h0, by simpa using hn, rfl, rfl⟩
    · cases h
  · cases h

/-- What ReadByte answers when it answers (20_memory R64): the byte at the cursor. -/
theorem Dec.readByte_eq_ok {d d' : Dec} {b : Byte} (h : d.readByte = .ok b d') :
    d.inBuf[d.pos]? = some b ∧ d' = { d with pos := d.pos + 1 } := by
  unfold Dec.readByte memRead at h
  split at h
  · cases h
  · rename_i v hv
    obtain ⟨rfl, rfl⟩ := by simpa using h
    exact ⟨hv, rfl⟩

/-- ReadByte raises only at the end of the buffer, and changes nothing (20_memory R62). -/
theorem Dec.readByte_eq_raised {d d' : Dec} {e : ErrorCode} (h : d.readByte = .raised e d') :
    d.inBuf.length ≤ d.pos ∧ e = .bufferUnderrun ∧ d' = d := by
  unfold Dec.readByte memRead at h
  split at h
  · rename_i hn
    obtain ⟨rfl, rfl⟩ := by simpa using h
    exact ⟨by simpa using hn, rfl, rfl⟩
  · cases h

/-- A bit that was read is one bit less to read (70_reset_and_hazards R471). -/
theorem Dec.readBit_bitsLeft {d d' : Dec} {b : Bool} (h : d.readBit = .ok b d') : d'.bitsLeft + 1 = d.bitsLeft := by
  obtain ⟨h0, v, hv, -, rfl⟩ | ⟨h0, -, rfl⟩ := Dec.readBit_eq_ok h
  · obtain ⟨hlt, -⟩ := List.getElem?_eq_some_iff.1 hv
    simp only [Dec.bitsLeft]; omega
  · simp only [Dec.bitsLeft]; omega

theorem Dec.readBit_law (d : Dec) : ReadLaw d d.readBit := by
  cases h : d.readBit with
  | raised e d' =>
    obtain ⟨-, -, rfl, rfl⟩ := Dec.readBit_eq_raised h
    exact ⟨rfl, le_rfl, le_rfl, id, id, by simp⟩
  | ok b d' =>
    have hb := Dec.readBit_bitsLeft h
    obtain ⟨h0, v, hv, -, rfl⟩ | ⟨h0, -, rfl⟩ := Dec.readBit_eq_ok h
    · obtain ⟨hlt, -⟩ := List.getElem?_eq_some_iff.1 hv
      exact ⟨rfl, by simp only [ReadResult.after_ok]; omega, by simp, by simp; omega, by simp, by simp⟩
    · exact ⟨rfl, by simp only [ReadResult.after_ok]; omega, by simp, by simp, by simp; omega, by simp⟩

theorem Dec.readByte_law (d : Dec) : ReadLaw d d.readByte := by
  cases h : d.readByte with
  | raised e d' =>
    obtain ⟨-, rfl, rfl⟩ := Dec.readByte_eq_raised h
    exact ⟨rfl, le_rfl, le_rfl, id, id, by simp⟩
  | ok b d' =>
    obtain ⟨hv, rfl⟩ := Dec.readByte_eq_ok h
    obtain ⟨hlt, -⟩ := List.getElem?_eq_some_iff.1 hv
    exact ⟨rfl, by simp only [ReadResult.after_ok, Dec.bitsLeft]; omega, by simp, by simp; omega, by simp, by simp⟩

theorem Dec.readBitsFrom_law (n v : Nat) (d : Dec) : ReadLaw d (Dec.readBitsFrom n v d) := by
  induction n generalizing v d with
  | zero => exact .ok v d
  | succ n ih => exact d.readBit_law.bind fun b d' _ => ih _ d'

theorem Dec.readBits_law (n : Nat) (d : Dec) : ReadLaw d (d.readBits n) :=
  (Dec.readBitsFrom_law n 0 d).bind fun _ _ _ => .ok _ _

theorem Dec.readXorBytes_law {w : Nat} (nb k : Nat) (x : BitVec w) (d : Dec) :
    ReadLaw d (Dec.readXorBytes nb k x d) := by
  induction nb generalizing k x d with
  | zero => exact .ok x d
  | succ nb ih => exact d.readByte_law.bind fun b d' _ => ih _ _ d'

theorem Dec.readXor_law (w : Nat) (d : Dec) : ReadLaw d (d.readXor w) := by
  unfold Dec.readXor
  split
  · exact (Dec.readBits_law 4 d).bind fun _ _ _ => Dec.readXorBytes_law _ _ _ _
  · exact Dec.readXorBytes_law _ _ _ _

theorem Dec.readVarintFrom_law (fuel k v : Nat) (d : Dec) : ReadLaw d (Dec.readVarintFrom fuel k v d) := by
  induction fuel generalizing k v d with
  | zero => exact ⟨rfl, le_rfl, le_rfl, id, id, by simp [Dec.readVarintFrom]⟩
  | succ fuel ih =>
    refine d.readByte_law.bind fun b d' _ => ?_
    dsimp only
    split
    · exact ih _ _ d'
    · exact .ok _ d'

theorem Dec.readVarint_law (n : Nat) (d : Dec) : ReadLaw d (d.readVarint n) :=
  (Dec.readVarintFrom_law _ 0 0 d).bind fun _ _ _ => .ok _ _

theorem Dec.readBytes_law (n : Nat) (d : Dec) : ReadLaw d (Dec.readBytes n d) := by
  induction n generalizing d with
  | zero => exact .ok _ d
  | succ n ih => exact d.readByte_law.bind fun b d' _ => (ih d').bind fun _ _ _ => .ok _ _

theorem Dec.readCodeWord_law (es : List Code) (d : Dec) : ReadLaw d (Dec.readCodeWord es d) := by
  induction es generalizing d with
  | nil => exact Dec.readBits_law 6 d
  | cons e es ih =>
    refine d.readBit_law.bind fun b d' _ => ?_
    split
    · exact .ok _ d'
    · exact ih d'

/-- A code word takes at least one bit (30_encoding R104). -/
theorem Dec.readCodeWord_bitsLeft {es : List Code} {d d' : Dec} {c : Code} (h : Dec.readCodeWord es d = .ok c d') :
    d'.bitsLeft < d.bitsLeft := by
  cases es with
  | nil =>
    simp only [Dec.readCodeWord, Dec.readBits, Dec.readBitsFrom, ReadResult.bind_eq_ok] at h
    obtain ⟨v, d1, ⟨b, d2, hb, h2⟩, h1⟩ := h
    have := Dec.readBit_bitsLeft hb
    have hlaw := Dec.readBitsFrom_law 5 (2 * 0 + b.toNat) d2
    have h2' : Dec.readBitsFrom 5 (2 * 0 + b.toNat) d2 = .ok v d1 := by
      simpa only [Dec.readBitsFrom, ReadResult.bind_eq_ok] using h2
    rw [h2'] at hlaw
    have hle := hlaw.bitsLeft_le
    obtain ⟨-, rfl⟩ := by simpa using h1
    simp only [ReadResult.after_ok] at hle
    omega
  | cons e es =>
    simp only [Dec.readCodeWord, ReadResult.bind_eq_ok] at h
    obtain ⟨b, d1, hb, h1⟩ := h
    have := Dec.readBit_bitsLeft hb
    split at h1
    · obtain ⟨-, rfl⟩ := by simpa using h1
      omega
    · have hlaw := Dec.readCodeWord_law es d1
      rw [h1] at hlaw
      have hle := hlaw.bitsLeft_le
      simp only [ReadResult.after_ok] at hle
      omega

/-- What ReadCode answers (40_code_model R142): the code read, the read cursor moved, and the code counted. -/
theorem Dec.readCode_eq_ok {d d' : Dec} {c : Code} (h : d.readCode = .ok c d') :
    ∃ d1, Dec.readCodeWord d.stream.curModel.escapes d = .ok c d1 ∧
      d' = { d.movedTo d1 with stream := d.stream.countCode c } := by
  simp only [Dec.readCode, ReadResult.bind_eq_ok] at h
  obtain ⟨a, d1, h1, h2⟩ := h
  obtain ⟨rfl, rfl⟩ := by simpa using h2
  have hlaw := Dec.readCodeWord_law d.stream.curModel.escapes d
  rw [h1] at hlaw
  have hm : d1 = d.movedTo d1 := hlaw.moved
  refine ⟨d1, h1, ?_⟩
  rw [hm]; rfl

/-- When the bits run out the model is not updated (40_code_model R142). -/
theorem Dec.readCode_eq_raised {d d' : Dec} {e : ErrorCode} (h : d.readCode = .raised e d') :
    e = .bufferUnderrun ∧ d' = d.movedTo d' := by
  simp only [Dec.readCode, ReadResult.bind_eq_raised] at h
  obtain h1 | ⟨_, _, _, h2⟩ := h
  · have hlaw := Dec.readCodeWord_law d.stream.curModel.escapes d
    rw [h1] at hlaw
    exact ⟨hlaw.raised_underrun _ _ rfl, hlaw.moved⟩
  · cases h2

end Sys2Proof.Machine
end

