-- ==== Sys2Proof/Laws/Write.lean ====
section
/-!
SUPPORT. What the encoder's write primitives can do, said once, and the canonical form of the buffers.
-/

namespace Sys2Proof.Machine

/-! ### Memory -/

theorem memRead_eq (m : List Byte) (a : Nat) : memRead m a = m[a]? := rfl

@[simp] theorem memWrite_append (m : List Byte) (v : Byte) : memWrite m m.length v = m ++ [v] := by
  simp [memWrite]

theorem memWrite_set {m : List Byte} {a : Nat} (h : a < m.length) (v : Byte) : memWrite m a v = m.set a v := by
  simp [memWrite, Nat.ne_of_lt h]

theorem memWrite_length (m : List Byte) (a : Nat) (v : Byte) :
    (memWrite m a v).length = if a = m.length then m.length + 1 else m.length := by
  unfold memWrite; split <;> simp

/-- A byte reads as it was written (00_scope R14). -/
theorem memRead_memWrite_same {m : List Byte} {a : Nat} (h : a ≤ m.length) (v : Byte) :
    memRead (memWrite m a v) a = some v := by
  unfold memRead memWrite
  split
  · rename_i ha; subst ha; simp
  · rw [List.getElem?_set_self (by omega)]

/-- Every other byte reads as before. -/
theorem memRead_memWrite_other {m : List Byte} {a b : Nat} (hb : b ≠ a) (v : Byte) (hlt : b < m.length) :
    memRead (memWrite m a v) b = memRead m b := by
  unfold memRead memWrite
  split
  · rw [List.getElem?_append_left hlt]
  · rw [List.getElem?_set_ne (Ne.symm hb)]

/-- A write that leaves an index for the next byte keeps the canonical form (20_memory R60). -/
theorem memWrite_wf {m : List Byte} (hroom : m.length + 1 < 2 ^ 32) (a : Nat) (v : Byte) :
    Memory.wf (memWrite m a v) := by
  unfold Memory.wf; rw [memWrite_length]; split <;> omega

/-- Overwriting a byte keeps the canonical form. -/
theorem memWrite_wf_of_lt {m : List Byte} (h : Memory.wf m) {a : Nat} (ha : a < m.length) (v : Byte) :
    Memory.wf (memWrite m a v) := by
  unfold Memory.wf at *; rw [memWrite_length]; split <;> omega

/-- The buffers after reset have the canonical form. -/
theorem reset_memory_wf : Memory.wf State.reset.dec.inBuf ∧ Memory.wf State.reset.enc.out := by decide

/-! ### The bit writer -/

/-- The ranges of the write state (10_state R25), without the capacity. -/
structure Enc.Ranges (e : Enc) : Prop where
  wcnt_le : e.wcnt ≤ 7
  slot_lt : 0 < e.wcnt → e.wslot < e.out.length

theorem Enc.BufferWf.ranges {p : Config} {e : Enc} (h : e.BufferWf p) : e.Ranges :=
  ⟨h.wcnt_le, h.slot_lt⟩

/-- What WriteBit does (20_memory R69): it opens a group, adds to one, or completes one. -/
theorem Enc.writeBit_cases {e : Enc} (h : e.Ranges) (b : Bool) :
    (e.wcnt = 0 ∧ e.writeBit b =
      { e with wslot := e.out.length, out := e.out ++ [0x00], wcache := setBit 0x00 7 b, wcnt := 1 }) ∨
    (0 < e.wcnt ∧ e.wcnt < 7 ∧ e.writeBit b =
      { e with wcache := setBit e.wcache (7 - e.wcnt) b, wcnt := e.wcnt + 1 }) ∨
    (e.wcnt = 7 ∧ e.writeBit b =
      { e with wcache := setBit e.wcache 0 b, out := e.out.set e.wslot (setBit e.wcache 0 b), wcnt := 0 }) := by
  have h7 := h.wcnt_le
  rcases Nat.lt_trichotomy 0 e.wcnt with h0 | h0 | h0
  · by_cases h6 : e.wcnt = 7
    · have hslot := h.slot_lt h0
      exact .inr (.inr ⟨h6, by
        simp [Enc.writeBit, Enc.reserveSlot, Enc.storeFullGroup, h6, memWrite, Nat.ne_of_lt hslot]⟩)
    · refine .inr (.inl ⟨h0, by omega, ?_⟩)
      simp [Enc.writeBit, Enc.reserveSlot, Enc.storeFullGroup, Nat.ne_of_gt h0, h6]
  · exact .inl ⟨h0.symm, by simp [Enc.writeBit, Enc.reserveSlot, Enc.storeFullGroup, ← h0]⟩
  · omega

/-- A bit writer keeps its ranges. -/
theorem Enc.writeBit_ranges {e : Enc} (h : e.Ranges) (b : Bool) : (e.writeBit b).Ranges := by
  obtain ⟨h0, he⟩ | ⟨h0, h6, he⟩ | ⟨h7, he⟩ := Enc.writeBit_cases h b <;> rw [he]
  · exact ⟨by simp, by simp⟩
  · exact ⟨by simp; omega, fun _ => h.slot_lt h0⟩
  · exact ⟨by simp, by simp⟩

@[simp] theorem Enc.reserveSlot_stream (e : Enc) : e.reserveSlot.stream = e.stream := by
  unfold Enc.reserveSlot; split <;> rfl

@[simp] theorem Enc.reserveSlot_err (e : Enc) : e.reserveSlot.err = e.err := by
  unfold Enc.reserveSlot; split <;> rfl

@[simp] theorem Enc.reserveSlot_finfo (e : Enc) : e.reserveSlot.finfo = e.finfo := by
  unfold Enc.reserveSlot; split <;> rfl

@[simp] theorem Enc.storeFullGroup_stream (e : Enc) : e.storeFullGroup.stream = e.stream := by
  unfold Enc.storeFullGroup; split <;> rfl

@[simp] theorem Enc.storeFullGroup_err (e : Enc) : e.storeFullGroup.err = e.err := by
  unfold Enc.storeFullGroup; split <;> rfl

@[simp] theorem Enc.storeFullGroup_finfo (e : Enc) : e.storeFullGroup.finfo = e.finfo := by
  unfold Enc.storeFullGroup; split <;> rfl

@[simp] theorem Enc.writeBit_stream (e : Enc) (b : Bool) : (e.writeBit b).stream = e.stream := by
  simp [Enc.writeBit]

@[simp] theorem Enc.writeBit_err (e : Enc) (b : Bool) : (e.writeBit b).err = e.err := by
  simp [Enc.writeBit]

@[simp] theorem Enc.writeBit_finfo (e : Enc) (b : Bool) : (e.writeBit b).finfo = e.finfo := by
  simp [Enc.writeBit]

@[simp] theorem Enc.writeBitString_nil (e : Enc) : e.writeBitString [] = e := rfl

@[simp] theorem Enc.writeBitString_cons (e : Enc) (b : Bool) (bs : List Bool) :
    e.writeBitString (b :: bs) = (e.writeBit b).writeBitString bs := rfl

@[simp] theorem Enc.writeBitString_stream (e : Enc) (bs : List Bool) : (e.writeBitString bs).stream = e.stream := by
  induction bs generalizing e with
  | nil => rfl
  | cons b bs ih => simp [ih]

@[simp] theorem Enc.writeBitString_err (e : Enc) (bs : List Bool) : (e.writeBitString bs).err = e.err := by
  induction bs generalizing e with
  | nil => rfl
  | cons b bs ih => simp [ih]

@[simp] theorem Enc.writeBitString_finfo (e : Enc) (bs : List Bool) : (e.writeBitString bs).finfo = e.finfo := by
  induction bs generalizing e with
  | nil => rfl
  | cons b bs ih => simp [ih]

theorem Enc.writeBitString_ranges {e : Enc} (h : e.Ranges) (bs : List Bool) : (e.writeBitString bs).Ranges := by
  induction bs generalizing e with
  | nil => exact h
  | cons b bs ih => exact ih (Enc.writeBit_ranges h b)

/-- WriteByte appends and leaves the bit group alone (20_memory R72). -/
theorem Enc.writeByte_eq (e : Enc) (b : Byte) : e.writeByte b = { e with out := e.out ++ [b] } := by
  simp [Enc.writeByte]

theorem Enc.writeBytes_eq (e : Enc) (bs : List Byte) : e.writeBytes bs = { e with out := e.out ++ bs } := by
  induction bs generalizing e with
  | nil => simp [Enc.writeBytes]
  | cons b bs ih =>
    have : e.writeBytes (b :: bs) = (e.writeByte b).writeBytes bs := rfl
    rw [this, ih, Enc.writeByte_eq]; simp

theorem Enc.writeBytes_ranges {e : Enc} (h : e.Ranges) (bs : List Byte) : (e.writeBytes bs).Ranges := by
  rw [Enc.writeBytes_eq]
  exact ⟨h.wcnt_le, fun h0 => by have := h.slot_lt h0; simp; omega⟩

/-- PadBits stores the pending bits, if there are any, and ends the group (20_memory R73). -/
theorem Enc.padBits_eq {e : Enc} (h : e.Ranges) :
    e.padBits = if e.wcnt = 0 then e else { e with out := e.out.set e.wslot e.wcache, wcnt := 0 } := by
  unfold Enc.padBits
  by_cases h0 : e.wcnt = 0
  · simp [h0]
  · have := h.slot_lt (Nat.pos_of_ne_zero h0)
    simp [h0, Nat.pos_of_ne_zero h0, memWrite, Nat.ne_of_lt this]

theorem Enc.padBits_ranges {e : Enc} (h : e.Ranges) : e.padBits.Ranges := by
  rw [Enc.padBits_eq h]
  split
  · exact h
  · exact ⟨by simp, by simp⟩

@[simp] theorem Enc.padBits_wcnt (e : Enc) : e.padBits.wcnt = 0 := by
  unfold Enc.padBits; split <;> simp_all

@[simp] theorem Enc.padBits_stream (e : Enc) : e.padBits.stream = e.stream := by
  unfold Enc.padBits; split <;> rfl

@[simp] theorem Enc.padBits_err (e : Enc) : e.padBits.err = e.err := by
  unfold Enc.padBits; split <;> rfl

@[simp] theorem Enc.padBits_finfo (e : Enc) : e.padBits.finfo = e.finfo := by
  unfold Enc.padBits; split <;> rfl

/-! ### Payloads and codes -/

@[simp] theorem Enc.writeBytes_stream (e : Enc) (bs : List Byte) : (e.writeBytes bs).stream = e.stream := by
  rw [Enc.writeBytes_eq]

@[simp] theorem Enc.writeBytes_err (e : Enc) (bs : List Byte) : (e.writeBytes bs).err = e.err := by
  rw [Enc.writeBytes_eq]

@[simp] theorem Enc.writeBytes_finfo (e : Enc) (bs : List Byte) : (e.writeBytes bs).finfo = e.finfo := by
  rw [Enc.writeBytes_eq]

theorem Enc.writeXor_cases {w : Nat} (x : BitVec w) (e : Enc) :
    ∃ bits bytes, e.writeXor x = (e.writeBitString bits).writeBytes bytes := by
  unfold Enc.writeXor
  split
  · exact ⟨_, _, rfl⟩
  · exact ⟨[], _, rfl⟩

@[simp] theorem Enc.writeXor_stream {w : Nat} (x : BitVec w) (e : Enc) : (e.writeXor x).stream = e.stream := by
  obtain ⟨bits, bytes, h⟩ := Enc.writeXor_cases x e
  rw [h]; simp

@[simp] theorem Enc.writeXor_err {w : Nat} (x : BitVec w) (e : Enc) : (e.writeXor x).err = e.err := by
  obtain ⟨bits, bytes, h⟩ := Enc.writeXor_cases x e
  rw [h]; simp

@[simp] theorem Enc.writeXor_finfo {w : Nat} (x : BitVec w) (e : Enc) : (e.writeXor x).finfo = e.finfo := by
  obtain ⟨bits, bytes, h⟩ := Enc.writeXor_cases x e
  rw [h]; simp

theorem Enc.writeXor_ranges {w : Nat} {e : Enc} (h : e.Ranges) (x : BitVec w) : (e.writeXor x).Ranges := by
  obtain ⟨bits, bytes, h'⟩ := Enc.writeXor_cases x e
  rw [h']; exact Enc.writeBytes_ranges (Enc.writeBitString_ranges h bits) bytes

@[simp] theorem Enc.writeVarint_stream {n : Nat} (v : BitVec n) (e : Enc) : (e.writeVarint v).stream = e.stream :=
  Enc.writeBytes_stream e _

@[simp] theorem Enc.writeVarint_err {n : Nat} (v : BitVec n) (e : Enc) : (e.writeVarint v).err = e.err :=
  Enc.writeBytes_err e _

@[simp] theorem Enc.writeVarint_finfo {n : Nat} (v : BitVec n) (e : Enc) : (e.writeVarint v).finfo = e.finfo :=
  Enc.writeBytes_finfo e _

theorem Enc.writeVarint_ranges {n : Nat} {e : Enc} (h : e.Ranges) (v : BitVec n) : (e.writeVarint v).Ranges :=
  Enc.writeBytes_ranges h _

/-- WriteCode changes the stream state only by counting the code (40_code_model R143). -/
@[simp] theorem Enc.writeCode_stream (e : Enc) (c : Code) : (e.writeCode c).stream = e.stream.countCode c := rfl

@[simp] theorem Enc.writeCode_err (e : Enc) (c : Code) : (e.writeCode c).err = e.err :=
  Enc.writeBitString_err e _

@[simp] theorem Enc.writeCode_finfo (e : Enc) (c : Code) : (e.writeCode c).finfo = e.finfo :=
  Enc.writeBitString_finfo e _

theorem Enc.writeCode_ranges {e : Enc} (h : e.Ranges) (c : Code) : (e.writeCode c).Ranges :=
  ⟨(Enc.writeBitString_ranges h _).wcnt_le, (Enc.writeBitString_ranges h _).slot_lt⟩

end Sys2Proof.Machine
end

