-- ==== Sys2Proof/Laws/Frames.lean ====
section
/-!
SUPPORT. What the frames of the meanings can answer, said once: a meaning of a local code either goes on from what it
read or takes the error that was raised; a meaning of a request gives its one next state between requests; and what
finding the current model or counting a code leaves alone.
-/

namespace Sys2Proof.Machine

/-! ### The frame of a local code -/

/-- `settleRead` always gives a next state. -/
theorem settleRead_cases {α : Type} (s : State) (g : GetContext) (r : ReadResult α) (done : α → Dec → State) :
    (∃ a d, r = .ok a d ∧ settleRead s g r done = .next (done a d)) ∨
    (∃ e d, r = .raised e d ∧ settleRead s g r done = .next (s.takeDecError g d e)) := by
  cases r with
  | ok a d => exact .inl ⟨a, d, rfl, rfl⟩
  | raised e d => exact .inr ⟨e, d, rfl, rfl⟩

@[simp] theorem checkPhase_allowed {k : Phase} {c : Code} {d : Dec} (h : allowedAt k d.stream.pts.length c = true) :
    checkPhase k c d = .ok () d := by simp [checkPhase, h]

@[simp] theorem checkPhase_refused {k : Phase} {c : Code} {d : Dec} (h : allowedAt k d.stream.pts.length c = false) :
    checkPhase k c d = .raised .malformedStream d := by simp [checkPhase, h]

/-- A local code that is allowed and whose rule reads `a`. -/
theorem runCode_of_ok {α : Type} {c : Code} {s : State} {g : GetContext} {body : Dec → ReadResult α}
    {done : GetContext → α → Dec → State} {a : α} {d : Dec} (hg : s.get = some g)
    (hc : allowedAt g.phase s.dec.stream.pts.length c = true) (hb : body s.dec = .ok a d) :
    runCode c s body done = .next (done g a d) := by
  simp [runCode, duringGet, hg, hc, hb, settleRead]

/-- A local code that is allowed and whose rule raises `e`. -/
theorem runCode_of_raised {α : Type} {c : Code} {s : State} {g : GetContext} {body : Dec → ReadResult α}
    {done : GetContext → α → Dec → State} {e : ErrorCode} {d : Dec} (hg : s.get = some g)
    (hc : allowedAt g.phase s.dec.stream.pts.length c = true) (hb : body s.dec = .raised e d) :
    runCode c s body done = .next (s.takeDecError g d e) := by
  simp [runCode, duringGet, hg, hc, hb, settleRead]

/-- A local code that is not allowed at its position (47_stream_engine R331). -/
theorem runCode_of_refused {α : Type} {c : Code} {s : State} {g : GetContext} {body : Dec → ReadResult α}
    {done : GetContext → α → Dec → State} (hg : s.get = some g)
    (hc : allowedAt g.phase s.dec.stream.pts.length c = false) :
    runCode c s body done = .next (s.takeDecError g s.dec .malformedStream) := by
  simp [runCode, duringGet, hg, hc, settleRead]

/-- Everything a local code can answer. -/
theorem runCode_cases {α : Type} (c : Code) (s : State) (body : Dec → ReadResult α)
    (done : GetContext → α → Dec → State) :
    (s.get = none ∧ runCode c s body done = .fault .codeOutsideGet) ∨
    (∃ g, s.get = some g ∧
      ((allowedAt g.phase s.dec.stream.pts.length c = false ∧
          runCode c s body done = .next (s.takeDecError g s.dec .malformedStream)) ∨
       (allowedAt g.phase s.dec.stream.pts.length c = true ∧
          ((∃ a d, body s.dec = .ok a d ∧ runCode c s body done = .next (done g a d)) ∨
           (∃ e d, body s.dec = .raised e d ∧ runCode c s body done = .next (s.takeDecError g d e)))))) := by
  cases hg : s.get with
  | none => exact .inl ⟨rfl, by simp [runCode, duringGet, hg]⟩
  | some g =>
    refine .inr ⟨g, rfl, ?_⟩
    cases hc : allowedAt g.phase s.dec.stream.pts.length c with
    | false => exact .inl ⟨rfl, runCode_of_refused hg hc⟩
    | true =>
      refine .inr ⟨rfl, ?_⟩
      cases hb : body s.dec with
      | ok a d => exact .inl ⟨a, d, rfl, runCode_of_ok hg hc hb⟩
      | raised e d => exact .inr ⟨e, d, rfl, runCode_of_raised hg hc hb⟩

theorem Dec.target_of_some {d : Dec} {p : Point} (h : d.stream.target? = some p) : d.target = .ok p d := by
  simp [Dec.target, h]

/-- A value code of the 32-bit coder that is allowed, for a width-32 point, whose rule answers. -/
theorem runValue32_of_ok {c : Code} {s : State} {g : GetContext} {rule : ValueRule 32} {p : Point} {t : Tag32}
    {h h' : History 32} {v : Word32} {d : Dec} (hg : s.get = some g)
    (hc : allowedAt g.phase s.dec.stream.pts.length c = true) (hp : s.dec.stream.target? = some p)
    (hv : p.values = .narrow t h) (hr : rule h s.dec = .ok (v, h') d) :
    runValue32 c rule s = .next (s.finishMeasurement p (.narrow t h') (.narrow t v) d) := by
  simp [runValue32, duringGet, hg, hc, Dec.target, hp, hv, hr, settleRead]

/-- As `runValue32_of_ok`, for the 64-bit coder. -/
theorem runValue64_of_ok {c : Code} {s : State} {g : GetContext} {rule : ValueRule 64} {p : Point} {t : Tag64}
    {h h' : History 64} {v : Word64} {d : Dec} (hg : s.get = some g)
    (hc : allowedAt g.phase s.dec.stream.pts.length c = true) (hp : s.dec.stream.target? = some p)
    (hv : p.values = .wide t h) (hr : rule h s.dec = .ok (v, h') d) :
    runValue64 c rule s = .next (s.finishMeasurement p (.wide t h') (.wide t v) d) := by
  simp [runValue64, duringGet, hg, hc, Dec.target, hp, hv, hr, settleRead]

/-- Everything a value code of the 32-bit coder can answer with a next state: an error, or the end of the record. -/
theorem runValue32_next {c : Code} {rule : ValueRule 32} {s t : State} (h : runValue32 c rule s = .next t) :
    ∃ g, s.get = some g ∧ ((∃ e d, t = s.takeDecError g d e) ∨
      ∃ p tag hist r d, allowedAt g.phase s.dec.stream.pts.length c = true ∧ s.dec.stream.target? = some p ∧
        p.values = .narrow tag hist ∧ rule hist s.dec = .ok r d ∧
        t = s.finishMeasurement p (.narrow tag r.2) (.narrow tag r.1) d) := by
  unfold runValue32 duringGet at h
  split at h
  · cases h
  · rename_i g hg
    refine ⟨g, hg, ?_⟩
    cases hc : allowedAt g.phase s.dec.stream.pts.length c with
    | false => simp only [checkPhase_refused hc, ReadResult.bind_raised] at h; cases h; exact .inl ⟨_, _, rfl⟩
    | true =>
      simp only [checkPhase_allowed hc, ReadResult.bind_ok, Dec.target] at h
      cases hp : s.dec.stream.target? with
      | none => simp only [hp] at h; cases h; exact .inl ⟨_, _, rfl⟩
      | some p =>
        simp only [hp] at h
        split at h
        · rename_i tag hist hv
          obtain ⟨r, d, hr, h'⟩ | ⟨e, d, -, h'⟩ := settleRead_cases s g (rule hist s.dec)
            (fun r d => s.finishMeasurement p (.narrow tag r.2) (.narrow tag r.1) d)
          · rw [h'] at h; cases h
            exact .inr ⟨p, tag, hist, r, d, rfl, rfl, hv, hr, rfl⟩
          · rw [h'] at h; cases h; exact .inl ⟨_, _, rfl⟩
        · cases h

/-- As `runValue32_next`, for the 64-bit coder. -/
theorem runValue64_next {c : Code} {rule : ValueRule 64} {s t : State} (h : runValue64 c rule s = .next t) :
    ∃ g, s.get = some g ∧ ((∃ e d, t = s.takeDecError g d e) ∨
      ∃ p tag hist r d, allowedAt g.phase s.dec.stream.pts.length c = true ∧ s.dec.stream.target? = some p ∧
        p.values = .wide tag hist ∧ rule hist s.dec = .ok r d ∧
        t = s.finishMeasurement p (.wide tag r.2) (.wide tag r.1) d) := by
  unfold runValue64 duringGet at h
  split at h
  · cases h
  · rename_i g hg
    refine ⟨g, hg, ?_⟩
    cases hc : allowedAt g.phase s.dec.stream.pts.length c with
    | false => simp only [checkPhase_refused hc, ReadResult.bind_raised] at h; cases h; exact .inl ⟨_, _, rfl⟩
    | true =>
      simp only [checkPhase_allowed hc, ReadResult.bind_ok, Dec.target] at h
      cases hp : s.dec.stream.target? with
      | none => simp only [hp] at h; cases h; exact .inl ⟨_, _, rfl⟩
      | some p =>
        simp only [hp] at h
        split at h
        · rename_i tag hist hv
          obtain ⟨r, d, hr, h'⟩ | ⟨e, d, -, h'⟩ := settleRead_cases s g (rule hist s.dec)
            (fun r d => s.finishMeasurement p (.wide tag r.2) (.wide tag r.1) d)
          · rw [h'] at h; cases h
            exact .inr ⟨p, tag, hist, r, d, rfl, rfl, hv, hr, rfl⟩
          · rw [h'] at h; cases h; exact .inl ⟨_, _, rfl⟩
        · cases h

/-! ### The frame of a request -/

@[simp] theorem betweenRequests_idle {s next : State} (h : s.get = none) : betweenRequests s next = .next next := by
  simp [betweenRequests, h]

/-- A request gives its next state between requests, and only there. -/
theorem betweenRequests_eq_next {s next t : State} : betweenRequests s next = .next t ↔ s.get = none ∧ t = next := by
  unfold betweenRequests
  split
  · rename_i h; simp [h, eq_comm]
  · rename_i h; simp [h]

@[simp] theorem State.unlessDecFailed_live {s next : State} (h : s.dec.err = .none) :
    s.unlessDecFailed next = next := by simp [State.unlessDecFailed, h]

@[simp] theorem State.unlessEncFailed_live {s next : State} (h : s.enc.err = .none) :
    s.unlessEncFailed next = next := by simp [State.unlessEncFailed, h]

/-- A failed decoder's answer (47_stream_engine R342). -/
theorem State.unlessDecFailed_failed {s next : State} (h : s.dec.err ≠ .none) :
    s.unlessDecFailed next = s.respond (.error s.dec.err s.dec.finfo) := by simp [State.unlessDecFailed, h]

/-- A failed encoder's answer (47_stream_engine R342). -/
theorem State.unlessEncFailed_failed {s next : State} (h : s.enc.err ≠ .none) :
    s.unlessEncFailed next = s.respond (.error s.enc.err s.enc.finfo) := by simp [State.unlessEncFailed, h]

theorem State.finishEnc_fits {s : State} {e : Enc} {r : Response} (h : e.fits s.cfg = true) :
    s.finishEnc e r = { s with enc := e }.respond r := by simp [State.finishEnc, h]

theorem State.finishEnc_full {s : State} {e : Enc} {r : Response} (h : e.fits s.cfg = false) :
    s.finishEnc e r = s.refuse .capacityExceeded := by simp [State.finishEnc, h]

/-- Everything ENC_WRITE's body can do (47_stream_engine R356). -/
theorem State.encWrite_cases (s : State) (id : Word32) (ts : Word64) (q : Word32) (v : Value) :
    s.encWrite id ts q v = s.refuse .invalidRequest ∨
    ∃ p, s.enc.stream.pts[id.toNat]? = some p ∧ ((∃ t h b, p.values = .narrow t h ∧ v = .narrow t b ∧
        s.encWrite id ts q v =
          s.finishWrite (encodeValue32 t h b (encodePhases id ts q p (EncRun.start s.enc)))) ∨
      (∃ t h b, p.values = .wide t h ∧ v = .wide t b ∧
        s.encWrite id ts q v =
          s.finishWrite (encodeValue64 t h b (encodePhases id ts q p (EncRun.start s.enc))))) := by
  unfold State.encWrite
  split
  · exact .inl rfl
  · rename_i p hp
    dsimp only
    split
    · rename_i t h t' b hv
      split
      · rename_i ht; subst ht
        exact .inr ⟨p, hp, .inl ⟨t', h, b, hv, rfl, rfl⟩⟩
      · exact .inl rfl
    · rename_i t h t' b hv
      split
      · rename_i ht; subst ht
        exact .inr ⟨p, hp, .inr ⟨t', h, b, hv, rfl, rfl⟩⟩
      · exact .inl rfl
    · exact .inl rfl
    · exact .inl rfl

/-- The value encoder writes a value code, never a violation (44_value32 R266, 60_exceptions R404). -/
theorem chooseValue_ne_violation {n : Nat} (widths : List Nat) (h : History n) (v : BitVec n) :
    chooseValue widths h v ≠ .violation := by
  unfold chooseValue
  split
  · simp
  · rename_i h1
    split
    · simp
    · split
      · simp
      · split
        · simp
        · dsimp only
          split
          · rename_i hx
            exact absurd (BitVec.xor_eq_zero_iff.1 hx) h1
          · simp

/-! ### Counting a code -/

@[simp] theorem Stream.countCode_cursor (st : Stream) (c : Code) : (st.countCode c).cursor = st.cursor := by
  unfold Stream.countCode; split <;> rfl

@[simp] theorem Stream.countCode_t1 (st : Stream) (c : Code) : (st.countCode c).t1 = st.t1 := by
  unfold Stream.countCode; split <;> rfl

@[simp] theorem Stream.countCode_t2 (st : Stream) (c : Code) : (st.countCode c).t2 = st.t2 := by
  unfold Stream.countCode; split <;> rfl

@[simp] theorem Stream.countCode_dt1 (st : Stream) (c : Code) : (st.countCode c).dt1 = st.dt1 := by
  unfold Stream.countCode; split <;> rfl

@[simp] theorem Stream.countCode_dt2 (st : Stream) (c : Code) : (st.countCode c).dt2 = st.dt2 := by
  unfold Stream.countCode; split <;> rfl

@[simp] theorem Stream.countCode_dt3 (st : Stream) (c : Code) : (st.countCode c).dt3 = st.dt3 := by
  unfold Stream.countCode; split <;> rfl

@[simp] theorem Stream.countCode_dt4 (st : Stream) (c : Code) : (st.countCode c).dt4 = st.dt4 := by
  unfold Stream.countCode; split <;> rfl

@[simp] theorem Stream.countCode_tvalid (st : Stream) (c : Code) : (st.countCode c).tvalid = st.tvalid := by
  unfold Stream.countCode; split <;> rfl

@[simp] theorem Stream.countCode_length (st : Stream) (c : Code) :
    (st.countCode c).pts.length = st.pts.length := by
  unfold Stream.countCode; split <;> simp

/-- The point at the cursor after a code was counted: the same point but for its model. -/
theorem Stream.countCode_target (st : Stream) (c : Code) :
    (st.countCode c).target? = st.target?.map fun p => { p with model := p.model.updateStats c } := by
  unfold Stream.countCode
  split
  · rename_i p hp
    simp only [Stream.target?, Stream.mapTarget_cursor, Stream.mapTarget_pts, List.getElem?_modify_eq] at *
    rfl
  · rename_i hp
    simp only [Stream.target?] at *
    rw [hp]; rfl

/-- Counting a code leaves the width of the point at the cursor, so the row of a fetched code is that of its point. -/
@[simp] theorem Stream.countCode_targetWidth (st : Stream) (c : Code) :
    (st.countCode c).targetWidth = st.targetWidth := by
  unfold Stream.targetWidth
  rw [Stream.countCode_target]
  cases st.target? <;> rfl

end Sys2Proof.Machine
end

