-- ==== Sys2Proof/Laws/Cases.lean ====
section
/-!
SUPPORT. Inversion lemmas: for each shared operation that chooses, everything it can do, with the condition of each
choice.
-/

namespace Sys2Proof.Machine

/-! ### The code model -/

/-- Everything the retrain half of UpdateStats can do (40_code_model R145). -/
theorem CodeModel.retrain_cases (m : CodeModel) :
    (m.epoch = 0 ∧ 5 < m.since ∧ m.retrain = { m with epoch := 1 }.adapt) ∨
    (m.epoch = 1 ∧ 20 < m.since ∧ m.retrain = { m with epoch := 2 }.adapt) ∨
    (m.epoch = 2 ∧ 100 < m.since ∧ m.retrain = m.adapt) ∨
    ((m.epoch = 0 → m.since ≤ 5) ∧ (m.epoch = 1 → m.since ≤ 20) ∧ (m.epoch = 2 → m.since ≤ 100) ∧
      m.retrain = m) := by
  unfold CodeModel.retrain
  split_ifs with h0 h1 h2
  · exact .inl ⟨h0.1, h0.2, rfl⟩
  · exact .inr (.inl ⟨h1.1, h1.2, rfl⟩)
  · exact .inr (.inr (.inl ⟨h2.1, h2.2, rfl⟩))
  · exact .inr (.inr (.inr ⟨by omega, by omega, by omega, rfl⟩))

/-- Everything Adapt can do (40_code_model R148, R149). -/
theorem CodeModel.adapt_cases {m : CodeModel} {a1 a2 a3 : Code} (h : m.topThree = (a1, a2, a3)) :
    (m.chosenMode = .mode1 ∧
      m.adapt = { m with cnt := Vector.replicate 64 0, since := 0, mode := .mode1 }) ∨
    (m.chosenMode = .mode2 ∧
      m.adapt = { m with cnt := Vector.replicate 64 0, since := 0, mode := .mode2, mode2_1 := a1 }) ∨
    (m.chosenMode = .mode3 ∧
      m.adapt = { m with
        cnt := Vector.replicate 64 0, since := 0, mode := .mode3, mode3_1 := a1, mode3_01 := a2 }) ∨
    (m.chosenMode = .mode4 ∧
      m.adapt = { m with
        cnt := Vector.replicate 64 0, since := 0, mode := .mode4, mode4_1 := a1, mode4_01 := a2, mode4_001 := a3 }) := by
  unfold CodeModel.adapt
  rw [h]
  cases m.chosenMode <;> simp

/-- The mode Adapt selects has the least size, and every lower mode a greater one (40_code_model R148). -/
theorem leastMode_spec (s1 s2 s3 s4 : Nat) :
    (leastMode (s1, s2, s3, s4) = .mode1 ∧ s1 ≤ s2 ∧ s1 ≤ s3 ∧ s1 ≤ s4) ∨
    (leastMode (s1, s2, s3, s4) = .mode2 ∧ s2 < s1 ∧ s2 ≤ s3 ∧ s2 ≤ s4) ∨
    (leastMode (s1, s2, s3, s4) = .mode3 ∧ s3 < s1 ∧ s3 < s2 ∧ s3 ≤ s4) ∨
    (leastMode (s1, s2, s3, s4) = .mode4 ∧ s4 < s1 ∧ s4 < s2 ∧ s4 < s3) := by
  unfold leastMode
  dsimp only
  split_ifs with h1 h2 h3
  · exact .inl ⟨rfl, by omega, by omega, by omega⟩
  · exact .inr (.inl ⟨rfl, by omega, by omega, by omega⟩)
  · exact .inr (.inr (.inl ⟨rfl, by omega, by omega, by omega⟩))
  · exact .inr (.inr (.inr ⟨rfl, by omega, by omega, by omega⟩))

/-! ### Timestamps -/

/-- Everything the cache insertion can do (42_timestamp R211). -/
theorem Stream.insertDelta_cases (d : Nat) (st : Stream) :
    st.insertDelta d = st ∨
    ((d : Int) < st.dt4.toInt ∧ (d : Int) ≠ st.dt1.toInt ∧ (d : Int) ≠ st.dt2.toInt ∧ (d : Int) ≠ st.dt3.toInt ∧
      (((d : Int) < st.dt1.toInt ∧ st.insertDelta d =
          { st with dt1 := BitVec.ofNat 64 d, dt2 := st.dt1, dt3 := st.dt2, dt4 := st.dt3 }) ∨
       (st.dt1.toInt ≤ d ∧ (d : Int) < st.dt2.toInt ∧ st.insertDelta d =
          { st with dt2 := BitVec.ofNat 64 d, dt3 := st.dt2, dt4 := st.dt3 }) ∨
       (st.dt2.toInt ≤ d ∧ (d : Int) < st.dt3.toInt ∧ st.insertDelta d =
          { st with dt3 := BitVec.ofNat 64 d, dt4 := st.dt3 }) ∨
       (st.dt3.toInt ≤ d ∧ st.insertDelta d = { st with dt4 := BitVec.ofNat 64 d }))) := by
  unfold Stream.insertDelta
  dsimp only
  split_ifs with h h1 h2 h3
  · exact .inr ⟨h.1, h.2.1, h.2.2.1, h.2.2.2, .inl ⟨h1, rfl⟩⟩
  · exact .inr ⟨h.1, h.2.1, h.2.2.1, h.2.2.2, .inr (.inl ⟨by omega, h2, rfl⟩)⟩
  · exact .inr ⟨h.1, h.2.1, h.2.2.1, h.2.2.2, .inr (.inr (.inl ⟨by omega, h3, rfl⟩))⟩
  · exact .inr ⟨h.1, h.2.1, h.2.2.1, h.2.2.2, .inr (.inr (.inr ⟨by omega, rfl⟩))⟩
  · exact .inl rfl

/-! ### Bits -/

/-- `v[i] <- b` sets bit `i` and leaves the others. -/
theorem setBit_getLsbD (v : Byte) {i j : Nat} (hi : i < 8) (hj : j < 8) (b : Bool) :
    (setBit v i b).getLsbD j = if j = i then b else v.getLsbD j := by
  have key : ∀ (i j : Fin 8) (b : Bool) (v : Byte),
      (setBit v i b).getLsbD j = if j = i then b else v.getLsbD j := by
    intro i j b v
    unfold setBit
    rw [BitVec.getLsbD_or, BitVec.getLsbD_and, BitVec.getLsbD_not]
    have hj : (j : Nat) < 8 := j.isLt
    by_cases h : j = i
    · subst h; cases b <;> simp [hj]
    · have h' : (j : Nat) ≠ i := fun h'' => h (Fin.ext h'')
      have h1 : (1#8 <<< (i : Nat)).getLsbD j = false := by
        rw [BitVec.getLsbD_shiftLeft]
        by_cases hlt : (j : Nat) < i
        · simp [hlt]
        · have : (j : Nat) - i ≠ 0 := by omega
          simp [this]
      cases b
      · rw [if_neg h, h1]; simp [hj]
      · rw [if_neg h, if_pos rfl, h1]; simp [hj]
  have := key ⟨i, hi⟩ ⟨j, hj⟩ b v
  simpa [Fin.ext_iff] using this

/-- Writing a bit leaves the bits behind it 0 (20_memory R69, R73). -/
theorem Enc.writeBit_padsWithZeros {e : Enc} (h : e.PadsWithZeros) (b : Bool) : (e.writeBit b).PadsWithZeros := by
  have hr : ∀ j, j < 8 - e.reserveSlot.wcnt → e.reserveSlot.wcache.getLsbD j = false := by
    by_cases h0 : e.wcnt = 0
    · simp [Enc.reserveSlot, h0]
    · simpa [Enc.reserveSlot, h0] using h (Nat.pos_of_ne_zero h0)
  show (Enc.storeFullGroup _).PadsWithZeros
  unfold Enc.storeFullGroup
  split
  · exact fun hpos => absurd hpos (Nat.lt_irrefl 0)
  · intro _ j hj
    dsimp only at hj ⊢
    rw [setBit_getLsbD _ (by omega) (by omega), if_neg (by omega)]
    exact hr j (by omega)

/-- Writing a code leaves the bits behind it 0, and so does every write of raw bytes, which leaves the cache alone. -/
theorem Enc.writeCode_padsWithZeros {e : Enc} (h : e.PadsWithZeros) (c : Code) : (e.writeCode c).PadsWithZeros := by
  have bits : ∀ (bs : List Bool) (e : Enc), e.PadsWithZeros → (e.writeBitString bs).PadsWithZeros := by
    intro bs
    induction bs with
    | nil => exact fun _ h => h
    | cons b bs ih => exact fun e h => ih _ (Enc.writeBit_padsWithZeros h b)
  exact bits _ e h

/-! ### The head of DEC_GET's loop -/

/-- Everything the head of the loop can do (47_stream_engine R330, R333). -/
theorem State.loopHead_cases (s : State) (g : GetContext) (d : Dec) :
    (d.pos = d.inBuf.length ∧ d.rcnt = 0 ∧ s.loopHead g d = s.finishGet d .endOfStream) ∨
    ((d.pos ≠ d.inBuf.length ∨ d.rcnt ≠ 0) ∧ s.loopHead g d = s.continueAt g .start d) := by
  unfold State.loopHead Dec.atEos
  by_cases h1 : d.pos = d.inBuf.length
  · by_cases h2 : d.rcnt = 0
    · exact .inl ⟨h1, h2, by simp [h1, h2]⟩
    · exact .inr ⟨.inr h2, by simp [h2]⟩
  · exact .inr ⟨.inl h1, by simp [h1]⟩

/-! ### The encoder's phases -/

/-- The least width is a width of the list, and holds the number. -/
theorem leastWidth_mem {ws : List Nat} {x w : Nat} (hw : w ∈ ws) (hx : x < 2 ^ w) :
    leastWidth ws x ∈ ws ∧ x < 2 ^ leastWidth ws x := by
  have hf : (ws.find? fun w => decide (x < 2 ^ w)).isSome := List.find?_isSome.2 ⟨w, hw, by simpa using hx⟩
  obtain ⟨u, hu⟩ := Option.isSome_iff_exists.1 hf
  rw [leastWidth, hu]
  exact ⟨List.mem_of_find?_eq_some hu, by simpa using List.find?_some hu⟩

/-- In an ascending list no shorter width holds the number. -/
theorem leastWidth_le {ws : List Nat} {x w : Nat} (hs : ws.Pairwise (· < ·)) (hw : w ∈ ws) (hx : x < 2 ^ w) :
    leastWidth ws x ≤ w := by
  induction ws with
  | nil => cases hw
  | cons u us ih =>
    rw [List.pairwise_cons] at hs
    unfold leastWidth at ih ⊢
    rw [List.find?_cons]
    by_cases hu : x < 2 ^ u
    · rcases List.mem_cons.1 hw with rfl | h
      · simp [hu]
      · simpa [hu] using Nat.le_of_lt (hs.1 _ h)
    · rcases List.mem_cons.1 hw with rfl | h
      · exact absurd hx hu
      · simpa [hu] using ih hs.2 h

/-- For a list of codes whose code is a function of the width, the least width and its code are the pair. -/
theorem leastWidth_spec {codes : List (Code × Nat)} {ws : List Nat} (code : Nat → Code) {x w : Nat}
    (hc : codes = ws.map fun w => (code w, w)) (hs : ws.Pairwise (· < ·)) (hw : w ∈ ws) (hx : x < 2 ^ w) :
    LeastWidth codes x (code (leastWidth ws x)) (leastWidth ws x) := by
  subst hc
  refine ⟨List.mem_map_of_mem (leastWidth_mem hw hx).1, (leastWidth_mem hw hx).2, fun c' w' h hx' => ?_⟩
  obtain ⟨u, hu, he⟩ := List.mem_map.1 h
  cases he
  exact leastWidth_le hs hu hx'

/-- The ID code that EncodeId takes (41_point_id R182). -/
theorem leastWidth_id {x : Nat} (hx : x < 2 ^ 32) :
    LeastWidth idCodes x (BitVec.ofNat 6 (4 + idWidths.idxOf (leastWidth idWidths x))) (leastWidth idWidths x) :=
  leastWidth_spec (w := 32) (fun w => BitVec.ofNat 6 (4 + idWidths.idxOf w)) (by decide) (by decide) (by decide) hx

/-- The XOR code of a width-32 point (44_value32 R265). -/
theorem leastWidth_value32 {x : Nat} (hx : x < 2 ^ 32) :
    LeastWidth valueCodes32 x (BitVec.ofNat 6 (35 + leastWidth valueWidths32 x / 4)) (leastWidth valueWidths32 x) :=
  leastWidth_spec (w := 32) (fun w => BitVec.ofNat 6 (35 + w / 4)) (by decide) (by decide) (by decide) hx

/-- The XOR code of a width-64 point (45_value64 R283). -/
theorem leastWidth_value64 {x : Nat} (hx : x < 2 ^ 64) :
    LeastWidth valueCodes64 x (BitVec.ofNat 6 (35 + leastWidth valueWidths64 x / 8)) (leastWidth valueWidths64 x) :=
  leastWidth_spec (w := 64) (fun w => BitVec.ofNat 6 (35 + w / 8)) (by decide) (by decide) (by decide) hx

/-- Everything EncodeId can do (41_point_id R182). -/
theorem encodeId_cases (id : Word32) (r : EncRun) :
    (id = r.enc.stream.cursor ∧ encodeId id r = r) ∨
    (id ≠ r.enc.stream.cursor ∧ ∃ (c : Code) (w : Nat),
      LeastWidth idCodes (id ^^^ r.enc.stream.cursor).toNat c w ∧ encodeId id r =
      (((r.writeCode c).payload (Enc.writeXor ((id ^^^ r.enc.stream.cursor).setWidth w))).mapStream
        fun st => { st with cursor := id }).at .afterId) := by
  unfold encodeId
  split_ifs with h
  · exact .inl ⟨h, rfl⟩
  · exact .inr ⟨h, _, _, leastWidth_id (BitVec.isLt _), rfl⟩

/-- Everything EncodeTime can do (42_timestamp R213). -/
theorem encodeTime_cases (ts : Word64) (r : EncRun) :
    (ts = r.enc.stream.t1 ∧ encodeTime ts r = r) ∨
    (ts ≠ r.enc.stream.t1 ∧ chooseTimeCode r.enc.stream ts = 20 ∧ encodeTime ts r =
      (((r.writeCode 20).payload (Enc.writeVarint (ts ^^^ r.enc.stream.t1))).mapStream
        (Stream.updateTime ts)).at .afterTime) ∨
    (ts ≠ r.enc.stream.t1 ∧ chooseTimeCode r.enc.stream ts ≠ 20 ∧ encodeTime ts r =
      ((r.writeCode (chooseTimeCode r.enc.stream ts)).mapStream (Stream.updateTime ts)).at .afterTime) := by
  unfold encodeTime
  dsimp only
  by_cases h : ts = r.enc.stream.t1
  · exact .inl ⟨h, if_pos h⟩
  · rw [if_neg h]
    by_cases hc : chooseTimeCode r.enc.stream ts = 20
    · exact .inr (.inl ⟨h, hc, by rw [hc]; rfl⟩)
    · exact .inr (.inr ⟨h, hc, by rw [if_neg hc]⟩)

/-- Everything EncodeQuality can do (43_quality R234). -/
theorem encodeQuality_cases (p : Point) (q : Word32) (r : EncRun) :
    (q = p.q1 ∧ encodeQuality p q r = r) ∨
    (q ≠ p.q1 ∧ q = p.q2 ∧ encodeQuality p q r =
      ((r.writeCode 21).mapStream (Stream.updateQuality q)).at .afterQuality) ∨
    (q ≠ p.q1 ∧ q ≠ p.q2 ∧ encodeQuality p q r =
      (((r.writeCode 22).payload (Enc.writeVarint q)).mapStream (Stream.updateQuality q)).at .afterQuality) := by
  unfold encodeQuality
  by_cases h : q = p.q1
  · exact .inl ⟨h, if_pos h⟩
  · rw [if_neg h]
    by_cases h2 : q = p.q2
    · exact .inr (.inl ⟨h, h2, by rw [if_pos h2]⟩)
    · exact .inr (.inr ⟨h, h2, by rw [if_neg h2]⟩)

/-- Everything the value phase of the encoder can do (44_value32 R265, 45_value64 R283). -/
theorem encodeValue_cases {n : Nat} (widths : List Nat) (unit : Nat) (wrap : History n → PointValues) (h : History n)
    (v : BitVec n) (r : EncRun) :
    (v = h.v1 ∧ encodeValue widths unit wrap h v r = .done (r.valueCode 32 (wrap h))) ∨
    (v ≠ h.v1 ∧ v = 0 ∧ encodeValue widths unit wrap h v r = .done (r.valueCode 35 (wrap (h.push 0)))) ∨
    (v ≠ h.v1 ∧ v ≠ 0 ∧ v = h.v2 ∧ encodeValue widths unit wrap h v r = .done (r.valueCode 33 (wrap h.hit2))) ∨
    (v ≠ h.v1 ∧ v ≠ 0 ∧ v ≠ h.v2 ∧ v = h.v3 ∧
      encodeValue widths unit wrap h v r = .done (r.valueCode 34 (wrap h.hit3))) ∨
    (v ≠ h.v1 ∧ v ≠ 0 ∧ v ≠ h.v2 ∧ v ≠ h.v3 ∧
      let w := leastWidth widths (v ^^^ h.v1).toNat
      encodeValue widths unit wrap h v r =
        .done (((r.writeCode (BitVec.ofNat 6 (35 + w / unit))).payload
          (Enc.writeXor ((v ^^^ h.v1).setWidth w))).mapStream (Stream.setValues (wrap (h.push v))))) := by
  unfold encodeValue chooseValue
  by_cases h1 : v = h.v1
  · exact .inl ⟨h1, by simp [h1]⟩
  by_cases h2 : v = 0
  · exact .inr (.inl ⟨h1, h2, by rw [if_neg h1, if_pos h2]⟩)
  by_cases h3 : v = h.v2
  · exact .inr (.inr (.inl ⟨h1, h2, h3, by rw [if_neg h1, if_neg h2, if_pos h3]⟩))
  by_cases h4 : v = h.v3
  · exact .inr (.inr (.inr (.inl ⟨h1, h2, h3, h4, by rw [if_neg h1, if_neg h2, if_neg h3, if_pos h4]⟩)))
  · have hx : v ^^^ h.v1 ≠ 0 := fun hx => h1 (BitVec.xor_eq_zero_iff.1 hx)
    exact .inr (.inr (.inr (.inr ⟨h1, h2, h3, h4, by
      rw [if_neg h1, if_neg h2, if_neg h3, if_neg h4]; dsimp only; rw [if_neg hx]⟩)))

/-! ### A step -/

/-- Everything a step can do: run a code that was read, take the error of one that was not, run a request, or rest. -/
theorem step_cases (s : State) :
    (∃ g c d, s.get = some g ∧ s.dec.readCode = .ok c d ∧
      step s = exec (decodeCode d.stream.targetWidth c) (s.fetched g c d)) ∨
    (∃ g e d, s.get = some g ∧ s.dec.readCode = .raised e d ∧ step s = .next (s.takeDecError g d e)) ∨
    (∃ r rest, s.get = none ∧ s.pending = r :: rest ∧ step s = exec (decodeRequest r) (s.accepted rest)) ∨
    (s.get = none ∧ s.pending = [] ∧ step s = .next s) := by
  unfold step
  cases hg : s.get with
  | some g =>
    cases hr : s.dec.readCode with
    | ok c d => exact .inl ⟨g, c, d, rfl, rfl, by simp [Dec.fetch, hr]⟩
    | raised e d => exact .inr (.inl ⟨g, e, d, rfl, rfl, by simp [Dec.fetch, hr]⟩)
  | none =>
    cases hp : s.pending with
    | nil => exact .inr (.inr (.inr ⟨rfl, rfl, rfl⟩))
    | cons r rest => exact .inr (.inr (.inl ⟨r, rest, rfl, rfl, rfl⟩))

end Sys2Proof.Machine
end

