-- ==== Sys2Proof/Laws/PerInstr.lean ====
section
/-!
SUPPORT. The family of statements made for each instruction on its own: what it is sent as decodes to it (30_encoding
R101, R111, R112, R114).
-/

namespace Sys2Proof.Laws.EncodingRoundTrip

/-- A point whose width the instruction fits reads back the instruction that was sent. -/
def Statement (i : Instr) : Prop :=
  ∀ w, i.fitsWidth w = true → decode w (encode i) = i

theorem newPointId : Statement .newPointId := fun w _ => by cases w <;> rfl

theorem userCommand : Statement .userCommand := fun w _ => by cases w <;> rfl

theorem userCommandWithData : Statement .userCommandWithData := fun w _ => by cases w <;> rfl

theorem flushBits : Statement .flushBits := fun w _ => by cases w <;> rfl

theorem pointIDXOR4 : Statement .pointIDXOR4 := fun w _ => by cases w <;> rfl

theorem pointIDXOR8 : Statement .pointIDXOR8 := fun w _ => by cases w <;> rfl

theorem pointIDXOR12 : Statement .pointIDXOR12 := fun w _ => by cases w <;> rfl

theorem pointIDXOR16 : Statement .pointIDXOR16 := fun w _ => by cases w <;> rfl

theorem pointIDXOR20 : Statement .pointIDXOR20 := fun w _ => by cases w <;> rfl

theorem pointIDXOR24 : Statement .pointIDXOR24 := fun w _ => by cases w <;> rfl

theorem pointIDXOR32 : Statement .pointIDXOR32 := fun w _ => by cases w <;> rfl

theorem timeDelta1Forward : Statement .timeDelta1Forward := fun w _ => by cases w <;> rfl

theorem timeDelta2Forward : Statement .timeDelta2Forward := fun w _ => by cases w <;> rfl

theorem timeDelta3Forward : Statement .timeDelta3Forward := fun w _ => by cases w <;> rfl

theorem timeDelta4Forward : Statement .timeDelta4Forward := fun w _ => by cases w <;> rfl

theorem timeDelta1Reverse : Statement .timeDelta1Reverse := fun w _ => by cases w <;> rfl

theorem timeDelta2Reverse : Statement .timeDelta2Reverse := fun w _ => by cases w <;> rfl

theorem timeDelta3Reverse : Statement .timeDelta3Reverse := fun w _ => by cases w <;> rfl

theorem timeDelta4Reverse : Statement .timeDelta4Reverse := fun w _ => by cases w <;> rfl

theorem timestamp2 : Statement .timestamp2 := fun w _ => by cases w <;> rfl

theorem timeXOR7Bit : Statement .timeXOR7Bit := fun w _ => by cases w <;> rfl

theorem quality2 : Statement .quality2 := fun w _ => by cases w <;> rfl

theorem quality7Bit32 : Statement .quality7Bit32 := fun w _ => by cases w <;> rfl

theorem reserved23 : Statement .reserved23 := fun w _ => by cases w <;> rfl

theorem reserved24to31 (low : BitVec 3) : Statement (.reserved24to31 low) := by
  intro w _; revert low; cases w <;> decide

theorem value1W32 : Statement .value1W32 := by
  intro w h; cases w <;> first | rfl | cases h

theorem value2W32 : Statement .value2W32 := by
  intro w h; cases w <;> first | rfl | cases h

theorem value3W32 : Statement .value3W32 := by
  intro w h; cases w <;> first | rfl | cases h

theorem valueZeroW32 : Statement .valueZeroW32 := by
  intro w h; cases w <;> first | rfl | cases h

theorem valueXOR4W32 : Statement .valueXOR4W32 := by
  intro w h; cases w <;> first | rfl | cases h

theorem valueXOR8W32 : Statement .valueXOR8W32 := by
  intro w h; cases w <;> first | rfl | cases h

theorem valueXOR12W32 : Statement .valueXOR12W32 := by
  intro w h; cases w <;> first | rfl | cases h

theorem valueXOR16W32 : Statement .valueXOR16W32 := by
  intro w h; cases w <;> first | rfl | cases h

theorem valueXOR20W32 : Statement .valueXOR20W32 := by
  intro w h; cases w <;> first | rfl | cases h

theorem valueXOR24W32 : Statement .valueXOR24W32 := by
  intro w h; cases w <;> first | rfl | cases h

theorem valueXOR28W32 : Statement .valueXOR28W32 := by
  intro w h; cases w <;> first | rfl | cases h

theorem valueXOR32W32 : Statement .valueXOR32W32 := by
  intro w h; cases w <;> first | rfl | cases h

theorem value1W64 : Statement .value1W64 := by
  intro w h; cases w <;> first | rfl | cases h

theorem value2W64 : Statement .value2W64 := by
  intro w h; cases w <;> first | rfl | cases h

theorem value3W64 : Statement .value3W64 := by
  intro w h; cases w <;> first | rfl | cases h

theorem valueZeroW64 : Statement .valueZeroW64 := by
  intro w h; cases w <;> first | rfl | cases h

theorem valueXOR8W64 : Statement .valueXOR8W64 := by
  intro w h; cases w <;> first | rfl | cases h

theorem valueXOR16W64 : Statement .valueXOR16W64 := by
  intro w h; cases w <;> first | rfl | cases h

theorem valueXOR24W64 : Statement .valueXOR24W64 := by
  intro w h; cases w <;> first | rfl | cases h

theorem valueXOR32W64 : Statement .valueXOR32W64 := by
  intro w h; cases w <;> first | rfl | cases h

theorem valueXOR40W64 : Statement .valueXOR40W64 := by
  intro w h; cases w <;> first | rfl | cases h

theorem valueXOR48W64 : Statement .valueXOR48W64 := by
  intro w h; cases w <;> first | rfl | cases h

theorem valueXOR56W64 : Statement .valueXOR56W64 := by
  intro w h; cases w <;> first | rfl | cases h

theorem valueXOR64W64 : Statement .valueXOR64W64 := by
  intro w h; cases w <;> first | rfl | cases h

theorem reserved44to47 (low : BitVec 2) : Statement (.reserved44to47 low) := by
  intro w _; revert low; cases w <;> decide

theorem reserved48to63 (low : BitVec 4) : Statement (.reserved48to63 low) := by
  intro w _; revert low; cases w <;> decide

theorem decReset : Statement .decReset := fun w _ => by cases w <;> rfl

theorem decLoad (bytes : List Byte) : Statement (.decLoad bytes) := fun w _ => by cases w <;> rfl

theorem decGet : Statement .decGet := fun w _ => by cases w <;> rfl

theorem decStatus : Statement .decStatus := fun w _ => by cases w <;> rfl

theorem reservedHost4to7 (low : BitVec 2) : Statement (.reservedHost4to7 low) := by
  intro w _; revert low; cases w <;> decide

theorem encReset : Statement .encReset := fun w _ => by cases w <;> rfl

theorem encRegister (typeByte : Byte) (metadata : List Byte) :
    Statement (.encRegister typeByte metadata) :=
  fun w _ => by cases w <;> rfl

theorem encWrite (id : Word32) (timestamp : Word64) (quality : Word32) (value : Value) :
    Statement (.encWrite id timestamp quality value) :=
  fun w _ => by cases w <;> rfl

theorem encUser (command : Word32) : Statement (.encUser command) := fun w _ => by cases w <;> rfl

theorem encUserData (command : Word32) (payload : List Byte) :
    Statement (.encUserData command payload) :=
  fun w _ => by cases w <;> rfl

theorem encFlush : Statement .encFlush := fun w _ => by cases w <;> rfl

theorem encTake : Statement .encTake := fun w _ => by cases w <;> rfl

theorem encStatus : Statement .encStatus := fun w _ => by cases w <;> rfl

end Sys2Proof.Laws.EncodingRoundTrip
end

