-- ==== Sys2Proof/Tests/Slice0.lean ====
section
/-!
SUPPORT. Tests of the model against the vectors of 95_test_vectors.md and the tables of the spec, each on one decoded
word or one step of a small state. Expected values are the spec's, not the model's.
-/

set_option maxRecDepth 8000

namespace Sys2Proof.Tests

open Sys2Proof.Machine

/-! ### Small states -/

/-- The target point of V-V32 (V0) and V-QUAL. -/
def point32 : Point :=
  { id := 0, values := .narrow .single { v1 := 0x3F800000, v2 := 0x12345678, v3 := 0x40200000 }, q1 := 0x00,
    q2 := 0xC0, metadata := [], model := CodeModel.initial }

/-- The target point of V-V64 (W0). -/
def point64 : Point :=
  { id := 0, values := .wide .double { v1 := 0x3FF0000000000000, v2 := 0x123456789ABCDEF0, v3 := 0x4004000000000000 },
    q1 := 0x00, q2 := 0xC0, metadata := [], model := CodeModel.initial }

/-- The timestamp state T0 of V-TIME, over a point table. -/
def streamT0 (pts : List Point) : Stream :=
  { Stream.reset with pts := pts, t1 := 1000, t2 := 990, dt1 := 5, dt2 := 10, dt3 := 20, tvalid := true }

/-- A decoder in T0 with `bytes` loaded. -/
def decoder (pts : List Point) (bytes : List Byte) : Dec :=
  { Dec.reset with stream := streamT0 pts, inBuf := bytes }

/-- A DEC_GET in progress at position `k`. -/
def opened (k : Phase) (d : Dec) : State :=
  { State.reset with dec := d, get := some { saved := d, code := noCode, phase := k } }

/-- An encoder in T0, between requests. -/
def encoding (pts : List Point) : State :=
  { State.reset with enc := { Enc.reset with stream := streamT0 pts } }

/-- The next state of an outcome. -/
def after (o : StepOutcome) : Option State :=
  match o with
  | .next t => some t
  | .fault _ => none
  | .refused _ => none

/-- The last response of an outcome. -/
def answer (o : StepOutcome) : Option Response :=
  (after o).bind fun t => t.responses.getLast?

/-- A range of bits, most significant first, as a word is written out in the spec. -/
def bits (s : String) : List Bool :=
  s.toList.map (· == '1')

/-! ### WellFormed -/

theorem lengthIsU32_long {bs : List Byte} (h : 2 ^ 32 ≤ bs.length) : lengthIsU32 bs = false := by
  unfold lengthIsU32; exact decide_eq_false (Nat.not_lt.2 h)

theorem test_wellFormed_refuses_long_load :
    Instr.wellFormed .w32 (.decLoad (List.replicate (2 ^ 32) 0)) = false := by
  rw [Instr.wellFormed, Instr.operandsOk, lengthIsU32_long (by rw [List.length_replicate]), Bool.and_false]

theorem test_wellFormed_refuses_long_metadata :
    Instr.wellFormed .w32 (.encRegister 9 (List.replicate (2 ^ 32) 0)) = false := by
  rw [Instr.wellFormed, Instr.operandsOk, lengthIsU32_long (by rw [List.length_replicate]), Bool.and_false]

theorem test_wellFormed_refuses_long_payload :
    Instr.wellFormed .w32 (.encUserData 1 (List.replicate (2 ^ 32) 0)) = false := by
  rw [Instr.wellFormed, Instr.operandsOk, lengthIsU32_long (by rw [List.length_replicate]), Bool.and_false]

theorem test_wellFormed_refuses_the_other_width :
    Instr.wellFormed .w64 .valueXOR4W32 = false ∧ Instr.wellFormed .w32 .valueXOR8W64 = false := by decide

/-! ### Decoding: the words of 30_encoding R101 and R114, written out -/

theorem test_decode_control_words :
    [0b000000, 0b000001, 0b000010, 0b000011].map (decodeTableWord 6) =
      [some .newPointId, some .userCommand, some .userCommandWithData, some .flushBits] := by decide

theorem test_decode_id_words :
    [0b000100, 0b000101, 0b000110, 0b000111, 0b001000, 0b001001, 0b001010].map (decodeTableWord 6) =
      [some .pointIDXOR4, some .pointIDXOR8, some .pointIDXOR12, some .pointIDXOR16, some .pointIDXOR20,
       some .pointIDXOR24, some .pointIDXOR32] := by decide

theorem test_decode_time_words :
    [0b001011, 0b001100, 0b001101, 0b001110, 0b001111, 0b010000, 0b010001, 0b010010, 0b010011, 0b010100].map
        (decodeTableWord 6) =
      [some .timeDelta1Forward, some .timeDelta2Forward, some .timeDelta3Forward, some .timeDelta4Forward,
       some .timeDelta1Reverse, some .timeDelta2Reverse, some .timeDelta3Reverse, some .timeDelta4Reverse,
       some .timestamp2, some .timeXOR7Bit] := by decide

theorem test_decode_quality_and_reserved_words :
    [0b010101, 0b010110, 0b010111, 0b011000, 0b011111, 0b101100, 0b101111, 0b110000, 0b111111].map (decodeTableWord 6) =
      [some .quality2, some .quality7Bit32, some .reserved23, some (.reserved24to31 0), some (.reserved24to31 7),
       some (.reserved44to47 0), some (.reserved44to47 3), some (.reserved48to63 0), some (.reserved48to63 15)] := by
  decide

theorem test_decode_value_words_of_width32 :
    [0b100000, 0b100001, 0b100010, 0b100011, 0b100100, 0b100101, 0b100110, 0b100111, 0b101000, 0b101001, 0b101010,
      0b101011].map (decodeCode .w32) =
      [.value1W32, .value2W32, .value3W32, .valueZeroW32, .valueXOR4W32, .valueXOR8W32, .valueXOR12W32,
       .valueXOR16W32, .valueXOR20W32, .valueXOR24W32, .valueXOR28W32, .valueXOR32W32] := by decide

theorem test_decode_value_words_of_width64 :
    [0b100000, 0b100001, 0b100010, 0b100011, 0b100100, 0b100101, 0b100110, 0b100111, 0b101000, 0b101001, 0b101010,
      0b101011].map (decodeCode .w64) =
      [.value1W64, .value2W64, .value3W64, .valueZeroW64, .valueXOR8W64, .valueXOR16W64, .valueXOR24W64,
       .valueXOR32W64, .valueXOR40W64, .valueXOR48W64, .valueXOR56W64, .valueXOR64W64] := by decide

theorem test_decode_request_words :
    [0b0000, 0b0001, 0b0010, 0b0011, 0b0100, 0b0111, 0b1000, 0b1001, 0b1010, 0b1011, 0b1100, 0b1101, 0b1110,
      0b1111].map (decodeTableWord 4) =
      [some .decReset, some (.decLoad []), some .decGet, some .decStatus, some (.reservedHost4to7 0),
       some (.reservedHost4to7 3), some .encReset, some (.encRegister 0 []),
       some (.encWrite 0 0 0 (.narrow .int32 0)), some (.encUser 0), some (.encUserData 0 []), some .encFlush,
       some .encTake, some .encStatus] := by decide

theorem test_decode_request_operands :
    decodeRequest { opcode := 0xA, id := 3, timestamp := 5, quality := 7, value := .wide .double 9 } =
      .encWrite 3 5 7 (.wide .double 9) ∧
    decodeRequest { opcode := 0x9, typeByte := 0x0D, bytes := [1, 2] } = .encRegister 0x0D [1, 2] ∧
    decodeRequest { opcode := 0xC, command := 9, bytes := [0xAA] } = .encUserData 9 [0xAA] := by decide

/-- M7 to M10: the code words of mode 3 and mode 4, the fall-through form of an escaped code, and mode 1. -/
theorem test_code_words :
    parseCodeWord [20, 32] (bits "01") = .ok (32, []) ∧
    parseCodeWord [20, 32] (bits "00101011") = .ok (43, []) ∧
    parseCodeWord [20, 32, 35] (bits "000010100") = .ok (20, []) ∧
    codeWord [] 20 = bits "010100" ∧ codeWord [20, 32, 35] 35 = bits "001" ∧
    parseCodeWord [20, 32] (bits "0010101") = .error .bitsRunOut := by decide

/-! ### Bits, bytes and payloads (V-BIT) -/

/-- B1 to B4: bits and raw bytes interleave, and the read past the end is refused. -/
theorem test_interleaved_reads :
    ((Dec.readBits 4 { Dec.reset with inBuf := [0xA5, 0x3C] }).bind fun a d =>
      d.readByte.bind fun b d => (d.readBits 4).bind fun c d => .ok (a, b, c) d) =
    .ok (0xA#4, 0x3C#8, 0x5#4) { Dec.reset with inBuf := [0xA5, 0x3C], pos := 2, rcnt := 0, rcache := 0xA5 } ∧
    Dec.readBit { Dec.reset with inBuf := [0xA5, 0x3C], pos := 2, rcnt := 0, rcache := 0xA5 } =
      .raised .bufferUnderrun { Dec.reset with inBuf := [0xA5, 0x3C], pos := 2, rcnt := 0, rcache := 0xA5 } := by
  decide

/-- B5, B8, B9. -/
theorem test_reading_payloads :
    Dec.readXor 12 { Dec.reset with inBuf := [0x3C, 0x12] } =
      .ok 0x123#12 { Dec.reset with inBuf := [0x3C, 0x12], pos := 2, rcnt := 4, rcache := 0x3C } ∧
    Dec.readVarint 32 { Dec.reset with inBuf := [0xFF, 0xFF, 0xFF, 0xFF, 0xFF, 0x01] } =
      .ok 0xFFFFFFFF#32 { Dec.reset with inBuf := [0xFF, 0xFF, 0xFF, 0xFF, 0xFF, 0x01], pos := 6 } ∧
    Dec.readVarint 32 { Dec.reset with inBuf := [0x80, 0x80] } =
      .raised .bufferUnderrun { Dec.reset with inBuf := [0x80, 0x80], pos := 2 } := by decide

/-- B6, B7, B10. -/
theorem test_writing_payloads :
    (Enc.reset.writeXor 0x123#12).padBits.out = [0x30, 0x12] ∧
    [0, 127, 128, 300, 0xFFFFFFFF].map (varintBytes (n := 32)) =
      [[0x00], [0x7F], [0x80, 0x01], [0xAC, 0x02], [0xFF, 0xFF, 0xFF, 0xFF, 0x0F]] ∧
    varintBytes 0xFFFFFFFFFFFFFE35#64 = [0xB5, 0xFC, 0xFF, 0xFF, 0xFF, 0xFF, 0xFF, 0xFF, 0xFF, 0x01] := by decide

/-- B11: the byte of a bit group is reserved at its first bit. -/
theorem test_reserved_slot :
    let e := ((Enc.reset.writeBits 0b000000#6).writeByte 0x0D |>.writeByte 0x00).writeBits 0b010100#6
    e.out = [0x01, 0x0D, 0x00, 0x00] ∧ e.wcnt = 4 ∧ e.wslot = 3 ∧ e.wcache = 0x40 := by decide

/-! ### The code model (V-CM) -/

/-- The model after a sequence of codes, in the terms of V-CM. -/
def trained (cs : List Code) : Mode × List Code × Nat × Nat :=
  let m := cs.foldl CodeModel.updateStats CodeModel.initial
  (m.mode, m.escapes, m.since, m.epoch)

/-- M1, M2. -/
theorem test_retrain_four_modes :
    trained [11, 12, 13, 14, 15, 16] = (.mode4, [11, 12, 13], 0, 1) ∧
    trained [20, 20, 20, 20, 20, 20] = (.mode2, [20], 0, 1) := by decide

/-- M3, M6. -/
theorem test_retrain_ties :
    trained [20, 32, 20, 32, 20, 32] = (.mode3, [20, 32], 0, 1) ∧
    trained [20, 43, 20, 32, 20, 35] = (.mode4, [20, 32, 35], 0, 1) := by decide

/-! ### ID codes (V-ID) -/

/-- I1 to I7 with the cursor started at the payload's value, so that the new cursor is 0, and I1 and I8 as they stand. -/
theorem test_id_codes :
    [(Instr.pointIDXOR4, 0x5, [0x50]), (.pointIDXOR8, 0x10, [0x10]), (.pointIDXOR12, 0x123, [0x30, 0x12]),
      (.pointIDXOR16, 0x1234, [0x34, 0x12]), (.pointIDXOR20, 0x12345, [0x50, 0x34, 0x12]),
      (.pointIDXOR24, 0x123456, [0x56, 0x34, 0x12]), (.pointIDXOR32, 0x12345678, [0x78, 0x56, 0x34, 0x12])].map
      (fun x => (after (exec x.1 (opened .start { decoder [point32] x.2.2 with
        stream := { streamT0 [point32] with cursor := x.2.1 } }))).map fun t =>
          (t.dec.stream.cursor, t.get.map (·.phase))) =
    List.replicate 7 (some (0, some .afterId)) := by decide

theorem test_id_boundaries :
    ((after (exec .pointIDXOR4 (opened .start (decoder (List.replicate 6 point32) [0x50])))).map
      (·.dec.stream.cursor) = some 5) ∧
    ((after (exec .pointIDXOR4 (opened .start (decoder [point32] [0x00])))).map (·.dec.stream.cursor) = some 0) ∧
    answer (exec .pointIDXOR4 (opened .start (decoder [point32] [0x10]))) =
      some (.error .malformedStream { fpos := 1, fbits := 4, fcode := 64, fphase := 0 }) := by decide

/-! ### Time codes (V-TIME) -/

/-- T1 to T10: the timestamp. -/
theorem test_time_codes :
    [Instr.timeDelta1Forward, .timeDelta2Forward, .timeDelta3Forward, .timeDelta4Forward, .timeDelta1Reverse,
      .timeDelta2Reverse, .timeDelta3Reverse, .timeDelta4Reverse, .timestamp2, .timeXOR7Bit].map
      (fun i => (after (exec i (opened .start (decoder [point32] [0x0F])))).map fun t =>
        (t.dec.stream.t1.toInt, t.dec.stream.t2.toInt)) =
    [some (1005, 1000), some (1010, 1000), some (1020, 1000), some (-9223372036854774809, 1000), some (995, 1000),
     some (990, 1000), some (980, 1000), some (-9223372036854774807, 1000), some (990, 1000), some (999, 1000)] := by
  decide

/-- T10, T11, T15: the delta cache. -/
theorem test_delta_cache :
    (let st := (streamT0 []).updateTime 999; [st.dt1, st.dt2, st.dt3, st.dt4] = [1, 5, 10, 20]) ∧
    (let st := (streamT0 []).updateTime 1000; [st.dt1, st.dt2, st.dt3, st.dt4] = [0, 5, 10, 20]) ∧
    (let st := Stream.reset.updateTime 100; [st.dt1, st.t1, st.t2] = [i64Max, 100, 0]) := by decide

/-- T13, T14: the encoder's choice. -/
theorem test_time_choice : chooseTimeCode (streamT0 []) 990 = 16 ∧
    encodeTime 1000 (EncRun.start { Enc.reset with stream := streamT0 [] }) =
      EncRun.start { Enc.reset with stream := streamT0 [] } := by decide

/-! ### Quality codes (V-QUAL) -/

/-- Q1, Q2, Q4: the two qualities after the code. -/
theorem test_quality_codes :
    [(Instr.quality2, []), (.quality7Bit32, [0x80, 0x01]), (.quality7Bit32, [0xFF, 0xFF, 0xFF, 0xFF, 0x0F])].map
      (fun x => (after (exec x.1 (opened .afterTime (decoder [point32] x.2)))).map fun t =>
        t.dec.stream.pts.map fun p => (p.q1, p.q2)) =
    [some [(0xC0, 0x00)], some [(0x80, 0x00)], some [(0xFFFFFFFF, 0x00)]] := by decide

/-! ### Value codes (V-V32, V-V64) -/

/-- A1 to A12: the value; Q3 and T12: the quality and the timestamp of a record that carries neither. -/
theorem test_value32_codes :
    [(Instr.value1W32, []), (.value2W32, []), (.value3W32, []), (.valueZeroW32, []), (.valueXOR4W32, [0xF0]),
      (.valueXOR8W32, [0xA5]), (.valueXOR12W32, [0x30, 0x12]), (.valueXOR16W32, [0x34, 0x12]),
      (.valueXOR20W32, [0x50, 0x34, 0x12]), (.valueXOR24W32, [0x56, 0x34, 0x12]),
      (.valueXOR28W32, [0x70, 0x56, 0x34, 0x12]), (.valueXOR32W32, [0x00, 0x00, 0xA0, 0x7F])].map
      (fun x => answer (exec x.1 (opened .start (decoder [point32] x.2)))) =
    [0x3F800000, 0x12345678, 0x40200000, 0, 0x3F80000F, 0x3F8000A5, 0x3F800123, 0x3F801234, 0x3F812345, 0x3F923456,
      0x3EA34567, 0x40200000].map (fun v => some (.measurementRead 0 1000 0x00 (.narrow .single v))) := by decide

/-- The values of the first point after a step. -/
def valuesAfter (o : StepOutcome) : Option PointValues :=
  (after o).bind fun t => t.dec.stream.pts.head?.map Point.values

/-- A1 to A5 and A13: the history. -/
theorem test_value32_history :
    [(Instr.value1W32, []), (.value2W32, []), (.value3W32, []), (.valueZeroW32, []), (.valueXOR4W32, [0xF0]),
      (.valueXOR4W32, [0x00])].map (fun x => valuesAfter (exec x.1 (opened .start (decoder [point32] x.2)))) =
    [{ v1 := 0x3F800000, v2 := 0x12345678, v3 := 0x40200000 }, { v1 := 0x12345678, v2 := 0x3F800000, v3 := 0x40200000 },
      { v1 := 0x40200000, v2 := 0x3F800000, v3 := 0x12345678 }, { v1 := 0, v2 := 0x3F800000, v3 := 0x12345678 },
      { v1 := 0x3F80000F, v2 := 0x3F800000, v3 := 0x12345678 },
      { v1 := 0x3F800000, v2 := 0x3F800000, v3 := 0x12345678 }].map (fun h => some (.narrow .single h)) := by decide

/-- D1 to D12: the value. -/
theorem test_value64_codes :
    [(Instr.value1W64, []), (.value2W64, []), (.value3W64, []), (.valueZeroW64, []), (.valueXOR8W64, [0xA5]),
      (.valueXOR16W64, [0x34, 0x12]), (.valueXOR24W64, [0x56, 0x34, 0x12]),
      (.valueXOR32W64, [0x78, 0x56, 0x34, 0x12]), (.valueXOR40W64, [0x9A, 0x78, 0x56, 0x34, 0x12]),
      (.valueXOR48W64, [0xBC, 0x9A, 0x78, 0x56, 0x34, 0x12]), (.valueXOR56W64, [0, 0, 0, 0, 0, 0, 0xF4]),
      (.valueXOR64W64, [0, 0, 0, 0, 0, 0, 0xF4, 0x7F])].map
      (fun x => answer (exec x.1 (opened .start (decoder [point64] x.2)))) =
    [0x3FF0000000000000, 0x123456789ABCDEF0, 0x4004000000000000, 0, 0x3FF00000000000A5, 0x3FF0000000001234,
      0x3FF0000000123456, 0x3FF0000012345678, 0x3FF000123456789A, 0x3FF0123456789ABC, 0x3F04000000000000,
      0x4004000000000000].map (fun v => some (.measurementRead 0 1000 0x00 (.wide .double v))) := by decide

/-- A14 to A17, D13, D14: the encoder's choice. -/
theorem test_value_choice :
    [0, 0x3F80000F, 0x3F800010].map (chooseValue (n := 32) valueWidths32 { v1 := 0x3F800000, v2 := 0x12345678, v3 := 0 }) =
      [.valueZero, .xor 4 0xF, .xor 8 0x10] ∧
    chooseValue (n := 32) valueWidths32 { v1 := 0, v2 := 0, v3 := 0 } 0x80000000 = .xor 32 0x80000000 ∧
    [0xBFF0000000000000, 0x3FF000000000000F].map
        (chooseValue (n := 64) valueWidths64 { v1 := 0x3FF0000000000000, v2 := 0x123456789ABCDEF0, v3 := 0 }) =
      [.xor 64 0x8000000000000000, .xor 8 0x0F] := by decide

/-! ### Control codes (V-CTL): one step from a fresh decoder, the code word included -/

/-- C1 to C3. -/
theorem test_control_codes :
    [[0x00, 0x0D, 0x00], [0x04, 0x2A], [0x08, 0x07, 0x03, 0xAA, 0xBB, 0xCC]].map
      (fun b => answer (step (opened .start { Dec.reset with inBuf := b }))) =
    [some (.newPointRegistered 0 (.narrow .single) []), some (.userData 42),
      some (.userDataWithValue 7 [0xAA, 0xBB, 0xCC])] := by decide

/-- C4: FlushBits at the end of the buffer. -/
theorem test_flushBits : (after (step (opened .start { Dec.reset with inBuf := [0x0C] }))).map
    (fun t => (t.responses, t.dec.pos, t.dec.rcnt)) = some ([.endOfStream], 1, 0) := by decide

/-! ### Errors (V-ENG, V-CTL): one step from a fresh decoder -/

/-- E1, E3, E4: a reserved code, an unknown type byte, a value code with no point. -/
theorem test_sticky_errors :
    [[0x5C, 0x00], [0x00, 0x07, 0x00], [0x80]].map
      (fun b => answer (step (opened .start { Dec.reset with inBuf := b }))) =
    [some (.error .malformedStream { fpos := 1, fbits := 2, fcode := 23, fphase := 0 }),
      some (.error .unsupportedType { fpos := 2, fbits := 2, fcode := 0, fphase := 0 }),
      some (.error .malformedStream { fpos := 1, fbits := 2, fcode := 32, fphase := 0 })] := by decide

/-- C5: the undo of a failed request. -/
theorem test_error_undo : (after (step (opened .start { Dec.reset with inBuf := [0x00, 0x07, 0x00] }))).map
    (fun t => (t.dec.pos, t.dec.rcnt, t.dec.err, t.dec.stream.boot.since)) = some (0, 0, .unsupportedType, 0) := by
  decide

/-! ### Host requests (V-HOST, P4) -/

/-- H1, H4, H7 and H8. -/
theorem test_host_requests :
    answer (exec (.reservedHost4to7 1) State.reset) = some (.error .invalidRequest FaultRecord.zero) ∧
    answer (exec (.encRegister 0x07 []) State.reset) = some (.error .unsupportedType FaultRecord.zero) ∧
    answer (exec .encTake State.reset) = some (.bytes []) ∧
    answer (exec (.decLoad [1, 2, 3, 4, 5]) { State.reset with cfg := { Config.largest with decBufMax := 4 } }) =
      some (.error .capacityExceeded FaultRecord.zero) := by decide

/-- H2 and H3. -/
theorem test_write_refusals :
    [exec (.encWrite 3 0 0 (.narrow .single 0)) (encoding [point32]),
      exec (.encWrite 0 0 0 (.wide .double 0)) (encoding [point32])].map answer =
    List.replicate 2 (some (.error .invalidRequest FaultRecord.zero)) := by decide

/-- P4: the first take, `00 0D 00 30`. -/
theorem test_register_then_take :
    ((after (exec (.encRegister 0x0D []) State.reset)).bind fun s => answer (exec .encTake s)) =
      some (.bytes [0x00, 0x0D, 0x00, 0x30]) := by decide

/-- The bytes of ENC_WRITE from T0 and V0: TimeDelta2Reverse `010000`, Quality2 `010101`, ValueXOR4 `100100 1111`, and
two bits of the next byte: T13, Q5, A16. -/
theorem test_write_bits :
    (after (exec (.encWrite 0 990 0xC0 (.narrow .single 0x3F80000F)) (encoding [point32]))).map
      (fun t => (t.enc.out, t.enc.wcnt, t.enc.wcache)) =
    some ([0b01000001, 0b01011001, 0b00000000], 6, 0b00111100) := by decide

theorem test_user_flush_status :
    (after (exec (.encUser 5) State.reset)).map (fun t => (t.enc.out, t.enc.wcnt)) = some ([0x00, 0x05], 6) ∧
    (after (exec (.encUserData 9 [0xAA, 0xBB]) State.reset)).map (·.enc.out) =
      some [0x00, 0x09, 0x02, 0xAA, 0xBB] ∧
    (after (exec .encFlush State.reset)).map (fun t => (t.enc.out, t.enc.wcnt)) = some ([0x0C], 0) ∧
    answer (exec .decGet State.reset) = some .endOfStream ∧
    answer (exec .decStatus State.reset) = some (.status
      { err := 0, failed := false, atEos := true, pos := 0, len := 0, bits := 0, npts := 0, cursor := 0,
        finfo := FaultRecord.zero }) ∧
    answer (exec .encStatus State.reset) = answer (exec .decStatus State.reset) := by decide

theorem test_resets :
    (after (exec .decReset { State.reset with dec := decoder [point32] [1] })).map (·.dec) = some Dec.reset ∧
    (after (exec .encReset (encoding [point32]))).map (·.enc) = some Enc.reset := by decide

/-! ### The table's words as the first instruction after reset -/

theorem test_withFetchWord :
    answer (step (State.reset.withFetchWord 4 0x2)) = some .endOfStream ∧
    answer (step (State.reset.withFetchWord 6 0b000001)) = some (.userData 0) := by decide

/-! ### Witnesses

For each statement of Certificates/Slice0/Obligations.lean that has hypotheses, a state and operands that meet them
together, one for each clause. -/

/-- A decoder with `n` bits of 0x5A in its cache and two bytes to read. -/
def reader (n : Nat) : Dec :=
  { Dec.reset with inBuf := [0x50, 0x12, 0x34], pos := 1, rcache := 0x5A, rcnt := n }

theorem witness_CodeWordDecodesToItsInstruction :
    Instr.wellFormed .w32 .valueXOR4W32 = true ∧ Instr.wellFormed .w64 .valueXOR64W64 = true ∧
    Instr.wellFormed .w64 (.encWrite 0 0 0 (.wide .double 0)) = true := by decide

theorem witness_CodeWordReaderMatchesTheParse :
    (reader 8).rcnt ≤ 8 ∧ (∃ c rest, parseCodeWord [20, 32] (reader 8).unreadBits = .ok (c, rest)) ∧
    Dec.reset.rcnt ≤ 8 ∧ parseCodeWord [20, 32] Dec.reset.unreadBits = .error .bitsRunOut :=
  ⟨by decide, ⟨32, bits "0110100001001000110100", by decide⟩, by decide, by decide⟩

/-- A model in mode 3 with escapes 20 and 32. -/
def model3 : CodeModel :=
  { CodeModel.initial with mode := .mode3, mode3_1 := 20, mode3_01 := 32 }

theorem witness_CodeWordLengthByMode :
    { Enc.reset with stream := { Stream.reset with boot := model3 } }.stream.curModel = model3 ∧
    Dec.rcnt { Dec.reset with rcache := 0x5A, rcnt := 7 } ≤ 8 ∧
    Dec.unreadBits { Dec.reset with rcache := 0xDA, rcnt := 7 } = codeWord model3.escapes 20 ++ bits "011010" := by
  decide

theorem witness_FallThroughFormIsAccepted :
    (20 : Code) ∈ model3.escapes ∧ Dec.rcnt { Dec.reset with rcache := 0x14, rcnt := 8 } ≤ 8 ∧
    Dec.unreadBits { Dec.reset with rcache := 0x14, rcnt := 8 } =
      List.replicate model3.escapes.length false ++ bitsOf (20 : Code) ++ [] := by decide

theorem witness_ReadBitsTakesTheNextBits :
    (reader 8).rcnt ≤ 8 ∧ 24 ≤ (reader 8).unreadBits.length ∧ (reader 8).unreadBits.length < 25 := by decide

/-- With bytes up to the last one, and with one byte too many. -/
theorem witness_RawBytesAreTakenInOrder :
    (reader 4).pos ≤ (reader 4).inBuf.length ∧
    (reader 4).pos + ((reader 4).inBuf.length - (reader 4).pos) ≤ (reader 4).inBuf.length ∧
    ¬ (reader 4).pos + ((reader 4).inBuf.length - (reader 4).pos + 1) ≤ (reader 4).inBuf.length := by decide

theorem witness_XorPayloadIsNibbleThenBytes :
    (reader 4).pos ≤ (reader 4).inBuf.length ∧ (reader 4).pos + 16 / 8 ≤ (reader 4).inBuf.length ∧
    ¬ (reader 4).pos + 24 / 8 ≤ (reader 4).inBuf.length ∧
    (reader 4).readBits 4 = .ok 0xA#4 { reader 4 with rcnt := 0 } ∧
    Dec.readBits 4 Dec.reset = .raised .bufferUnderrun Dec.reset := by decide

theorem witness_VarintsReadBackAndMayBeLonger :
    ([0xAC, 0x02, 0x07] : List Byte).drop 0 =
      [0x2C#7].map (fun g => 0x80#8 ||| g.setWidth 8) ++ (0x02#7).setWidth 8 :: [0x07] ∧
    ([0xAC] : List Byte).drop 0 = [0x2C#7].map (fun g => 0x80#8 ||| g.setWidth 8) ∧
    ([0xAC, 0x02, 0x07] : List Byte).drop 0 = varintBytes (300#32) ++ [0x07] := by decide

/-- An encoder with three bits pending in its reserved byte. -/
def pendingEnc : Enc :=
  Enc.reset.writeBitString (bits "101")

/-- A decoder that stands where `pendingEnc` stands, its buffer going on with `rest`. -/
def pendingDec (rest : List Byte) : Dec :=
  { Dec.reset with inBuf := [0x07, 0xB0] ++ rest, pos := 2, rcache := 0xB0, rcnt := 5 }

theorem witness_WriterAndReaderStayInStep :
    pendingEnc.wcnt ≤ 7 ∧ pendingEnc.wslot < pendingEnc.out.length ∧
    (pendingDec [0x12]).At pendingEnc [0x07] [0xB0, 0x12] ∧
    (pendingEnc.writeBit true).Extends [0xB0, 0x12] ∧ (pendingEnc.writeByte 0x12).Extends [0xB0, 0x12] ∧
    (pendingEnc.writeXor 0x12#8).Extends [0xB0, 0x12] := by
  refine ⟨by decide, by decide, ⟨by decide, by decide, by decide, fun _ => by decide⟩, ?_, ?_, ?_⟩
  · exact ⟨by decide, by decide, fun _ => ⟨0xB0, by decide, by decide⟩⟩
  · exact ⟨by decide, by decide, fun _ => ⟨0xB0, by decide, by decide⟩⟩
  · exact ⟨by decide, by decide, fun _ => ⟨0xB0, by decide, by decide⟩⟩

/-- An encoder between requests with one point and three bits pending. -/
def writing : State :=
  { State.reset with enc := { pendingEnc with stream := streamT0 [point32] } }

theorem writing_bufferWf : writing.enc.BufferWf writing.cfg := ⟨by decide, by decide, by decide⟩

theorem witness_OutputBytesAreKept :
    writing.enc.BufferWf writing.cfg ∧ (after (exec .encFlush writing)).isSome = true ∧
    (after (exec (.encWrite 0 990 0 (.narrow .single 0)) writing)).isSome = true :=
  ⟨writing_bufferWf, by decide, by decide⟩

/-- The model after codes 20, 20, 32: three codes below a retrain. -/
def counted : CodeModel :=
  [20, 20, 32].foldl CodeModel.countCode CodeModel.initial

theorem witness_AdaptSelectsTheCheapestMode :
    (∀ c, c ≠ 20 → counted.Before 20 c) ∧ (∀ c, c ≠ 20 → c ≠ 32 → counted.Before 32 c) ∧
    (∀ c, c ≠ 20 → c ≠ 32 → c ≠ 0 → counted.Before 0 c) ∧ (20 : Code) ≠ 32 ∧ (20 : Code) ≠ 0 ∧ (32 : Code) ≠ 0 := by
  decide

theorem witness_InstalledEscapesWereCounted :
    6 ≤ ([20, 20, 32, 20, 20, 32].foldl CodeModel.countCode CodeModel.initial).total := by decide

theorem witness_CodeIsCountedInTheCurrentModel :
    Dec.readCode { Dec.reset with inBuf := [0x0C] } = .ok 3 { Dec.reset with
      inBuf := [0x0C], pos := 1, rcache := 0x0C, rcnt := 2
      stream := { Stream.reset with boot := CodeModel.initial.updateStats 3 } } ∧
    (decoder [point32] [0x0C]).stream.pts[(decoder [point32] [0x0C]).stream.cursor.toNat]? = some point32 ∧
    (∃ d, Dec.readCode (decoder [point32] [0x0C]) = .ok 3 d) := by
  refine ⟨by decide, by decide, ?_⟩
  exact ⟨_, rfl⟩

theorem streamT0_deltaCacheWf (pts : List Point) : (streamT0 pts).DeltaCacheWf where
  nonneg := by show (0 : Int) ≤ BitVec.toInt 5; decide
  le12 := by show BitVec.toInt 5 ≤ BitVec.toInt 10; decide
  le23 := by show BitVec.toInt 10 ≤ BitVec.toInt 20; decide
  le34 := by show BitVec.toInt 20 ≤ BitVec.toInt i64Max; decide
  distinct12 := fun h => absurd h (by show ¬ (5 : Word64) = 10; decide)
  distinct23 := fun h => absurd h (by show ¬ (10 : Word64) = 20; decide)
  distinct34 := fun h => absurd h (by show ¬ (20 : Word64) = i64Max; decide)

/-- The delta cache of T0, and deltas that enter it, are in it, and are past it. -/
theorem witness_DeltaCacheKeepsTheFourSmallest :
    (streamT0 []).DeltaCacheWf ∧ (streamT0 []).tvalid = true ∧ Stream.reset.tvalid = false :=
  ⟨streamT0_deltaCacheWf [], by decide, by decide⟩

theorem witness_EncoderTakesTheLowestTimeCode :
    (streamT0 []).timeCodeApplies 1005 11 ∧ (streamT0 []).timeCodeApplies 990 16 ∧
    (streamT0 []).timeCodeApplies 990 19 ∧ (streamT0 []).timeCodeApplies 0 20 :=
  ⟨⟨by decide, by decide⟩, ⟨by decide, by decide⟩, by show (990 : Word64) = 990; rfl, trivial⟩

/-- A timestamp that is S.t1, one that needs code 20, and one that needs another code. -/
theorem witness_EncoderTakesTheLowestTimeCode_encode :
    let st := (EncRun.start { Enc.reset with stream := streamT0 [] }).enc.stream
    (1000 : Word64) = st.t1 ∧ (0 : Word64) ≠ st.t1 ∧ chooseTimeCode st 0 = 20 ∧
    (990 : Word64) ≠ st.t1 ∧ chooseTimeCode st 990 = 16 := by decide

theorem witness_ValueXorIsOfLeastWidth :
    chooseValue valueWidths32 { v1 := 1, v2 := 2, v3 := 3 } (0x11 : Word32) = .xor 8 0x10 ∧
    chooseValue valueWidths64 { v1 := 1, v2 := 2, v3 := 3 } (0x101 : Word64) = .xor 16 0x100 := by decide

/-- The ID statement's clauses at their boundary: with two points, cursor 1 is registered and cursor 2 is not. -/
theorem witness_PointIdCodesMoveTheCursor :
    let s := opened .start (decoder [point32, point32] [0x10])
    let s' := opened .start (decoder [point32, point32] [0x20])
    s.get.map (·.phase) = some .start ∧ s.dec.stream.pts ≠ [] ∧
    s.dec.readXor 4 = .ok 0x1#4 { s.dec with pos := 1, rcache := 0x10, rcnt := 4 } ∧
    (s.dec.stream.cursor ^^^ (0x1#4).setWidth 32).toNat < s.dec.stream.pts.length ∧
    s'.dec.readXor 4 = .ok 0x2#4 { s'.dec with pos := 1, rcache := 0x20, rcnt := 4 } ∧
    s'.dec.stream.pts.length ≤ (s'.dec.stream.cursor ^^^ (0x2#4).setWidth 32).toNat := by decide

theorem witness_TimeCodesSetTheTimestamp :
    let s := opened .start (decoder [point32] [0x0F])
    s.get.map (·.phase) = some .start ∧ s.dec.stream.pts ≠ [] ∧
    (opened .afterId s.dec).get.map (·.phase) = some .afterId ∧
    s.dec.readVarint 64 = .ok 0x0F#64 { s.dec with pos := 1 } := by decide

theorem witness_QualityCodesUpdateTheTarget :
    let s := opened .afterTime (decoder [point32] [0x07])
    s.get.map (·.phase) = some .afterTime ∧
    s.dec.stream.pts[s.dec.stream.cursor.toNat]? = some point32 ∧
    s.dec.readVarint 32 = .ok 7#32 { s.dec with pos := 1 } := by decide

/-- For the repeat, zero and XOR codes of both widths. -/
theorem witness_ValueCodes :
    let s := opened .start (decoder [point32] [0xA5])
    let s' := opened .afterQuality (decoder [point64] [0xA5])
    s.get.isSome = true ∧ s.dec.stream.pts[s.dec.stream.cursor.toNat]? = some point32 ∧
    point32.values = .narrow .single { v1 := 0x3F800000, v2 := 0x12345678, v3 := 0x40200000 } ∧
    s.dec.readXor 8 = .ok 0xA5#8 { s.dec with pos := 1 } ∧
    s'.get.isSome = true ∧ s'.dec.stream.pts[s'.dec.stream.cursor.toNat]? = some point64 ∧
    point64.values = .wide .double { v1 := 0x3FF0000000000000, v2 := 0x123456789ABCDEF0, v3 := 0x4004000000000000 } ∧
    s'.dec.readXor 8 = .ok 0xA5#8 { s'.dec with pos := 1 } := by decide

theorem witness_NewPointIdRegistersAPoint :
    let s := opened .start { Dec.reset with inBuf := [0x0D, 0x01, 0x56] }
    s.get.map (·.phase) = some .start ∧ s.dec.readByte = .ok 0x0D { s.dec with pos := 1 } ∧
    s.cfg.typeCodes.tagOf 0x0D = some (.narrow .single) ∧ s.dec.stream.pts.length ≠ s.cfg.maxPoints ∧
    Dec.readVarint 32 { s.dec with pos := 1 } = .ok 1 { s.dec with pos := 2 } ∧
    (1 : Word32).toNat ≤ s.cfg.maxMetaBytes ∧
    Dec.readBytes 1 { s.dec with pos := 2 } = .ok [0x56] { s.dec with pos := 3 } := by decide

/-- The default map is injective, and a byte is outside its image. -/
theorem witness_NewPointIdRegistersAPoint_map :
    TypeCodes.default.Injective ∧ (0x07 : Byte) ∉ [TypeCodes.default.int32, TypeCodes.default.uint32,
      TypeCodes.default.single, TypeCodes.default.int64, TypeCodes.default.uint64, TypeCodes.default.double] := by decide

/-- One state for each of its three clauses. -/
theorem witness_NewPointIdErrorsInOrder :
    let s := opened .start { Dec.reset with inBuf := [0x0D, 0x01, 0x56] }
    let full : State := { opened .start (decoder [point32] [0x0D]) with cfg := { Config.largest with maxPoints := 1 } }
    let short : State := { s with cfg := { Config.largest with maxMetaBytes := 0 } }
    (opened .start { Dec.reset with inBuf := [0x07] }).dec.readByte =
      .ok 0x07 { Dec.reset with inBuf := [0x07], pos := 1 } ∧
    State.reset.cfg.typeCodes.tagOf 0x07 = none ∧
    full.dec.readByte = .ok 0x0D { full.dec with pos := 1 } ∧ full.cfg.typeCodes.tagOf 0x0D ≠ none ∧
    full.dec.stream.pts.length = full.cfg.maxPoints ∧
    short.dec.readByte = .ok 0x0D { short.dec with pos := 1 } ∧
    short.dec.stream.pts.length ≠ short.cfg.maxPoints ∧
    Dec.readVarint 32 { short.dec with pos := 1 } = .ok 1 { short.dec with pos := 2 } ∧
    short.cfg.maxMetaBytes < (1 : Word32).toNat := by decide

theorem witness_UserCommandsAreReturned :
    let s := opened .start { Dec.reset with inBuf := [0x07, 0x01, 0xAA] }
    s.get.map (·.phase) = some .start ∧ s.dec.readVarint 32 = .ok 7#32 { s.dec with pos := 1 } ∧
    Dec.readVarint 32 { s.dec with pos := 1 } = .ok 1#32 { s.dec with pos := 2 } ∧
    Dec.readBytes 1 { s.dec with pos := 2 } = .ok [0xAA] { s.dec with pos := 3 } := by decide

/-- For FlushBits and for the reserved codes: at the end of the buffer, and before it. -/
theorem witness_CodesWithoutOperands :
    let s := opened .start (reader 5)
    s.get = some { saved := reader 5, code := noCode, phase := .start } ∧ s.dec.pos ≠ s.dec.inBuf.length ∧
    (opened .start Dec.reset).dec.pos = (opened .start Dec.reset).dec.inBuf.length := by decide

theorem witness_TruncatedPayloadUnderruns :
    let s := opened .start (decoder [point32] [])
    let s' := opened .start (decoder [point64] [])
    s.get.map (·.phase) = some .start ∧ s.dec.stream.pts ≠ [] ∧ s.dec.readXor 4 = .raised .bufferUnderrun s.dec ∧
    s.dec.stream.pts[s.dec.stream.cursor.toNat]? = some point32 ∧ s.dec.readVarint 64 = .raised .bufferUnderrun s.dec ∧
    s.dec.readVarint 32 = .raised .bufferUnderrun s.dec ∧ s.dec.readByte = .raised .bufferUnderrun s.dec ∧
    s'.dec.stream.pts[s'.dec.stream.cursor.toNat]? = some point64 ∧
    s'.dec.readXor 64 = .raised .bufferUnderrun s'.dec := by decide

/-- The later fields of the control codes: a length cut off, and metadata and a payload of two bytes cut to one. -/
theorem witness_TruncatedPayloadUnderruns_laterFields :
    let point := opened .start { Dec.reset with inBuf := [0x0D] }
    let point2 := opened .start { Dec.reset with inBuf := [0x0D, 0x02, 0x56] }
    let user := opened .start { Dec.reset with inBuf := [0x07] }
    let user2 := opened .start { Dec.reset with inBuf := [0x07, 0x02, 0xAA] }
    point.get.map (·.phase) = some .start ∧ point.dec.readByte = .ok 0x0D { point.dec with pos := 1 } ∧
    point.cfg.typeCodes.tagOf 0x0D ≠ none ∧ point.dec.stream.pts.length ≠ point.cfg.maxPoints ∧
    Dec.readVarint 32 { point.dec with pos := 1 } = .raised .bufferUnderrun { point.dec with pos := 1 } ∧
    point2.dec.readByte = .ok 0x0D { point2.dec with pos := 1 } ∧
    Dec.readVarint 32 { point2.dec with pos := 1 } = .ok 2 { point2.dec with pos := 2 } ∧
    (2 : Word32).toNat ≤ point2.cfg.maxMetaBytes ∧
    Dec.readBytes 2 { point2.dec with pos := 2 } = .raised .bufferUnderrun { point2.dec with pos := 3 } ∧
    user.dec.readVarint 32 = .ok 7#32 { user.dec with pos := 1 } ∧
    Dec.readVarint 32 { user.dec with pos := 1 } = .raised .bufferUnderrun { user.dec with pos := 1 } ∧
    Dec.readVarint 32 { user2.dec with pos := 1 } = .ok 2#32 { user2.dec with pos := 2 } ∧
    Dec.readBytes 2 { user2.dec with pos := 2 } = .raised .bufferUnderrun { user2.dec with pos := 3 } := by decide

/-- A code outside the allowed set at each position, at the edge of the set. -/
theorem witness_PhaseCheckRaisesMalformedStream :
    encode .pointIDXOR4 = .localCode 4 ∧ (opened .start Dec.reset).dec.stream.pts = [] ∧
    (opened .start Dec.reset).get.map (·.phase) = some .start ∧
    encode .pointIDXOR32 = .localCode 10 ∧ (opened .afterId (decoder [point32] [])).get.map (·.phase) = some .afterId ∧
    encode .timeXOR7Bit = .localCode 20 ∧
    (opened .afterTime (decoder [point32] [])).get.map (·.phase) = some .afterTime ∧
    encode (.reserved24to31 7) = .localCode 31 ∧ encode (.reserved44to47 0) = .localCode 44 ∧
    (opened .afterQuality (decoder [point32] [])).get.map (·.phase) = some .afterQuality := by decide

/-- For the requests of the decoder: an idle state, a load at the limit and past it, and both ends of DEC_GET. -/
theorem witness_DecoderRequests :
    let s : State := { State.reset with cfg := { Config.largest with decBufMax := 2 } }
    s.get = none ∧ s.dec.err = .none ∧ [0x01, 0x02].length ≤ s.cfg.decBufMax ∧
    s.cfg.decBufMax < [0x01, 0x02, 0x03].length ∧ (s.dec.pos = s.dec.inBuf.length ∧ s.dec.rcnt = 0) ∧
    ¬ ((reader 5).pos = (reader 5).inBuf.length ∧ (reader 5).rcnt = 0) := by decide

theorem witness_EncRegisterWritesANewPoint :
    let s := writing
    let e := (((s.enc.writeCode 0).writeByte 0x0D).writeVarint (BitVec.ofNat 32 1)).writeBytes [0x56]
    s.get = none ∧ s.enc.err = .none ∧ s.cfg.typeCodes.tagOf 0x0D = some (.narrow .single) ∧
    s.enc.stream.pts.length ≠ s.cfg.maxPoints ∧ [0x56].length ≤ s.cfg.maxMetaBytes ∧
    e.out.length + (if 0 < e.wcnt then 1 else 0) ≤ s.cfg.encBufMax := by decide

/-- A table of one point with ID 0 is well formed. -/
theorem tableWf_one (p : Point) (h : p.id = 0) (cfg : Config) (hc : 1 ≤ cfg.maxPoints) :
    (streamT0 [p]).TableWf cfg where
  capacity := hc
  ids := by
    intro i q hq
    match i with
    | 0 => simp only [streamT0, List.getElem?_cons_zero, Option.some.injEq] at hq; subst hq; exact h
    | i + 1 => simp [streamT0] at hq
  cursor_lt := fun _ => by show (0 : Word32).toNat < 1; decide
  cursor_zero := fun _ => rfl

theorem witness_EncWriteMovesTheStreamState :
    writing.get = none ∧ writing.enc.err = .none ∧ writing.enc.BufferWf writing.cfg ∧
    writing.enc.stream.TableWf writing.cfg ∧ writing.enc.footprint + 40 ≤ writing.cfg.encBufMax ∧
    writing.enc.stream.pts[(0 : Word32).toNat]? = some point32 ∧ (Value.narrow .single 5).tag = point32.type :=
  ⟨by decide, by decide, writing_bufferWf, tableWf_one point32 rfl writing.cfg (by decide), by decide, by decide,
    by decide⟩

/-- An encoder with two bits pending, which code 3 fills up to a whole group: no bits are left to pad. -/
def almostFull : State :=
  { State.reset with enc := Enc.reset.writeBitString (bits "10") }

/-- Both ends of the bit group: padded, and full; and a step from a state that pads with zeros. -/
theorem witness_EncFlushEndsTheBitGroup :
    writing.enc.PadsWithZeros ∧ writing.get = none ∧ writing.enc.err = .none ∧
    (0 < writing.enc.wcnt ∧ writing.enc.wslot < writing.enc.out.length) ∧
    (let e := writing.enc.writeCode 3
     0 < e.wcnt ∧ (memWrite e.out e.wslot e.wcache).length ≤ writing.cfg.encBufMax) ∧
    almostFull.enc.PadsWithZeros ∧ almostFull.get = none ∧ almostFull.enc.err = .none ∧ 0 < almostFull.enc.wcnt ∧
    (let e := almostFull.enc.writeCode 3
     e.wcnt = 0 ∧ e.out = [0x83] ∧ e.out.length ≤ almostFull.cfg.encBufMax) ∧
    ∃ t, step { almostFull with pending := [{ opcode := 0xD }] } = .next t ∧ t.enc.out = [0x83] :=
  ⟨fun _ => by decide, by decide, by decide, by decide, by decide, fun _ => by decide, by decide, by decide, by decide,
    by decide, _, rfl, by decide⟩

/-- For ENC_USER, ENC_USER_DATA, ENC_FLUSH and ENC_TAKE, with bits pending and without. -/
theorem witness_EncoderCommands :
    let s := writing
    let e1 := (s.enc.writeCode 1).writeVarint 5#32
    let e2 := (((s.enc.writeCode 2).writeVarint 5#32).writeVarint (BitVec.ofNat 32 1)).writeBytes [0xAA]
    let e3 := s.enc.writeCode 3
    s.get = none ∧ s.enc.err = .none ∧ 0 < s.enc.wcnt ∧ State.reset.enc.wcnt = 0 ∧
    e1.out.length + (if 0 < e1.wcnt then 1 else 0) ≤ s.cfg.encBufMax ∧
    e2.out.length + (if 0 < e2.wcnt then 1 else 0) ≤ s.cfg.encBufMax ∧
    (if e3.wcnt = 0 then e3.out.length else (memWrite e3.out e3.wslot e3.wcache).length) ≤ s.cfg.encBufMax := by decide

/-- A flush of the fresh encoder takes one byte: allowed under a limit of 1, refused under a limit of 0. -/
theorem witness_OutputOverTheLimitIsRefused :
    writing.enc.BufferWf writing.cfg ∧ 0 < writing.enc.wcnt ∧
    ∃ u, exec .encFlush { State.reset with cfg := { State.reset.cfg with encBufMax := 1 } } = .next u ∧
      u.responses = State.reset.responses ++ [.ok] ∧ Response.ok.succeeds = true ∧
      u.enc.out.length + (if 0 < u.enc.wcnt then 1 else 0) = 1 :=
  ⟨writing_bufferWf, by decide, _, rfl, by decide, by decide, by decide⟩

/-- One state for each refusal: the full table and the metadata limit apart from the rest. -/
theorem witness_RefusalsChangeNothing :
    let full : State := { writing with cfg := { Config.largest with maxPoints := 1, maxMetaBytes := 0 } }
    let small : State := { State.reset with cfg := { Config.largest with decBufMax := 2 } }
    small.get = none ∧ small.dec.err = .none ∧ small.cfg.decBufMax < [0x01, 0x02, 0x03].length ∧
    full.get = none ∧ full.enc.err = .none ∧ full.cfg.typeCodes.tagOf 0x07 = none ∧
    full.cfg.typeCodes.tagOf 0x0D ≠ none ∧ full.enc.stream.pts.length = full.cfg.maxPoints ∧
    full.cfg.maxMetaBytes < [0x56].length ∧ full.enc.stream.pts.length ≤ (1 : Word32).toNat ∧
    full.enc.stream.pts[(0 : Word32).toNat]? = some point32 ∧ (Value.wide .double 0).tag ≠ point32.type := by decide

/-- Both engines failed. -/
def failedBoth : State :=
  { State.reset with dec := { Dec.reset with err := .bufferUnderrun }
                     enc := { Enc.reset with err := .encoderInvariantViolation } }

theorem witness_FailedEngineAnswersItsError :
    failedBoth.get = none ∧ failedBoth.dec.err ≠ .none ∧ failedBoth.enc.err ≠ .none := by decide

theorem witness_StickyErrorUndoesTheRequest :
    let s := opened .start { Dec.reset with inBuf := [0x5C, 0x00] }
    s.get = some { saved := s.dec, code := noCode, phase := .start } ∧ s.dec.err = .none ∧
    ∃ t, step s = .next t ∧ t.dec.err ≠ .none :=
  ⟨by decide, by decide, ⟨_, rfl, by decide⟩⟩

theorem witness_TruncatedCodeWordUnderruns :
    let s := opened .start { Dec.reset with inBuf := [0xFF], pos := 1, rcache := 0xFF, rcnt := 5 }
    s.get = some { saved := s.dec, code := noCode, phase := .start } ∧ s.dec.rcnt ≤ 8 ∧
    s.dec.pos ≤ s.dec.inBuf.length ∧
    parseCodeWord s.dec.stream.curModel.escapes s.dec.unreadBits = .error .bitsRunOut := by decide

theorem witness_StoredErrorsStayLegal :
    let s := opened .start { Dec.reset with inBuf := [0x5C, 0x00] }
    s.enc.err = .none ∧
    (∀ d ∈ s.decoders, d.err ∈ [.none, .malformedStream, .unsupportedType, .bufferUnderrun, .capacityExceeded]) ∧
    ∃ t, step s = .next t :=
  ⟨by decide, by decide, ⟨_, rfl⟩⟩

theorem witness_OnlyResetClearsAnError :
    let s : State := { failedBoth with pending := [{ opcode := 0x0 }] }
    s.get = none ∧ s.dec.err ≠ .none ∧ s.enc.err ≠ .none ∧ ∃ t, step s = .next t :=
  ⟨by decide, by decide, by decide, ⟨_, rfl⟩⟩

/-- A code to be read, a request to be served, and nothing to do. -/
theorem witness_StepRunsTheDecodedInstruction :
    let s := opened .start { Dec.reset with inBuf := [0x0C] }
    s.get.isSome = true ∧ s.dec.rcnt ≤ 8 ∧
    parseCodeWord s.dec.stream.curModel.escapes s.dec.unreadBits = .ok (3, bits "00") ∧
    (State.reset.withFetchWord 4 0xD).get = none ∧
    (State.reset.withFetchWord 4 0xD).pending = [{ opcode := 0xD }] ∧
    State.reset.get = none ∧ State.reset.pending = [] := by decide

/-- For the statements about a request in the queue, one for each engine. -/
theorem witness_QueuedRequests :
    let s : State := { State.reset with pending := [{ opcode := 0x2 }] }
    let s' : State := { State.reset with pending := [{ opcode := 0xD }] }
    s.get = none ∧ s.pending = { opcode := 0x2 } :: [] ∧ (0x2#4).toNat < 8 ∧ (∃ t, step s = .next t) ∧
    s'.get = none ∧ s'.pending = { opcode := 0xD } :: [] ∧ 8 ≤ (0xD#4).toNat ∧ (∃ t, step s' = .next t) :=
  ⟨by decide, by decide, by decide, ⟨_, rfl⟩, by decide, by decide, by decide, ⟨_, rfl⟩⟩

/-- A decoder and an encoder in step, with one point, and a measurement about to be written. -/
def inStep : State :=
  { State.reset with
    dec := { Dec.reset with stream := streamT0 [point32], inBuf := [0x07, 0x80], pos := 1 }
    enc := { Enc.reset with stream := streamT0 [point32] } }

theorem inStep_inStep : inStep.dec.InStep inStep.enc [0x07] [0x80] :=
  ⟨⟨by decide, by decide, fun _ => rfl, fun h => absurd h (by decide)⟩, rfl⟩

theorem inStep_tables : inStep.TablesInv := by
  refine ⟨by decide, fun st hst => ?_⟩
  have : st = streamT0 [point32] := by
    simp only [State.streams, inStep, State.reset, List.mem_cons, List.not_mem_nil, or_false] at hst
    rcases hst with h | h <;> exact h
  subst this
  exact tableWf_one point32 rfl _ (by decide)

theorem inStep_buffers : inStep.BuffersInv := by
  refine ⟨fun d hd => ?_, ⟨by decide, by decide, by decide⟩⟩
  have : d = inStep.dec := by
    simp only [State.decoders, inStep, State.reset, List.mem_cons, List.not_mem_nil, or_false] at hd
    exact hd
  subst this
  exact ⟨by decide, by decide, by decide⟩

theorem point32_model_wf : CodeModel.Wf CodeModel.initial :=
  ⟨by decide, by decide, by decide, by decide⟩

/-- The invariants have states besides reset, from which a step goes on: one with a point and bytes loaded. -/
theorem witness_Invariants :
    inStep.ModelsInv ∧ inStep.DeltaCachesInv ∧ inStep.TablesInv ∧ inStep.BuffersInv ∧ inStep.cfg.InRange ∧
    ∃ t, step { inStep with pending := [{ opcode := 0x2 }] } = .next t := by
  refine ⟨fun st hst => ?_, fun st hst => ?_, inStep_tables, inStep_buffers, by decide, ⟨_, rfl⟩⟩
  · have : st = streamT0 [point32] := by
      simp only [State.streams, inStep, State.reset, List.mem_cons, List.not_mem_nil, or_false] at hst
      rcases hst with h | h <;> exact h
    subst this
    exact ⟨point32_model_wf, fun p hp => by
      simp only [streamT0, List.mem_cons, List.not_mem_nil, or_false] at hp
      subst hp; exact point32_model_wf⟩
  · have : st = streamT0 [point32] := by
      simp only [State.streams, inStep, State.reset, List.mem_cons, List.not_mem_nil, or_false] at hst
      rcases hst with h | h <;> exact h
    subst this
    exact streamT0_deltaCacheWf _

/-- An ENC_WRITE of the last value at the last timestamp and quality: one code, Value1, `100000`. -/
theorem witness_DecoderReadsWhatEncWriteWrote :
    inStep.get = none ∧ inStep.dec.err = .none ∧ inStep.TablesInv ∧ inStep.BuffersInv ∧
    inStep.dec.InStep inStep.enc [0x07] [0x80] ∧
    ∃ t, exec (.encWrite 0 1000 0 (.narrow .single 0x3F800000)) inStep = .next t ∧
      t.responses = inStep.responses ++ [.ok] ∧ t.enc.Extends [0x80] := by
  refine ⟨by decide, by decide, inStep_tables, inStep_buffers, inStep_inStep, ⟨_, rfl, by decide, ?_⟩⟩
  exact ⟨by decide, by decide, fun _ => ⟨0x80, by decide, by decide⟩⟩

/-- As `inStep`, with another byte after the earlier take. -/
def inStepOn (f : List Byte) : State :=
  { inStep with dec := { inStep.dec with inBuf := [0x07] ++ f } }

/-- The three control records and FlushBits, each with the bytes it writes behind the decoder's cursor. -/
theorem witness_DecoderReadsTheControlRecords :
    (∃ t, exec (.encRegister 0x0D []) (inStepOn [0x00, 0x0D, 0x00]) = .next t ∧ t.responses = [.okId 1] ∧
      t.enc.out = [0x00, 0x0D, 0x00] ∧ t.enc.wcnt = 6 ∧ t.enc.wcache = 0x00) ∧
    (∃ t, exec (.encUser 42) (inStepOn [0x04, 0x2A]) = .next t ∧ t.responses = [.ok] ∧
      t.enc.out = [0x00, 0x2A] ∧ t.enc.wcnt = 6 ∧ t.enc.wcache = 0x04) ∧
    (∃ t, exec (.encUserData 7 [0xAA]) (inStepOn [0x08, 0x07, 0x01, 0xAA]) = .next t ∧ t.responses = [.ok] ∧
      t.enc.out = [0x00, 0x07, 0x01, 0xAA] ∧ t.enc.wcnt = 6 ∧ t.enc.wcache = 0x08) ∧
    (∃ t, exec .encFlush (inStepOn [0x0C]) = .next t ∧ t.responses = [.ok] ∧ t.enc.Extends [0x0C]) := by
  refine ⟨⟨_, rfl, by decide, by decide, by decide, by decide⟩, ⟨_, rfl, by decide, by decide, by decide, by decide⟩,
    ⟨_, rfl, by decide, by decide, by decide, by decide⟩, ⟨_, rfl, by decide, ?_⟩⟩
  exact ⟨by decide, by decide, fun h => absurd h (by decide)⟩

/-- ENC_USER and ENC_TAKE from reset. -/
theorem witness_DecodingUndoesEncoding :
    let s : State := { State.reset with pending := [{ opcode := 0xB, command := 42 }] ++ [{ opcode := 0xE }] }
    s.cfg.InRange ∧ s.dec = Dec.reset ∧ s.enc = Enc.reset ∧ s.get = none ∧ s.responses = [] ∧
    (∀ r ∈ [({ opcode := 0xB, command := 42 } : Request)], 9 ≤ r.opcode.toNat) ∧
    ∃ t, StepsTo 2 s t ∧ (∀ a ∈ t.responses, a.succeeds = true) ∧
      (t.responses.flatMap Response.taken).length ≤ s.cfg.decBufMax := by
  refine ⟨by decide, by decide, by decide, by decide, by decide, by decide, ⟨_, ⟨_, rfl, _, rfl, rfl⟩, ?_, ?_⟩⟩ <;>
    decide

end Sys2Proof.Tests
end

section
/-!
PROOFS. The scope of the block (00_scope R8, R9; 20_memory R80; 60_exceptions R411): a request works on its own engine
and leaves the other, and what a registration fixes stays fixed (10_state R22, R32; 20_memory R86).

A local code's meaning has one of the ten shapes of `CodeShape`, and each of its reads is a read in the sense of
`ReadLaw`; a host request is one of the rows that `decodeRequest_decoder` and `decodeRequest_encoder` list. Both
statements go through these two splits, so that no proof walks through the rows of the opcode table again.
-/

namespace Sys2Proof.Machine

/-! ### The rows of the opcode table -/

/-- What a local code decodes to is sent as that code (30_encoding R101, R111, R112). -/
theorem encode_decodeCode (w : Width) (c : Code) : encode (decodeCode w c) = .localCode c := by
  revert c; cases w <;> decide

/-- The requests below opcode 8 are the decoder's and the reserved ones (30_encoding R114). -/
theorem decodeRequest_decoder {r : Request} (h : r.opcode.toNat < 8) :
    (r.opcode = 0x0 ∧ decodeRequest r = .decReset) ∨ decodeRequest r = .decLoad r.bytes ∨
      decodeRequest r = .decGet ∨ decodeRequest r = .decStatus ∨
      ∃ low, decodeRequest r = .reservedHost4to7 low := by
  unfold decodeRequest
  split
  case h_1 h0 => exact .inl ⟨BitVec.eq_of_toNat_eq h0, rfl⟩
  case h_2 | h_3 | h_4 => simp
  case h_13 => exact .inr (.inr (.inr (.inr ⟨_, rfl⟩)))
  all_goals omega

/-- The requests from opcode 8 on are the encoder's (30_encoding R114). -/
theorem decodeRequest_encoder {r : Request} (h : 8 ≤ r.opcode.toNat) :
    (r.opcode = 0x8 ∧ decodeRequest r = .encReset) ∨ decodeRequest r = .encRegister r.typeByte r.bytes ∨
      decodeRequest r = .encWrite r.id r.timestamp r.quality r.value ∨ decodeRequest r = .encUser r.command ∨
      decodeRequest r = .encUserData r.command r.bytes ∨ decodeRequest r = .encFlush ∨
      decodeRequest r = .encTake ∨ decodeRequest r = .encStatus := by
  have hlt := r.opcode.isLt
  unfold decodeRequest
  split
  case h_5 h8 => exact .inl ⟨BitVec.eq_of_toNat_eq h8, rfl⟩
  case h_6 | h_7 | h_8 | h_9 | h_10 | h_11 | h_12 => simp
  case h_13 => simp only [imp_false] at *; omega
  all_goals omega

/-! ### The shapes of a local code's meaning -/

/-- What a value code of the 32-bit coder does once the phase check has passed and the target point is found: its rule,
or the model's own fault for a point of the other width. -/
def settleValue32 (rule : ValueRule 32) (s : State) (g : GetContext) (p : Point) (d : Dec) : StepOutcome :=
  match p.values with
  | .narrow tag h => settleRead s g (rule h d) fun r d => s.finishMeasurement p (.narrow tag r.2) (.narrow tag r.1) d
  | .wide _ _ => .fault .widthMismatch

/-- As `settleValue32`, for the 64-bit coder. -/
def settleValue64 (rule : ValueRule 64) (s : State) (g : GetContext) (p : Point) (d : Dec) : StepOutcome :=
  match p.values with
  | .wide tag h => settleRead s g (rule h d) fun r d => s.finishMeasurement p (.wide tag r.2) (.wide tag r.1) d
  | .narrow _ _ => .fault .widthMismatch

/-- The frame that the value codes of both widths share: the phase check and the target point, then `k`. -/
def runAtTarget (c : Code) (s : State) (k : GetContext → Point → Dec → StepOutcome) : StepOutcome :=
  duringGet s fun g =>
    match (checkPhase g.phase c s.dec).bind fun _ d => d.target with
    | .raised code d => .next (s.takeDecError g d code)
    | .ok p d => k g p d

theorem runValue32_eq (c : Code) (rule : ValueRule 32) (s : State) :
    runValue32 c rule s = runAtTarget c s (settleValue32 rule s) := rfl

theorem runValue64_eq (c : Code) (rule : ValueRule 64) (s : State) :
    runValue64 c rule s = runAtTarget c s (settleValue64 rule s) := rfl

/-- The shapes that the meanings of the local codes have. A time, quality or value code computes from the state and
what it reads, and its rule does nothing but read. -/
inductive CodeShape : (State → StepOutcome) → Prop
  | newPointId : CodeShape execNewPointId
  | userCommand : CodeShape execUserCommand
  | userCommandWithData : CodeShape execUserCommandWithData
  | flushBits : CodeShape execFlushBits
  | id (c : Code) (w : Nat) : CodeShape (runIdCode c w)
  | time (c : Code) {newTime : Dec → ReadResult Word64} (reads : ∀ d, ReadLaw d (newTime d)) :
      CodeShape (runTimeCode c newTime)
  | quality (c : Code) {newQuality : Point → Dec → ReadResult Word32} (reads : ∀ p d, ReadLaw d (newQuality p d)) :
      CodeShape (runQualityCode c newQuality)
  | value32 (c : Code) {rule : ValueRule 32} (reads : ∀ h d, ReadLaw d (rule h d)) : CodeShape (runValue32 c rule)
  | value64 (c : Code) {rule : ValueRule 64} (reads : ∀ h d, ReadLaw d (rule h d)) : CodeShape (runValue64 c rule)
  | reserved (c : Code) : CodeShape (runReservedCode c)

theorem Dec.timeXor_law (d : Dec) : ReadLaw d d.timeXor :=
  (Dec.readVarint_law 64 d).bind fun _ _ _ => .ok _ _

theorem ValueRule.valueXor_law {n : Nat} (w : Nat) (h : History n) (d : Dec) :
    ReadLaw d (ValueRule.valueXor w h d) :=
  (Dec.readXor_law w d).bind fun _ _ _ => .ok _ _

/-- Every local code's meaning has one of the shapes. -/
theorem exec_codeShape {i : Instr} {c : Code} (h : encode i = .localCode c) : CodeShape (exec i) := by
  cases i with
  | newPointId => exact .newPointId
  | userCommand => exact .userCommand
  | userCommandWithData => exact .userCommandWithData
  | flushBits => exact .flushBits
  | pointIDXOR4 | pointIDXOR8 | pointIDXOR12 | pointIDXOR16 | pointIDXOR20 | pointIDXOR24 | pointIDXOR32 =>
    exact .id _ _
  | timeDelta1Forward | timeDelta2Forward | timeDelta3Forward | timeDelta4Forward
  | timeDelta1Reverse | timeDelta2Reverse | timeDelta3Reverse | timeDelta4Reverse | timestamp2 =>
    exact .time _ fun d => .ok _ d
  | timeXOR7Bit => exact .time _ Dec.timeXor_law
  | quality2 => exact .quality _ fun _ d => .ok _ d
  | quality7Bit32 => exact .quality _ fun _ => Dec.readVarint_law 32
  | value1W32 | value2W32 | value3W32 | valueZeroW32 => exact .value32 _ fun _ d => .ok _ d
  | valueXOR4W32 | valueXOR8W32 | valueXOR12W32 | valueXOR16W32 | valueXOR20W32 | valueXOR24W32 | valueXOR28W32
  | valueXOR32W32 => exact .value32 _ (ValueRule.valueXor_law _)
  | value1W64 | value2W64 | value3W64 | valueZeroW64 => exact .value64 _ fun _ d => .ok _ d
  | valueXOR8W64 | valueXOR16W64 | valueXOR24W64 | valueXOR32W64 | valueXOR40W64 | valueXOR48W64 | valueXOR56W64
  | valueXOR64W64 => exact .value64 _ (ValueRule.valueXor_law _)
  | reserved23 | reserved24to31 | reserved44to47 | reserved48to63 => exact .reserved _
  | decReset | decLoad | decGet | decStatus | reservedHost4to7 | encReset | encRegister | encWrite | encUser
  | encUserData | encFlush | encTake | encStatus => cases h

/-! ### Changing the engine that a step does not use -/

/-- Maps the next state of an outcome; a stop stays as it is. -/
def mapNext (f : State → State) : StepOutcome → StepOutcome
  | .next t => .next (f t)
  | .fault r => .fault r
  | .refused r => .refused r

/-- The same state with another encoder. -/
def State.withEnc (s : State) (e : Enc) : State :=
  { s with enc := e }

/-- The same state with another decoder. -/
def State.withDec (s : State) (d : Dec) : State :=
  { s with dec := d }

@[simp] theorem State.withEnc_get (s : State) (e : Enc) : (s.withEnc e).get = s.get := rfl
@[simp] theorem State.withEnc_dec (s : State) (e : Enc) : (s.withEnc e).dec = s.dec := rfl
@[simp] theorem State.withEnc_cfg (s : State) (e : Enc) : (s.withEnc e).cfg = s.cfg := rfl
@[simp] theorem State.withEnc_self (s : State) : s.withEnc s.enc = s := rfl
@[simp] theorem State.withDec_enc (s : State) (d : Dec) : (s.withDec d).enc = s.enc := rfl
@[simp] theorem State.withDec_cfg (s : State) (d : Dec) : (s.withDec d).cfg = s.cfg := rfl
@[simp] theorem State.withDec_self (s : State) : s.withDec s.dec = s := rfl

@[simp] theorem State.loopHead_withEnc (s : State) (e : Enc) (g : GetContext) (d : Dec) :
    (s.withEnc e).loopHead g d = (s.loopHead g d).withEnc e := by
  unfold State.loopHead; split <;> rfl

@[simp] theorem State.unlessDecFailed_withEnc (s next : State) (e : Enc) :
    (s.withEnc e).unlessDecFailed (next.withEnc e) = (s.unlessDecFailed next).withEnc e := by
  by_cases h : s.dec.err = .none
  · rw [State.unlessDecFailed_live h, State.unlessDecFailed_live (s := s.withEnc e) h]
  · rw [State.unlessDecFailed_failed h, State.unlessDecFailed_failed (s := s.withEnc e) h]; rfl

@[simp] theorem State.refuse_withDec (s : State) (d : Dec) (c : ErrorCode) :
    (s.withDec d).refuse c = (s.refuse c).withDec d := rfl

@[simp] theorem State.finishEnc_withDec (s : State) (d : Dec) (e : Enc) (r : Response) :
    (s.withDec d).finishEnc e r = (s.finishEnc e r).withDec d := by
  cases h : e.fits s.cfg with
  | true => rw [State.finishEnc_fits h, State.finishEnc_fits (s := s.withDec d) h]; rfl
  | false => rw [State.finishEnc_full h, State.finishEnc_full (s := s.withDec d) h]; rfl

@[simp] theorem State.finishWrite_withDec (s : State) (d : Dec) (v : ValueEncoded) :
    (s.withDec d).finishWrite v = (s.finishWrite v).withDec d := by
  cases v with
  | done r => exact s.finishEnc_withDec d _ _
  | violated r => rfl

@[simp] theorem State.encRegister_withDec (s : State) (d : Dec) (tb : Byte) (md : List Byte) :
    (s.withDec d).encRegister tb md = (s.encRegister tb md).withDec d := by
  simp only [State.encRegister, State.withDec_cfg, State.withDec_enc]
  split
  · rfl
  · simp only [State.refuse_withDec, State.finishEnc_withDec, apply_ite (State.withDec · d)]

@[simp] theorem State.encWrite_withDec (s : State) (d : Dec) (id : Word32) (ts : Word64) (q : Word32) (v : Value) :
    (s.withDec d).encWrite id ts q v = (s.encWrite id ts q v).withDec d := by
  simp only [State.encWrite, State.withDec_enc]
  split
  · rfl
  · split
    · simp only [State.refuse_withDec, State.finishWrite_withDec, apply_ite (State.withDec · d)]
    · simp only [State.refuse_withDec, State.finishWrite_withDec, apply_ite (State.withDec · d)]
    · rfl
    · rfl

@[simp] theorem State.unlessEncFailed_withDec (s next : State) (d : Dec) :
    (s.withDec d).unlessEncFailed (next.withDec d) = (s.unlessEncFailed next).withDec d := by
  by_cases h : s.enc.err = .none
  · rw [State.unlessEncFailed_live h, State.unlessEncFailed_live (s := s.withDec d) h]
  · rw [State.unlessEncFailed_failed h, State.unlessEncFailed_failed (s := s.withDec d) h]; rfl

/-! ### The frames, with the other engine changed -/

/-- A request's frame asks only whether a DEC_GET is in progress. -/
theorem betweenRequests_map {f : State → State} {s next next' : State} (hs : (f s).get = s.get)
    (hn : next' = f next) : betweenRequests (f s) next' = mapNext f (betweenRequests s next) := by
  subst hn
  unfold betweenRequests
  rw [hs]
  cases s.get <;> rfl

theorem settleRead_withEnc {α : Type} {s : State} {e : Enc} {g : GetContext} {r : ReadResult α}
    {done done' : α → Dec → State} (hd : ∀ a d, done' a d = (done a d).withEnc e) :
    settleRead (s.withEnc e) g r done' = mapNext (·.withEnc e) (settleRead s g r done) := by
  cases r with
  | ok a d => exact congrArg Host.Outcome.next (hd a d)
  | raised code d => rfl

theorem runCode_withEnc {α : Type} {c : Code} {s : State} {e : Enc} {body : Dec → ReadResult α}
    {done done' : GetContext → α → Dec → State} (hd : ∀ g a d, done' g a d = (done g a d).withEnc e) :
    runCode c (s.withEnc e) body done' = mapNext (·.withEnc e) (runCode c s body done) := by
  unfold runCode duringGet
  rw [State.withEnc_get, State.withEnc_dec]
  cases s.get with
  | none => rfl
  | some g => exact settleRead_withEnc (hd g)

theorem runAtTarget_withEnc {c : Code} {s : State} {e : Enc} {k k' : GetContext → Point → Dec → StepOutcome}
    (hk : ∀ g p d, k' g p d = mapNext (·.withEnc e) (k g p d)) :
    runAtTarget c (s.withEnc e) k' = mapNext (·.withEnc e) (runAtTarget c s k) := by
  unfold runAtTarget duringGet
  rw [State.withEnc_get, State.withEnc_dec]
  cases s.get with
  | none => rfl
  | some g =>
    dsimp only
    cases (checkPhase g.phase c s.dec).bind fun _ d => d.target with
    | ok p d => exact hk g p d
    | raised code d => rfl

theorem settleValue32_withEnc (rule : ValueRule 32) (s : State) (e : Enc) (g : GetContext) (p : Point) (d : Dec) :
    settleValue32 rule (s.withEnc e) g p d = mapNext (·.withEnc e) (settleValue32 rule s g p d) := by
  unfold settleValue32
  cases p.values with
  | narrow tag h => exact settleRead_withEnc fun _ _ => rfl
  | wide tag h => rfl

theorem settleValue64_withEnc (rule : ValueRule 64) (s : State) (e : Enc) (g : GetContext) (p : Point) (d : Dec) :
    settleValue64 rule (s.withEnc e) g p d = mapNext (·.withEnc e) (settleValue64 rule s g p d) := by
  unfold settleValue64
  cases p.values with
  | narrow tag h => rfl
  | wide tag h => exact settleRead_withEnc fun _ _ => rfl

/-- A local code neither reads nor writes the encoder (60_exceptions R411). -/
theorem CodeShape.withEnc {m : State → StepOutcome} (h : CodeShape m) (s : State) (e : Enc) :
    m (s.withEnc e) = mapNext (·.withEnc e) (m s) := by
  cases h with
  | newPointId | userCommand | userCommandWithData | id | time | quality | reserved =>
    exact runCode_withEnc fun _ _ _ => rfl
  | flushBits => exact runCode_withEnc fun g _ d => s.loopHead_withEnc e g d
  | value32 c _ =>
    rw [runValue32_eq, runValue32_eq]
    exact runAtTarget_withEnc (settleValue32_withEnc _ s e)
  | value64 c _ =>
    rw [runValue64_eq, runValue64_eq]
    exact runAtTarget_withEnc (settleValue64_withEnc _ s e)

/-- A request below opcode 8 neither reads nor writes the encoder. -/
theorem exec_decoderRequest_withEnc {r : Request} (h : r.opcode.toNat < 8) (s : State) (e : Enc) :
    exec (decodeRequest r) (s.withEnc e) = mapNext (·.withEnc e) (exec (decodeRequest r) s) := by
  obtain ⟨-, hi⟩ | hi | hi | hi | ⟨low, hi⟩ := decodeRequest_decoder h <;> rw [hi]
  · exact betweenRequests_map (f := (·.withEnc e)) rfl rfl
  · refine betweenRequests_map (f := (·.withEnc e)) rfl ?_
    rw [← State.unlessDecFailed_withEnc, State.withEnc_cfg, apply_ite (State.withEnc · e)]
    rfl
  · refine betweenRequests_map (f := (·.withEnc e)) rfl ?_
    rw [← State.unlessDecFailed_withEnc, ← State.loopHead_withEnc]
    rfl
  · exact betweenRequests_map (f := (·.withEnc e)) rfl rfl
  · exact betweenRequests_map (f := (·.withEnc e)) rfl rfl

/-- A request from opcode 8 on neither reads nor writes the decoder. -/
theorem exec_encoderRequest_withDec {r : Request} (h : 8 ≤ r.opcode.toNat) (s : State) (d : Dec) :
    exec (decodeRequest r) (s.withDec d) = mapNext (·.withDec d) (exec (decodeRequest r) s) := by
  obtain ⟨-, hi⟩ | hi | hi | hi | hi | hi | hi | hi := decodeRequest_encoder h <;> rw [hi] <;>
    refine betweenRequests_map (f := (·.withDec d)) rfl ?_
  · rfl
  · rw [← State.unlessEncFailed_withDec, ← State.encRegister_withDec]
  · rw [← State.unlessEncFailed_withDec, ← State.encWrite_withDec]
  · rw [← State.unlessEncFailed_withDec, ← State.finishEnc_withDec]; rfl
  · rw [← State.unlessEncFailed_withDec, ← State.finishEnc_withDec]; rfl
  · rw [← State.unlessEncFailed_withDec, ← State.finishEnc_withDec]; rfl
  · rw [← State.unlessEncFailed_withDec]; rfl
  · rfl

/-! ### A step, with the other engine changed -/

/-- Inside a DEC_GET a code that is read runs. -/
theorem step_of_readCode {s : State} {g : GetContext} {c : Code} {d : Dec} (hg : s.get = some g)
    (hc : s.dec.readCode = .ok c d) :
    step s = exec (decodeCode d.stream.targetWidth c) (s.fetched g c d) := by
  simp [step, hg, Dec.fetch, hc]

/-- Inside a DEC_GET a code that is cut off raises its error. -/
theorem step_of_readCode_raised {s : State} {g : GetContext} {e : ErrorCode} {d : Dec} (hg : s.get = some g)
    (hc : s.dec.readCode = .raised e d) : step s = .next (s.takeDecError g d e) := by
  simp [step, hg, Dec.fetch, hc]

/-- Between requests the oldest request runs. -/
theorem step_of_pending {s : State} {r : Request} {rest : List Request} (hg : s.get = none)
    (hp : s.pending = r :: rest) : step s = exec (decodeRequest r) (s.accepted rest) := by
  simp [step, hg, hp]

/-- A step of a decoder request gives the same next state with any encoder, but for that encoder. -/
theorem step_withEnc {s : State} (h : s.get ≠ none ∨ ∃ r rest, s.pending = r :: rest ∧ r.opcode.toNat < 8) (e : Enc) :
    step (s.withEnc e) = mapNext (·.withEnc e) (step s) := by
  cases hg : s.get with
  | some g =>
    cases hc : s.dec.readCode with
    | ok c d =>
      rw [step_of_readCode hg hc, step_of_readCode (s := s.withEnc e) hg hc]
      exact (exec_codeShape (encode_decodeCode _ c)).withEnc (s.fetched g c d) e
    | raised code d =>
      rw [step_of_readCode_raised hg hc, step_of_readCode_raised (s := s.withEnc e) hg hc]
      rfl
  | none =>
    obtain ⟨r, rest, hp, hr⟩ := h.resolve_left (by simp [hg])
    rw [step_of_pending hg hp, step_of_pending (s := s.withEnc e) hg hp]
    exact exec_decoderRequest_withEnc hr (s.accepted rest) e

/-- A step of an encoder request gives the same next state with any decoder, but for that decoder. -/
theorem step_withDec {s : State} (hg : s.get = none) {r : Request} {rest : List Request}
    (hp : s.pending = r :: rest) (hr : 8 ≤ r.opcode.toNat) (d : Dec) :
    step (s.withDec d) = mapNext (·.withDec d) (step s) := by
  rw [step_of_pending hg hp, step_of_pending (s := s.withDec d) hg hp]
  exact exec_encoderRequest_withDec hr (s.accepted rest) d

/-- A step of a decoder request leaves the encoder: with the encoder put back it gives the same next state
(60_exceptions R411). -/
theorem step_keeps_enc {s t : State} (h : s.get ≠ none ∨ ∃ r rest, s.pending = r :: rest ∧ r.opcode.toNat < 8)
    (hst : step s = .next t) : t.enc = s.enc := by
  have hw := step_withEnc h s.enc
  rw [State.withEnc_self, hst] at hw
  have ht : t = t.withEnc s.enc := Host.Outcome.next.inj hw
  rw [ht]; rfl

/-- A step of an encoder request leaves the decoder. -/
theorem step_keeps_dec {s t : State} (hg : s.get = none) {r : Request} {rest : List Request}
    (hp : s.pending = r :: rest) (hr : 8 ≤ r.opcode.toNat) (hst : step s = .next t) : t.dec = s.dec := by
  have hw := step_withDec hg hp hr s.dec
  rw [State.withDec_self, hst] at hw
  have ht : t = t.withDec s.dec := Host.Outcome.next.inj hw
  rw [ht]; rfl

/-- Settles O50: a step commutes with replacing the engine it does not work on, and so leaves that engine. -/
theorem enginesDoNotInterfere : Obligations.EnginesDoNotInterfere := by
  unfold Obligations.EnginesDoNotInterfere
  intro s t hst
  refine ⟨fun h e => ⟨step_keeps_enc h hst, ?_⟩, fun hg h d => ?_⟩
  · have hw := step_withEnc h e
    rwa [hst] at hw
  · obtain ⟨r, rest, hp, hr⟩ := h
    have hw := step_withDec hg hp hr d
    rw [hst] at hw
    exact ⟨step_keeps_dec hg hp hr hst, hw⟩

end Sys2Proof.Machine
end

section
/-!
PROOFS. What a registration fixes stays fixed (10_state R22, R32; 20_memory R86), the parameters never change (00_scope
R9), and a DEC_GET never writes the input buffer (20_memory R60, R83).
-/

namespace Sys2Proof.Machine

/-! ### Points that keep what their registration fixed -/

/-- The ID, the type and the metadata of `p'` are those of `p`. -/
def Point.SameRegistration (p p' : Point) : Prop :=
  p'.id = p.id ∧ p'.type = p.type ∧ p'.metadata = p.metadata

/-- Every point of `a` stands at its place in `b`, with its ID, type and metadata. -/
def Stream.Keeps (a b : Stream) : Prop :=
  ∀ (i : Nat) (p : Point), a.pts[i]? = some p → ∃ p', b.pts[i]? = some p' ∧ p.SameRegistration p'

theorem Point.SameRegistration.refl (p : Point) : p.SameRegistration p := ⟨rfl, rfl, rfl⟩

theorem Point.SameRegistration.trans {p q r : Point} (h : p.SameRegistration q) (h' : q.SameRegistration r) :
    p.SameRegistration r := by
  obtain ⟨hid, htype, hmeta⟩ := h
  obtain ⟨hid', htype', hmeta'⟩ := h'
  exact ⟨hid'.trans hid, htype'.trans htype, hmeta'.trans hmeta⟩

theorem Stream.Keeps.of_pts_eq {a b : Stream} (h : b.pts = a.pts) : a.Keeps b :=
  fun _ p hp => ⟨p, h ▸ hp, .refl p⟩

theorem Stream.Keeps.refl (a : Stream) : a.Keeps a := .of_pts_eq rfl

theorem Stream.Keeps.trans {a b c : Stream} (h : a.Keeps b) (h' : b.Keeps c) : a.Keeps c := by
  intro i p hp
  obtain ⟨q, hq, hpq⟩ := h i p hp
  obtain ⟨r, hr, hqr⟩ := h' i q hq
  exact ⟨r, hr, hpq.trans hqr⟩

/-- A change of the point at the cursor that keeps what its registration fixed. -/
theorem Stream.Keeps.mapTarget {st : Stream} {f : Point → Point}
    (h : ∀ p, st.target? = some p → p.SameRegistration (f p)) : st.Keeps (st.mapTarget f) := by
  intro i p hp
  rw [Stream.mapTarget_pts, List.getElem?_modify, hp]
  by_cases hi : st.cursor.toNat = i
  · subst hi
    exact ⟨f p, by simp, h p hp⟩
  · exact ⟨p, by simp [hi], .refl p⟩

theorem Stream.keeps_countCode (st : Stream) (c : Code) : st.Keeps (st.countCode c) := by
  unfold Stream.countCode
  split
  · exact .mapTarget fun _ _ => ⟨rfl, rfl, rfl⟩
  · exact .of_pts_eq rfl

theorem Stream.keeps_updateQuality (st : Stream) (q : Word32) : st.Keeps (st.updateQuality q) :=
  .mapTarget fun _ _ => ⟨rfl, rfl, rfl⟩

theorem Stream.keeps_updateTime (st : Stream) (ts : Word64) : st.Keeps (st.updateTime ts) :=
  .of_pts_eq (st.updateTime_pts ts)

/-- Writing the history of the point at the cursor keeps its registration when the type is the point's own. -/
theorem Stream.keeps_setValues {st : Stream} {vs : PointValues}
    (h : ∀ p, st.target? = some p → vs.type = p.type) : st.Keeps (st.setValues vs) :=
  .mapTarget fun p hp => ⟨rfl, h p hp, rfl⟩

/-- A new point goes behind the others. -/
theorem Stream.keeps_register (tag : TypeTag) (md : List Byte) (st : Stream) : st.Keeps (st.register tag md) := by
  intro i p hp
  obtain ⟨hi, -⟩ := List.getElem?_eq_some_iff.1 hp
  exact ⟨p, by rw [Stream.register_pts, List.getElem?_append_left hi, hp], .refl p⟩

/-! ### The decoder inside a DEC_GET -/

/-- The decoder `d'` has the points of `d`, as registered, and its input buffer. -/
structure Dec.Keeps (d d' : Dec) : Prop where
  points : d.stream.Keeps d'.stream
  inBuf : d'.inBuf = d.inBuf

theorem Dec.Keeps.refl (d : Dec) : d.Keeps d := ⟨.refl _, rfl⟩

theorem Dec.Keeps.trans {d d' d'' : Dec} (h : d.Keeps d') (h' : d'.Keeps d'') : d.Keeps d'' :=
  ⟨h.points.trans h'.points, h'.inBuf.trans h.inBuf⟩

/-- What a local code's rule does from `d` on keeps the points and the buffer, and what it raises is an error. -/
structure KeepingLaw {α : Type} (d : Dec) (r : ReadResult α) : Prop where
  keeps : d.Keeps r.after
  raised_ne : ∀ e d', r = .raised e d' → e ≠ .none

theorem ReadLaw.keeping {α : Type} {d : Dec} {r : ReadResult α} (h : ReadLaw d r) : KeepingLaw d r where
  keeps := ⟨.of_pts_eq (congrArg Stream.pts h.stream), h.inBuf⟩
  raised_ne e d' hr := by simp [h.raised_underrun e d' hr]

theorem KeepingLaw.ok {α : Type} {a : α} {d d' : Dec} (h : d.Keeps d') : KeepingLaw d (.ok a d') :=
  ⟨h, by simp⟩

theorem KeepingLaw.raised {α : Type} {e : ErrorCode} (d : Dec) (h : e ≠ .none) :
    KeepingLaw d (.raised e d : ReadResult α) :=
  ⟨.refl d, by rintro e' d' ⟨⟩; exact h⟩

theorem KeepingLaw.bind {α β : Type} {d : Dec} {r : ReadResult α} {f : α → Dec → ReadResult β} (hr : KeepingLaw d r)
    (hf : ∀ a d', KeepingLaw d' (f a d')) : KeepingLaw d (r.bind f) := by
  cases r with
  | raised e d' => exact ⟨hr.keeps, by rintro e' d'' ⟨⟩; exact hr.raised_ne _ _ rfl⟩
  | ok a d' => exact ⟨hr.keeps.trans (hf a d').keeps, (hf a d').raised_ne⟩

theorem checkPhase_keeping (k : Phase) (c : Code) (d : Dec) : KeepingLaw d (checkPhase k c d) := by
  unfold checkPhase
  split
  · exact .ok (.refl d)
  · exact .raised d (by decide)

theorem Dec.target_keeping (d : Dec) : KeepingLaw d d.target := by
  unfold Dec.target
  split
  · exact .ok (.refl d)
  · exact .raised d (by decide)

theorem Dec.within_keeping (ok : Bool) (d : Dec) : KeepingLaw d (d.within ok) := by
  unfold Dec.within
  split
  · exact .ok (.refl d)
  · exact .raised d (by decide)

theorem Dec.typeOfByte_keeping (p : Config) (b : Byte) (d : Dec) : KeepingLaw d (d.typeOfByte p b) := by
  unfold Dec.typeOfByte
  split
  · exact .ok (.refl d)
  · exact .raised d (by decide)

theorem Dec.decodeNewPoint_keeping (p : Config) (d : Dec) : KeepingLaw d (d.decodeNewPoint p) :=
  d.readByte_law.keeping.bind fun tb d =>
  (d.typeOfByte_keeping p tb).bind fun tag d =>
  (d.within_keeping _).bind fun _ d =>
  (d.readVarint_law 32).keeping.bind fun len d =>
  (d.within_keeping _).bind fun _ d =>
  (Dec.readBytes_law len.toNat d).keeping.bind fun md d =>
  .ok ⟨d.stream.keeps_register tag md, rfl⟩

theorem Dec.readCommandWithData_law (d : Dec) : ReadLaw d d.readCommandWithData :=
  (d.readVarint_law 32).bind fun _ d _ =>
  (d.readVarint_law 32).bind fun len d _ =>
  (Dec.readBytes_law len.toNat d).bind fun _ _ _ => .ok _ _

theorem Dec.checkCursor_keeping (d : Dec) : KeepingLaw d d.checkCursor := by
  unfold Dec.checkCursor
  split
  · exact .raised d (by decide)
  · exact .ok (.refl d)

theorem Dec.decodeId_keeping (w : Nat) (d : Dec) : KeepingLaw d (d.decodeId w) :=
  (d.readXor_law w).keeping.bind fun x d =>
    have hmove : d.Keeps { d with stream := d.stream.moveCursor (x.setWidth 32) } := ⟨.of_pts_eq rfl, rfl⟩
    have hcheck := Dec.checkCursor_keeping { d with stream := d.stream.moveCursor (x.setWidth 32) }
    ⟨hmove.trans hcheck.keeps, hcheck.raised_ne⟩

/-- A code that was read and counted leaves the registrations and the buffer. -/
theorem Dec.keeps_of_readCode {d d' : Dec} {c : Code} (h : d.readCode = .ok c d') : d.Keeps d' := by
  obtain ⟨d1, -, rfl⟩ := Dec.readCode_eq_ok h
  exact ⟨d.stream.keeps_countCode c, rfl⟩

/-! ### A local code -/

/-- What a step inside a DEC_GET from `s` to `t` can do to the decoder: keep the points and the buffer, or take an error
and go back to the decoder `saved` at the head of the request (60_exceptions R401). -/
structure GetKeeps (saved : Dec) (s t : State) : Prop where
  cfg : t.cfg = s.cfg
  dec : s.dec.Keeps t.dec ∨ t.dec.err ≠ .none ∧ t.dec.inBuf = saved.inBuf

theorem GetKeeps.takeDecError (s : State) (g : GetContext) (d : Dec) {e : ErrorCode} (he : e ≠ .none) :
    GetKeeps g.saved s (s.takeDecError g d e) :=
  ⟨rfl, .inr ⟨he, rfl⟩⟩

theorem settleRead_getKeeps {α : Type} {s t : State} {g : GetContext} {r : ReadResult α} {done : α → Dec → State}
    (hr : KeepingLaw s.dec r)
    (hd : ∀ a d, r = .ok a d → (done a d).cfg = s.cfg ∧ d.Keeps (done a d).dec)
    (h : settleRead s g r done = .next t) : GetKeeps g.saved s t := by
  cases r with
  | ok a d =>
    obtain rfl : done a d = t := Host.Outcome.next.inj h
    obtain ⟨hcfg, hkeeps⟩ := hd a d rfl
    exact ⟨hcfg, .inl (hr.keeps.trans hkeeps)⟩
  | raised e d =>
    obtain rfl : s.takeDecError g d e = t := Host.Outcome.next.inj h
    exact .takeDecError s g d (hr.raised_ne e d rfl)

theorem runCode_getKeeps {α : Type} {c : Code} {s t : State} {g : GetContext} {body : Dec → ReadResult α}
    {done : GetContext → α → Dec → State} (hg : s.get = some g) (hb : ∀ d, KeepingLaw d (body d))
    (hd : ∀ a d, (done g a d).cfg = s.cfg ∧ d.Keeps (done g a d).dec) (h : runCode c s body done = .next t) :
    GetKeeps g.saved s t := by
  simp only [runCode, duringGet, hg] at h
  exact settleRead_getKeeps ((checkPhase_keeping _ c s.dec).bind fun _ d => hb d) (fun a d _ => hd a d) h

theorem runAtTarget_getKeeps {c : Code} {s t : State} {g : GetContext} {k : GetContext → Point → Dec → StepOutcome}
    (hg : s.get = some g)
    (hk : ∀ p, s.dec.stream.target? = some p → k g p s.dec = .next t → GetKeeps g.saved s t)
    (h : runAtTarget c s k = .next t) : GetKeeps g.saved s t := by
  have malformed : (.next (s.takeDecError g s.dec .malformedStream) : StepOutcome) = .next t →
      GetKeeps g.saved s t := by
    rintro ⟨⟩
    exact .takeDecError s g s.dec (by decide)
  simp only [runAtTarget, duringGet, hg] at h
  cases hc : allowedAt g.phase s.dec.stream.pts.length c with
  | false =>
    rw [checkPhase_refused hc] at h
    exact malformed h
  | true =>
    rw [checkPhase_allowed hc, ReadResult.bind_ok] at h
    cases hp : s.dec.stream.target? with
    | none =>
      simp only [Dec.target, hp] at h
      exact malformed h
    | some p =>
      rw [Dec.target_of_some hp] at h
      exact hk p hp h

/-- The end of a record writes a history of the target point's own type. -/
theorem State.finishMeasurement_keeps {s : State} {p : Point} {vs : PointValues} {v : Value} {d : Dec}
    (hp : d.stream.target? = some p) (hvs : vs.type = p.type) :
    (s.finishMeasurement p vs v d).cfg = s.cfg ∧ d.Keeps (s.finishMeasurement p vs v d).dec := by
  refine ⟨rfl, Stream.keeps_setValues fun q hq => ?_, rfl⟩
  rw [hp] at hq
  obtain rfl := Option.some.inj hq
  exact hvs

theorem settleValue32_getKeeps {rule : ValueRule 32} (reads : ∀ h d, ReadLaw d (rule h d)) {s t : State}
    {g : GetContext} {p : Point} (hp : s.dec.stream.target? = some p) (h : settleValue32 rule s g p s.dec = .next t) :
    GetKeeps g.saved s t := by
  unfold settleValue32 at h
  split at h
  case h_1 tag hist hv =>
    refine settleRead_getKeeps (reads hist s.dec).keeping (fun a d hr => ?_) h
    have hstream : d.stream = s.dec.stream := by simpa [hr] using (reads hist s.dec).stream
    exact State.finishMeasurement_keeps (hstream ▸ hp) (by simp [Point.type, hv, PointValues.type])
  case h_2 => cases h

theorem settleValue64_getKeeps {rule : ValueRule 64} (reads : ∀ h d, ReadLaw d (rule h d)) {s t : State}
    {g : GetContext} {p : Point} (hp : s.dec.stream.target? = some p) (h : settleValue64 rule s g p s.dec = .next t) :
    GetKeeps g.saved s t := by
  unfold settleValue64 at h
  split at h
  case h_1 tag hist hv =>
    refine settleRead_getKeeps (reads hist s.dec).keeping (fun a d hr => ?_) h
    have hstream : d.stream = s.dec.stream := by simpa [hr] using (reads hist s.dec).stream
    exact State.finishMeasurement_keeps (hstream ▸ hp) (by simp [Point.type, hv, PointValues.type])
  case h_2 => cases h

theorem State.loopHead_keeps (s : State) (g : GetContext) (d : Dec) :
    (s.loopHead g d).cfg = s.cfg ∧ (s.loopHead g d).dec = d ∧ (s.loopHead g d).enc = s.enc := by
  obtain ⟨-, -, h⟩ | ⟨-, h⟩ := s.loopHead_cases g d <;> rw [h] <;> exact ⟨rfl, rfl, rfl⟩

/-- A local code keeps the points and the buffer, or takes an error. -/
theorem CodeShape.getKeeps {m : State → StepOutcome} (hm : CodeShape m) {s t : State} {g : GetContext}
    (hg : s.get = some g) (h : m s = .next t) : GetKeeps g.saved s t := by
  cases hm with
  | newPointId => exact runCode_getKeeps hg (Dec.decodeNewPoint_keeping s.cfg) (fun _ d => ⟨rfl, .refl d⟩) h
  | userCommand => exact runCode_getKeeps hg (fun d => (d.readVarint_law 32).keeping) (fun _ d => ⟨rfl, .refl d⟩) h
  | userCommandWithData =>
    exact runCode_getKeeps hg (fun d => d.readCommandWithData_law.keeping) (fun _ d => ⟨rfl, .refl d⟩) h
  | flushBits =>
    refine runCode_getKeeps hg (fun d => .ok (d' := d.discardBits) ⟨.refl _, rfl⟩) (fun _ d => ?_) h
    obtain ⟨hcfg, hdec, -⟩ := s.loopHead_keeps g d
    exact ⟨hcfg, by rw [hdec]; exact .refl d⟩
  | id c w => exact runCode_getKeeps hg (Dec.decodeId_keeping w) (fun _ d => ⟨rfl, .refl d⟩) h
  | time c reads =>
    exact runCode_getKeeps hg (fun d => (reads d).keeping) (fun ts d => ⟨rfl, d.stream.keeps_updateTime ts, rfl⟩) h
  | quality c reads =>
    exact runCode_getKeeps hg (fun d => d.target_keeping.bind fun p d => (reads p d).keeping)
      (fun q d => ⟨rfl, d.stream.keeps_updateQuality q, rfl⟩) h
  | value32 c reads =>
    rw [runValue32_eq] at h
    exact runAtTarget_getKeeps hg (fun p hp => settleValue32_getKeeps reads hp) h
  | value64 c reads =>
    rw [runValue64_eq] at h
    exact runAtTarget_getKeeps hg (fun p hp => settleValue64_getKeeps reads hp) h
  | reserved c =>
    exact runCode_getKeeps hg (fun d => .raised d (by decide)) (fun _ d => ⟨rfl, .refl d⟩) h

/-- A step inside a DEC_GET keeps the points and the buffer, or takes an error. -/
theorem step_getKeeps {s t : State} {g : GetContext} (hg : s.get = some g) (h : step s = .next t) :
    GetKeeps g.saved s t := by
  cases hc : s.dec.readCode with
  | ok c d =>
    rw [step_of_readCode hg hc] at h
    obtain ⟨hcfg, hdec⟩ := (exec_codeShape (encode_decodeCode _ c)).getKeeps (s.fetched_get g c d) h
    exact ⟨hcfg, hdec.imp_left (Dec.keeps_of_readCode hc).trans⟩
  | raised e d =>
    rw [step_of_readCode_raised hg hc] at h
    obtain rfl : s.takeDecError g d e = t := Host.Outcome.next.inj h
    exact .takeDecError s g d (by simp [(Dec.readCode_eq_raised hc).1])

/-! ### The encoder's phases -/

theorem encodeId_keeps (id : Word32) (r : EncRun) : r.enc.stream.Keeps (encodeId id r).enc.stream := by
  obtain ⟨-, he⟩ | ⟨-, c, w, -, he⟩ := encodeId_cases id r <;> rw [he]
  · exact .refl _
  · simp only [EncRun.at_enc, EncRun.mapStream_enc, EncRun.payload_enc, EncRun.writeCode_enc, Enc.writeXor_stream,
      Enc.writeCode_stream]
    exact (r.enc.stream.keeps_countCode c).trans (.of_pts_eq rfl)

/-- After the ID phase the cursor is at the point written (41_point_id R182). -/
theorem encodeId_cursor (id : Word32) (r : EncRun) : (encodeId id r).enc.stream.cursor = id := by
  obtain ⟨h, he⟩ | ⟨-, c, w, -, he⟩ := encodeId_cases id r <;> rw [he]
  · exact h.symm
  · rfl

theorem encodeTime_keeps (ts : Word64) (r : EncRun) : r.enc.stream.Keeps (encodeTime ts r).enc.stream := by
  obtain ⟨-, he⟩ | ⟨-, -, he⟩ | ⟨-, -, he⟩ := encodeTime_cases ts r <;> rw [he]
  · exact .refl _
  all_goals
    simp only [EncRun.at_enc, EncRun.mapStream_enc, EncRun.payload_enc, EncRun.writeCode_enc, Enc.writeVarint_stream,
      Enc.writeCode_stream]
    exact (r.enc.stream.keeps_countCode _).trans (Stream.keeps_updateTime _ ts)

theorem encodeTime_cursor (ts : Word64) (r : EncRun) :
    (encodeTime ts r).enc.stream.cursor = r.enc.stream.cursor := by
  obtain ⟨-, he⟩ | ⟨-, -, he⟩ | ⟨-, -, he⟩ := encodeTime_cases ts r <;> rw [he] <;> simp

theorem encodeQuality_keeps (p : Point) (q : Word32) (r : EncRun) :
    r.enc.stream.Keeps (encodeQuality p q r).enc.stream := by
  obtain ⟨-, he⟩ | ⟨-, -, he⟩ | ⟨-, -, he⟩ := encodeQuality_cases p q r <;> rw [he]
  · exact .refl _
  all_goals
    simp only [EncRun.at_enc, EncRun.mapStream_enc, EncRun.payload_enc, EncRun.writeCode_enc, Enc.writeVarint_stream,
      Enc.writeCode_stream]
    exact (r.enc.stream.keeps_countCode _).trans (Stream.keeps_updateQuality _ q)

theorem encodeQuality_cursor (p : Point) (q : Word32) (r : EncRun) :
    (encodeQuality p q r).enc.stream.cursor = r.enc.stream.cursor := by
  obtain ⟨-, he⟩ | ⟨-, -, he⟩ | ⟨-, -, he⟩ := encodeQuality_cases p q r <;> rw [he] <;> simp

theorem encodePhases_keeps (id : Word32) (ts : Word64) (q : Word32) (p : Point) (r : EncRun) :
    r.enc.stream.Keeps (encodePhases id ts q p r).enc.stream :=
  ((encodeId_keeps id r).trans (encodeTime_keeps ts _)).trans (encodeQuality_keeps p q _)

theorem encodePhases_cursor (id : Word32) (ts : Word64) (q : Word32) (p : Point) (r : EncRun) :
    (encodePhases id ts q p r).enc.stream.cursor = id := by
  rw [encodePhases, encodeQuality_cursor, encodeTime_cursor, encodeId_cursor]

/-- After the phases before the value the target is the point written, as it was registered. -/
theorem encodePhases_target_type {id : Word32} {p : Point} {r : EncRun} (ts : Word64) (q : Word32)
    (hp : r.enc.stream.pts[id.toNat]? = some p) {p' : Point}
    (hp' : (encodePhases id ts q p r).enc.stream.target? = some p') : p'.type = p.type := by
  obtain ⟨p'', hp'', -, htype, -⟩ := encodePhases_keeps id ts q p r id.toNat p hp
  rw [Stream.target?, encodePhases_cursor, hp''] at hp'
  exact Option.some.inj hp' ▸ htype

/-- The value phase counts one code and writes one history, and never fails (44_value32 R265, R266). -/
theorem encodeValue_stream {n : Nat} (widths : List Nat) (unit : Nat) (wrap : History n → PointValues) (h : History n)
    (v : BitVec n) (r : EncRun) :
    ∃ r' c h', encodeValue widths unit wrap h v r = .done r' ∧
      r'.enc.stream = (r.enc.stream.countCode c).setValues (wrap h') := by
  obtain ⟨-, he⟩ | ⟨-, -, he⟩ | ⟨-, -, -, he⟩ | ⟨-, -, -, -, he⟩ | ⟨-, -, -, -, he⟩ :=
    encodeValue_cases widths unit wrap h v r
  case inr.inr.inr.inr =>
    exact ⟨_, BitVec.ofNat 6 (35 + leastWidth widths (v ^^^ h.v1).toNat / unit), h.push v, he, by simp⟩
  all_goals exact ⟨_, _, _, he, rfl⟩

theorem Stream.countCode_target_type {st : Stream} {c : Code} {p : Point}
    (h : (st.countCode c).target? = some p) : ∃ q, st.target? = some q ∧ p.type = q.type := by
  rw [Stream.countCode_target, Option.map_eq_some_iff] at h
  obtain ⟨q, hq, rfl⟩ := h
  exact ⟨q, hq, rfl⟩

/-! ### A request -/

/-- The parameters and the registrations of both engines are kept. -/
structure State.Keeps (s t : State) : Prop where
  cfg : t.cfg = s.cfg
  dec : s.dec.stream.Keeps t.dec.stream
  enc : s.enc.stream.Keeps t.enc.stream

theorem State.Keeps.refl (s : State) : s.Keeps s := ⟨rfl, .refl _, .refl _⟩

theorem State.Keeps.respond {s t : State} (h : s.Keeps t) (r : Response) : s.Keeps (t.respond r) :=
  ⟨h.cfg, h.dec, h.enc⟩

theorem State.keeps_refuse (s : State) (c : ErrorCode) : s.Keeps (s.refuse c) :=
  (State.Keeps.refl s).respond _

theorem State.Keeps.unlessDecFailed {s t : State} (h : s.Keeps t) : s.Keeps (s.unlessDecFailed t) := by
  unfold State.unlessDecFailed
  split
  · exact (State.Keeps.refl s).respond _
  · exact h

theorem State.Keeps.unlessEncFailed {s t : State} (h : s.Keeps t) : s.Keeps (s.unlessEncFailed t) := by
  unfold State.unlessEncFailed
  split
  · exact (State.Keeps.refl s).respond _
  · exact h

theorem State.keeps_finishEnc {s : State} {e : Enc} (h : s.enc.stream.Keeps e.stream) (r : Response) :
    s.Keeps (s.finishEnc e r) := by
  unfold State.finishEnc
  split
  · exact ⟨rfl, .refl _, h⟩
  · exact s.keeps_refuse _

/-- The value phase of a live encoder, for the point `p` at the cursor of the run `r`. -/
theorem State.keeps_finishWrite {n : Nat} {s : State} {r : EncRun} {p : Point} {widths : List Nat} {unit : Nat}
    {wrap : History n → PointValues} (h : History n) (v : BitVec n) (hr : s.enc.stream.Keeps r.enc.stream)
    (hp : ∀ p', r.enc.stream.target? = some p' → p'.type = p.type) (hwrap : ∀ h', (wrap h').type = p.type) :
    s.Keeps (s.finishWrite (encodeValue widths unit wrap h v r)) := by
  obtain ⟨r', c, h', he, hstream⟩ := encodeValue_stream widths unit wrap h v r
  rw [he]
  refine s.keeps_finishEnc ?_ _
  rw [hstream]
  refine (hr.trans (r.enc.stream.keeps_countCode c)).trans (Stream.keeps_setValues fun p' hp' => ?_)
  obtain ⟨q, hq, htype⟩ := Stream.countCode_target_type hp'
  rw [hwrap, htype, hp q hq]

theorem State.keeps_encWrite (s : State) (id : Word32) (ts : Word64) (q : Word32) (v : Value) :
    s.Keeps (s.encWrite id ts q v) := by
  obtain h | ⟨p, hp, ⟨t, hist, b, hv, -, h⟩ | ⟨t, hist, b, hv, -, h⟩⟩ := s.encWrite_cases id ts q v <;> rw [h]
  · exact s.keeps_refuse _
  all_goals
    exact State.keeps_finishWrite hist b (encodePhases_keeps id ts q p (.start s.enc))
      (fun p' => encodePhases_target_type ts q hp) (fun _ => by simp [Point.type, hv, PointValues.type])

theorem State.keeps_encRegister (s : State) (tb : Byte) (md : List Byte) : s.Keeps (s.encRegister tb md) := by
  unfold State.encRegister
  split
  · exact s.keeps_refuse _
  · split_ifs
    · exact s.keeps_refuse _
    · exact s.keeps_refuse _
    · refine s.keeps_finishEnc ?_ _
      simp only [encodeNewPoint, EncRun.mapStream_enc, EncRun.payload_enc, EncRun.writeCode_enc, EncRun.start_enc,
        Enc.writeBytes_stream, Enc.writeVarint_stream, Enc.writeByte_stream, Enc.writeCode_stream]
      exact (s.enc.stream.keeps_countCode 0).trans (Stream.keeps_register _ md _)

/-- A request whose codes only count in the models, as those of ENC_USER, ENC_USER_DATA and ENC_FLUSH. -/
theorem State.keeps_finishEnc_countCode {s : State} {e : Enc} {c : Code} (h : e.stream = s.enc.stream.countCode c)
    (r : Response) : s.Keeps (s.finishEnc e r) :=
  s.keeps_finishEnc (h ▸ s.enc.stream.keeps_countCode c) r

theorem encodeFlush_stream (r : EncRun) : (encodeFlush r).enc.stream = r.enc.stream.countCode 3 :=
  Enc.padBits_stream _

theorem State.keeps_encTake (s : State) : s.Keeps s.encTake := by
  refine ⟨rfl, .refl _, ?_⟩
  show s.enc.stream.Keeps s.enc.flushed.stream
  unfold Enc.flushed
  split
  · rw [encodeFlush_stream]
    exact s.enc.stream.keeps_countCode 3
  · exact .refl _

/-- What a request of the decoder can do: its reset, or keep what was registered. -/
theorem exec_decoderRequest_keeps {r : Request} (hr : r.opcode.toNat < 8) {s t : State}
    (h : exec (decodeRequest r) s = .next t) :
    (r.opcode = 0x0 ∧ t = s.resetDec.respond .ok) ∨ s.Keeps t := by
  obtain ⟨h0, hi⟩ | hi | hi | hi | ⟨low, hi⟩ := decodeRequest_decoder hr <;> rw [hi] at h <;>
    obtain ⟨-, rfl⟩ := betweenRequests_eq_next.1 h
  · exact .inl ⟨h0, rfl⟩
  all_goals right
  · refine State.Keeps.unlessDecFailed ?_
    split
    · exact s.keeps_refuse _
    · exact ⟨rfl, .refl _, .refl _⟩
  · obtain ⟨hcfg, hdec, henc⟩ := s.loopHead_keeps (GetContext.start s.dec) s.dec
    exact State.Keeps.unlessDecFailed ⟨hcfg, .of_pts_eq (by rw [hdec]), .of_pts_eq (by rw [henc])⟩
  · exact (State.Keeps.refl s).respond _
  · exact s.keeps_refuse _

/-- What a request of the encoder can do: its reset, or keep what was registered. -/
theorem exec_encoderRequest_keeps {r : Request} (hr : 8 ≤ r.opcode.toNat) {s t : State}
    (h : exec (decodeRequest r) s = .next t) :
    (r.opcode = 0x8 ∧ t = s.resetEnc.respond .ok) ∨ s.Keeps t := by
  obtain ⟨h8, hi⟩ | hi | hi | hi | hi | hi | hi | hi := decodeRequest_encoder hr <;> rw [hi] at h <;>
    obtain ⟨-, rfl⟩ := betweenRequests_eq_next.1 h
  · exact .inl ⟨h8, rfl⟩
  all_goals right
  · exact (s.keeps_encRegister _ _).unlessEncFailed
  · exact (s.keeps_encWrite _ _ _ _).unlessEncFailed
  · exact (State.keeps_finishEnc_countCode (c := 1) (Enc.writeVarint_stream _ _) _).unlessEncFailed
  · exact (State.keeps_finishEnc_countCode (c := 2)
      (by simp [encodeUserCommandWithData]) _).unlessEncFailed
  · exact (State.keeps_finishEnc_countCode (encodeFlush_stream _) _).unlessEncFailed
  · exact s.keeps_encTake.unlessEncFailed
  · exact (State.Keeps.refl s).respond _

/-- A step between requests keeps the parameters and what was registered, but for the engine that it resets. -/
theorem step_idle_keeps {s t : State} (hg : s.get = none) (h : step s = .next t) :
    s.Keeps t ∨
    (∃ r rest, s.pending = r :: rest ∧ r.opcode = 0x0 ∧ t = (s.accepted rest).resetDec.respond .ok) ∨
    (∃ r rest, s.pending = r :: rest ∧ r.opcode = 0x8 ∧ t = (s.accepted rest).resetEnc.respond .ok) := by
  cases hp : s.pending with
  | nil =>
    have hrest : step s = .next s := by simp [step, hg, hp]
    rw [hrest] at h
    cases h
    exact .inl (.refl s)
  | cons r rest =>
    rw [step_of_pending hg hp] at h
    have lift (hk : (s.accepted rest).Keeps t) : s.Keeps t := ⟨hk.cfg, hk.dec, hk.enc⟩
    rcases Nat.lt_or_ge r.opcode.toNat 8 with hr | hr
    · obtain ⟨h0, ht⟩ | hk := exec_decoderRequest_keeps hr h
      · exact .inr (.inl ⟨r, rest, rfl, h0, ht⟩)
      · exact .inl (lift hk)
    · obtain ⟨h8, ht⟩ | hk := exec_encoderRequest_keeps hr h
      · exact .inr (.inr ⟨r, rest, rfl, h8, ht⟩)
      · exact .inl (lift hk)

/-- Settles O51: inside a DEC_GET a step keeps the decoder's registrations and buffer or takes an error, and leaves the
encoder (`step_keeps_enc`); between requests it keeps the registrations of every engine that it does not reset. -/
theorem registeredPointsArePermanent : Obligations.RegisteredPointsArePermanent := by
  unfold Obligations.RegisteredPointsArePermanent
  intro kept s t hst
  cases hg : s.get with
  | some g =>
    obtain ⟨hcfg, hdec⟩ := step_getKeeps hg hst
    have henc := step_keeps_enc (.inl (by simp [hg])) hst
    refine ⟨hcfg, fun _ => henc ▸ Stream.Keeps.refl _, fun _ hlive => ?_, fun g' hg' hsaved => ?_⟩
    · obtain hk | ⟨herr, -⟩ := hdec
      · exact hk.points
      · obtain h | ⟨-, hnone⟩ := hlive
        · cases h
        · exact absurd hnone herr
    · obtain rfl := Option.some.inj hg'
      obtain hk | ⟨-, hbuf⟩ := hdec
      · exact hk.inBuf
      · exact hbuf.trans hsaved
  | none =>
    obtain hk | ⟨r, rest, hp, hop, rfl⟩ | ⟨r, rest, hp, hop, rfl⟩ := step_idle_keeps hg hst
    · exact ⟨hk.cfg, fun _ => hk.enc, fun _ _ => hk.dec, fun _ h => nomatch h⟩
    · exact ⟨rfl, fun _ => Stream.Keeps.refl _, fun h => absurd hop (h r rest rfl hp), fun _ h => nomatch h⟩
    · exact ⟨rfl, fun h => absurd hop (h r rest rfl hp), fun _ _ => Stream.Keeps.refl _, fun _ h => nomatch h⟩

end Sys2Proof.Machine
end

section
/-!
PROOFS. What a step can make of the stream states, the read states and the write state, said once (10_state R22 to R30;
47_stream_engine R330, R350, R354, R361): a rule changes a stream state by the moves of `Stream.Move`, so what a state
holds after a step comes from what it held by these moves, by a load, by an undo or by a reset (`step_law`).
-/

namespace Sys2Proof.Machine

/-! ### Moves of a stream state -/

/-- A change that one rule makes to a stream state, with what the rule has checked before it. -/
inductive Stream.Move (p : Config) (st : Stream) : Stream → Prop
  | countCode (c : Code) : st.Move p (st.countCode c)
  | register (tag : TypeTag) (md : List Byte) (room : st.pts.length ≠ p.maxPoints) : st.Move p (st.register tag md)
  | cursor (id : Word32) (registered : id.toNat < st.pts.length) : st.Move p { st with cursor := id }
  | time (ts : Word64) : st.Move p (st.updateTime ts)
  | target (f : Point → Point) (keeps_id : ∀ q, (f q).id = q.id) (keeps_model : ∀ q, (f q).model = q.model) :
      st.Move p (st.mapTarget f)

/-- A stream state that some moves lead to. -/
abbrev Stream.Moves (p : Config) : Stream → Stream → Prop :=
  Relation.ReflTransGen (Stream.Move p)

theorem Stream.Move.updateQuality (p : Config) (st : Stream) (q : Word32) : st.Move p (st.updateQuality q) :=
  .target _ (fun _ => rfl) fun _ => rfl

theorem Stream.Move.setValues (p : Config) (st : Stream) (vs : PointValues) : st.Move p (st.setValues vs) :=
  .target _ (fun _ => rfl) fun _ => rfl

/-- What every move keeps, every sequence of moves keeps. -/
theorem Stream.Moves.induct {p : Config} {P : Stream → Prop} (hmove : ∀ a b : Stream, P a → a.Move p b → P b)
    {a b : Stream} (h : a.Moves p b) (ha : P a) : P b := by
  induction h with
  | refl => exact ha
  | tail _ hbc ih => exact hmove _ _ ih hbc

/-! ### The decoder -/

/-- What a rule that raises nothing can do to the decoder: moves of the stream state and reads. -/
structure Dec.Advances (p : Config) (d d' : Dec) : Prop where
  stream : d.stream.Moves p d'.stream
  inBuf : d'.inBuf = d.inBuf
  pos_le : d.pos ≤ d.inBuf.length → d'.pos ≤ d'.inBuf.length
  rcnt_le : d.rcnt ≤ 8 → d'.rcnt ≤ 8
  err : d'.err = d.err

theorem Dec.Advances.refl (p : Config) (d : Dec) : d.Advances p d := ⟨.refl, rfl, id, id, rfl⟩

theorem Dec.Advances.trans {p : Config} {d d' d'' : Dec} (h : d.Advances p d') (h' : d'.Advances p d'') :
    d.Advances p d'' where
  stream := h.stream.trans h'.stream
  inBuf := h'.inBuf.trans h.inBuf
  pos_le := h'.pos_le ∘ h.pos_le
  rcnt_le := h'.rcnt_le ∘ h.rcnt_le
  err := h'.err.trans h.err

theorem Dec.Advances.move {p : Config} {d : Dec} {st : Stream} (h : d.stream.Move p st) :
    d.Advances p { d with stream := st } :=
  ⟨.single h, rfl, id, id, rfl⟩

theorem ReadLaw.advances {α : Type} {p : Config} {d : Dec} {r : ReadResult α} (h : ReadLaw d r) :
    d.Advances p r.after where
  stream := h.stream ▸ .refl
  inBuf := h.inBuf
  pos_le hp := h.inBuf ▸ h.pos_le hp
  rcnt_le := h.rcnt_le
  err := h.err

/-- The errors that a rule of the decoder can raise (60_exceptions R400, R401). -/
def raisedErrors : List ErrorCode :=
  [.malformedStream, .unsupportedType, .bufferUnderrun, .capacityExceeded]

/-- What a local code's rule does from `d` on is an advance, and what it raises is an error of the decoder. -/
structure AdvancingLaw {α : Type} (p : Config) (d : Dec) (r : ReadResult α) : Prop where
  advances : ∀ a d', r = .ok a d' → d.Advances p d'
  raised_mem : ∀ e d', r = .raised e d' → e ∈ raisedErrors

theorem AdvancingLaw.ok {α : Type} {p : Config} {a : α} {d d' : Dec} (h : d.Advances p d') :
    AdvancingLaw p d (.ok a d') :=
  ⟨by rintro _ _ ⟨⟩; exact h, by rintro _ _ ⟨⟩⟩

theorem AdvancingLaw.raised {α : Type} {p : Config} {e : ErrorCode} {d d' : Dec} (h : e ∈ raisedErrors) :
    AdvancingLaw p d (.raised e d' : ReadResult α) :=
  ⟨by rintro _ _ ⟨⟩, by rintro _ _ ⟨⟩; exact h⟩

theorem AdvancingLaw.bind {α β : Type} {p : Config} {d : Dec} {r : ReadResult α} {f : α → Dec → ReadResult β}
    (hr : AdvancingLaw p d r) (hf : ∀ a d', r = .ok a d' → AdvancingLaw p d' (f a d')) :
    AdvancingLaw p d (r.bind f) := by
  cases r with
  | raised e d' => exact .raised (hr.raised_mem e d' rfl)
  | ok a d' =>
    exact ⟨fun b d'' hb => (hr.advances a d' rfl).trans ((hf a d' rfl).advances b d'' hb), (hf a d' rfl).raised_mem⟩

theorem ReadLaw.advancing {α : Type} {p : Config} {d : Dec} {r : ReadResult α} (h : ReadLaw d r) :
    AdvancingLaw p d r := by
  cases r with
  | raised e d' => exact .raised (by simp [h.raised_underrun e d' rfl, raisedErrors])
  | ok a d' => exact .ok h.advances

theorem checkPhase_advancing (p : Config) (k : Phase) (c : Code) (d : Dec) : AdvancingLaw p d (checkPhase k c d) := by
  unfold checkPhase
  split
  · exact .ok (.refl p d)
  · exact .raised (by decide)

theorem Dec.target_advancing (p : Config) (d : Dec) : AdvancingLaw p d d.target := by
  unfold Dec.target
  split
  · exact .ok (.refl p d)
  · exact .raised (by decide)

theorem Dec.typeOfByte_advancing (p : Config) (b : Byte) (d : Dec) : AdvancingLaw p d (d.typeOfByte p b) := by
  unfold Dec.typeOfByte
  split
  · exact .ok (.refl p d)
  · exact .raised (by decide)

theorem Dec.within_advancing (p : Config) (ok : Bool) (d : Dec) : AdvancingLaw p d (d.within ok) := by
  unfold Dec.within
  split
  · exact .ok (.refl p d)
  · exact .raised (by decide)

/-- A limit that was checked is not reached, and the check leaves the decoder (46_control_codes R300, R301). -/
theorem Dec.within_eq_ok {ok : Bool} {d d' : Dec} {u : Unit} (h : d.within ok = .ok u d') : ok = true ∧ d' = d := by
  unfold Dec.within at h
  split at h
  · rename_i hok
    cases h
    exact ⟨hok, rfl⟩
  · cases h

/-- A read that answered leaves the stream state. -/
theorem ReadLaw.stream_of_ok {α : Type} {d d' : Dec} {r : ReadResult α} {a : α} (h : ReadLaw d r)
    (hr : r = .ok a d') : d'.stream = d.stream := by
  subst hr
  exact h.stream

/-- DecodeNewPoint registers only in a table with room (46_control_codes R300). -/
theorem Dec.decodeNewPoint_advancing (p : Config) (d : Dec) : AdvancingLaw p d (d.decodeNewPoint p) := by
  refine d.readByte_law.advancing.bind fun tb d1 _ => ?_
  refine (d1.typeOfByte_advancing p tb).bind fun tag d2 _ => ?_
  refine (d2.within_advancing p _).bind fun _ d3 hroom => ?_
  refine (d3.readVarint_law 32).advancing.bind fun len d4 hlen => ?_
  refine (d4.within_advancing p _).bind fun _ d5 hmeta => ?_
  refine (Dec.readBytes_law len.toNat d5).advancing.bind fun md d6 hmd => .ok (.move (.register tag md ?_))
  obtain ⟨hne, rfl⟩ := Dec.within_eq_ok hroom
  obtain ⟨-, rfl⟩ := Dec.within_eq_ok hmeta
  rw [(Dec.readBytes_law _ _).stream_of_ok hmd, (Dec.readVarint_law 32 _).stream_of_ok hlen]
  simpa using hne

/-- The cursor moves only to a registered point (41_point_id R181). -/
theorem Dec.decodeId_advancing (p : Config) (w : Nat) (d : Dec) : AdvancingLaw p d (d.decodeId w) := by
  refine (d.readXor_law w).advancing.bind fun x d' _ => ?_
  unfold Dec.checkCursor
  split
  · exact .raised (by decide)
  · rename_i hlt
    exact .ok (.move (.cursor _ (Nat.lt_of_not_le hlt)))

theorem Dec.advances_of_readCode {p : Config} {d d' : Dec} {c : Code} (h : d.readCode = .ok c d') :
    d.Advances p d' := by
  obtain ⟨d1, h1, rfl⟩ := Dec.readCode_eq_ok h
  have hread := (Dec.readCodeWord_law d.stream.curModel.escapes d).advances (p := p)
  rw [h1] at hread
  exact ⟨.single (.countCode c), rfl, fun hp => hread.inBuf ▸ hread.pos_le hp, hread.rcnt_le, rfl⟩

/-! ### A step inside a DEC_GET -/

/-- What a step inside a DEC_GET from `s` to `t` can do: advance the decoder, or take an error and go back to the
decoder `saved` at the head of the request (60_exceptions R401). -/
inductive GetLaw (saved : Dec) (s t : State) : Prop
  | advance (dec : s.dec.Advances s.cfg t.dec) (keeps_saved : ∀ g, t.get = some g → g.saved = saved)
  | fail (e : ErrorCode) (record : FaultRecord) (raised : e ∈ raisedErrors) (closed : t.get = none)
      (dec : t.dec = { saved with err := e, finfo := record })

theorem GetLaw.takeDecError (s : State) (g : GetContext) (d : Dec) {e : ErrorCode} (he : e ∈ raisedErrors) :
    GetLaw g.saved s (s.takeDecError g d e) :=
  .fail e _ he rfl rfl

theorem settleRead_getLaw {α : Type} {s t : State} {g : GetContext} {r : ReadResult α} {done : α → Dec → State}
    (hr : AdvancingLaw s.cfg s.dec r) (hdec : ∀ a (d : Dec), d.Advances s.cfg (done a d).dec)
    (hsaved : ∀ a d g', (done a d).get = some g' → g'.saved = g.saved) (h : settleRead s g r done = .next t) :
    GetLaw g.saved s t := by
  cases r with
  | ok a d =>
    obtain rfl : done a d = t := Host.Outcome.next.inj h
    exact .advance ((hr.advances a d rfl).trans (hdec a d)) (hsaved a d)
  | raised e d =>
    obtain rfl : s.takeDecError g d e = t := Host.Outcome.next.inj h
    exact .takeDecError s g d (hr.raised_mem e d rfl)

theorem runCode_getLaw {α : Type} {c : Code} {s t : State} {g : GetContext} {body : Dec → ReadResult α}
    {done : GetContext → α → Dec → State} (hg : s.get = some g) (hb : ∀ d, AdvancingLaw s.cfg d (body d))
    (hdec : ∀ a (d : Dec), d.Advances s.cfg (done g a d).dec)
    (hsaved : ∀ a d g', (done g a d).get = some g' → g'.saved = g.saved) (h : runCode c s body done = .next t) :
    GetLaw g.saved s t := by
  simp only [runCode, duringGet, hg] at h
  exact settleRead_getLaw ((checkPhase_advancing _ _ c s.dec).bind fun _ d _ => hb d) hdec hsaved h

/-- What the frame of the value codes can answer inside a DEC_GET: MalformedStream, or what `k` answers at the target
point (44_value32 R250, 45_value64 R280). -/
theorem runAtTarget_next {c : Code} {s t : State} {g : GetContext} {k : GetContext → Point → Dec → StepOutcome}
    (hg : s.get = some g) (h : runAtTarget c s k = .next t) :
    t = s.takeDecError g s.dec .malformedStream ∨ ∃ p, k g p s.dec = .next t := by
  simp only [runAtTarget, duringGet, hg] at h
  cases hc : allowedAt g.phase s.dec.stream.pts.length c with
  | false =>
    rw [checkPhase_refused hc] at h
    exact .inl (Host.Outcome.next.inj h).symm
  | true =>
    rw [checkPhase_allowed hc, ReadResult.bind_ok] at h
    cases hp : s.dec.stream.target? with
    | none =>
      simp only [Dec.target, hp] at h
      exact .inl (Host.Outcome.next.inj h).symm
    | some p =>
      rw [Dec.target_of_some hp] at h
      exact .inr ⟨p, h⟩

theorem runAtTarget_getLaw {c : Code} {s t : State} {g : GetContext} {k : GetContext → Point → Dec → StepOutcome}
    (hg : s.get = some g) (hk : ∀ p, k g p s.dec = .next t → GetLaw g.saved s t) (h : runAtTarget c s k = .next t) :
    GetLaw g.saved s t := by
  obtain rfl | ⟨p, hp⟩ := runAtTarget_next hg h
  · exact .takeDecError s g s.dec (by decide)
  · exact hk p hp

theorem State.finishMeasurement_advances (s : State) (p : Point) (vs : PointValues) (v : Value) (d : Dec) :
    d.Advances s.cfg (s.finishMeasurement p vs v d).dec :=
  .move (.setValues _ _ vs)

theorem settleValue32_getLaw {rule : ValueRule 32} (reads : ∀ h d, ReadLaw d (rule h d)) {s t : State}
    {g : GetContext} {p : Point} (h : settleValue32 rule s g p s.dec = .next t) : GetLaw g.saved s t := by
  unfold settleValue32 at h
  split at h
  case h_1 tag hist _ =>
    exact settleRead_getLaw (reads hist s.dec).advancing (fun _ _ => s.finishMeasurement_advances ..)
      (fun _ _ _ hnone => by cases hnone) h
  case h_2 => cases h

theorem settleValue64_getLaw {rule : ValueRule 64} (reads : ∀ h d, ReadLaw d (rule h d)) {s t : State}
    {g : GetContext} {p : Point} (h : settleValue64 rule s g p s.dec = .next t) : GetLaw g.saved s t := by
  unfold settleValue64 at h
  split at h
  case h_1 tag hist _ =>
    exact settleRead_getLaw (reads hist s.dec).advancing (fun _ _ => s.finishMeasurement_advances ..)
      (fun _ _ _ hnone => by cases hnone) h
  case h_2 => cases h

/-- Where the head of the loop leaves a DEC_GET open, it keeps the decoder to go back to. -/
theorem State.loopHead_saved {s : State} {g g' : GetContext} {d : Dec} (h : (s.loopHead g d).get = some g') :
    g'.saved = g.saved := by
  obtain ⟨-, -, hl⟩ | ⟨-, hl⟩ := s.loopHead_cases g d <;> rw [hl] at h <;> cases h
  rfl

/-- A local code advances the decoder or takes an error. -/
theorem CodeShape.getLaw {m : State → StepOutcome} (hm : CodeShape m) {s t : State} {g : GetContext}
    (hg : s.get = some g) (h : m s = .next t) : GetLaw g.saved s t := by
  have closed (g' : GetContext) (hnone : (none : Option GetContext) = some g') : g'.saved = g.saved := nomatch hnone
  have opened {k : Phase} (g' : GetContext) (hg' : some { g with phase := k } = some g') : g'.saved = g.saved :=
    Option.some.inj hg' ▸ rfl
  cases hm with
  | newPointId =>
    exact runCode_getLaw hg (Dec.decodeNewPoint_advancing s.cfg) (fun _ d => .refl _ d) (fun _ _ => closed) h
  | userCommand =>
    exact runCode_getLaw hg (fun d => (d.readVarint_law 32).advancing) (fun _ d => .refl _ d) (fun _ _ => closed) h
  | userCommandWithData =>
    exact runCode_getLaw hg (fun d => d.readCommandWithData_law.advancing) (fun _ d => .refl _ d)
      (fun _ _ => closed) h
  | flushBits =>
    have discards (d : Dec) : d.Advances s.cfg d.discardBits :=
      ⟨.refl, rfl, fun hp => hp, fun _ => Nat.zero_le 8, rfl⟩
    refine runCode_getLaw hg (fun d => .ok (discards d)) (fun _ d => ?_) (fun _ _ _ => State.loopHead_saved) h
    obtain ⟨-, hdec, -⟩ := s.loopHead_keeps g d
    rw [hdec]
    exact .refl _ d
  | id c w =>
    exact runCode_getLaw hg (Dec.decodeId_advancing s.cfg w) (fun _ d => .refl _ d) (fun _ _ => opened) h
  | time c reads =>
    exact runCode_getLaw hg (fun d => (reads d).advancing) (fun ts _ => .move (.time ts)) (fun _ _ => opened) h
  | quality c reads =>
    exact runCode_getLaw hg (fun d => (d.target_advancing _).bind fun p d _ => (reads p d).advancing)
      (fun q _ => .move (.updateQuality _ _ q)) (fun _ _ => opened) h
  | value32 c reads =>
    rw [runValue32_eq] at h
    exact runAtTarget_getLaw hg (fun _ => settleValue32_getLaw reads) h
  | value64 c reads =>
    rw [runValue64_eq] at h
    exact runAtTarget_getLaw hg (fun _ => settleValue64_getLaw reads) h
  | reserved c =>
    exact runCode_getLaw hg (fun _ => .raised (by decide)) (fun _ d => .refl _ d) (fun _ _ => opened) h

/-- A step inside a DEC_GET advances the decoder or takes an error. -/
theorem step_getLaw {s t : State} {g : GetContext} (hg : s.get = some g) (h : step s = .next t) :
    GetLaw g.saved s t := by
  cases hc : s.dec.readCode with
  | ok c d =>
    rw [step_of_readCode hg hc] at h
    cases (exec_codeShape (encode_decodeCode _ c)).getLaw (s.fetched_get g c d) h with
    | advance hdec hsaved => exact .advance ((Dec.advances_of_readCode hc).trans hdec) hsaved
    | fail e record he hget hdec => exact .fail e record he hget hdec
  | raised e d =>
    rw [step_of_readCode_raised hg hc] at h
    obtain rfl : s.takeDecError g d e = t := Host.Outcome.next.inj h
    exact .takeDecError s g d (by simp [(Dec.readCode_eq_raised hc).1, raisedErrors])

end Sys2Proof.Machine
end

section
/-!
PROOFS. What an encoder request can make of the encoder, and from both engines what every step can do (`step_law`).
-/

namespace Sys2Proof.Machine

/-! ### The encoder's writes -/

/-- What the phases of an encoder request can do to the encoder: moves of the stream state and writes. -/
structure Enc.Advances (p : Config) (e e' : Enc) : Prop where
  stream : e.stream.Moves p e'.stream
  ranges : e.Ranges → e'.Ranges
  err : e'.err = e.err

theorem Enc.Advances.refl (p : Config) (e : Enc) : e.Advances p e := ⟨.refl, id, rfl⟩

theorem Enc.Advances.trans {p : Config} {e e' e'' : Enc} (h : e.Advances p e') (h' : e'.Advances p e'') :
    e.Advances p e'' :=
  ⟨h.stream.trans h'.stream, h'.ranges ∘ h.ranges, h'.err.trans h.err⟩

theorem Enc.Advances.move {p : Config} {e : Enc} {st : Stream} (h : e.stream.Move p st) :
    e.Advances p { e with stream := st } :=
  ⟨.single h, fun hr => ⟨hr.wcnt_le, hr.slot_lt⟩, rfl⟩

theorem Enc.Advances.code (p : Config) (e : Enc) (c : Code) : e.Advances p (e.writeCode c) :=
  ⟨.single (.countCode c), fun hr => Enc.writeCode_ranges hr c, e.writeCode_err c⟩

theorem Enc.Advances.bytes (p : Config) (e : Enc) (bs : List Byte) : e.Advances p (e.writeBytes bs) :=
  ⟨e.writeBytes_stream bs ▸ .refl, fun hr => Enc.writeBytes_ranges hr bs, e.writeBytes_err bs⟩

theorem Enc.Advances.varint {n : Nat} (p : Config) (e : Enc) (v : BitVec n) : e.Advances p (e.writeVarint v) :=
  .bytes p e _

theorem Enc.Advances.xor {w : Nat} (p : Config) (e : Enc) (x : BitVec w) : e.Advances p (e.writeXor x) :=
  ⟨Enc.writeXor_stream x e ▸ .refl, fun hr => Enc.writeXor_ranges hr x, Enc.writeXor_err x e⟩

theorem Enc.Advances.pad (p : Config) (e : Enc) : e.Advances p e.padBits :=
  ⟨e.padBits_stream ▸ .refl, Enc.padBits_ranges, e.padBits_err⟩

/-! ### The phases and the control records -/

/-- EncodeId moves the cursor to a registered point when its operand is one (41_point_id R182). -/
theorem encodeId_advances (p : Config) {id : Word32} {r : EncRun} (h : id.toNat < r.enc.stream.pts.length) :
    r.enc.Advances p (encodeId id r).enc := by
  obtain ⟨-, he⟩ | ⟨-, c, w, -, he⟩ := encodeId_cases id r <;> rw [he]
  · exact .refl p _
  · exact ((Enc.Advances.code p r.enc c).trans (.xor p _ _)).trans (.move (.cursor id (by simpa using h)))

theorem encodeTime_advances (p : Config) (ts : Word64) (r : EncRun) : r.enc.Advances p (encodeTime ts r).enc := by
  obtain ⟨-, he⟩ | ⟨-, -, he⟩ | ⟨-, -, he⟩ := encodeTime_cases ts r <;> rw [he]
  · exact .refl p _
  · exact ((Enc.Advances.code p r.enc 20).trans (.varint p _ _)).trans (.move (.time ts))
  · exact (Enc.Advances.code p r.enc _).trans (.move (.time ts))

theorem encodeQuality_advances (p : Config) (pt : Point) (q : Word32) (r : EncRun) :
    r.enc.Advances p (encodeQuality pt q r).enc := by
  obtain ⟨-, he⟩ | ⟨-, -, he⟩ | ⟨-, -, he⟩ := encodeQuality_cases pt q r <;> rw [he]
  · exact .refl p _
  · exact (Enc.Advances.code p r.enc 21).trans (.move (.updateQuality p _ q))
  · exact ((Enc.Advances.code p r.enc 22).trans (.varint p _ _)).trans (.move (.updateQuality p _ q))

theorem encodePhases_advances (p : Config) {id : Word32} (ts : Word64) (q : Word32) (pt : Point) {r : EncRun}
    (h : id.toNat < r.enc.stream.pts.length) : r.enc.Advances p (encodePhases id ts q pt r).enc :=
  ((encodeId_advances p h).trans (encodeTime_advances p ts _)).trans (encodeQuality_advances p pt q _)

/-- The value phase never fails (44_value32 R266). -/
theorem encodeValue_advances {n : Nat} (p : Config) (widths : List Nat) (unit : Nat) (wrap : History n → PointValues)
    (h : History n) (v : BitVec n) (r : EncRun) :
    ∃ r', encodeValue widths unit wrap h v r = .done r' ∧ r.enc.Advances p r'.enc := by
  have repeats (c : Code) (vs : PointValues) : r.enc.Advances p (r.valueCode c vs).enc :=
    (Enc.Advances.code p r.enc c).trans (.move (.setValues p _ vs))
  obtain ⟨-, he⟩ | ⟨-, -, he⟩ | ⟨-, -, -, he⟩ | ⟨-, -, -, -, he⟩ | ⟨-, -, -, -, he⟩ :=
    encodeValue_cases widths unit wrap h v r
  case inr.inr.inr.inr =>
    exact ⟨_, he, ((Enc.Advances.code p r.enc _).trans (.xor p _ _)).trans (.move (.setValues p _ _))⟩
  all_goals exact ⟨_, he, repeats _ _⟩

theorem encodeNewPoint_advances {p : Config} (tag : TypeTag) (md : List Byte) {r : EncRun}
    (room : r.enc.stream.pts.length ≠ p.maxPoints) : r.enc.Advances p (encodeNewPoint p tag md r).enc :=
  ((((Enc.Advances.code p r.enc 0).trans (.bytes p _ [p.typeCodes.byteOf tag])).trans (.varint p _ _)).trans
    (.bytes p _ md)).trans (.move (.register tag md (by simpa using room)))

theorem encodeUserCommand_advances (p : Config) (command : Word32) (r : EncRun) :
    r.enc.Advances p (encodeUserCommand command r).enc :=
  (Enc.Advances.code p r.enc 1).trans (.varint p _ _)

theorem encodeUserCommandWithData_advances (p : Config) (command : Word32) (payload : List Byte) (r : EncRun) :
    r.enc.Advances p (encodeUserCommandWithData command payload r).enc :=
  (((Enc.Advances.code p r.enc 2).trans (.varint p _ _)).trans (.varint p _ _)).trans (.bytes p _ payload)

theorem encodeFlush_advances (p : Config) (r : EncRun) : r.enc.Advances p (encodeFlush r).enc :=
  (Enc.Advances.code p r.enc 3).trans (.pad p _)

theorem Enc.flushed_advances (p : Config) (e : Enc) : e.Advances p e.flushed := by
  unfold Enc.flushed
  split
  · exact encodeFlush_advances p (.start e)
  · exact .refl p e

/-- No bits are pending when ENC_TAKE hands out the bytes (47_stream_engine R361). -/
theorem Enc.flushed_wcnt (e : Enc) : e.flushed.wcnt = 0 := by
  unfold Enc.flushed
  split
  · exact Enc.padBits_wcnt _
  · omega

/-! ### A request of the encoder -/

/-- What a step can make of an encoder. -/
inductive Enc.From (p : Config) (e : Enc) : Enc → Prop
  | kept : e.From p e
  | reset : e.From p Enc.reset
  | advance {e' : Enc} (advances : e.Advances p e') (fits : e'.fits p = true) : e.From p e'
  | take {e' : Enc} (advances : e.Advances p e') (flushed : e'.wcnt = 0) :
      e.From p { e' with out := [], wslot := 0 }

/-- What a request of the encoder does to the encoder, with no DEC_GET opened or ended. -/
structure State.EncLaw (s t : State) : Prop where
  get : t.get = s.get
  enc : s.enc.From s.cfg t.enc

theorem State.encLaw_respond (s : State) (r : Response) : s.EncLaw (s.respond r) := ⟨rfl, .kept⟩

theorem State.EncLaw.unlessEncFailed {s t : State} (h : s.EncLaw t) : s.EncLaw (s.unlessEncFailed t) := by
  unfold State.unlessEncFailed
  split
  · exact s.encLaw_respond _
  · exact h

theorem State.encLaw_finishEnc {s : State} {e : Enc} (h : s.enc.Advances s.cfg e) (r : Response) :
    s.EncLaw (s.finishEnc e r) := by
  unfold State.finishEnc
  split
  · rename_i hfits
    exact ⟨rfl, .advance h hfits⟩
  · exact s.encLaw_respond _

theorem State.encLaw_encRegister (s : State) (tb : Byte) (md : List Byte) : s.EncLaw (s.encRegister tb md) := by
  unfold State.encRegister
  split
  · exact s.encLaw_respond _
  · split_ifs with hfull
    · exact s.encLaw_respond _
    · exact s.encLaw_respond _
    · exact s.encLaw_finishEnc (encodeNewPoint_advances (r := .start s.enc) _ md hfull) _

theorem State.encLaw_finishWrite {n : Nat} {s : State} {r : EncRun} (hr : s.enc.Advances s.cfg r.enc)
    (widths : List Nat) (unit : Nat) (wrap : History n → PointValues) (h : History n) (v : BitVec n) :
    s.EncLaw (s.finishWrite (encodeValue widths unit wrap h v r)) := by
  obtain ⟨r', he, hr'⟩ := encodeValue_advances s.cfg widths unit wrap h v r
  rw [he]
  exact s.encLaw_finishEnc (hr.trans hr') _

theorem State.encLaw_encWrite (s : State) (id : Word32) (ts : Word64) (q : Word32) (v : Value) :
    s.EncLaw (s.encWrite id ts q v) := by
  obtain h | ⟨p, hp, h⟩ := s.encWrite_cases id ts q v
  · exact h ▸ s.encLaw_respond _
  · obtain ⟨hlt, -⟩ := List.getElem?_eq_some_iff.1 hp
    have hr := encodePhases_advances s.cfg ts q p (r := .start s.enc) hlt
    obtain ⟨_, _, _, -, -, h⟩ | ⟨_, _, _, -, -, h⟩ := h <;> rw [h]
    · exact State.encLaw_finishWrite hr ..
    · exact State.encLaw_finishWrite hr ..

theorem State.encLaw_encTake (s : State) : s.EncLaw s.encTake :=
  ⟨rfl, .take (s.enc.flushed_advances s.cfg) s.enc.flushed_wcnt⟩

theorem exec_encoderRequest_law {r : Request} (hr : 8 ≤ r.opcode.toNat) {s t : State}
    (h : exec (decodeRequest r) s = .next t) : s.EncLaw t := by
  obtain ⟨-, hi⟩ | hi | hi | hi | hi | hi | hi | hi := decodeRequest_encoder hr <;> rw [hi] at h <;>
    obtain ⟨-, rfl⟩ := betweenRequests_eq_next.1 h
  · exact ⟨rfl, .reset⟩
  · exact (s.encLaw_encRegister _ _).unlessEncFailed
  · exact (s.encLaw_encWrite _ _ _ _).unlessEncFailed
  · exact (s.encLaw_finishEnc (encodeUserCommand_advances s.cfg _ (.start s.enc)) _).unlessEncFailed
  · exact (s.encLaw_finishEnc (encodeUserCommandWithData_advances s.cfg _ _ (.start s.enc)) _).unlessEncFailed
  · exact (s.encLaw_finishEnc (encodeFlush_advances s.cfg (.start s.enc)) _).unlessEncFailed
  · exact s.encLaw_encTake.unlessEncFailed
  · exact s.encLaw_respond _

/-! ### A request of the decoder -/

/-- What a step can make of a decoder. -/
inductive Dec.From (p : Config) (d : Dec) : Dec → Prop
  | reset : d.From p Dec.reset
  | load (bytes : List Byte) (fits : bytes.length ≤ p.decBufMax) : d.From p (d.load bytes)
  | advance {d' : Dec} (advances : d.Advances p d') : d.From p d'
  | fail {e : ErrorCode} (raised : e ∈ raisedErrors) (record : FaultRecord) :
      d.From p { d with err := e, finfo := record }

theorem Dec.From.kept {p : Config} {d : Dec} : d.From p d := .advance (.refl p d)

/-- The decoders a state holds are the engine and the one a DEC_GET in progress would go back to. -/
theorem State.mem_decoders {s : State} {d : Dec} : d ∈ s.decoders ↔ d = s.dec ∨ ∃ g, s.get = some g ∧ d = g.saved := by
  unfold State.decoders
  cases s.get <;> simp

/-- Every decoder that `t` holds comes from one that `s` holds. -/
def State.DecLaw (s t : State) : Prop :=
  ∀ d' ∈ t.decoders, ∃ d ∈ s.decoders, d.From s.cfg d'

/-- With no DEC_GET opened, only the engine is to be looked at. -/
theorem State.DecLaw.of_idle {s t : State} (hget : t.get = none) (hdec : s.dec.From s.cfg t.dec) : s.DecLaw t := by
  intro d' hd'
  obtain rfl | ⟨g, hg, -⟩ := State.mem_decoders.1 hd'
  · exact ⟨s.dec, State.mem_decoders.2 (.inl rfl), hdec⟩
  · rw [hget] at hg
    cases hg

/-- Decoders that were there before are still there. -/
theorem State.DecLaw.of_kept {s t : State} (h : ∀ d ∈ t.decoders, d ∈ s.decoders) : s.DecLaw t :=
  fun d hd => ⟨d, h d hd, .kept⟩

theorem State.decLaw_respond (s : State) (r : Response) : s.DecLaw (s.respond r) := .of_kept fun _ => id

theorem State.DecLaw.unlessDecFailed {s t : State} (h : s.DecLaw t) : s.DecLaw (s.unlessDecFailed t) := by
  unfold State.unlessDecFailed
  split
  · exact s.decLaw_respond _
  · exact h

theorem GetLaw.decLaw {s t : State} {g : GetContext} (hg : s.get = some g) (h : GetLaw g.saved s t) : s.DecLaw t := by
  have hsaved : g.saved ∈ s.decoders := State.mem_decoders.2 (.inr ⟨g, hg, rfl⟩)
  intro d' hd'
  cases h with
  | advance hdec hkeeps =>
    obtain rfl | ⟨g', hg', rfl⟩ := State.mem_decoders.1 hd'
    · exact ⟨s.dec, State.mem_decoders.2 (.inl rfl), .advance hdec⟩
    · exact ⟨g.saved, hsaved, hkeeps g' hg' ▸ .kept⟩
  | fail e record he hclosed hdec =>
    obtain rfl | ⟨g', hg', -⟩ := State.mem_decoders.1 hd'
    · exact ⟨g.saved, hsaved, hdec ▸ .fail he record⟩
    · rw [hclosed] at hg'
      cases hg'

theorem exec_decoderRequest_law {r : Request} (hr : r.opcode.toNat < 8) {s t : State}
    (h : exec (decodeRequest r) s = .next t) : s.DecLaw t := by
  obtain ⟨-, hi⟩ | hi | hi | hi | ⟨low, hi⟩ := decodeRequest_decoder hr <;> rw [hi] at h <;>
    obtain ⟨hidle, rfl⟩ := betweenRequests_eq_next.1 h
  · exact .of_idle hidle .reset
  · refine State.DecLaw.unlessDecFailed ?_
    split_ifs with hlen
    · exact s.decLaw_respond _
    · exact .of_idle hidle (.load r.bytes (Nat.le_of_not_lt hlen))
  · refine State.DecLaw.unlessDecFailed (.of_kept fun d hd => State.mem_decoders.2 (.inl ?_))
    obtain ⟨-, hdec, -⟩ := s.loopHead_keeps (GetContext.start s.dec) s.dec
    obtain rfl | ⟨g, hg, rfl⟩ := State.mem_decoders.1 hd
    · exact hdec
    · exact State.loopHead_saved hg
  · exact s.decLaw_respond _
  · exact s.decLaw_respond _

/-! ### A step -/

/-- Everything a step from `s` to `t` can do to the parameters and the engines. -/
structure StepLaw (s t : State) : Prop where
  cfg : t.cfg = s.cfg
  dec : s.DecLaw t
  enc : s.enc.From s.cfg t.enc

theorem step_law {s t : State} (h : step s = .next t) : StepLaw s t := by
  have hcfg : t.cfg = s.cfg := (registeredPointsArePermanent s t h).1
  cases hg : s.get with
  | some g =>
    have henc : t.enc = s.enc := step_keeps_enc (.inl (by simp [hg])) h
    exact ⟨hcfg, (step_getLaw hg h).decLaw hg, henc ▸ .kept⟩
  | none =>
    cases hp : s.pending with
    | nil =>
      obtain rfl : s = t := by simpa [step, hg, hp] using h
      exact ⟨rfl, .of_kept fun _ => id, .kept⟩
    | cons r rest =>
      rcases Nat.lt_or_ge r.opcode.toNat 8 with hr | hr
      · have henc : t.enc = s.enc := step_keeps_enc (.inr ⟨r, rest, hp, hr⟩) h
        rw [step_of_pending hg hp] at h
        have hdec : (s.accepted rest).DecLaw t := exec_decoderRequest_law hr h
        exact ⟨hcfg, hdec, henc ▸ .kept⟩
      · have hdec : t.dec = s.dec := step_keeps_dec hg hp hr h
        rw [step_of_pending hg hp] at h
        obtain ⟨hget, henc⟩ := exec_encoderRequest_law hr h
        exact ⟨hcfg, .of_idle (hget.trans hg) (hdec ▸ .kept), henc⟩

/-! ### Invariants of the stream states -/

theorem State.mem_streams {s : State} {st : Stream} :
    st ∈ s.streams ↔ st = s.enc.stream ∨ ∃ d ∈ s.decoders, st = d.stream := by
  unfold State.streams State.decoders
  cases s.get <;> simp <;> tauto

theorem Enc.From.stream {p : Config} {e e' : Enc} (h : e.From p e') :
    e'.stream = Stream.reset ∨ e.stream.Moves p e'.stream := by
  cases h with
  | kept => exact .inr .refl
  | reset => exact .inl rfl
  | advance hadv _ => exact .inr hadv.stream
  | take hadv _ => exact .inr hadv.stream

theorem Dec.From.stream {p : Config} {d d' : Dec} (h : d.From p d') :
    d'.stream = Stream.reset ∨ d.stream.Moves p d'.stream := by
  cases h with
  | reset => exact .inl rfl
  | load _ _ => exact .inr .refl
  | advance hadv => exact .inr hadv.stream
  | fail _ _ => exact .inr .refl

/-- A stream state after a step: the reset value, or one from before the step, moved. -/
theorem StepLaw.streams {s t : State} (h : StepLaw s t) {st' : Stream} (hst' : st' ∈ t.streams) :
    st' = Stream.reset ∨ ∃ st ∈ s.streams, st.Moves s.cfg st' := by
  obtain rfl | ⟨d', hd', rfl⟩ := State.mem_streams.1 hst'
  · exact h.enc.stream.imp_right fun hm => ⟨_, State.mem_streams.2 (.inl rfl), hm⟩
  · obtain ⟨d, hd, hfrom⟩ := h.dec d' hd'
    exact hfrom.stream.imp_right fun hm => ⟨_, State.mem_streams.2 (.inr ⟨d, hd, rfl⟩), hm⟩

/-- The induction of every invariant of the stream states: what holds after reset and is kept by every move is kept by
every step. -/
theorem step_keeps_streams {s t : State} {P : Stream → Prop} (hreset : P Stream.reset)
    (hmove : ∀ a b : Stream, P a → a.Move s.cfg b → P b) (hs : ∀ st ∈ s.streams, P st) (h : step s = .next t) :
    ∀ st ∈ t.streams, P st := by
  intro st' hst'
  obtain rfl | ⟨st, hst, hmoves⟩ := (step_law h).streams hst'
  · exact hreset
  · exact hmoves.induct hmove (hs st hst)

end Sys2Proof.Machine
end

section
/-!
PROOFS. The code models (10_state R36, R38; 40_code_model R145 to R150): a retrain installs distinct escapes that were
counted, so counting a code keeps a model well formed, and no other move writes a model.
-/

namespace Sys2Proof.Machine

/-! ### The codes in their sorted order -/

theorem mem_allCodes (c : Code) : c ∈ allCodes :=
  List.mem_map.2 ⟨c.toNat, List.mem_range.2 c.isLt, by simp⟩

/-- The first code of the sorted order is one of the codes, and none is counted more often (40_code_model R148). -/
theorem firstByCount_spec (count : Code → Nat) {codes : List Code} (hne : codes ≠ []) :
    firstByCount count codes ∈ codes ∧ ∀ c ∈ codes, count c ≤ count (firstByCount count codes) := by
  have fold (rest : List Code) (best : Code) :
      let first := rest.foldl (fun best d => if count best < count d then d else best) best
      first ∈ best :: rest ∧ ∀ c ∈ best :: rest, count c ≤ count first := by
    induction rest generalizing best with
    | nil => simp
    | cons d rest ih =>
      rw [List.foldl_cons]
      split
      · rename_i hlt
        obtain ⟨hmem, hmax⟩ := ih d
        have hd := hmax d (by simp)
        exact ⟨.tail _ hmem, by rintro c (_ | ⟨_, hc⟩); exacts [by omega, hmax c hc]⟩
      · rename_i hge
        obtain ⟨hmem, hmax⟩ := ih best
        have hbest := hmax best (by simp)
        refine ⟨?_, ?_⟩
        · rcases List.mem_cons.1 hmem with h | h
          · rw [h]; simp
          · exact .tail _ (.tail _ h)
        · rintro c (_ | ⟨_, _ | ⟨_, hc⟩⟩)
          exacts [hbest, by omega, hmax c (.tail _ hc)]
  cases codes with
  | nil => exact absurd rfl hne
  | cons c rest => exact fold rest c

/-- The first three codes of the sorted order are distinct, and none is counted more often than the one before it
(40_code_model R148, R150). -/
theorem CodeModel.topThree_spec {m : CodeModel} {a1 a2 a3 : Code} (h : m.topThree = (a1, a2, a3)) :
    a2 ≠ a1 ∧ a3 ≠ a1 ∧ a3 ≠ a2 ∧ m.count a2 ≤ m.count a1 ∧ m.count a3 ≤ m.count a2 := by
  simp only [CodeModel.topThree, Prod.mk.injEq] at h
  obtain ⟨h1, h2, h3⟩ := h
  rw [h1] at h2 h3
  rw [h2] at h3
  have third : ∃ c : Code, c ≠ a1 ∧ c ≠ a2 := by
    by_contra hno
    have no0 := not_exists.1 hno 0
    have no1 := not_exists.1 hno 1
    have no2 := not_exists.1 hno 2
    grind
  obtain ⟨c, hc1, hc2⟩ := third
  have mem2 (d : Code) (hd : d ≠ a1) : d ∈ allCodes.filter (· != a1) := by simp [mem_allCodes, hd]
  have mem3 (d : Code) (hd : d ≠ a1) (hd' : d ≠ a2) : d ∈ (allCodes.filter (· != a1)).filter (· != a2) := by
    simp [mem_allCodes, hd, hd']
  obtain ⟨-, max1⟩ := firstByCount_spec m.count (List.ne_nil_of_mem (mem_allCodes c))
  obtain ⟨in2, max2⟩ := firstByCount_spec m.count (List.ne_nil_of_mem (mem2 c hc1))
  obtain ⟨in3, -⟩ := firstByCount_spec m.count (List.ne_nil_of_mem (mem3 c hc1 hc2))
  rw [h1] at max1
  rw [h2] at in2 max2
  rw [h3] at in3
  have ne21 : a2 ≠ a1 := by simpa [mem_allCodes] using in2
  obtain ⟨ne32, ne31⟩ : a3 ≠ a2 ∧ a3 ≠ a1 := by simpa [mem_allCodes] using in3
  exact ⟨ne21, ne31, ne32, max1 a2 (mem_allCodes a2), max2 a3 (mem2 a3 ne31)⟩

/-! ### Retrains -/

/-- The escapes that Adapt installs: distinct, and each counted at least once, because an escape without a count does
not make a mode cheaper (40_code_model R150). -/
theorem CodeModel.adapt_escapes (m : CodeModel) :
    m.adapt.escapes.Nodup ∧ ∀ c ∈ m.adapt.escapes, 1 ≤ m.count c := by
  obtain ⟨⟨a1, a2, a3⟩, h⟩ : ∃ a, m.topThree = a := ⟨_, rfl⟩
  obtain ⟨ne21, ne31, ne32, le21, le32⟩ := CodeModel.topThree_spec h
  have hmode : m.chosenMode = leastMode (modelSizes m.total (m.count a1) (m.count a2) (m.count a3)) := by
    rw [CodeModel.chosenMode, h]
  rw [modelSizes] at hmode
  have hleast := leastMode_spec (m.total * 6) (m.count a1 * 1 + (m.total - m.count a1) * 7)
    (m.count a1 * 1 + m.count a2 * 2 + (m.total - m.count a1 - m.count a2) * 8)
    (m.count a1 * 1 + m.count a2 * 2 + m.count a3 * 3 + (m.total - m.count a1 - m.count a2 - m.count a3) * 9)
  rw [← hmode] at hleast
  obtain ⟨hm, ha⟩ | ⟨hm, ha⟩ | ⟨hm, ha⟩ | ⟨hm, ha⟩ := CodeModel.adapt_cases h <;>
    simp only [hm, reduceCtorEq, false_and, true_and, false_or, or_false] at hleast <;>
    simp only [ha, CodeModel.escapes]
  · simp
  · have : 1 ≤ m.count a1 := by omega
    simpa using this
  · have : 1 ≤ m.count a2 := by omega
    refine ⟨by simpa using ne21.symm, ?_⟩
    rintro c (_ | ⟨_, _ | ⟨_, ⟨⟩⟩⟩) <;> omega
  · have : 1 ≤ m.count a3 := by omega
    refine ⟨by simp [ne21.symm, ne31.symm, ne32.symm], ?_⟩
    rintro c (_ | ⟨_, _ | ⟨_, _ | ⟨_, ⟨⟩⟩⟩⟩) <;> omega

/-- Settles O13: each installed escape was counted (`CodeModel.adapt_escapes`), whatever the total. -/
theorem installedEscapesWereCounted : Obligations.InstalledEscapesWereCounted := by
  unfold Obligations.InstalledEscapesWereCounted
  exact fun m _ => m.adapt_escapes

/-! ### Well-formed models -/

/-- Counting a code raises the sum of the counters by one (40_code_model R145). -/
theorem CodeModel.countCode_total (m : CodeModel) (c : Code) : (m.countCode c).total = m.total + 1 := by
  have hlt : c.toNat < m.cnt.toList.length := by simpa using c.isLt
  have hset : (m.countCode c).cnt.toList = m.cnt.toList.set c.toNat (m.cnt.toList[c.toNat] + 1) := by
    exact Vector.toList_set (h := c.isLt)
  have hsum := congrArg List.sum (List.set_getElem_self hlt)
  rw [List.sum_set] at hsum
  rw [CodeModel.total, CodeModel.total, hset, List.sum_set]
  simp only [hlt, if_true] at *
  omega

theorem CodeModel.total_cleared : (Vector.replicate 64 0).toList.sum = 0 := by decide

/-- Adapt clears the statistics and leaves the epoch (40_code_model R148). -/
theorem CodeModel.adapt_statistics (m : CodeModel) :
    m.adapt.total = 0 ∧ m.adapt.since = 0 ∧ m.adapt.epoch = m.epoch := by
  obtain ⟨⟨a1, a2, a3⟩, h⟩ : ∃ a, m.topThree = a := ⟨_, rfl⟩
  obtain ⟨-, ha⟩ | ⟨-, ha⟩ | ⟨-, ha⟩ | ⟨-, ha⟩ := CodeModel.adapt_cases h <;> rw [ha] <;>
    exact ⟨CodeModel.total_cleared, rfl, rfl⟩

theorem CodeModel.adapt_wf {m : CodeModel} (h : m.epoch ≤ 2) : m.adapt.Wf := by
  obtain ⟨htotal, hsince, hepoch⟩ := m.adapt_statistics
  obtain ⟨hnodup, -⟩ := m.adapt_escapes
  exact ⟨hnodup, by omega, by omega, by omega⟩

/-- Counting a code keeps a model well formed: `since` reaches 101 only in epoch 2, where it retrains
(40_code_model R145, R147). -/
theorem CodeModel.Wf.updateStats {m : CodeModel} (h : m.Wf) (c : Code) : (m.updateStats c).Wf := by
  have hepoch := h.epoch_le
  have htotal := h.total_eq_since
  obtain ⟨-, -, he⟩ | ⟨-, -, he⟩ | ⟨-, -, he⟩ | ⟨h0, h1, h2, he⟩ := (m.countCode c).retrain_cases <;>
    rw [CodeModel.updateStats, he]
  · exact CodeModel.adapt_wf (by simp)
  · exact CodeModel.adapt_wf (by simp)
  · exact CodeModel.adapt_wf hepoch
  · simp only [CodeModel.countCode_epoch, CodeModel.countCode_since] at h0 h1 h2
    exact ⟨h.escapes_distinct, by rw [CodeModel.countCode_total, CodeModel.countCode_since, htotal],
      by rw [CodeModel.countCode_since]; omega, hepoch⟩

theorem CodeModel.initial_wf : CodeModel.initial.Wf :=
  ⟨.nil, CodeModel.total_cleared, by decide, by decide⟩

/-! ### Every step -/

/-- A point after a change of the target: the point that stood there, or what the change made of it. -/
theorem Stream.mapTarget_getElem? {st : Stream} {f : Point → Point} {i : Nat} {q : Point}
    (h : (st.mapTarget f).pts[i]? = some q) : ∃ p, st.pts[i]? = some p ∧ (q = p ∨ q = f p) := by
  rw [Stream.mapTarget_pts, List.getElem?_modify] at h
  obtain ⟨p, hp, rfl⟩ := Option.map_eq_some_iff.1 h
  refine ⟨p, hp, ?_⟩
  split
  · exact .inr rfl
  · exact .inl rfl

theorem Stream.ModelsWf.mapTarget {st : Stream} (h : st.ModelsWf) {f : Point → Point}
    (hf : ∀ p, p.model.Wf → (f p).model.Wf) : (st.mapTarget f).ModelsWf := by
  obtain ⟨hboot, hpts⟩ := h
  refine ⟨hboot, fun q hq => ?_⟩
  obtain ⟨i, hi⟩ := List.mem_iff_getElem?.1 hq
  obtain ⟨p, hp, rfl | rfl⟩ := Stream.mapTarget_getElem? hi
  · exact hpts _ (List.mem_of_getElem? hp)
  · exact hf p (hpts p (List.mem_of_getElem? hp))

theorem Stream.ModelsWf.move {p : Config} {a b : Stream} (h : a.ModelsWf) (hm : a.Move p b) : b.ModelsWf := by
  have ⟨hboot, hpts⟩ := h
  cases hm with
  | countCode c =>
    unfold Stream.countCode
    split
    · exact h.mapTarget fun p hp => hp.updateStats c
    · exact ⟨hboot.updateStats c, hpts⟩
  | register tag md _ =>
    refine ⟨hboot, fun q hq => ?_⟩
    rcases List.mem_append.1 hq with hq | hq
    · exact hpts q hq
    · rw [List.mem_singleton.1 hq]
      exact CodeModel.initial_wf
  | cursor _ _ => exact ⟨hboot, hpts⟩
  | time ts => exact ⟨by rwa [Stream.updateTime_boot], by rwa [Stream.updateTime_pts]⟩
  | target f _ hmodel => exact h.mapTarget fun p hp => by rwa [hmodel]

theorem Stream.reset_modelsWf : Stream.reset.ModelsWf :=
  ⟨CodeModel.initial_wf, by simp [Stream.reset]⟩

/-- Settles O52: every move of a stream state keeps its models well formed. -/
theorem stepKeepsCodeModelsWellFormed : Obligations.StepKeepsCodeModelsWellFormed := by
  unfold Obligations.StepKeepsCodeModelsWellFormed
  exact fun s t hs h => step_keeps_streams Stream.reset_modelsWf (fun _ _ => Stream.ModelsWf.move) hs h

end Sys2Proof.Machine
end

section
/-!
PROOFS. The delta caches (10_state R27, 42_timestamp R215) and the point tables (10_state R22, R23, R35): every move of
a stream state keeps them.
-/

namespace Sys2Proof.Machine

/-! ### Delta caches -/

/-- A delta below an entry of the cache is an i64, so it enters the cache as it is. -/
theorem toInt_ofNat_delta {d : Nat} {x : Word64} (h : (d : Int) < x.toInt) : (BitVec.ofNat 64 d).toInt = d := by
  have hx := BitVec.toInt_lt (x := x)
  rw [BitVec.toInt_ofNat', Int.bmod_eq_of_le] <;> omega

/-- `y` may stand behind `x` in the cache: it is greater, or both are i64::MAX (10_state R27). -/
def DeltaFollows (x y : Word64) : Prop :=
  x.toInt ≤ y.toInt ∧ (x = y → x = i64Max)

theorem DeltaFollows.of_lt {x y : Word64} (h : x.toInt < y.toInt) : DeltaFollows x y :=
  ⟨Int.le_of_lt h, by rintro rfl; exact absurd h (Int.lt_irrefl _)⟩

theorem Stream.deltaCacheWf_iff {st : Stream} :
    st.DeltaCacheWf ↔ 0 ≤ st.dt1.toInt ∧ DeltaFollows st.dt1 st.dt2 ∧ DeltaFollows st.dt2 st.dt3 ∧
      DeltaFollows st.dt3 st.dt4 := by
  constructor
  · rintro ⟨h0, h12, h23, h34, d12, d23, d34⟩
    exact ⟨h0, ⟨h12, d12⟩, ⟨h23, d23⟩, h34, d34⟩
  · rintro ⟨h0, ⟨h12, d12⟩, ⟨h23, d23⟩, h34, d34⟩
    exact ⟨h0, h12, h23, h34, d12, d23, d34⟩

/-- The cache insertion keeps the cache sorted: a new delta goes between its neighbours and equals neither
(42_timestamp R211, R215). -/
theorem Stream.DeltaCacheWf.insertDelta {st : Stream} (h : st.DeltaCacheWf) (d : Nat) :
    (st.insertDelta d).DeltaCacheWf := by
  obtain he | ⟨h4, n1, n2, n3, hins⟩ := st.insertDelta_cases d
  · rwa [he]
  have hv := toInt_ofNat_delta h4
  obtain ⟨h0, h12, h23, h34⟩ := Stream.deltaCacheWf_iff.1 h
  obtain ⟨h1, he⟩ | ⟨h1, h2, he⟩ | ⟨h2, h3, he⟩ | ⟨h3, he⟩ := hins <;>
    simp only [he, Stream.deltaCacheWf_iff]
  · exact ⟨by omega, .of_lt (by omega), h12, h23⟩
  · exact ⟨h0, .of_lt (by omega), .of_lt (by omega), h23⟩
  · exact ⟨h0, h12, .of_lt (by omega), .of_lt (by omega)⟩
  · exact ⟨h0, h12, h23, .of_lt (by omega)⟩

/-- The invariant is about the four entries alone. -/
theorem Stream.DeltaCacheWf.congr {a b : Stream} (h : a.DeltaCacheWf) (h1 : b.dt1 = a.dt1) (h2 : b.dt2 = a.dt2)
    (h3 : b.dt3 = a.dt3) (h4 : b.dt4 = a.dt4) : b.DeltaCacheWf := by
  rw [Stream.deltaCacheWf_iff] at *
  rwa [h1, h2, h3, h4]

theorem Stream.DeltaCacheWf.updateTime {st : Stream} (h : st.DeltaCacheWf) (ts : Word64) :
    (st.updateTime ts).DeltaCacheWf := by
  unfold Stream.updateTime
  cases st.tvalid with
  | true => exact (h.insertDelta (timeDelta st.t1 ts)).congr rfl rfl rfl rfl
  | false => exact h.congr rfl rfl rfl rfl

theorem Stream.DeltaCacheWf.move {p : Config} {a b : Stream} (h : a.DeltaCacheWf) (hm : a.Move p b) :
    b.DeltaCacheWf := by
  cases hm with
  | countCode c => exact h.congr (by simp) (by simp) (by simp) (by simp)
  | register _ _ _ | cursor _ _ | target _ _ _ => exact h.congr rfl rfl rfl rfl
  | time ts => exact h.updateTime ts

theorem Stream.reset_deltaCacheWf : Stream.reset.DeltaCacheWf := by
  constructor <;> decide

/-- Settles O53: every move of a stream state keeps its delta cache sorted. -/
theorem stepKeepsDeltaCachesSorted : Obligations.StepKeepsDeltaCachesSorted := by
  unfold Obligations.StepKeepsDeltaCachesSorted
  exact fun s t hs h => step_keeps_streams Stream.reset_deltaCacheWf (fun _ _ => Stream.DeltaCacheWf.move) hs h

/-! ### Point tables -/

/-- The invariant is about the points and the cursor alone. -/
theorem Stream.TableWf.congr {p : Config} {a b : Stream} (h : a.TableWf p) (hpts : b.pts = a.pts)
    (hcursor : b.cursor = a.cursor) : b.TableWf p := by
  obtain ⟨capacity, ids, cursor_lt, cursor_zero⟩ := h
  exact ⟨by rwa [hpts], by rwa [hpts], by rwa [hpts, hcursor], by rwa [hpts, hcursor]⟩

theorem Stream.TableWf.mapTarget {p : Config} {st : Stream} (h : st.TableWf p) {f : Point → Point}
    (hf : ∀ q, (f q).id = q.id) : (st.mapTarget f).TableWf p where
  capacity := by simpa using h.capacity
  ids i q hq := by
    obtain ⟨q', hq', rfl | rfl⟩ := Stream.mapTarget_getElem? hq
    · exact h.ids i _ hq'
    · exact (hf q').trans (h.ids i q' hq')
  cursor_lt hne := by
    have hne' : st.pts ≠ [] := by rintro h0; simp [h0] at hne
    simpa using h.cursor_lt hne'
  cursor_zero hnil := h.cursor_zero (by simpa using hnil)

/-- A registration in a table with room puts the new point at its index and the cursor on it (46_control_codes R300). -/
theorem Stream.TableWf.register {p : Config} {st : Stream} (h : st.TableWf p) (tag : TypeTag) (md : List Byte)
    (room : st.pts.length ≠ p.maxPoints) : (st.register tag md).TableWf p where
  capacity := by
    have := h.capacity
    simp only [Stream.register_pts, List.length_append, List.length_singleton]
    omega
  ids i q hq := by
    rw [Stream.register_pts, List.getElem?_append] at hq
    split at hq
    · exact h.ids i q hq
    · obtain ⟨hi, rfl⟩ : i = st.pts.length ∧ q = Point.create st.nextId tag md := by
        obtain ⟨hlt, hq⟩ := List.getElem?_eq_some_iff.1 hq
        simp only [List.length_singleton] at hlt
        exact ⟨by omega, by simpa using hq.symm⟩
      rw [hi]
      rfl
  cursor_lt _ := by
    have : st.nextId.toNat ≤ st.pts.length := by
      rw [Stream.nextId, BitVec.toNat_ofNat]
      exact Nat.mod_le _ _
    simp only [Stream.register_pts, Stream.register_cursor, List.length_append, List.length_singleton]
    omega
  cursor_zero hnil := by simp at hnil

theorem Stream.TableWf.move {p : Config} {a b : Stream} (h : a.TableWf p) (hm : a.Move p b) : b.TableWf p := by
  cases hm with
  | countCode c =>
    unfold Stream.countCode
    split
    · exact h.mapTarget fun _ => rfl
    · exact h.congr rfl rfl
  | register tag md room => exact h.register tag md room
  | cursor id hlt =>
    exact ⟨h.capacity, h.ids, fun _ => hlt, fun hnil => by simp [show a.pts = [] from hnil] at hlt⟩
  | time ts => exact h.congr (by simp) (by simp)
  | target f hid _ => exact h.mapTarget hid

theorem Stream.reset_tableWf (p : Config) : Stream.reset.TableWf p :=
  ⟨Nat.zero_le _, by simp [Stream.reset], fun hne => absurd rfl hne, fun _ => rfl⟩

/-- Settles O54: every move of a stream state keeps its table dense, and no step writes the parameters. -/
theorem stepKeepsPointTablesDense : Obligations.StepKeepsPointTablesDense := by
  unfold Obligations.StepKeepsPointTablesDense
  rintro s t ⟨hrange, hs⟩ h
  rw [State.TablesInv, (step_law h).cfg]
  exact ⟨hrange, step_keeps_streams (Stream.reset_tableWf s.cfg) (fun _ _ => Stream.TableWf.move) hs h⟩

end Sys2Proof.Machine
end

section
/-!
PROOFS. The read and write states (10_state R24, R25; 47_stream_engine R350, R354), the errors that the engines hold
(10_state R30; 60_exceptions R400, R404, R408), and the invariants after reset (70_reset_and_hazards R450).
-/

namespace Sys2Proof.Machine

/-! ### Buffers -/

theorem Dec.reset_bufferWf (p : Config) : Dec.reset.BufferWf p :=
  ⟨Nat.zero_le _, le_rfl, Nat.zero_le _⟩

theorem Enc.reset_bufferWf (p : Config) : Enc.reset.BufferWf p :=
  ⟨Nat.zero_le _, fun h => absurd h (Nat.lt_irrefl 0), Nat.zero_le _⟩

theorem Dec.BufferWf.of_from {p : Config} {d d' : Dec} (h : d.BufferWf p) (hf : d.From p d') : d'.BufferWf p := by
  cases hf with
  | reset => exact Dec.reset_bufferWf p
  | load bytes fits => exact ⟨fits, Nat.zero_le _, Nat.zero_le _⟩
  | advance hadv => exact ⟨hadv.inBuf ▸ h.len_le, hadv.pos_le h.pos_le, hadv.rcnt_le h.rcnt_le⟩
  | fail _ _ => exact ⟨h.len_le, h.pos_le, h.rcnt_le⟩

/-- An encoder request ends with the capacity check, but for ENC_TAKE, which leaves the output empty and no bits pending
(47_stream_engine R354, R361). -/
theorem Enc.BufferWf.of_from {p : Config} {e e' : Enc} (h : e.BufferWf p) (hf : e.From p e') : e'.BufferWf p := by
  cases hf with
  | kept => exact h
  | reset => exact Enc.reset_bufferWf p
  | advance hadv fits =>
    obtain ⟨hcnt, hslot⟩ := hadv.ranges h.ranges
    exact ⟨hcnt, hslot, of_decide_eq_true fits⟩
  | take hadv hflushed =>
    exact ⟨(hadv.ranges h.ranges).wcnt_le, fun hpos => absurd hflushed (Nat.ne_of_gt hpos),
      by simp [Enc.footprint, hflushed]⟩

theorem Enc.out_length_le_footprint (e : Enc) : e.out.length ≤ e.footprint := Nat.le_add_right _ _

/-- Settles O55: what a step makes of an engine in range is in range (`Dec.BufferWf.of_from`, `Enc.BufferWf.of_from`),
and the limits are below the indices that a u32 reaches. -/
theorem stepKeepsBuffersInRange : Obligations.StepKeepsBuffersInRange := by
  unfold Obligations.StepKeepsBuffersInRange
  refine ⟨?_, ?_⟩
  · rintro s t ⟨hdec, henc⟩ h
    have hlaw := step_law h
    rw [State.BuffersInv, hlaw.cfg]
    refine ⟨fun d' hd' => ?_, henc.of_from hlaw.enc⟩
    obtain ⟨d, hd, hfrom⟩ := hlaw.dec d' hd'
    exact (hdec d hd).of_from hfrom
  · rintro s ⟨-, -, -, hdecMax, -, hencMax, -⟩ ⟨hdec, henc⟩
    have hin := (hdec s.dec (State.mem_decoders.2 (.inl rfl))).len_le
    have hout := s.enc.out_length_le_footprint.trans henc.footprint_le
    exact ⟨by unfold Memory.wf; omega, by unfold Memory.wf; omega⟩

/-! ### Stored errors -/

theorem Dec.From.err {p : Config} {d d' : Dec} (hf : d.From p d') :
    d'.err = .none ∨ d'.err = d.err ∨ d'.err ∈ raisedErrors := by
  cases hf with
  | reset => exact .inl rfl
  | load _ _ => exact .inr (.inl rfl)
  | advance hadv => exact .inr (.inl hadv.err)
  | fail raised _ => exact .inr (.inr raised)

/-- No step stores an error in the encoder: the value phase never fails (`encodeValue_advances`), and every other
encoder error is a refusal. -/
theorem Enc.From.err {p : Config} {e e' : Enc} (hf : e.From p e') : e'.err = .none ∨ e'.err = e.err := by
  cases hf with
  | kept => exact .inr rfl
  | reset => exact .inl rfl
  | advance hadv _ => exact .inr hadv.err
  | take hadv _ => exact .inr hadv.err

/-- Settles O45: a step stores in the decoder only what its rules raise, and nothing in the encoder. -/
theorem storedErrorsStayLegal : Obligations.StoredErrorsStayLegal := by
  unfold Obligations.StoredErrorsStayLegal
  refine ⟨by decide, ?_⟩
  rintro s t ⟨henc, hdec⟩ h
  have hlaw := step_law h
  refine ⟨hlaw.enc.err.elim id (·.trans henc), fun d' hd' => ?_⟩
  obtain ⟨d, hd, hfrom⟩ := hlaw.dec d' hd'
  obtain hnone | hsame | hraised := hfrom.err
  · simp [hnone]
  · exact hsame ▸ hdec d hd
  · exact .tail _ hraised

/-! ### Reset -/

/-- Settles O56: both engines hold the reset values, which meet each invariant. -/
theorem resetMeetsTheInvariants : Obligations.ResetMeetsTheInvariants := by
  unfold Obligations.ResetMeetsTheInvariants
  have streams {P : Stream → Prop} (h : P Stream.reset) : ∀ st ∈ State.reset.streams, P st := by
    rintro st (_ | ⟨_, _ | ⟨_, ⟨⟩⟩⟩) <;> exact h
  refine ⟨streams Stream.reset_modelsWf, streams Stream.reset_deltaCacheWf,
    ⟨by decide, streams (Stream.reset_tableWf _)⟩, ?_, Enc.reset_bufferWf _⟩
  rintro d (_ | ⟨_, ⟨⟩⟩)
  exact Dec.reset_bufferWf _

end Sys2Proof.Machine
end

section
/-!
PROOFS. NewPointId (46_control_codes R300; 10_state R32 to R34; 30_encoding R108).
-/

namespace Sys2Proof.Machine

/-- Of the bytes of an injective map each names its own tag, and every other byte names none (30_encoding R108). -/
theorem TypeCodes.tagOf_of_injective {m : TypeCodes} (h : m.Injective) :
    (∀ tag, m.tagOf (m.byteOf tag) = some tag) ∧ ∀ b, (∀ tag, m.byteOf tag ≠ b) → m.tagOf b = none := by
  constructor
  · intro tag
    simp only [List.nodup_cons, List.mem_cons, not_or, List.not_mem_nil, List.nodup_nil] at h
    obtain (_ | _ | _) | (_ | _ | _) := tag <;> simp [TypeCodes.tagOf, allTags, TypeCodes.byteOf, h]
  · intro b hb
    simp [TypeCodes.tagOf, hb]

/-- What DecodeNewPoint does when its reads answer and its checks pass (46_control_codes R300). -/
theorem Dec.decodeNewPoint_eq_ok {p : Config} {d d1 d2 d3 : Dec} {tb : Byte} {tag : TypeTag} {len : Word32}
    {md : List Byte} (htb : d.readByte = .ok tb d1) (htag : p.typeCodes.tagOf tb = some tag)
    (hroom : d.stream.pts.length ≠ p.maxPoints) (hlen : d1.readVarint 32 = .ok len d2)
    (hmax : len.toNat ≤ p.maxMetaBytes) (hmd : Dec.readBytes len.toNat d2 = .ok md d3) :
    d.decodeNewPoint p =
      .ok (d.stream.nextId, tag, md) { d.movedTo d3 with stream := d.stream.register tag md } := by
  have h1 : d1 = d.movedTo d1 := by simpa [htb] using d.readByte_law.moved
  have h2 : d2 = d1.movedTo d2 := by simpa [hlen] using (d1.readVarint_law 32).moved
  have h3 : d3 = d2.movedTo d3 := by simpa [hmd] using (Dec.readBytes_law len.toNat d2).moved
  have hmoved := Dec.eq_movedTo_trans (Dec.eq_movedTo_trans h1 h2) h3
  have hroom' : d1.stream.pts.length ≠ p.maxPoints := by rwa [h1]
  simp only [Dec.decodeNewPoint, htb, ReadResult.bind_ok, Dec.typeOfByte, htag, Dec.within, bne_iff_ne.2 hroom',
    if_true, hlen, hmax, decide_true, hmd]
  rw [hmoved]
  rfl

/-- Settles O24: code 0 is allowed at the start of a record, and its rule registers the point that it reads. -/
theorem newPointIdRegistersAPoint : Obligations.NewPointIdRegistersAPoint := by
  unfold Obligations.NewPointIdRegistersAPoint
  refine ⟨fun m h => ?_, ?_⟩
  · obtain ⟨hbyte, hother⟩ := TypeCodes.tagOf_of_injective h
    refine ⟨hbyte (.narrow .int32), hbyte (.narrow .uint32), hbyte (.narrow .single), hbyte (.wide .int64),
      hbyte (.wide .uint64), hbyte (.wide .double), fun b hb => hother b fun tag htag => hb ?_⟩
    subst htag
    obtain (_ | _ | _) | (_ | _ | _) := tag <;> simp [TypeCodes.byteOf]
  · intro s g tb tag len md d1 d2 d3 hg hk htb htag hroom hlen hmax hmd
    have hbody := Dec.decodeNewPoint_eq_ok htb htag hroom hlen hmax hmd
    have hallowed : allowedAt g.phase s.dec.stream.pts.length 0 = true := by rw [hk]; rfl
    refine (runCode_of_ok hg hallowed hbody).trans ?_
    cases tag <;> rfl

end Sys2Proof.Machine
end

section
/-!
PROOFS. The bit reader (20_memory R61 to R63; 30_encoding R104; 40_code_model R142): a read that answers has taken the
bits that it answers from the front of the unread ones, and a read that raises stands at the end of the buffer with too
few left. What a code word or a bit field reads follows from these two, and so does what a step fetches.
-/

namespace Sys2Proof.Machine

/-! ### Bit strings as numbers -/

@[simp] theorem bitsOf_length {n : Nat} (v : BitVec n) : (bitsOf v).length = n := by simp [bitsOf]

theorem bitsOf_getElem? {n i : Nat} (v : BitVec n) (h : i < n) : (bitsOf v)[i]? = some (v.getMsbD i) := by
  simp [bitsOf, h]

/-- Bit `j` of the number a string spells is the string's bit `j` from its end (20_memory R63). -/
theorem natOfBits_testBit (bits : List Bool) (j : Nat) :
    (natOfBits bits).testBit j = (bits.reverse[j]?).getD false := by
  induction bits using List.reverseRecOn generalizing j with
  | nil => simp [natOfBits]
  | append_singleton bits b ih =>
    have hsplit : natOfBits (bits ++ [b]) = 2 * natOfBits bits + b.toNat := by simp [natOfBits]
    rw [hsplit, List.reverse_append, List.reverse_singleton, List.singleton_append]
    cases j with
    | zero => cases b <;> simp [Nat.testBit_zero, Nat.add_mod]
    | succ j =>
      have hhalf : (2 * natOfBits bits + b.toNat) / 2 = natOfBits bits := by cases b <;> simp; omega
      rw [Nat.testBit_succ, hhalf, List.getElem?_cons_succ, ih]

/-- A string of `n` bits is the bits of the number it spells, taken as `n` bits. -/
theorem bitsOf_ofNat_natOfBits (bits : List Bool) : bitsOf (BitVec.ofNat bits.length (natOfBits bits)) = bits := by
  refine List.ext_getElem? fun i => ?_
  rcases Nat.lt_or_ge i bits.length with hi | hi
  · have hlast : bits.length - 1 - i < bits.length := by omega
    have hrev : bits.length - 1 - (bits.length - 1 - i) = i := by omega
    have hbit : (BitVec.ofNat bits.length (natOfBits bits)).getMsbD i = bits[i] := by
      rw [BitVec.getMsbD, BitVec.getLsbD_ofNat, natOfBits_testBit, List.getElem?_reverse hlast, hrev]
      simp [hi, hlast]
    rw [bitsOf_getElem? _ hi, hbit, List.getElem?_eq_getElem hi]
  · simp [hi]

/-- A field is the number that its bits spell. -/
theorem ofNat_natOfBits_bitsOf {n : Nat} (v : BitVec n) : BitVec.ofNat n (natOfBits (bitsOf v)) = v := by
  refine BitVec.eq_of_getMsbD_eq fun i hi => ?_
  have hbits := bitsOf_ofNat_natOfBits (bitsOf v)
  rw [bitsOf_length] at hbits
  have hget := bitsOf_getElem? (BitVec.ofNat n (natOfBits (bitsOf v))) hi
  rw [hbits, bitsOf_getElem? v hi] at hget
  exact (Option.some.inj hget).symm

/-! ### The unread bits -/

/-- With bits in the cache the next unread bit is one of the cache (20_memory R61). -/
theorem bitsOf_drop_cache (v : Byte) {n : Nat} (h0 : 0 < n) (h8 : n ≤ 8) :
    (bitsOf v).drop (8 - n) = v.getLsbD (n - 1) :: (bitsOf v).drop (8 - (n - 1)) := by
  have hlt : 8 - n < (bitsOf v).length := by rw [bitsOf_length]; omega
  have hnext : 8 - n + 1 = 8 - (n - 1) := by omega
  have hbit : 8 - 1 - (8 - n) = n - 1 := by omega
  rw [List.drop_eq_getElem_cons hlt, hnext]
  simp [bitsOf, BitVec.getMsbD, hbit, show 8 - n < 8 by omega]

/-- A bit that was read was the first of the unread ones. -/
theorem Dec.unreadBits_of_readBit {d d' : Dec} {b : Bool} (h : d.readBit = .ok b d') (hcnt : d.rcnt ≤ 8) :
    d.unreadBits = b :: d'.unreadBits := by
  obtain ⟨h0, v, hv, rfl, rfl⟩ | ⟨h0, rfl, rfl⟩ := Dec.readBit_eq_ok h
  · obtain ⟨hlt, hget⟩ := List.getElem?_eq_some_iff.1 hv
    have hbyte : bitsOf v = v.getLsbD 7 :: (bitsOf v).drop 1 := bitsOf_drop_cache v (n := 8) (by decide) le_rfl
    have hcache : (bitsOf d.rcache).drop 8 = [] := List.drop_eq_nil_of_le (by simp)
    simp only [Dec.unreadBits, h0, hcache, List.drop_eq_getElem_cons hlt, hget, unpackBytes, List.flatMap_cons,
      List.nil_append, ← List.cons_append, ← hbyte]
  · simp [Dec.unreadBits, bitsOf_drop_cache d.rcache h0 hcnt]

/-- The decoder has read the whole buffer, and its cache is empty. -/
structure Dec.Exhausted (d : Dec) : Prop where
  pos : d.inBuf.length ≤ d.pos
  rcnt : d.rcnt = 0

theorem Dec.Exhausted.unreadBits {d : Dec} (h : d.Exhausted) : d.unreadBits = [] := by
  simp [Dec.unreadBits, h.rcnt, List.drop_eq_nil_of_le h.pos, unpackBytes]

theorem Dec.exhausted_of_readBit {d d' : Dec} {e : ErrorCode} (h : d.readBit = .raised e d') :
    d' = d ∧ d.Exhausted := by
  obtain ⟨hcnt, hpos, -, rfl⟩ := Dec.readBit_eq_raised h
  exact ⟨rfl, hpos, hcnt⟩

theorem Dec.readBit_rcnt_le {d d' : Dec} {b : Bool} (h : d.readBit = .ok b d') (hcnt : d.rcnt ≤ 8) : d'.rcnt ≤ 8 := by
  simpa [h] using d.readBit_law.rcnt_le hcnt

/-! ### ReadBits -/

/-- What the loop of ReadBits answers, it has taken from the front of the unread bits (20_memory R63). -/
theorem Dec.unreadBits_of_readBitsFrom {n v v' : Nat} {d d' : Dec} (h : Dec.readBitsFrom n v d = .ok v' d')
    (hcnt : d.rcnt ≤ 8) :
    ∃ bits, bits.length = n ∧ d.unreadBits = bits ++ d'.unreadBits ∧
      v' = bits.foldl (fun v b => 2 * v + b.toNat) v := by
  induction n generalizing v d with
  | zero =>
    obtain ⟨rfl, rfl⟩ := by simpa [Dec.readBitsFrom] using h
    exact ⟨[], rfl, rfl, rfl⟩
  | succ n ih =>
    obtain ⟨b, d1, hb, h1⟩ := ReadResult.bind_eq_ok.1 h
    obtain ⟨bits, hlen, hbits, hv⟩ := ih h1 (Dec.readBit_rcnt_le hb hcnt)
    exact ⟨b :: bits, by simp [hlen], by rw [Dec.unreadBits_of_readBit hb hcnt, hbits]; rfl, hv⟩

/-- Where the loop of ReadBits raises, fewer bits were left, and all of them are read (20_memory R62). -/
theorem Dec.exhausted_of_readBitsFrom {n v : Nat} {d d' : Dec} {e : ErrorCode}
    (h : Dec.readBitsFrom n v d = .raised e d') (hcnt : d.rcnt ≤ 8) : d.unreadBits.length < n ∧ d'.Exhausted := by
  induction n generalizing v d with
  | zero => cases h
  | succ n ih =>
    obtain hb | ⟨b, d1, hb, h1⟩ := ReadResult.bind_eq_raised.1 h
    · obtain ⟨rfl, hend⟩ := Dec.exhausted_of_readBit hb
      exact ⟨by simp [hend.unreadBits], hend⟩
    · obtain ⟨hlt, hend⟩ := ih h1 (Dec.readBit_rcnt_le hb hcnt)
      exact ⟨by simpa [Dec.unreadBits_of_readBit hb hcnt] using hlt, hend⟩

/-- ReadBits(n) has taken the bits of the field that it answers. -/
theorem Dec.unreadBits_of_readBits {n : Nat} {v : BitVec n} {d d' : Dec} (h : d.readBits n = .ok v d')
    (hcnt : d.rcnt ≤ 8) : d.unreadBits = bitsOf v ++ d'.unreadBits := by
  obtain ⟨v', d1, h1, h2⟩ := ReadResult.bind_eq_ok.1 h
  obtain ⟨rfl, rfl⟩ := by simpa using h2
  obtain ⟨bits, rfl, hbits, rfl⟩ := Dec.unreadBits_of_readBitsFrom h1 hcnt
  rw [hbits]
  exact congrArg (· ++ d1.unreadBits) (bitsOf_ofNat_natOfBits bits).symm

theorem Dec.exhausted_of_readBits {n : Nat} {d d' : Dec} {e : ErrorCode} (h : d.readBits n = .raised e d')
    (hcnt : d.rcnt ≤ 8) : d.unreadBits.length < n ∧ d'.Exhausted := by
  obtain h1 | ⟨_, _, _, h2⟩ := ReadResult.bind_eq_raised.1 h
  · exact Dec.exhausted_of_readBitsFrom h1 hcnt
  · cases h2

/-- Settles O6: ReadBits answers or raises, and each outcome says how many bits were left. -/
theorem readBitsTakesTheNextBits : Obligations.ReadBitsTakesTheNextBits := by
  unfold Obligations.ReadBitsTakesTheNextBits
  intro n d hcnt
  have hlaw := Dec.readBits_law n d
  cases h : d.readBits n with
  | ok v d' =>
    have htaken := Dec.unreadBits_of_readBits h hcnt
    rw [h] at hlaw
    refine ⟨fun _ => ⟨v, d', rfl, hlaw.moved, ?_, fun i hi => ?_⟩, fun hlt => ?_⟩
    · rw [htaken, List.drop_left' (bitsOf_length v)]
    · rw [htaken, List.getElem?_append_left (by rwa [bitsOf_length]), bitsOf_getElem? v hi]
    · rw [htaken, List.length_append, bitsOf_length] at hlt
      omega
  | raised e d' =>
    obtain ⟨hlt, -⟩ := Dec.exhausted_of_readBits h hcnt
    rw [h] at hlaw
    exact ⟨fun hle => absurd hlt (Nat.not_lt.2 hle), fun _ => ⟨d', by rw [hlaw.raised_underrun e d' rfl]⟩⟩

/-! ### Code words -/

/-- With no escape active a code word is the code's six bits (30_encoding R102). -/
theorem parseCodeWord_bitsOf (c : Code) (rest : List Bool) : parseCodeWord [] (bitsOf c ++ rest) = .ok (c, rest) := by
  have hword := ofNat_natOfBits_bitsOf c
  have hlen := bitsOf_length c
  match bitsOf c, hlen, hword with
  | [_, _, _, _, _, _], _, hword => simp only [List.cons_append, List.nil_append, parseCodeWord, hword]

theorem parseCodeWord_short {bits : List Bool} (h : bits.length < 6) : parseCodeWord [] bits = .error .bitsRunOut := by
  match bits, h with
  | [], _ | [_], _ | [_, _], _ | [_, _, _], _ | [_, _, _, _], _ | [_, _, _, _, _], _ => rfl

/-- A code word that the reader takes is the one that the parse of the unread bits takes (30_encoding R104). -/
theorem Dec.parseCodeWord_of_readCodeWord {es : List Code} {d d' : Dec} {c : Code}
    (h : Dec.readCodeWord es d = .ok c d') (hcnt : d.rcnt ≤ 8) :
    parseCodeWord es d.unreadBits = .ok (c, d'.unreadBits) := by
  induction es generalizing d with
  | nil => rw [Dec.unreadBits_of_readBits h hcnt, parseCodeWord_bitsOf]
  | cons e es ih =>
    obtain ⟨b, d1, hb, h1⟩ := ReadResult.bind_eq_ok.1 h
    rw [Dec.unreadBits_of_readBit hb hcnt]
    cases b with
    | true =>
      obtain ⟨rfl, rfl⟩ := by simpa using h1
      rfl
    | false => exact ih (by simpa using h1) (Dec.readBit_rcnt_le hb hcnt)

/-- Where the reader raises, the bits run out in the code word, and all of them are read (20_memory R62). -/
theorem Dec.exhausted_of_readCodeWord {es : List Code} {d d' : Dec} {e : ErrorCode}
    (h : Dec.readCodeWord es d = .raised e d') (hcnt : d.rcnt ≤ 8) :
    parseCodeWord es d.unreadBits = .error .bitsRunOut ∧ d'.Exhausted := by
  induction es generalizing d with
  | nil =>
    obtain ⟨hlt, hend⟩ := Dec.exhausted_of_readBits h hcnt
    exact ⟨parseCodeWord_short hlt, hend⟩
  | cons c es ih =>
    obtain hb | ⟨b, d1, hb, h1⟩ := ReadResult.bind_eq_raised.1 h
    · obtain ⟨rfl, hend⟩ := Dec.exhausted_of_readBit hb
      exact ⟨by rw [hend.unreadBits]; rfl, hend⟩
    · rw [Dec.unreadBits_of_readBit hb hcnt]
      cases b with
      | true => simp at h1
      | false => exact ih (by simpa using h1) (Dec.readBit_rcnt_le hb hcnt)

/-- ReadCode takes the code word that the unread bits begin with, and counts its code (40_code_model R142). -/
theorem Dec.readCode_of_parse {d : Dec} {c : Code} {rest : List Bool} (hcnt : d.rcnt ≤ 8)
    (h : parseCodeWord d.stream.curModel.escapes d.unreadBits = .ok (c, rest)) :
    ∃ d', (d.movedTo d').unreadBits = rest ∧
      d.readCode = .ok c { d.movedTo d' with stream := d.stream.countCode c } := by
  cases hr : d.readCode with
  | ok c' d' =>
    obtain ⟨d1, hword, rfl⟩ := Dec.readCode_eq_ok hr
    have hmoved : d1 = d.movedTo d1 := by
      simpa [hword] using (Dec.readCodeWord_law d.stream.curModel.escapes d).moved
    rw [Dec.parseCodeWord_of_readCodeWord hword hcnt] at h
    obtain ⟨rfl, rfl⟩ := by simpa using h
    exact ⟨d1, by rw [← hmoved], rfl⟩
  | raised e d' =>
    obtain hword | ⟨_, _, _, hok⟩ := ReadResult.bind_eq_raised.1 hr
    · rw [(Dec.exhausted_of_readCodeWord hword hcnt).1] at h
      cases h
    · cases hok

/-- ReadCode raises BufferUnderrun at the end of the buffer when the code word is cut off (20_memory R62). -/
theorem Dec.readCode_of_parse_error {d : Dec} {e : WordError} (hcnt : d.rcnt ≤ 8)
    (h : parseCodeWord d.stream.curModel.escapes d.unreadBits = .error e) :
    ∃ d', d.readCode = .raised .bufferUnderrun d' ∧ d' = d.movedTo d' ∧ d'.Exhausted ∧
      (d.pos ≤ d.inBuf.length → d'.pos ≤ d.inBuf.length) := by
  have hlaw := Dec.readCodeWord_law d.stream.curModel.escapes d
  cases hword : Dec.readCodeWord d.stream.curModel.escapes d with
  | ok c d' =>
    rw [Dec.parseCodeWord_of_readCodeWord hword hcnt] at h
    cases h
  | raised e' d' =>
    rw [hword] at hlaw
    obtain rfl := hlaw.raised_underrun e' d' rfl
    exact ⟨d', by rw [Dec.readCode, hword]; rfl, hlaw.moved, (Dec.exhausted_of_readCodeWord hword hcnt).2,
      hlaw.pos_le⟩

/-- Settles O44: the fetch raises BufferUnderrun, and the record is taken where the buffer ends. -/
theorem truncatedCodeWordUnderruns : Obligations.TruncatedCodeWordUnderruns := by
  unfold Obligations.TruncatedCodeWordUnderruns
  rintro s g hg hcnt hpos ⟨e, he⟩
  obtain ⟨d', hread, hmoved, hend, hle⟩ := Dec.readCode_of_parse_error hcnt he
  have hbuf : d'.inBuf = s.dec.inBuf := by rw [hmoved]; rfl
  have hpos' : d'.pos = s.dec.inBuf.length := Nat.le_antisymm (hle hpos) (hbuf ▸ hend.pos)
  rw [step_of_readCode_raised hg hread, ← hpos']
  simp only [State.takeDecError, Dec.faultRecord, hend.rcnt]
  rfl

/-- Settles O47: a step fetches what the parse of the unread bits gives (`Dec.readCode_of_parse`), under the width of
the point at the cursor, which counting the code leaves. -/
theorem stepRunsTheDecodedInstruction : Obligations.StepRunsTheDecodedInstruction := by
  unfold Obligations.StepRunsTheDecodedInstruction
  refine ⟨fun s g c rest hg hcnt hparse => ?_, fun s r rest hg hp => step_of_pending hg hp, fun s hg hp => ?_⟩
  · obtain ⟨d', hrest, hread⟩ := Dec.readCode_of_parse hcnt hparse
    refine ⟨d', hrest, ?_⟩
    rw [step_of_readCode hg hread, Stream.countCode_targetWidth]
    rfl
  · simp [step, hg, hp]

end Sys2Proof.Machine
end

section
/-!
PROOFS. Raw bytes and the payloads made of them (20_memory R64, R67, R68, R74, R75; 46_control_codes R300, R304): each
read is said by the bytes that stand at the read cursor, `d.inBuf.drop d.pos`.
-/

namespace Sys2Proof.Machine

/-! ### ReadByte -/

theorem Dec.readByte_eq (d : Dec) :
    d.readByte =
      (match d.inBuf[d.pos]? with
       | some b => .ok b { d with pos := d.pos + 1 }
       | none => .raised .bufferUnderrun d) := by
  unfold Dec.readByte memRead
  cases d.inBuf[d.pos]? <;> rfl

/-- With a byte at the cursor ReadByte takes it, and the bytes behind it are at the cursor after it. -/
theorem Dec.readByte_of_drop {d : Dec} {b : Byte} {rest : List Byte} (h : d.inBuf.drop d.pos = b :: rest) :
    d.readByte = .ok b { d with pos := d.pos + 1 } ∧ d.inBuf.drop (d.pos + 1) = rest := by
  have hget : d.inBuf[d.pos]? = some b := by rw [← List.head?_drop, h]; rfl
  exact ⟨by rw [Dec.readByte_eq, hget], by rw [← List.tail_drop, h]; rfl⟩

theorem Dec.readByte_of_end {d : Dec} (h : d.inBuf.length ≤ d.pos) : d.readByte = .raised .bufferUnderrun d := by
  rw [Dec.readByte_eq, List.getElem?_eq_none h]

/-- At the cursor stand some bytes, or the end of the buffer. -/
theorem Dec.drop_pos_cases (d : Dec) :
    (∃ b rest, d.inBuf.drop d.pos = b :: rest ∧ d.pos < d.inBuf.length) ∨ d.inBuf.length ≤ d.pos := by
  rcases Nat.lt_or_ge d.pos d.inBuf.length with h | h
  · exact .inl ⟨_, _, List.drop_eq_getElem_cons h, h⟩
  · exact .inr h

/-! ### Counted fields -/

/-- A counted field has its bytes in buffer order (46_control_codes R300, R304). -/
theorem Dec.readBytes_of_drop {d : Dec} {bs rest : List Byte} (h : d.inBuf.drop d.pos = bs ++ rest) :
    Dec.readBytes bs.length d = .ok bs { d with pos := d.pos + bs.length } := by
  induction bs generalizing d with
  | nil => rfl
  | cons b bs ih =>
    obtain ⟨hb, hrest⟩ := Dec.readByte_of_drop h
    rw [List.length_cons, Dec.readBytes, hb, ReadResult.bind_ok, ih (d := { d with pos := d.pos + 1 }) hrest]
    simp [Nat.add_assoc, Nat.add_comm 1]

/-- With fewer bytes left the field underruns at the end of the buffer (20_memory R62). -/
theorem Dec.readBytes_underrun {n : Nat} {d : Dec} (hpos : d.pos ≤ d.inBuf.length) (h : d.inBuf.length < d.pos + n) :
    Dec.readBytes n d = .raised .bufferUnderrun { d with pos := d.inBuf.length } := by
  induction n generalizing d with
  | zero => omega
  | succ n ih =>
    obtain ⟨b, rest, hb, hlt⟩ | hend := d.drop_pos_cases
    · rw [Dec.readBytes, (Dec.readByte_of_drop hb).1, ReadResult.bind_ok,
        ih (d := { d with pos := d.pos + 1 }) (by exact hlt) (by simp only; omega)]
      rfl
    · have heq : d.inBuf.length = d.pos := Nat.le_antisymm hend hpos
      rw [Dec.readBytes, Dec.readByte_of_end hend, heq]
      rfl

/-- Settles O60: a field of `n` bytes is read from the `n` bytes at the cursor when they are there, and otherwise
underruns. -/
theorem rawBytesAreTakenInOrder : Obligations.RawBytesAreTakenInOrder := by
  unfold Obligations.RawBytesAreTakenInOrder
  refine fun d => ⟨d.readByte_eq.trans (by cases d.inBuf[d.pos]? <;> rfl), fun n hpos => ?_⟩
  split
  · rename_i hle
    have hlen : ((d.inBuf.drop d.pos).take n).length = n := by simp; omega
    have hread := Dec.readBytes_of_drop (List.take_append_drop n (d.inBuf.drop d.pos)).symm
    rwa [hlen] at hread
  · rename_i hlt
    exact Dec.readBytes_underrun hpos (Nat.lt_of_not_le hlt)

/-! ### XOR payloads -/

/-- `x` with the bytes laid over it from bit `k` up, the first byte lowest (20_memory R68). -/
def layBytes {w : Nat} : List Byte → Nat → BitVec w → BitVec w
  | [], _, x => x
  | b :: bs, k, x => layBytes bs (k + 8) (x ||| (b.setWidth w <<< k))

/-- Below bit `k` the bits are those of `x`. -/
theorem layBytes_getLsbD_low {w : Nat} (bs : List Byte) {j k : Nat} (x : BitVec w) (h : j < k) :
    (layBytes bs k x).getLsbD j = x.getLsbD j := by
  induction bs generalizing k x with
  | nil => rfl
  | cons b bs ih => rw [layBytes, ih _ (by omega)]; simp [h]

/-- Over a value that has no bits from `k` up, byte `i` stands at bit `k + 8 * i`. -/
theorem layBytes_getLsbD {w : Nat} {bs : List Byte} {i j k : Nat} {x : BitVec w} (hx : ∀ j, k ≤ j → x.getLsbD j = false)
    (hi : i < bs.length) (hw : k + 8 * bs.length ≤ w) (hj : j < 8) :
    (layBytes bs k x).getLsbD (k + (8 * i + j)) = bs[i].getLsbD j := by
  induction bs generalizing i k x with
  | nil => cases hi
  | cons b bs ih =>
    rw [List.length_cons] at hi hw
    rw [layBytes]
    cases i with
    | zero =>
      rw [layBytes_getLsbD_low _ _ (by omega), BitVec.getLsbD_or, hx _ (by omega)]
      simp [show k + j < w by omega]
    | succ i =>
      have habove : ∀ j, k + 8 ≤ j → (x ||| (b.setWidth w <<< k)).getLsbD j = false := fun j hj => by
        rw [BitVec.getLsbD_or, hx j (by omega), BitVec.getLsbD_shiftLeft, BitVec.getLsbD_setWidth,
          BitVec.getLsbD_of_ge b (j - k) (by omega)]
        simp
      rw [show k + (8 * (i + 1) + j) = k + 8 + (8 * i + j) by omega, ih habove (by omega) (by omega)]
      rfl

theorem layBytes_extract_low {w k : Nat} (bs : List Byte) (v : BitVec k) (hk : k ≤ w) :
    (layBytes bs k (v.setWidth w)).extractLsb' 0 k = v := by
  refine BitVec.eq_of_getLsbD_eq fun j hj => ?_
  rw [BitVec.getLsbD_extractLsb', Nat.zero_add, layBytes_getLsbD_low bs _ hj, BitVec.getLsbD_setWidth]
  simp [hj, show j < w by omega]

theorem layBytes_extract_byte {w k i : Nat} {bs : List Byte} (v : BitVec k) (hi : i < bs.length)
    (hw : k + 8 * bs.length ≤ w) : (layBytes bs k (v.setWidth w)).extractLsb' (k + 8 * i) 8 = bs[i] := by
  have habove : ∀ j, k ≤ j → (v.setWidth w).getLsbD j = false := fun j hj => by
    rw [BitVec.getLsbD_setWidth, BitVec.getLsbD_of_ge v j hj, Bool.and_false]
  refine BitVec.eq_of_getLsbD_eq fun j hj => ?_
  rw [BitVec.getLsbD_extractLsb', Nat.add_assoc, layBytes_getLsbD habove hi hw hj]
  simp [hj]

/-- The byte loop of ReadXor lays the bytes at the cursor over the value (20_memory R68). -/
theorem Dec.readXorBytes_of_drop {w : Nat} {d : Dec} {bs rest : List Byte} (k : Nat) (x : BitVec w)
    (h : d.inBuf.drop d.pos = bs ++ rest) :
    Dec.readXorBytes bs.length k x d = .ok (layBytes bs k x) { d with pos := d.pos + bs.length } := by
  induction bs generalizing d k x with
  | nil => rfl
  | cons b bs ih =>
    obtain ⟨hb, hrest⟩ := Dec.readByte_of_drop h
    rw [List.length_cons, Dec.readXorBytes, hb, ReadResult.bind_ok, ih (d := { d with pos := d.pos + 1 }) _ _ hrest,
      layBytes]
    simp [Nat.add_assoc, Nat.add_comm 1]

theorem Dec.readXorBytes_underrun {w nb : Nat} {d : Dec} (k : Nat) (x : BitVec w) (hpos : d.pos ≤ d.inBuf.length)
    (h : d.inBuf.length < d.pos + nb) : ∃ d', Dec.readXorBytes nb k x d = .raised .bufferUnderrun d' := by
  induction nb generalizing d k x with
  | zero => omega
  | succ nb ih =>
    rw [Dec.readXorBytes]
    obtain ⟨b, rest, hb, hlt⟩ | hend := d.drop_pos_cases
    · rw [(Dec.readByte_of_drop hb).1]
      exact ih (d := { d with pos := d.pos + 1 }) _ _ (by exact hlt) (by simp only; omega)
    · exact ⟨d, by rw [Dec.readByte_of_end hend]; rfl⟩

/-- What the byte loop of ReadXor reads above the `k` bits of `v`: byte `i` of the buffer at bit `k + 8 * i`. -/
theorem Dec.readXorBytes_spec {w k nb : Nat} {d : Dec} (v : BitVec k) (hw : k + 8 * nb = w)
    (h : d.pos + nb ≤ d.inBuf.length) :
    ∃ x : BitVec w, Dec.readXorBytes nb k (v.setWidth w) d = .ok x { d with pos := d.pos + nb } ∧
      x.extractLsb' 0 k = v ∧ ∀ i, i < nb → d.inBuf[d.pos + i]? = some (x.extractLsb' (k + 8 * i) 8) := by
  obtain ⟨bs, hbs⟩ : ∃ bs, (d.inBuf.drop d.pos).take nb = bs := ⟨_, rfl⟩
  have hlen : bs.length = nb := by simp [← hbs]; omega
  subst hlen
  have hdrop : d.inBuf.drop d.pos = bs ++ (d.inBuf.drop d.pos).drop bs.length := by
    conv_lhs => rw [← List.take_append_drop bs.length (d.inBuf.drop d.pos), hbs]
  refine ⟨_, Dec.readXorBytes_of_drop k _ hdrop, layBytes_extract_low bs v (by omega), fun i hi => ?_⟩
  rw [layBytes_extract_byte v hi hw.le, ← List.getElem?_drop, hdrop, List.getElem?_append_left hi,
    List.getElem?_eq_getElem hi]

/-- A value of no bits, widened, is 0: ReadXor of whole bytes starts there. -/
theorem setWidth_of_no_bits {w : Nat} (v : BitVec 0) : v.setWidth w = (0 : BitVec w) := by simp [BitVec.eq_nil v]

/-- Settles O7: both forms of ReadXor are the byte loop, above no bits or above the nibble. -/
theorem xorPayloadIsNibbleThenBytes : Obligations.XorPayloadIsNibbleThenBytes := by
  unfold Obligations.XorPayloadIsNibbleThenBytes
  intro w hw d hpos
  have hw4 : 4 ≤ w := (by decide : ∀ w ∈ [4, 8, 12, 16, 20, 24, 28, 32, 40, 48, 56, 64], 4 ≤ w) w hw
  refine ⟨fun h0 => ?_, fun h4 => ?_⟩
  · have hread : d.readXor w = Dec.readXorBytes (w / 8) 0 ((0#0).setWidth w) d := by
      rw [Dec.readXor, if_neg (by omega), setWidth_of_no_bits]
    rw [hread]
    split
    · rename_i hle
      obtain ⟨x, hx, -, hbytes⟩ := Dec.readXorBytes_spec 0#0 (by omega : 0 + 8 * (w / 8) = w) hle
      exact ⟨x, hx, fun i hi => by rw [hbytes i hi, Nat.zero_add]⟩
    · rename_i hlt
      exact Dec.readXorBytes_underrun 0 _ hpos (Nat.lt_of_not_le hlt)
  · have hread : d.readXor w = (d.readBits 4).bind fun nibble d =>
        Dec.readXorBytes ((w - 4) / 8) 4 (nibble.setWidth w) d := by rw [Dec.readXor, if_pos h4]
    have hlaw := Dec.readBits_law 4 d
    rw [hread]
    cases hnibble : d.readBits 4 with
    | raised e d1 =>
      rw [hnibble] at hlaw
      exact ⟨d1, by rw [hlaw.raised_underrun e d1 rfl]; rfl⟩
    | ok nibble d1 =>
      rw [hnibble] at hlaw
      simp only [ReadResult.bind_ok]
      split
      · rename_i hle
        exact Dec.readXorBytes_spec nibble (by omega : 4 + 8 * ((w - 4) / 8) = w) hle
      · rename_i hlt
        have hpos1 : d1.pos ≤ d1.inBuf.length := hlaw.inBuf ▸ hlaw.pos_le hpos
        exact Dec.readXorBytes_underrun 4 _ hpos1 (Nat.lt_of_not_le hlt)

/-! ### Varints -/

/-- A 7-bit group with another behind it, as a byte (20_memory R67). -/
abbrev moreGroup (g : BitVec 7) : Byte := 0x80#8 ||| g.setWidth 8

/-- The number of 7-bit groups, the first the least significant (20_memory R67). -/
abbrev groupsNumber (groups : List (BitVec 7)) : Nat :=
  groups.foldr (fun g v => g.toNat + 128 * v) 0

theorem groupsNumber_cons (g : BitVec 7) (groups : List (BitVec 7)) :
    groupsNumber (g :: groups) = g.toNat + 128 * groupsNumber groups := rfl

theorem moreGroup_continues (g : BitVec 7) : (moreGroup g).getLsbD 7 = true := by
  revert g; decide

theorem moreGroup_group (g : BitVec 7) : (moreGroup g).setWidth 7 = g := by
  revert g; decide

theorem lastGroup_ends (g : BitVec 7) : (g.setWidth 8).getLsbD 7 = false := by
  revert g; decide

theorem lastGroup_group (g : BitVec 7) : (g.setWidth 8).setWidth 7 = g := by
  revert g; decide

/-- One group more is a factor of 128 more. -/
theorem pow_succ_group (k : Nat) : 2 ^ (7 * (k + 1)) = 128 * 2 ^ (7 * k) := by
  rw [Nat.mul_add, Nat.pow_add]; omega

/-- The loop of ReadVarint adds the groups at the cursor, each at its place (20_memory R67). -/
theorem Dec.readVarintFrom_of_drop {fuel k v : Nat} {d : Dec} {groups : List (BitVec 7)} {last : BitVec 7}
    {rest : List Byte} (h : d.inBuf.drop d.pos = groups.map moreGroup ++ last.setWidth 8 :: rest)
    (hfuel : groups.length < fuel) :
    Dec.readVarintFrom fuel k v d =
      .ok (v + 2 ^ (7 * k) * groupsNumber (groups ++ [last])) { d with pos := d.pos + groups.length + 1 } := by
  induction groups generalizing fuel k v d with
  | nil =>
    obtain ⟨fuel, rfl⟩ := Nat.exists_eq_add_of_lt hfuel
    obtain ⟨hb, -⟩ := Dec.readByte_of_drop h
    rw [Dec.readVarintFrom, hb]
    simp only [ReadResult.bind_ok, lastGroup_ends, lastGroup_group]
    simp [groupsNumber, Nat.mul_comm]
  | cons g groups ih =>
    obtain ⟨fuel, rfl⟩ := Nat.exists_eq_add_of_lt hfuel
    obtain ⟨hb, hrest⟩ := Dec.readByte_of_drop h
    rw [Dec.readVarintFrom, hb]
    simp only [ReadResult.bind_ok, moreGroup_continues, moreGroup_group, if_true]
    rw [ih (d := { d with pos := d.pos + 1 }) hrest (by simp only [List.length_cons]; omega), pow_succ_group]
    simp only [List.cons_append, groupsNumber_cons, List.length_cons, ReadResult.ok.injEq]
    exact ⟨by ring, by simp [Nat.add_assoc, Nat.add_comm 1]⟩

/-- Where the buffer ends before the varint does the loop underruns (20_memory R67). -/
theorem Dec.readVarintFrom_underrun {fuel k v : Nat} {d : Dec} {groups : List (BitVec 7)}
    (h : d.inBuf.drop d.pos = groups.map moreGroup) :
    ∃ d', Dec.readVarintFrom fuel k v d = .raised .bufferUnderrun d' := by
  induction groups generalizing fuel k v d with
  | nil =>
    cases fuel with
    | zero => exact ⟨d, rfl⟩
    | succ fuel =>
      exact ⟨d, by rw [Dec.readVarintFrom, Dec.readByte_of_end (List.drop_eq_nil_iff.1 h)]; rfl⟩
  | cons g groups ih =>
    cases fuel with
    | zero => exact ⟨d, rfl⟩
    | succ fuel =>
      obtain ⟨hb, hrest⟩ := Dec.readByte_of_drop h
      rw [Dec.readVarintFrom, hb]
      simp only [ReadResult.bind_ok, moreGroup_continues, if_true]
      exact ih (d := { d with pos := d.pos + 1 }) hrest

/-- ReadVarint(N) takes every group at the cursor and reduces the number modulo 2^N (20_memory R67). -/
theorem Dec.readVarint_of_drop {d : Dec} {groups : List (BitVec 7)} {last : BitVec 7} {rest : List Byte} (n : Nat)
    (h : d.inBuf.drop d.pos = groups.map moreGroup ++ last.setWidth 8 :: rest) :
    d.readVarint n =
      .ok (BitVec.ofNat n (groupsNumber (groups ++ [last]))) { d with pos := d.pos + groups.length + 1 } := by
  have hlen := congrArg List.length h
  simp only [List.length_drop, List.length_append, List.length_map, List.length_cons] at hlen
  rw [Dec.readVarint, Dec.readVarintFrom_of_drop h (by omega)]
  simp

theorem Dec.readVarint_underrun {d : Dec} {groups : List (BitVec 7)} (n : Nat)
    (h : d.inBuf.drop d.pos = groups.map moreGroup) : ∃ d', d.readVarint n = .raised .bufferUnderrun d' := by
  obtain ⟨d', hd'⟩ := Dec.readVarintFrom_underrun (fuel := d.inBuf.length - d.pos + 1) (k := 0) (v := 0) h
  exact ⟨d', by rw [Dec.readVarint, hd']; rfl⟩

theorem moreGroup_ofNat (v : Nat) : moreGroup (BitVec.ofNat 7 v) = BitVec.ofNat 8 (0x80 + v % 128) := by
  have h : ∀ g : BitVec 7, moreGroup g = BitVec.ofNat 8 (0x80 + g.toNat) := by decide
  rw [h, BitVec.toNat_ofNat]

theorem varintGroups_of_lt {v : Nat} (fuel : Nat) (h : v < 128) :
    varintGroups (fuel + 1) v = [(BitVec.ofNat 7 v).setWidth 8] := by
  have hlast : BitVec.ofNat 8 (v % 128) = (BitVec.ofNat 7 v).setWidth 8 := by
    apply BitVec.eq_of_toNat_eq
    simp
  rw [varintGroups, if_neg (by omega), hlast]

theorem varintGroups_of_ge {v : Nat} (fuel : Nat) (h : 128 ≤ v) :
    varintGroups (fuel + 1) v = moreGroup (BitVec.ofNat 7 v) :: varintGroups fuel (v / 128) := by
  rw [varintGroups, if_pos (by omega), moreGroup_ofNat]

/-- The groups that are written are the shortest form of the number (20_memory R74). -/
theorem varintGroups_spec {fuel v : Nat} (h : v < 128 ^ (fuel + 1)) :
    ∃ (groups : List (BitVec 7)) (last : BitVec 7),
      varintGroups (fuel + 1) v = groups.map moreGroup ++ [last.setWidth 8] ∧ groupsNumber (groups ++ [last]) = v ∧
        128 ^ groups.length ≤ max v 1 ∧ v < 128 ^ (groups.length + 1) := by
  induction fuel generalizing v with
  | zero =>
    have hv : v < 128 := by simpa using h
    exact ⟨[], BitVec.ofNat 7 v, varintGroups_of_lt 0 hv, by simp [groupsNumber]; omega, by simp, hv⟩
  | succ fuel ih =>
    rcases Nat.lt_or_ge v 128 with hv | hv
    · exact ⟨[], BitVec.ofNat 7 v, varintGroups_of_lt _ hv, by simp [groupsNumber]; omega, by simp, by simpa using hv⟩
    · obtain ⟨groups, last, hgroups, hnumber, hle, hlt⟩ := ih (v := v / 128) (by rw [Nat.pow_succ] at h; omega)
      refine ⟨BitVec.ofNat 7 v :: groups, last, ?_, ?_, ?_, ?_⟩
      · rw [varintGroups_of_ge _ hv, hgroups]
        rfl
      · rw [List.cons_append, groupsNumber_cons, hnumber, BitVec.toNat_ofNat]
        omega
      · rw [List.length_cons, Nat.pow_succ]
        omega
      · rw [List.length_cons, Nat.pow_succ]
        omega

/-- What is written for a number of at most 64 bits is one varint, and the shortest (20_memory R74). -/
theorem varintBytes_spec {n : Nat} (hn : n ≤ 64) (v : BitVec n) :
    ∃ (groups : List (BitVec 7)) (last : BitVec 7),
      varintBytes v = groups.map moreGroup ++ [last.setWidth 8] ∧ groupsNumber (groups ++ [last]) = v.toNat ∧
        128 ^ groups.length ≤ max v.toNat 1 ∧ v.toNat < 128 ^ (groups.length + 1) := by
  have h64 : 2 ^ n ≤ 2 ^ 64 := Nat.pow_le_pow_right (by decide) hn
  exact varintGroups_spec (fuel := 9) (by have := v.isLt; omega)

/-- ReadVarint(N) of the bytes of WriteVarint(v) returns v (20_memory R74). -/
theorem Dec.readVarint_varintBytes {n : Nat} (hn : n ≤ 64) (v : BitVec n) {d : Dec} {rest : List Byte}
    (h : d.inBuf.drop d.pos = varintBytes v ++ rest) :
    d.readVarint n = .ok v { d with pos := d.pos + (varintBytes v).length } := by
  obtain ⟨groups, last, hbytes, hnumber, -, -⟩ := varintBytes_spec hn v
  rw [hbytes, List.append_assoc] at h
  rw [Dec.readVarint_of_drop n h, hnumber, hbytes]
  simp [Nat.add_assoc]

/-- How long a varint can be: `128 ^ (length - 1)` does not pass its number. -/
theorem varintBytes_length_le {n k : Nat} (hn0 : 0 < n) (hn : n ≤ 64) (hk : 2 ^ n ≤ 128 ^ k) (v : BitVec n) :
    (varintBytes v).length ≤ k := by
  obtain ⟨groups, last, hbytes, -, hle, -⟩ := varintBytes_spec hn v
  have hlt : 128 ^ groups.length < 128 ^ k := by
    have hone := Nat.one_lt_two_pow hn0.ne'
    have := v.isLt
    omega
  rw [Nat.pow_lt_pow_iff_right (by decide)] at hlt
  simpa [hbytes] using hlt

/-- Settles O8: a varint is its groups (`Dec.readVarint_of_drop`), and the groups written are the shortest form
(`varintBytes_spec`). -/
theorem varintsReadBackAndMayBeLonger : Obligations.VarintsReadBackAndMayBeLonger := by
  unfold Obligations.VarintsReadBackAndMayBeLonger
  refine ⟨fun n d groups last rest => ⟨Dec.readVarint_of_drop n, Dec.readVarint_underrun n⟩, fun n hn v e => ?_⟩
  obtain ⟨hn0, hn64⟩ : 0 < n ∧ n ≤ 64 := (by decide : ∀ n ∈ [32, 64], 0 < n ∧ n ≤ 64) n hn
  have hlimit : 2 ^ n ≤ 128 ^ (if n = 32 then 5 else 10) :=
    (by decide : ∀ n ∈ [32, 64], 2 ^ n ≤ 128 ^ (if n = 32 then 5 else 10)) n hn
  obtain ⟨groups, last, hbytes, -, hle, hlt⟩ := varintBytes_spec hn64 v
  have hlen : (varintBytes v).length = groups.length + 1 := by simp [hbytes]
  refine ⟨varintBytes v, e.writeBytes_eq _, ?_, fun hv => ?_, by omega, varintBytes_length_le hn0 hn64 hlimit v,
    fun d rest => Dec.readVarint_varintBytes hn64 v⟩
  · rintro rfl
    simp [varintBytes, varintGroups]
  · have hpos : v.toNat ≠ 0 := fun h0 => hv (BitVec.eq_of_toNat_eq (by simpa using h0))
    rw [hlen, Nat.add_sub_cancel]
    exact ⟨by omega, hlt⟩

end Sys2Proof.Machine
end

section
/-!
PROOFS. The encoder's writes (20_memory R60, R69 to R75), each said once: what a request writes is a sequence of bits,
raw bytes, paddings and changes of the stream state (`Enc.Writes`), and what each of these keeps of the output and of
the pending group a whole request keeps.
-/

namespace Sys2Proof.Machine

/-! ### Sequences of writes -/

/-- One write of the encoder, or one change of its stream state. -/
inductive Enc.Write (e : Enc) : Enc → Prop
  | bit (b : Bool) : e.Write (e.writeBit b)
  | byte (b : Byte) : e.Write (e.writeByte b)
  | pad : e.Write e.padBits
  | stream (st : Stream) : e.Write { e with stream := st }

/-- An encoder that some writes lead to. -/
abbrev Enc.Writes : Enc → Enc → Prop :=
  Relation.ReflTransGen Enc.Write

/-- What every write keeps, every sequence of writes keeps. -/
theorem Enc.Writes.induct {P : Enc → Prop} (hwrite : ∀ a b : Enc, P a → a.Write b → P b) {a b : Enc} (h : a.Writes b)
    (ha : P a) : P b := by
  induction h with
  | refl => exact ha
  | tail _ hbc ih => exact hwrite _ _ ih hbc

theorem Enc.writes_stream (e : Enc) (st : Stream) : e.Writes { e with stream := st } := .single (.stream st)

theorem Enc.writes_bits (e : Enc) (bits : List Bool) : e.Writes (e.writeBitString bits) := by
  induction bits generalizing e with
  | nil => exact .refl
  | cons b bits ih => exact .head (.bit b) (ih _)

theorem Enc.writes_bytes (e : Enc) (bs : List Byte) : e.Writes (e.writeBytes bs) := by
  induction bs generalizing e with
  | nil => exact .refl
  | cons b bs ih => exact .head (.byte b) (ih (e.writeByte b))

theorem Enc.writes_varint {n : Nat} (e : Enc) (v : BitVec n) : e.Writes (e.writeVarint v) := e.writes_bytes _

theorem Enc.writes_xor {w : Nat} (e : Enc) (x : BitVec w) : e.Writes (e.writeXor x) := by
  obtain ⟨bits, bytes, h⟩ := Enc.writeXor_cases x e
  exact h ▸ (e.writes_bits bits).trans (Enc.writes_bytes _ bytes)

theorem Enc.writes_code (e : Enc) (c : Code) : e.Writes (e.writeCode c) :=
  (e.writes_bits _).trans (Enc.writes_stream _ _)

/-! ### What a write keeps of the output -/

/-- What writes from `e` to `e'` keep: every byte but the one reserved for the pending group, and of that one the bits
written so far (20_memory R60, R69, R70). -/
structure Enc.Grows (e e' : Enc) : Prop where
  ranges : e'.Ranges
  length_le : e.out.length ≤ e'.out.length
  kept : ∀ a, a < e.out.length → (e.wcnt = 0 ∨ a ≠ e.wslot) → e'.out[a]? = e.out[a]?
  slot : 0 < e'.wcnt → e.out.length ≤ e'.wslot ∨ (0 < e.wcnt ∧ e'.wslot = e.wslot)
  group : ∀ f, e'.Extends f → 0 < e.wcnt →
    ∃ b, f[e.wslot]? = some b ∧ ∀ j, j < e.wcnt → b.getLsbD (7 - j) = e.wcache.getLsbD (7 - j)

/-- A byte that was not reserved before the writes is not reserved after them. -/
theorem Enc.Grows.not_reserved {e e' : Enc} (h : e.Grows e') {a : Nat} (ha : a < e.out.length)
    (hfree : e.wcnt = 0 ∨ a ≠ e.wslot) : e'.wcnt = 0 ∨ a ≠ e'.wslot := by
  rcases Nat.eq_zero_or_pos e'.wcnt with h0 | hpos
  · exact .inl h0
  · rcases h.slot hpos with hnew | ⟨hold, hsame⟩
    · exact .inr (by omega)
    · exact .inr (hsame ▸ hfree.resolve_left (by omega))

/-- What may become the output after more writes may become it now. -/
theorem Enc.Grows.of_extends {e e' : Enc} (h : e.Grows e') {f : List Byte} (hf : e'.Extends f) : e.Extends f := by
  have ⟨hlen, hbytes, _⟩ := hf
  refine ⟨h.length_le.trans hlen, fun a ha hfree => ?_, h.group f hf⟩
  exact (hbytes a (Nat.lt_of_lt_of_le ha h.length_le) (h.not_reserved ha hfree)).trans (h.kept a ha hfree)

theorem Enc.Grows.refl {e : Enc} (h : e.Ranges) : e.Grows e :=
  ⟨h, le_rfl, fun _ _ _ => rfl, fun hpos => .inr ⟨hpos, rfl⟩, fun _ ⟨_, _, hgroup⟩ => hgroup⟩

theorem Enc.Grows.trans {e e' e'' : Enc} (h : e.Grows e') (h' : e'.Grows e'') : e.Grows e'' where
  ranges := h'.ranges
  length_le := h.length_le.trans h'.length_le
  kept a ha hfree :=
    (h'.kept a (Nat.lt_of_lt_of_le ha h.length_le) (h.not_reserved ha hfree)).trans (h.kept a ha hfree)
  slot hpos := by
    rcases h'.slot hpos with hnew | ⟨hpos', hsame⟩
    · exact .inl (h.length_le.trans hnew)
    · exact hsame ▸ h.slot hpos'
  group f hf := h.group f (h'.of_extends hf)

/-- A write that appends to the output and leaves the pending group, if there is one. -/
theorem Enc.Grows.append {e e' : Enc} {bs : List Byte} (hr : e'.Ranges) (hout : e'.out = e.out ++ bs)
    (hslot : 0 < e'.wcnt → e.out.length ≤ e'.wslot ∨ (0 < e.wcnt ∧ e'.wslot = e.wslot))
    (hgroup : 0 < e.wcnt → e'.wslot = e.wslot ∧ e.wcnt ≤ e'.wcnt ∧
      ∀ j, j < e.wcnt → e'.wcache.getLsbD (7 - j) = e.wcache.getLsbD (7 - j)) : e.Grows e' where
  ranges := hr
  length_le := by simp [hout]
  kept a ha _ := by rw [hout, List.getElem?_append_left ha]
  slot := hslot
  group f hf hpos := by
    obtain ⟨-, -, hpending⟩ := hf
    obtain ⟨hsame, hcnt, hbits⟩ := hgroup hpos
    obtain ⟨b, hb, hcache⟩ := hpending (by omega)
    exact ⟨b, hsame ▸ hb, fun j hj => (hcache j (by omega)).trans (hbits j hj)⟩

/-- A write that ends the pending group: its byte gets the bits written so far. -/
theorem Enc.Grows.store {e e' : Enc} {v : Byte} (hr : e.Ranges) (hpos : 0 < e.wcnt)
    (hout : e'.out = e.out.set e.wslot v) (hcnt : e'.wcnt = 0)
    (hbits : ∀ j, j < e.wcnt → v.getLsbD (7 - j) = e.wcache.getLsbD (7 - j)) : e.Grows e' where
  ranges := ⟨by omega, by omega⟩
  length_le := by simp [hout]
  kept a _ hfree := by rw [hout, List.getElem?_set_ne (hfree.resolve_left (by omega)).symm]
  slot := by omega
  group f hf _ := by
    obtain ⟨-, hbytes, -⟩ := hf
    have hslot := hr.slot_lt hpos
    have hstored := hbytes e.wslot (by simpa [hout] using hslot) (.inl hcnt)
    rw [hout, List.getElem?_set_self hslot] at hstored
    exact ⟨v, hstored, hbits⟩

/-- Writing the next bit of a group leaves the bits written so far (20_memory R69). -/
theorem setBit_keeps_written {n j : Nat} (v : Byte) (b : Bool) (hn : n ≤ 7) (hj : j < n) :
    (setBit v (7 - n) b).getLsbD (7 - j) = v.getLsbD (7 - j) := by
  rw [setBit_getLsbD v (by omega) (by omega), if_neg (by omega)]

theorem Enc.Write.grows {e e' : Enc} (h : e.Write e') (hr : e.Ranges) : e.Grows e' := by
  have hcnt := hr.wcnt_le
  cases h with
  | bit b =>
    have hr' := Enc.writeBit_ranges hr b
    obtain ⟨h0, he⟩ | ⟨hpos, -, he⟩ | ⟨h7, he⟩ := Enc.writeBit_cases hr b <;> rw [he] at hr' ⊢
    · exact .append hr' rfl (fun _ => .inl le_rfl) (by omega)
    · exact .append (bs := []) hr' (by simp) (fun _ => .inr ⟨hpos, rfl⟩)
        (fun _ => ⟨rfl, by simp, fun j hj => setBit_keeps_written _ b hcnt hj⟩)
    · refine .store hr (by omega) rfl rfl fun j hj => ?_
      have hkept := setBit_keeps_written e.wcache b hcnt hj
      rwa [h7] at hkept
  | byte b =>
    have hr' := Enc.writeBytes_ranges hr [b]
    exact .append (bs := [b]) hr' (by simp) (fun hpos => .inr ⟨hpos, rfl⟩) (fun _ => ⟨rfl, le_rfl, fun _ _ => rfl⟩)
  | pad =>
    rw [Enc.padBits_eq hr]
    split
    · exact .refl hr
    · exact .store hr (by omega) rfl rfl fun _ _ => rfl
  | stream st =>
    exact .append (bs := []) ⟨hr.wcnt_le, hr.slot_lt⟩ (by simp) (fun hpos => .inr ⟨hpos, rfl⟩)
      (fun _ => ⟨rfl, le_rfl, fun _ _ => rfl⟩)

theorem Enc.Writes.grows {e e' : Enc} (h : e.Writes e') (hr : e.Ranges) : e.Grows e' :=
  h.induct (fun _ _ ha hw => ha.trans (hw.grows ha.ranges)) (.refl hr)

/-! ### What a write keeps of the pending group, in every state -/

/-- No write leaves a bit behind the written ones that is not 0 (20_memory R73). -/
theorem Enc.Writes.padsWithZeros {e e' : Enc} (h : e.Writes e') (he : e.PadsWithZeros) : e'.PadsWithZeros := by
  refine h.induct (fun a b ha hw => ?_) he
  cases hw with
  | bit b => exact Enc.writeBit_padsWithZeros ha b
  | byte _ => exact ha
  | pad => exact fun hpos => absurd a.padBits_wcnt hpos.ne'
  | stream _ => exact ha

/-- The reserved byte of a pending group is in the output (10_state R25). -/
theorem Enc.Writes.slot_lt {e e' : Enc} (h : e.Writes e') (he : 0 < e.wcnt → e.wslot < e.out.length) :
    0 < e'.wcnt → e'.wslot < e'.out.length := by
  refine h.induct (P := fun e => 0 < e.wcnt → e.wslot < e.out.length) (fun a b ha hw => ?_) he
  cases hw with
  | bit b =>
    have hreserved : a.reserveSlot.wslot < a.reserveSlot.out.length := by
      unfold Enc.reserveSlot
      split
      · simp
      · exact ha (by omega)
    show 0 < (Enc.storeFullGroup _).wcnt → (Enc.storeFullGroup _).wslot < (Enc.storeFullGroup _).out.length
    unfold Enc.storeFullGroup
    split
    · exact fun hpos => absurd hpos (Nat.lt_irrefl 0)
    · exact fun _ => hreserved
  | byte _ =>
    intro hpos
    have := ha hpos
    simp only [Enc.writeByte_wslot, Enc.writeByte_out, memWrite_append, List.length_append]
    omega
  | pad => exact fun hpos => absurd a.padBits_wcnt hpos.ne'
  | stream _ => exact ha

/-! ### What an encoder request writes -/

theorem encodeId_writes (id : Word32) (r : EncRun) : r.enc.Writes (encodeId id r).enc := by
  obtain ⟨-, he⟩ | ⟨-, c, w, -, he⟩ := encodeId_cases id r <;> rw [he]
  exact ((r.enc.writes_code c).trans (Enc.writes_xor _ _)).trans (Enc.writes_stream _ _)

theorem encodeTime_writes (ts : Word64) (r : EncRun) : r.enc.Writes (encodeTime ts r).enc := by
  obtain ⟨-, he⟩ | ⟨-, -, he⟩ | ⟨-, -, he⟩ := encodeTime_cases ts r <;> rw [he]
  · exact ((r.enc.writes_code 20).trans (Enc.writes_varint _ _)).trans (Enc.writes_stream _ _)
  · exact (r.enc.writes_code _).trans (Enc.writes_stream _ _)

theorem encodeQuality_writes (p : Point) (q : Word32) (r : EncRun) : r.enc.Writes (encodeQuality p q r).enc := by
  obtain ⟨-, he⟩ | ⟨-, -, he⟩ | ⟨-, -, he⟩ := encodeQuality_cases p q r <;> rw [he]
  · exact (r.enc.writes_code 21).trans (Enc.writes_stream _ _)
  · exact ((r.enc.writes_code 22).trans (Enc.writes_varint _ _)).trans (Enc.writes_stream _ _)

theorem encodePhases_writes (id : Word32) (ts : Word64) (q : Word32) (p : Point) (r : EncRun) :
    r.enc.Writes (encodePhases id ts q p r).enc :=
  ((encodeId_writes id r).trans (encodeTime_writes ts _)).trans (encodeQuality_writes p q _)

theorem encodeValue_writes {n : Nat} (widths : List Nat) (unit : Nat) (wrap : History n → PointValues) (h : History n)
    (v : BitVec n) (r : EncRun) :
    ∃ r', encodeValue widths unit wrap h v r = .done r' ∧ r.enc.Writes r'.enc := by
  have repeats (c : Code) (vs : PointValues) : r.enc.Writes (r.valueCode c vs).enc :=
    (r.enc.writes_code c).trans (Enc.writes_stream _ _)
  obtain ⟨-, he⟩ | ⟨-, -, he⟩ | ⟨-, -, -, he⟩ | ⟨-, -, -, -, he⟩ | ⟨-, -, -, -, he⟩ :=
    encodeValue_cases widths unit wrap h v r
  case inr.inr.inr.inr =>
    exact ⟨_, he, ((r.enc.writes_code _).trans (Enc.writes_xor _ _)).trans (Enc.writes_stream _ _)⟩
  all_goals exact ⟨_, he, repeats _ _⟩

theorem encodeNewPoint_writes (p : Config) (tag : TypeTag) (md : List Byte) (r : EncRun) :
    r.enc.Writes (encodeNewPoint p tag md r).enc :=
  ((((r.enc.writes_code 0).trans (.single (.byte _))).trans (Enc.writes_varint _ _)).trans
    (Enc.writes_bytes _ md)).trans (Enc.writes_stream _ _)

theorem encodeUserCommand_writes (command : Word32) (r : EncRun) : r.enc.Writes (encodeUserCommand command r).enc :=
  (r.enc.writes_code 1).trans (Enc.writes_varint _ _)

theorem encodeUserCommandWithData_writes (command : Word32) (payload : List Byte) (r : EncRun) :
    r.enc.Writes (encodeUserCommandWithData command payload r).enc :=
  (((r.enc.writes_code 2).trans (Enc.writes_varint _ _)).trans (Enc.writes_varint _ _)).trans
    (Enc.writes_bytes _ payload)

theorem encodeFlush_writes (r : EncRun) : r.enc.Writes (encodeFlush r).enc :=
  (r.enc.writes_code 3).trans (.single .pad)

theorem State.unlessEncFailed_writes {s t : State} (h : s.enc.Writes t.enc) :
    s.enc.Writes (s.unlessEncFailed t).enc := by
  unfold State.unlessEncFailed
  split
  · exact .refl
  · exact h

theorem State.finishEnc_writes {s : State} {e : Enc} (h : s.enc.Writes e) (r : Response) :
    s.enc.Writes (s.finishEnc e r).enc := by
  unfold State.finishEnc
  split
  · exact h
  · exact .refl

theorem State.encRegister_writes (s : State) (tb : Byte) (md : List Byte) :
    s.enc.Writes (s.encRegister tb md).enc := by
  unfold State.encRegister
  split
  · exact .refl
  · split_ifs
    · exact .refl
    · exact .refl
    · exact State.finishEnc_writes (encodeNewPoint_writes s.cfg _ md (.start s.enc)) _

theorem State.finishWrite_writes {n : Nat} {s : State} {r : EncRun} (hr : s.enc.Writes r.enc) (widths : List Nat)
    (unit : Nat) (wrap : History n → PointValues) (h : History n) (v : BitVec n) :
    s.enc.Writes (s.finishWrite (encodeValue widths unit wrap h v r)).enc := by
  obtain ⟨r', he, hr'⟩ := encodeValue_writes widths unit wrap h v r
  rw [he]
  exact State.finishEnc_writes (hr.trans hr') _

theorem State.encWrite_writes (s : State) (id : Word32) (ts : Word64) (q : Word32) (v : Value) :
    s.enc.Writes (s.encWrite id ts q v).enc := by
  obtain h | ⟨p, -, ⟨_, _, _, -, -, h⟩ | ⟨_, _, _, -, -, h⟩⟩ := s.encWrite_cases id ts q v <;> rw [h]
  · exact .refl
  all_goals exact State.finishWrite_writes (encodePhases_writes id ts q p (.start s.enc)) ..

/-! ### What an instruction writes -/

/-- A meaning that commutes with replacing the encoder leaves it. -/
theorem enc_kept_of_withEnc {m : State → StepOutcome} {s t : State}
    (hm : m (s.withEnc s.enc) = mapNext (·.withEnc s.enc) (m s)) (h : m s = .next t) : t.enc = s.enc := by
  rw [State.withEnc_self, h] at hm
  have ht : t = t.withEnc s.enc := Host.Outcome.next.inj hm
  rw [ht]
  rfl

/-- Every instruction but ENC_TAKE and ENC_RESET makes of the encoder what writes make of it. -/
theorem exec_writes {i : Instr} (htake : i ≠ .encTake) (hreset : i ≠ .encReset) {s t : State}
    (h : exec i s = .next t) : s.enc.Writes t.enc := by
  have kept (henc : t.enc = s.enc) : s.enc.Writes t.enc := henc ▸ .refl
  have decoder (r : Request) (hr : r.opcode.toNat < 8) (hi : decodeRequest r = i) : s.enc.Writes t.enc :=
    kept (enc_kept_of_withEnc (hi ▸ exec_decoderRequest_withEnc hr s s.enc) h)
  have encoder {next : State} (hi : exec i s = betweenRequests s (s.unlessEncFailed next))
      (hnext : s.enc.Writes next.enc) : s.enc.Writes t.enc := by
    obtain ⟨-, rfl⟩ := betweenRequests_eq_next.1 (hi ▸ h)
    exact State.unlessEncFailed_writes hnext
  cases hi : encode i with
  | localCode c => exact kept (enc_kept_of_withEnc ((exec_codeShape hi).withEnc s s.enc) h)
  | request r =>
    cases i with
    | encTake => exact absurd rfl htake
    | encReset => exact absurd rfl hreset
    | decReset => exact decoder { opcode := 0x0 } (by decide) rfl
    | decLoad bytes => exact decoder { opcode := 0x1, bytes := bytes } (show 1 < 8 by decide) rfl
    | decGet => exact decoder { opcode := 0x2 } (by decide) rfl
    | decStatus => exact decoder { opcode := 0x3 } (by decide) rfl
    | reservedHost4to7 low | encStatus =>
      obtain ⟨-, rfl⟩ := betweenRequests_eq_next.1 h
      exact .refl
    | encRegister tb md => exact encoder rfl (s.encRegister_writes tb md)
    | encWrite id ts q v => exact encoder rfl (s.encWrite_writes id ts q v)
    | encUser c => exact encoder rfl (State.finishEnc_writes (encodeUserCommand_writes c (.start s.enc)) _)
    | encUserData c b =>
      exact encoder rfl (State.finishEnc_writes (encodeUserCommandWithData_writes c b (.start s.enc)) _)
    | encFlush => exact encoder rfl (State.finishEnc_writes (encodeFlush_writes (.start s.enc)) _)
    | _ => cases hi

/-- Settles O10: what an instruction writes keeps every byte that is not reserved (`Enc.Writes.grows`). -/
theorem outputBytesAreKept : Obligations.OutputBytesAreKept := by
  unfold Obligations.OutputBytesAreKept
  intro i s t htake hreset hwf h
  have hgrows := (exec_writes htake hreset h).grows hwf.ranges
  exact ⟨hgrows.length_le, hgrows.kept⟩

/-! ### Padding -/

/-- Every step leaves the bits of the cache that are not written 0: a reset and ENC_TAKE leave no bits pending, and
everything else is writes. -/
theorem step_padsWithZeros {s t : State} (hs : s.enc.PadsWithZeros) (h : step s = .next t) : t.enc.PadsWithZeros := by
  have none_pending {e : Enc} (h0 : e.wcnt = 0) : e.PadsWithZeros := fun hpos => absurd h0 hpos.ne'
  have instr (i : Instr) (u : State) (hu : u.enc = s.enc) (h : exec i u = .next t) : t.enc.PadsWithZeros := by
    by_cases htake : i = .encTake
    · subst htake
      obtain ⟨-, rfl⟩ := betweenRequests_eq_next.1 h
      unfold State.unlessEncFailed
      split
      · exact hu ▸ hs
      · exact none_pending u.enc.flushed_wcnt
    by_cases hreset : i = .encReset
    · subst hreset
      obtain ⟨-, rfl⟩ := betweenRequests_eq_next.1 h
      exact none_pending rfl
    exact (exec_writes htake hreset h).padsWithZeros (hu ▸ hs)
  obtain ⟨g, c, d, -, -, hstep⟩ | ⟨g, e, d, -, -, hstep⟩ | ⟨r, rest, -, -, hstep⟩ | ⟨-, -, hstep⟩ := step_cases s <;>
    rw [hstep] at h
  · exact instr _ (s.fetched g c d) rfl h
  · obtain rfl := Host.Outcome.next.inj h
    exact hs
  · exact instr _ (s.accepted rest) rfl h
  · obtain rfl := Host.Outcome.next.inj h
    exact hs

/-- PadBits, by the state of the group (20_memory R73). -/
theorem Enc.padBits_eq_memWrite (e : Enc) :
    e.padBits = { e with out := if e.wcnt = 0 then e.out else memWrite e.out e.wslot e.wcache, wcnt := 0 } := by
  unfold Enc.padBits
  split_ifs with hpos h0 h0
  · omega
  · rfl
  · rw [← h0]
  · omega

/-- Settles O38: ENC_FLUSH writes code 3 and pads, which leaves no group pending; the byte that ends the group is the
cache, whose bits behind the written ones are 0 (`step_padsWithZeros`). -/
theorem encFlushEndsTheBitGroup : Obligations.EncFlushEndsTheBitGroup := by
  unfold Obligations.EncFlushEndsTheBitGroup
  refine ⟨⟨fun hpos => absurd hpos (Nat.lt_irrefl 0), fun s t => step_padsWithZeros⟩, fun s hg herr => ?_⟩
  intro e out hfits
  have hwrites := s.enc.writes_code 3
  refine ⟨?_, fun hpads hslot hpos => ⟨e.wcache, ?_, hwrites.padsWithZeros hpads hpos⟩⟩
  · have hpad : (encodeFlush (EncRun.start s.enc)).enc = { e with out := out, wcnt := 0 } := Enc.padBits_eq_memWrite e
    have hfits' : Enc.fits s.cfg { e with out := out, wcnt := 0 } = true := by
      simpa [Enc.fits, Enc.footprint] using hfits
    refine (betweenRequests_idle hg).trans ?_
    rw [State.unlessEncFailed_live herr, hpad, State.finishEnc_fits hfits']
    rfl
  · have hout : out = memWrite e.out e.wslot e.wcache := if_neg hpos.ne'
    rw [hout]
    exact memRead_memWrite_same (hwrites.slot_lt hslot hpos).le _

end Sys2Proof.Machine
end

section
/-!
PROOFS. The reader where the writer stands (20_memory R61, R68 to R72, R75; 47_stream_engine R363): what the encoder
writes next, a decoder at its place reads, and is at its place again. That the bytes loaded go on as the encoder writes
is `Enc.Extends`, which holds at every earlier write too (`Enc.Grows.of_extends`).
-/

namespace Sys2Proof.Machine

/-! ### Bits -/

/-- At its place the decoder finds the encoder's next bytes at its cursor. -/
theorem Dec.At.getElem? {d : Dec} {e : Enc} {pre f : List Byte} (h : d.At e pre f) (i : Nat) :
    d.inBuf[d.pos + i]? = f[e.out.length + i]? := by
  obtain ⟨hbuf, hpos, -, -⟩ := h
  rw [hbuf, hpos, Nat.add_assoc, List.getElem?_append_right (Nat.le_add_right _ _), Nat.add_sub_cancel_left]

/-- With an empty cache ReadBit takes bit 7 of the byte at the cursor (20_memory R61). -/
theorem Dec.readBit_of_empty {d : Dec} {v : Byte} (h0 : d.rcnt = 0) (hv : d.inBuf[d.pos]? = some v) :
    d.readBit = .ok (v.getLsbD 7) { d with rcache := v, pos := d.pos + 1, rcnt := 7 } := by
  simp only [Dec.readBit, h0, memRead, hv, if_true]

/-- With bits in the cache ReadBit takes the next of them. -/
theorem Dec.readBit_of_cached {d : Dec} (h : d.rcnt ≠ 0) :
    d.readBit = .ok (d.rcache.getLsbD (d.rcnt - 1)) { d with rcnt := d.rcnt - 1 } := by
  simp only [Dec.readBit, h, if_false]

/-- The bit that WriteBit writes, ReadBit reads: of a new group from the byte that was reserved, of a pending one from
the cache (20_memory R61, R69). -/
theorem Dec.At.readBit {d : Dec} {e : Enc} {pre f : List Byte} (h : d.At e pre f) (hr : e.Ranges) (b : Bool)
    (hf : (e.writeBit b).Extends f) : ∃ d', d.readBit = .ok b d' ∧ d'.At (e.writeBit b) pre f := by
  have hnext := h.getElem? 0
  obtain ⟨hbuf, hpos, hempty, hcache⟩ := h
  obtain ⟨hlen, hbytes, hgroup⟩ := hf
  obtain ⟨h0, he⟩ | ⟨hpend, h6, he⟩ | ⟨h7, he⟩ := Enc.writeBit_cases hr b <;> rw [he] at hlen hbytes hgroup ⊢
  · obtain ⟨v, hv, hbits⟩ := hgroup Nat.one_pos
    have hb : v.getLsbD 7 = b := by
      rw [hbits 0 Nat.one_pos, setBit_getLsbD _ (by decide) (by decide), if_pos rfl]
    have hread := Dec.readBit_of_empty (hempty h0) (hnext.trans hv)
    rw [hb] at hread
    exact ⟨_, hread, hbuf, by simp [hpos, Nat.add_assoc], by simp, fun _ => ⟨rfl, hv⟩⟩
  · obtain ⟨hcnt, hslot⟩ := hcache hpend
    obtain ⟨v, hv, hbits⟩ := hgroup (Nat.succ_pos _)
    obtain rfl : d.rcache = v := Option.some.inj (hslot.symm.trans hv)
    have hlast : d.rcnt - 1 = 7 - e.wcnt := by omega
    have hb : d.rcache.getLsbD (d.rcnt - 1) = b := by
      rw [hlast, hbits e.wcnt (Nat.lt_succ_self _), setBit_getLsbD _ (by omega) (by omega), if_pos rfl]
    have hread := Dec.readBit_of_cached (d := d) (by omega)
    rw [hb] at hread
    exact ⟨_, hread, hbuf, hpos, by simp, fun _ => ⟨by simp only; omega, hslot⟩⟩
  · obtain ⟨hcnt, hslot⟩ := hcache (by omega)
    have hlt := hr.slot_lt (by omega)
    have hstored := hbytes e.wslot (by simpa using hlt) (.inl rfl)
    rw [hslot, List.getElem?_set_self hlt] at hstored
    have hb : d.rcache.getLsbD (d.rcnt - 1) = b := by
      rw [Option.some.inj hstored, hcnt, h7, setBit_getLsbD _ (by omega) (by omega), if_pos rfl]
    have hread := Dec.readBit_of_cached (d := d) (by omega)
    rw [hb] at hread
    exact ⟨_, hread, hbuf, by simpa using hpos, fun _ => by simp only; omega, by simp⟩

theorem Dec.At.readBitsFrom {d : Dec} {e : Enc} {pre f : List Byte} (h : d.At e pre f) (hr : e.Ranges)
    (bits : List Bool) (v : Nat) (hf : (e.writeBitString bits).Extends f) :
    ∃ d', Dec.readBitsFrom bits.length v d = .ok (bits.foldl (fun v b => 2 * v + b.toNat) v) d' ∧
      d'.At (e.writeBitString bits) pre f := by
  induction bits generalizing d e v with
  | nil => exact ⟨d, rfl, h⟩
  | cons b bits ih =>
    have hr' := Enc.writeBit_ranges hr b
    have hfirst := ((Enc.writes_bits (e.writeBit b) bits).grows hr').of_extends hf
    obtain ⟨d1, hb, h1⟩ := h.readBit hr b hfirst
    obtain ⟨d2, hbits, h2⟩ := ih h1 hr' (2 * v + b.toNat) hf
    exact ⟨d2, by rw [List.length_cons, Dec.readBitsFrom, hb]; exact hbits, h2⟩

/-- The field that WriteBits writes, ReadBits reads (20_memory R63, R71). -/
theorem Dec.At.readBits {d : Dec} {e : Enc} {pre f : List Byte} (h : d.At e pre f) (hr : e.Ranges) {n : Nat}
    (v : BitVec n) (hf : (e.writeBits v).Extends f) :
    ∃ d', d.readBits n = .ok v d' ∧ d'.At (e.writeBits v) pre f := by
  obtain ⟨d', hread, h'⟩ := h.readBitsFrom hr (bitsOf v) 0 hf
  rw [bitsOf_length] at hread
  refine ⟨d', ?_, h'⟩
  rw [Dec.readBits, hread, ReadResult.bind_ok]
  exact congrArg (ReadResult.ok · d') (ofNat_natOfBits_bitsOf v)

/-! ### Bytes -/

/-- The bytes that the encoder writes next stand at the decoder's cursor (20_memory R64, R72). -/
theorem Dec.At.drop_of_writeBytes {d : Dec} {e : Enc} {pre f bs : List Byte} (h : d.At e pre f) (hr : e.Ranges)
    (hf : (e.writeBytes bs).Extends f) : ∃ rest, d.inBuf.drop d.pos = bs ++ rest := by
  obtain ⟨-, hbytes, -⟩ := hf
  rw [Enc.writeBytes_eq] at hbytes
  have hprefix : bs <+: d.inBuf.drop d.pos := by
    refine List.prefix_iff_getElem?.2 fun i hi => ?_
    have hfree : e.wcnt = 0 ∨ e.out.length + i ≠ e.wslot := by
      rcases Nat.eq_zero_or_pos e.wcnt with h0 | hpos
      · exact .inl h0
      · have := hr.slot_lt hpos
        exact .inr (by omega)
    rw [List.getElem?_drop, h.getElem? i, hbytes (e.out.length + i) (by simpa using hi) hfree]
    simp [hi]
  obtain ⟨rest, hrest⟩ := hprefix
  exact ⟨rest, hrest.symm⟩

/-- Past those bytes the decoder is where the encoder is after it wrote them. -/
theorem Dec.At.writeBytes {d : Dec} {e : Enc} {pre f : List Byte} (h : d.At e pre f) (bs : List Byte) :
    { d with pos := d.pos + bs.length }.At (e.writeBytes bs) pre f := by
  obtain ⟨hbuf, hpos, hempty, hcache⟩ := h
  rw [Enc.writeBytes_eq]
  exact ⟨hbuf, by simp [hpos, Nat.add_assoc], hempty, hcache⟩

theorem Dec.At.readByte {d : Dec} {e : Enc} {pre f : List Byte} (h : d.At e pre f) (hr : e.Ranges) (b : Byte)
    (hf : (e.writeByte b).Extends f) : ∃ d', d.readByte = .ok b d' ∧ d'.At (e.writeByte b) pre f := by
  obtain ⟨rest, hdrop⟩ := h.drop_of_writeBytes (bs := [b]) hr hf
  exact ⟨_, (Dec.readByte_of_drop hdrop).1, h.writeBytes [b]⟩

/-! ### XOR payloads -/

@[simp] theorem xorBytes_length {w : Nat} (x : BitVec w) (nb k : Nat) : (xorBytes x nb k).length = nb := by
  induction nb generalizing k with
  | zero => rfl
  | succ nb ih => rw [xorBytes, List.length_cons, ih]

/-- One byte of `x` more, laid over the bits below it. -/
theorem extract_lay_byte {w k : Nat} (x : BitVec w) :
    (x.extractLsb' 0 k).setWidth w ||| ((x.extractLsb' k 8).setWidth w <<< k) =
      (x.extractLsb' 0 (k + 8)).setWidth w := by
  refine BitVec.eq_of_getLsbD_eq fun j hj => ?_
  simp only [BitVec.getLsbD_or, BitVec.getLsbD_shiftLeft, BitVec.getLsbD_setWidth, BitVec.getLsbD_extractLsb',
    Nat.zero_add, hj, decide_true, Bool.true_and]
  rcases Nat.lt_or_ge j k with hlow | hhigh
  · simp [hlow, show j < k + 8 by omega]
  · simp [show ¬ j < k by omega, show j - k < w by omega, show k + (j - k) = j by omega,
      show (j - k < 8) = (j < k + 8) by simp only [eq_iff_iff]; omega]

/-- The bytes of WriteXor, laid over the bits below them, are the value again (20_memory R68, R75). -/
theorem layBytes_xorBytes {w nb k : Nat} (x : BitVec w) (hw : k + 8 * nb = w) :
    layBytes (xorBytes x nb k) k ((x.extractLsb' 0 k).setWidth w) = x := by
  induction nb generalizing k with
  | zero =>
    obtain rfl : k = w := by omega
    simp [xorBytes, layBytes]
  | succ nb ih => rw [xorBytes, layBytes, extract_lay_byte, ih (by omega)]

/-- The byte loop of ReadXor reads what that of WriteXor writes. -/
theorem Dec.At.readXorBytes {d : Dec} {e : Enc} {pre f : List Byte} (h : d.At e pre f) (hr : e.Ranges) {w nb k : Nat}
    (x : BitVec w) (hw : k + 8 * nb = w) (hf : (e.writeBytes (xorBytes x nb k)).Extends f) :
    ∃ d', Dec.readXorBytes nb k ((x.extractLsb' 0 k).setWidth w) d = .ok x d' ∧
      d'.At (e.writeBytes (xorBytes x nb k)) pre f := by
  obtain ⟨rest, hdrop⟩ := h.drop_of_writeBytes hr hf
  have hread := Dec.readXorBytes_of_drop k ((x.extractLsb' 0 k).setWidth w) hdrop
  rw [layBytes_xorBytes x hw, xorBytes_length] at hread
  exact ⟨_, hread, by simpa using h.writeBytes (xorBytes x nb k)⟩

/-- The XOR payload that WriteXor writes, ReadXor reads (20_memory R68, R75), at whole bytes with or without a nibble
below them. -/
theorem Dec.At.readXor {d : Dec} {e : Enc} {pre f : List Byte} (h : d.At e pre f) (hr : e.Ranges) {w : Nat}
    (hw : w % 8 = 0 ∨ w % 8 = 4) (x : BitVec w) (hf : (e.writeXor x).Extends f) :
    ∃ d', d.readXor w = .ok x d' ∧ d'.At (e.writeXor x) pre f := by
  by_cases h4 : w % 8 = 4
  · have hwrite : e.writeXor x = (e.writeBits (x.extractLsb' 0 4)).writeBytes (xorBytes x ((w - 4) / 8) 4) := by
      rw [Enc.writeXor, if_pos h4]
    rw [hwrite] at hf ⊢
    have hr1 : (e.writeBits (x.extractLsb' 0 4)).Ranges := Enc.writeBitString_ranges hr _
    have hf1 := ((Enc.writes_bytes _ (xorBytes x ((w - 4) / 8) 4)).grows hr1).of_extends hf
    obtain ⟨d1, hnibble, h1⟩ := h.readBits hr _ hf1
    obtain ⟨d2, hbytes, h2⟩ := h1.readXorBytes hr1 x (by omega) hf
    exact ⟨d2, by rw [Dec.readXor, if_pos h4, hnibble]; exact hbytes, h2⟩
  · have hwrite : e.writeXor x = e.writeBytes (xorBytes x (w / 8) 0) := by rw [Enc.writeXor, if_neg h4]
    rw [hwrite] at hf ⊢
    obtain ⟨d1, hbytes, h1⟩ := h.readXorBytes hr x (by omega) hf
    rw [setWidth_of_no_bits] at hbytes
    exact ⟨d1, by rw [Dec.readXor, if_neg h4]; exact hbytes, h1⟩

/-- Settles O9: each of the three reads finds what was written (`Dec.At.readBit`, `Dec.At.readByte`, `Dec.At.readXor`)
and moves nothing but the read cursor and the cache. -/
theorem writerAndReaderStayInStep : Obligations.WriterAndReaderStayInStep := by
  unfold Obligations.WriterAndReaderStayInStep
  intro e d pre f hcnt hslot h
  have hr : e.Ranges := ⟨hcnt, hslot⟩
  refine ⟨fun b hf => ?_, fun b hf => ?_, fun w hw x hf => ?_⟩
  · obtain ⟨d', hread, h'⟩ := h.readBit hr b hf
    exact ⟨d', hread, h', by simpa [hread] using d.readBit_law.moved⟩
  · obtain ⟨d', hread, h'⟩ := h.readByte hr b hf
    exact ⟨d', hread, h', by simpa [hread] using d.readByte_law.moved⟩
  · have hmod : w % 8 = 0 ∨ w % 8 = 4 :=
      (by decide : ∀ w ∈ [4, 8, 12, 16, 20, 24, 28, 32, 40, 48, 56, 64], w % 8 = 0 ∨ w % 8 = 4) w hw
    obtain ⟨d', hread, h'⟩ := h.readXor hr hmod x hf
    exact ⟨d', hread, h', by simpa [hread] using (Dec.readXor_law w d).moved⟩

end Sys2Proof.Machine
end

section
/-!
PROOFS. The local codes at the end of their buffer: a payload that is cut off in any field is BufferUnderrun (20_memory
R62; 46_control_codes R300, R304; 60_exceptions R401, R409), and FlushBits asks for the end itself (20_memory R66;
46_control_codes R303).
-/

namespace Sys2Proof.Machine

/-! ### Codes with an XOR payload -/

/-- The meaning of an ID code is that of its number and its width (41_point_id R184 to R190). -/
theorem exec_idCode {i : Instr} {w : Nat}
    (h : (i, w) ∈ [(Instr.pointIDXOR4, 4), (Instr.pointIDXOR8, 8), (Instr.pointIDXOR12, 12), (Instr.pointIDXOR16, 16),
      (Instr.pointIDXOR20, 20), (Instr.pointIDXOR24, 24), (Instr.pointIDXOR32, 32)]) :
    ∃ c, (c, w) ∈ idCodes ∧ exec i = runIdCode c w := by
  simp only [List.mem_cons, Prod.mk.injEq, List.not_mem_nil, or_false] at h
  obtain ⟨rfl, rfl⟩ | ⟨rfl, rfl⟩ | ⟨rfl, rfl⟩ | ⟨rfl, rfl⟩ | ⟨rfl, rfl⟩ | ⟨rfl, rfl⟩ | ⟨rfl, rfl⟩ := h
  exacts [⟨4, by decide, rfl⟩, ⟨5, by decide, rfl⟩, ⟨6, by decide, rfl⟩, ⟨7, by decide, rfl⟩, ⟨8, by decide, rfl⟩,
    ⟨9, by decide, rfl⟩, ⟨10, by decide, rfl⟩]

/-- The meaning of an XOR code of a width-32 point is that of its number and its width (44_value32 R256 to R263). -/
theorem exec_valueXor32 {i : Instr} {w : Nat}
    (h : (i, w) ∈ [(Instr.valueXOR4W32, 4), (Instr.valueXOR8W32, 8), (Instr.valueXOR12W32, 12),
      (Instr.valueXOR16W32, 16), (Instr.valueXOR20W32, 20), (Instr.valueXOR24W32, 24), (Instr.valueXOR28W32, 28),
      (Instr.valueXOR32W32, 32)]) :
    ∃ c, (c, w) ∈ valueCodes32 ∧ exec i = runValue32 c (ValueRule.valueXor w) := by
  simp only [List.mem_cons, Prod.mk.injEq, List.not_mem_nil, or_false] at h
  obtain ⟨rfl, rfl⟩ | ⟨rfl, rfl⟩ | ⟨rfl, rfl⟩ | ⟨rfl, rfl⟩ | ⟨rfl, rfl⟩ | ⟨rfl, rfl⟩ | ⟨rfl, rfl⟩ | ⟨rfl, rfl⟩ := h
  exacts [⟨36, by decide, rfl⟩, ⟨37, by decide, rfl⟩, ⟨38, by decide, rfl⟩, ⟨39, by decide, rfl⟩,
    ⟨40, by decide, rfl⟩, ⟨41, by decide, rfl⟩, ⟨42, by decide, rfl⟩, ⟨43, by decide, rfl⟩]

/-- As `exec_valueXor32`, for a width-64 point (45_value64 R288 to R295). -/
theorem exec_valueXor64 {i : Instr} {w : Nat}
    (h : (i, w) ∈ [(Instr.valueXOR8W64, 8), (Instr.valueXOR16W64, 16), (Instr.valueXOR24W64, 24),
      (Instr.valueXOR32W64, 32), (Instr.valueXOR40W64, 40), (Instr.valueXOR48W64, 48), (Instr.valueXOR56W64, 56),
      (Instr.valueXOR64W64, 64)]) :
    ∃ c, (c, w) ∈ valueCodes64 ∧ exec i = runValue64 c (ValueRule.valueXor w) := by
  simp only [List.mem_cons, Prod.mk.injEq, List.not_mem_nil, or_false] at h
  obtain ⟨rfl, rfl⟩ | ⟨rfl, rfl⟩ | ⟨rfl, rfl⟩ | ⟨rfl, rfl⟩ | ⟨rfl, rfl⟩ | ⟨rfl, rfl⟩ | ⟨rfl, rfl⟩ | ⟨rfl, rfl⟩ := h
  exacts [⟨36, by decide, rfl⟩, ⟨37, by decide, rfl⟩, ⟨38, by decide, rfl⟩, ⟨39, by decide, rfl⟩,
    ⟨40, by decide, rfl⟩, ⟨41, by decide, rfl⟩, ⟨42, by decide, rfl⟩, ⟨43, by decide, rfl⟩]

/-! ### The positions of the codes (47_stream_engine R331) -/

/-- With a point registered the start of a record allows the codes up to the qualities. -/
theorem allowedAt_start {npts : Nat} {c : Code} (hn : 0 < npts) (hc : c.toNat ≤ 22) :
    allowedAt .start npts c = true := by
  simp only [allowedAt, Bool.or_eq_true, Bool.and_eq_true, decide_eq_true_eq]
  omega

/-- With a point registered every position allows the value codes. -/
theorem allowedAt_value {k : Phase} {npts : Nat} {c : Code} (hn : 0 < npts) (hc : 32 ≤ c.toNat ∧ c.toNat ≤ 43) :
    allowedAt k npts c = true := by
  cases k <;> simp only [allowedAt, Bool.or_eq_true, Bool.and_eq_true, decide_eq_true_eq] <;> omega

/-- The position of a time code: the start of a record with a point registered, or after the ID. -/
theorem allowedAt_time {k : Phase} {npts : Nat} {c : Code} (hk : k = .start ∧ 0 < npts ∨ k = .afterId)
    (hc : 11 ≤ c.toNat ∧ c.toNat ≤ 20) : allowedAt k npts c = true := by
  obtain ⟨rfl, hn⟩ | rfl := hk
  · exact allowedAt_start hn (by omega)
  · simp only [allowedAt, Bool.or_eq_true, Bool.and_eq_true, decide_eq_true_eq]
    omega

/-- The position of a quality code: any before the quality, with a point registered. -/
theorem allowedAt_quality {k : Phase} {npts : Nat} {c : Code} (hk : k ≠ .afterQuality) (hn : 0 < npts)
    (hc : 21 ≤ c.toNat ∧ c.toNat ≤ 22) : allowedAt k npts c = true := by
  cases k with
  | afterQuality => exact absurd rfl hk
  | start => exact allowedAt_start hn hc.2
  | afterId | afterTime =>
    simp only [allowedAt, Bool.or_eq_true, Bool.and_eq_true, decide_eq_true_eq]
    omega

theorem idCodes_range {c : Code} {w : Nat} (h : (c, w) ∈ idCodes) : c.toNat ≤ 22 :=
  (by decide : ∀ p ∈ idCodes, p.1.toNat ≤ 22) _ h

theorem valueCodes32_range {c : Code} {w : Nat} (h : (c, w) ∈ valueCodes32) : 32 ≤ c.toNat ∧ c.toNat ≤ 43 :=
  (by decide : ∀ p ∈ valueCodes32, 32 ≤ p.1.toNat ∧ p.1.toNat ≤ 43) _ h

theorem valueCodes64_range {c : Code} {w : Nat} (h : (c, w) ∈ valueCodes64) : 32 ≤ c.toNat ∧ c.toNat ≤ 43 :=
  (by decide : ∀ p ∈ valueCodes64, 32 ≤ p.1.toNat ∧ p.1.toNat ≤ 43) _ h

/-- A stream with a target point has a point. -/
theorem Stream.pts_pos_of_target {st : Stream} {p : Point} (h : st.target? = some p) : 0 < st.pts.length := by
  obtain ⟨hlt, -⟩ := List.getElem?_eq_some_iff.1 h
  omega

/-! ### The payloads -/

/-- A value code of the 32-bit coder that is allowed, for a width-32 point, whose rule raises `e`. -/
theorem runValue32_of_raised {c : Code} {s : State} {g : GetContext} {rule : ValueRule 32} {p : Point} {t : Tag32}
    {h : History 32} {e : ErrorCode} {d : Dec} (hg : s.get = some g)
    (hc : allowedAt g.phase s.dec.stream.pts.length c = true) (hp : s.dec.stream.target? = some p)
    (hv : p.values = .narrow t h) (hr : rule h s.dec = .raised e d) :
    runValue32 c rule s = .next (s.takeDecError g d e) := by
  simp [runValue32, duringGet, hg, hc, Dec.target, hp, hv, hr, settleRead]

/-- As `runValue32_of_raised`, for the 64-bit coder. -/
theorem runValue64_of_raised {c : Code} {s : State} {g : GetContext} {rule : ValueRule 64} {p : Point} {t : Tag64}
    {h : History 64} {e : ErrorCode} {d : Dec} (hg : s.get = some g)
    (hc : allowedAt g.phase s.dec.stream.pts.length c = true) (hp : s.dec.stream.target? = some p)
    (hv : p.values = .wide t h) (hr : rule h s.dec = .raised e d) :
    runValue64 c rule s = .next (s.takeDecError g d e) := by
  simp [runValue64, duringGet, hg, hc, Dec.target, hp, hv, hr, settleRead]

theorem ValueRule.valueXor_raised {n w : Nat} {h : History n} {d d' : Dec} {e : ErrorCode}
    (hr : d.readXor w = .raised e d') : ValueRule.valueXor w h d = .raised e d' := by
  rw [ValueRule.valueXor, hr]
  rfl

/-- DecodeNewPoint after a type byte of the map, in a table with room: the length is next (46_control_codes R300). -/
theorem Dec.decodeNewPoint_of_type {p : Config} {d d1 : Dec} {tb : Byte} (htb : d.readByte = .ok tb d1)
    (htag : p.typeCodes.tagOf tb ≠ none) (hroom : d.stream.pts.length ≠ p.maxPoints) :
    ∃ tag, d.decodeNewPoint p = (d1.readVarint 32).bind fun len d =>
      (d.within (decide (len.toNat ≤ p.maxMetaBytes))).bind fun _ d =>
      (Dec.readBytes len.toNat d).bind fun md d =>
      .ok (d.stream.nextId, tag, md) { d with stream := d.stream.register tag md } := by
  obtain ⟨tag, htag⟩ := Option.ne_none_iff_exists'.1 htag
  have hroom' : d1.stream.pts.length ≠ p.maxPoints := by rwa [d.readByte_law.stream_of_ok htb]
  refine ⟨tag, ?_⟩
  simp only [Dec.decodeNewPoint, htb, ReadResult.bind_ok, Dec.typeOfByte, htag, Dec.within, bne_iff_ne.2 hroom',
    if_true]

/-- Settles O29: each code is allowed at its position, so what its payload raises is taken, and a read raises
BufferUnderrun only (`ReadLaw.raised_underrun`). -/
theorem truncatedPayloadUnderruns : Obligations.TruncatedPayloadUnderruns := by
  unfold Obligations.TruncatedPayloadUnderruns
  intro s g hg failed
  have taken {α : Type} {r : ReadResult α} {d0 d : Dec} {e : ErrorCode} (hlaw : ReadLaw d0 r) (hr : r = .raised e d) :
      (.next (s.takeDecError g d e) : StepOutcome) = .next (failed d) := by
    rw [hlaw.raised_underrun e d hr]
    rfl
  have control {c : Code} (hk : g.phase = .start) (hc : c.toNat ≤ 3) :
      allowedAt g.phase s.dec.stream.pts.length c = true := by simp [hk, allowedAt, hc]
  have points (hne : s.dec.stream.pts ≠ []) : 0 < s.dec.stream.pts.length := List.length_pos_iff.2 hne
  refine ⟨?id, ?value32, ?value64, ?time, ?quality, ?command, ?length, ?payload, ?type, ?newPoint⟩
  case id =>
    intro i w e d hi hk hne hr
    obtain ⟨c, hc, hexec⟩ := exec_idCode hi
    have hallowed := hk ▸ allowedAt_start (points hne) (idCodes_range hc)
    rw [hexec]
    exact (runCode_of_raised hg hallowed (by rw [Dec.decodeId, hr]; rfl)).trans (taken (Dec.readXor_law w _) hr)
  case value32 =>
    intro i w e d p tag h hi hp hv hr
    obtain ⟨c, hc, hexec⟩ := exec_valueXor32 hi
    have hallowed := allowedAt_value (k := g.phase) (Stream.pts_pos_of_target hp) (valueCodes32_range hc)
    rw [hexec]
    exact (runValue32_of_raised hg hallowed hp hv (ValueRule.valueXor_raised hr)).trans
      (taken (Dec.readXor_law w _) hr)
  case value64 =>
    intro i w e d p tag h hi hp hv hr
    obtain ⟨c, hc, hexec⟩ := exec_valueXor64 hi
    have hallowed := allowedAt_value (k := g.phase) (Stream.pts_pos_of_target hp) (valueCodes64_range hc)
    rw [hexec]
    exact (runValue64_of_raised hg hallowed hp hv (ValueRule.valueXor_raised hr)).trans
      (taken (Dec.readXor_law w _) hr)
  case time =>
    intro e d hk hr
    have hallowed := allowedAt_time (c := 20) (hk.imp_left fun ⟨hk, hne⟩ => ⟨hk, points hne⟩) (by decide)
    exact (runCode_of_raised hg hallowed (by rw [Dec.timeXor, hr]; rfl)).trans (taken (Dec.readVarint_law 64 _) hr)
  case quality =>
    intro e d p hk hp hr
    have hallowed := allowedAt_quality (c := 22) hk (Stream.pts_pos_of_target hp) (by decide)
    exact (runCode_of_raised hg hallowed (by rw [Dec.target_of_some hp]; exact hr)).trans
      (taken (Dec.readVarint_law 32 _) hr)
  case command =>
    intro e d hk hr
    have htaken := taken (Dec.readVarint_law 32 _) hr
    exact ⟨(runCode_of_raised hg (control hk (by decide)) hr).trans htaken,
      (runCode_of_raised hg (control hk (by decide)) (by rw [Dec.readCommandWithData, hr]; rfl)).trans htaken⟩
  case length =>
    intro cmd d1 e d hk hcmd hr
    exact (runCode_of_raised hg (control hk (by decide))
      (by rw [Dec.readCommandWithData, hcmd, ReadResult.bind_ok, hr]; rfl)).trans (taken (Dec.readVarint_law 32 _) hr)
  case payload =>
    intro cmd len d1 d2 e d hk hcmd hlen hr
    exact (runCode_of_raised hg (control hk (by decide))
      (by rw [Dec.readCommandWithData, hcmd, ReadResult.bind_ok, hlen, ReadResult.bind_ok, hr]; rfl)).trans
      (taken (Dec.readBytes_law _ _) hr)
  case type =>
    intro e d hk hr
    exact (runCode_of_raised hg (control hk (by decide)) (by rw [Dec.decodeNewPoint, hr]; rfl)).trans
      (taken (Dec.readByte_law _) hr)
  case newPoint =>
    intro tb d1 hk htb htag hroom
    obtain ⟨tag, hbody⟩ := Dec.decodeNewPoint_of_type htb htag hroom
    refine ⟨fun e d hr => ?_, fun len d2 e d hlen hmax hr => ?_⟩
    · exact (runCode_of_raised hg (control hk (by decide)) (by rw [hbody, hr]; rfl)).trans
        (taken (Dec.readVarint_law 32 _) hr)
    · have hwithin : d2.within (decide (len.toNat ≤ s.cfg.maxMetaBytes)) = .ok () d2 := if_pos (decide_eq_true hmax)
      exact (runCode_of_raised hg (control hk (by decide))
        (by rw [hbody, hlen, ReadResult.bind_ok, hwithin, ReadResult.bind_ok, hr]; rfl)).trans
        (taken (Dec.readBytes_law _ _) hr)

/-! ### FlushBits -/

/-- Settles O27: code 3 is allowed at the start of a record; with the cache dropped the head of the loop asks only for
the end of the buffer. -/
theorem flushBitsDropsTheCachedBits : Obligations.FlushBitsDropsTheCachedBits := by
  unfold Obligations.FlushBitsDropsTheCachedBits
  intro s g hg hk
  have hallowed : allowedAt g.phase s.dec.stream.pts.length 3 = true := by rw [hk]; rfl
  have hrun : exec .flushBits s = .next (s.loopHead g s.dec.discardBits) := runCode_of_ok hg hallowed rfl
  rw [hrun]
  obtain ⟨hpos, -, hhead⟩ | ⟨hmore, hhead⟩ := s.loopHead_cases g s.dec.discardBits <;> rw [hhead]
  · exact (if_pos hpos).symm
  · have hopen : some { g with phase := .start } = s.get := by rw [hg, ← hk]
    rw [State.continueAt, hopen]
    exact (if_neg (hmore.resolve_right fun hne => hne rfl)).symm

end Sys2Proof.Machine
end

section
/-!
PROOFS. The encoding (30_encoding R101 to R105, R111, R112, R114): decode undoes encode on every row of the opcode
table, the parse undoes the code word under any escapes, and the bit reader takes what the parse takes.
-/

namespace Sys2Proof.Laws.EncodingRoundTrip

/-- The family of Laws/PerInstr.lean has a member for every instruction. -/
theorem every_instruction : ∀ i, Statement i
  | .newPointId => newPointId | .userCommand => userCommand | .userCommandWithData => userCommandWithData
  | .flushBits => flushBits | .pointIDXOR4 => pointIDXOR4 | .pointIDXOR8 => pointIDXOR8
  | .pointIDXOR12 => pointIDXOR12 | .pointIDXOR16 => pointIDXOR16 | .pointIDXOR20 => pointIDXOR20
  | .pointIDXOR24 => pointIDXOR24 | .pointIDXOR32 => pointIDXOR32 | .timeDelta1Forward => timeDelta1Forward
  | .timeDelta2Forward => timeDelta2Forward | .timeDelta3Forward => timeDelta3Forward
  | .timeDelta4Forward => timeDelta4Forward | .timeDelta1Reverse => timeDelta1Reverse
  | .timeDelta2Reverse => timeDelta2Reverse | .timeDelta3Reverse => timeDelta3Reverse
  | .timeDelta4Reverse => timeDelta4Reverse | .timestamp2 => timestamp2 | .timeXOR7Bit => timeXOR7Bit
  | .quality2 => quality2 | .quality7Bit32 => quality7Bit32 | .reserved23 => reserved23
  | .reserved24to31 low => reserved24to31 low | .value1W32 => value1W32 | .value2W32 => value2W32
  | .value3W32 => value3W32 | .valueZeroW32 => valueZeroW32 | .valueXOR4W32 => valueXOR4W32
  | .valueXOR8W32 => valueXOR8W32 | .valueXOR12W32 => valueXOR12W32 | .valueXOR16W32 => valueXOR16W32
  | .valueXOR20W32 => valueXOR20W32 | .valueXOR24W32 => valueXOR24W32 | .valueXOR28W32 => valueXOR28W32
  | .valueXOR32W32 => valueXOR32W32 | .value1W64 => value1W64 | .value2W64 => value2W64 | .value3W64 => value3W64
  | .valueZeroW64 => valueZeroW64 | .valueXOR8W64 => valueXOR8W64 | .valueXOR16W64 => valueXOR16W64
  | .valueXOR24W64 => valueXOR24W64 | .valueXOR32W64 => valueXOR32W64 | .valueXOR40W64 => valueXOR40W64
  | .valueXOR48W64 => valueXOR48W64 | .valueXOR56W64 => valueXOR56W64 | .valueXOR64W64 => valueXOR64W64
  | .reserved44to47 low => reserved44to47 low | .reserved48to63 low => reserved48to63 low | .decReset => decReset
  | .decLoad bytes => decLoad bytes | .decGet => decGet | .decStatus => decStatus
  | .reservedHost4to7 low => reservedHost4to7 low | .encReset => encReset
  | .encRegister typeByte metadata => encRegister typeByte metadata
  | .encWrite id timestamp quality value => encWrite id timestamp quality value
  | .encUser command => encUser command | .encUserData command payload => encUserData command payload
  | .encFlush => encFlush | .encTake => encTake | .encStatus => encStatus

end Sys2Proof.Laws.EncodingRoundTrip

namespace Sys2Proof.Machine

/-! ### The rows of the opcode table, by code -/

/-- A code decodes to a row for the width that it was decoded for (30_encoding R111). -/
theorem decodeCode_fitsWidth (w : Width) (c : Code) : (decodeCode w c).fitsWidth w = true := by
  revert c; cases w <;> decide

/-! ### Code words -/

/-- Under any escapes and before any further bits, the parse takes the code word and yields its code (30_encoding R102,
R104). -/
theorem parseCodeWord_codeWord (es : List Code) (c : Code) (rest : List Bool) :
    parseCodeWord es (codeWord es c ++ rest) = .ok (c, rest) := by
  induction es with
  | nil => exact parseCodeWord_bitsOf c rest
  | cons e es ih =>
    by_cases h : c = e
    · simp [codeWord, parseCodeWord, h]
    · simpa [codeWord, parseCodeWord, h] using ih

/-- The parse takes the fall-through form of every code, an escaped one as well (30_encoding R105). -/
theorem parseCodeWord_fallThrough (es : List Code) (c : Code) (rest : List Bool) :
    parseCodeWord es (List.replicate es.length false ++ bitsOf c ++ rest) = .ok (c, rest) := by
  induction es with
  | nil => exact parseCodeWord_bitsOf c rest
  | cons e es ih => exact ih

/-- The pattern of an escape is no longer than the patterns are many (30_encoding R102). -/
theorem codeWord_length_le {es : List Code} {c : Code} (h : c ∈ es) : (codeWord es c).length ≤ es.length := by
  induction es with
  | nil => cases h
  | cons e es ih =>
    by_cases hc : c = e
    · simp [codeWord, hc]
    · simpa [codeWord, hc] using ih (List.mem_of_ne_of_mem hc h)

/-- An escaped code's word is not its fall-through form, which has six bits more than there are escapes. -/
theorem codeWord_ne_fallThrough {es : List Code} {c : Code} (h : c ∈ es) :
    codeWord es c ≠ List.replicate es.length false ++ bitsOf c := by
  intro heq
  have hle := codeWord_length_le h
  simp only [heq, List.length_append, List.length_replicate, bitsOf_length] at hle
  omega

/-- Settles O2: the parse gives the code back (`parseCodeWord_codeWord`), and each row of the opcode table is read back
from what it is sent as (`every_instruction`). -/
theorem codeWordDecodesToItsInstruction : Obligations.CodeWordDecodesToItsInstruction := by
  unfold Obligations.CodeWordDecodesToItsInstruction
  refine ⟨fun w i hwf => ?_, fun w c => ⟨encode_decodeCode w c, decodeCode_fitsWidth w c⟩⟩
  obtain ⟨hfits, -⟩ := Bool.and_eq_true_iff.1 hwf
  have hdecode := Laws.EncodingRoundTrip.every_instruction i w hfits
  cases hsent : encode i with
  | localCode c =>
    rw [hsent] at hdecode
    exact fun es rest => ⟨c, parseCodeWord_codeWord es c rest, hdecode⟩
  | request r =>
    rw [hsent] at hdecode
    exact hdecode

/-- Settles O3: whatever the reader answers or raises, the parse of the unread bits says the same
(`Dec.parseCodeWord_of_readCodeWord`, `Dec.exhausted_of_readCodeWord`). -/
theorem codeWordReaderMatchesTheParse : Obligations.CodeWordReaderMatchesTheParse := by
  unfold Obligations.CodeWordReaderMatchesTheParse
  intro es d hcnt
  have hlaw := Dec.readCodeWord_law es d
  cases hread : Dec.readCodeWord es d with
  | ok c d' =>
    rw [hread] at hlaw
    rw [Dec.parseCodeWord_of_readCodeWord hread hcnt]
    exact ⟨d', rfl, hlaw.moved, rfl⟩
  | raised e d' =>
    obtain ⟨hparse, -⟩ := Dec.exhausted_of_readCodeWord hread hcnt
    rw [hread] at hlaw
    rw [hparse, hlaw.raised_underrun e d' rfl]
    exact ⟨d', rfl, hlaw.moved⟩

/-- Settles O5: the reader takes what the parse takes, and the parse takes the fall-through form; WriteCode writes the
code word, which for an escaped code is another one. -/
theorem fallThroughFormIsAccepted : Obligations.FallThroughFormIsAccepted := by
  unfold Obligations.FallThroughFormIsAccepted
  refine fun m c => ⟨fun d rest hcnt hbits => ?_, fun hc => ⟨_, codeWord_ne_fallThrough hc, ?_⟩⟩
  · have hmatch := codeWordReaderMatchesTheParse m.escapes d hcnt
    rw [hbits, parseCodeWord_fallThrough] at hmatch
    obtain ⟨d', hread, -, hrest⟩ := hmatch
    exact ⟨d', hread, hrest⟩
  · rintro e rfl
    rfl

/-! ### Words of the opcode table -/

/-- A full byte is unpacked into the bits that were packed (20_memory R61). -/
theorem unpackBytes_packBits {bits : List Bool} (h : bits.length = 8) (bytes : List Byte) :
    unpackBytes (packBits bits ++ bytes) = bits ++ unpackBytes bytes := by
  have hbyte := bitsOf_ofNat_natOfBits bits
  match bits, h, hbyte with
  | [_, _, _, _, _, _, _, _], _, hbyte => exact congrArg (· ++ unpackBytes bytes) hbyte

/-- A table word of more than 4 bits is read as the local code that its low six bits spell (log 9). -/
theorem decodeTableWord_localCode {nbits w : Nat} (h4 : 4 < nbits) (h8 : nbits ≤ 8) (hw : w < 256) :
    decodeTableWord nbits w = some (decodeCode .w32 (BitVec.ofNat 6 w)) := by
  have hbits : (tableBits [] w).length = 8 := by simp [tableBits, codeWord]
  simp only [decodeTableWord, Nat.not_le.2 h4, h8, hw, tableBytes, unpackBytes_packBits hbits, if_false, and_self,
    if_true]
  simp only [tableBits, codeWord, List.append_assoc, parseCodeWord_bitsOf]

/-- Settles O1: a host word is its opcode's row, a local word its code's row (`decodeTableWord_localCode`), and the two
bit strings are the code words of an escape and of a code that is none. -/
theorem writtenOutWordsDecode : Obligations.WrittenOutWordsDecode := by
  unfold Obligations.WrittenOutWordsDecode
  have localWord {w : Nat} (hw : w < 256) := decodeTableWord_localCode (nbits := 6) (by decide) (by decide) hw
  exact ⟨rfl, rfl, rfl, localWord (by decide), localWord (by decide), localWord (by decide), localWord (by decide),
    localWord (by decide), rfl, rfl, parseCodeWord_codeWord [20, 32] 32 [], parseCodeWord_codeWord [20, 32] 43 []⟩

/-! ### Reserved codes -/

/-- Codes 23 to 31 and 44 to 63 (30_encoding R112). -/
def Reserved (c : Code) : Prop :=
  (23 ≤ c.toNat ∧ c.toNat ≤ 31) ∨ 44 ≤ c.toNat

/-- No position allows a reserved code (47_stream_engine R331). -/
theorem Reserved.not_allowedAt {c : Code} (h : Reserved c) (k : Phase) (npts : Nat) : allowedAt k npts c = false := by
  unfold Reserved at h
  cases k <;> simp only [allowedAt, Bool.or_eq_false_iff, Bool.and_eq_false_iff, decide_eq_false_iff_not] <;> omega

/-- A reserved row means its code, which is a reserved one (30_encoding R112). -/
theorem exec_reserved {i : Instr} (h : i = .reserved23 ∨ (∃ low, i = .reserved24to31 low) ∨
    (∃ low, i = .reserved44to47 low) ∨ ∃ low, i = .reserved48to63 low) :
    ∃ c, Reserved c ∧ exec i = runReservedCode c := by
  obtain rfl | ⟨low, rfl⟩ | ⟨low, rfl⟩ | ⟨low, rfl⟩ := h
  · exact ⟨23, .inl (by decide), rfl⟩
  · exact ⟨0b011#3 ++ low, .inl (by revert low; decide), rfl⟩
  · exact ⟨0b1011#4 ++ low, .inr (by revert low; decide), rfl⟩
  · exact ⟨0b11#2 ++ low, .inr (by revert low; decide), rfl⟩

/-- Settles O28: the phase check refuses a reserved code at every position, and the error is taken where the decoder
stands. -/
theorem reservedCodesAreMalformed : Obligations.ReservedCodesAreMalformed := by
  unfold Obligations.ReservedCodesAreMalformed
  intro i hi s g hg
  obtain ⟨c, hc, hexec⟩ := exec_reserved hi
  rw [hexec]
  exact runCode_of_refused hg (hc.not_allowedAt _ _)

end Sys2Proof.Machine
end

section
/-!
PROOFS. How the code model adapts (40_code_model R145 to R153): the mode and the escapes that Adapt selects, the codes
after which it runs, and where a model that sees one code only ends.
-/

namespace Sys2Proof.Machine

/-! ### The sorted order of the codes -/

/-- The first two codes meet, and the winner goes on: the second one only with the greater count. -/
theorem firstByCount_cons_cons (count : Code → Nat) (b d : Code) (rest : List Code) :
    firstByCount count (b :: d :: rest) = firstByCount count ((if count b < count d then d else b) :: rest) := rfl

/-- Of ascending codes, the one that stands before all the others is the first of the sorted order (40_code_model
R148). -/
theorem CodeModel.firstByCount_eq {m : CodeModel} {codes : List Code} {a : Code} (hasc : codes.Pairwise (· < ·))
    (ha : a ∈ codes) (hfirst : ∀ c ∈ codes, c ≠ a → m.Before a c) : firstByCount m.count codes = a := by
  obtain ⟨b, rest, rfl⟩ := List.exists_cons_of_ne_nil (List.ne_nil_of_mem ha)
  induction rest generalizing b with
  | nil => exact (List.mem_singleton.1 ha).symm
  | cons d rest ih =>
    obtain ⟨hlt, hd⟩ := List.pairwise_cons.1 hasc
    have hbd : b < d := hlt d (by simp)
    rw [firstByCount_cons_cons]
    split
    · have hba : b ≠ a := by
        rintro rfl
        have := hfirst d (by simp) (BitVec.ne_of_lt hbd).symm
        omega
      exact ih d hd (List.mem_of_ne_of_mem hba.symm ha) fun c hc => hfirst c (.tail _ hc)
    · have hda : d ≠ a := by
        rintro rfl
        obtain h | ⟨-, h⟩ := hfirst b (by simp) (BitVec.ne_of_lt hbd)
        exacts [absurd h ‹_›, BitVec.lt_asymm h hbd]
      have hsub : (b :: rest).Sublist (b :: d :: rest) := by simp
      exact ih b (hasc.sublist hsub) (by simpa [hda.symm] using ha) fun c hc => hfirst c (hsub.subset hc)

theorem allCodes_pairwise : allCodes.Pairwise (· < ·) := by decide

/-- The three codes that stand before all the others, one after the other, are a1, a2 and a3 of 40_code_model R148. -/
theorem CodeModel.topThree_eq {m : CodeModel} {a1 a2 a3 : Code} (h1 : ∀ c, c ≠ a1 → m.Before a1 c)
    (h2 : ∀ c, c ≠ a1 → c ≠ a2 → m.Before a2 c) (h3 : ∀ c, c ≠ a1 → c ≠ a2 → c ≠ a3 → m.Before a3 c)
    (ne12 : a1 ≠ a2) (ne13 : a1 ≠ a3) (ne23 : a2 ≠ a3) : m.topThree = (a1, a2, a3) := by
  have asc2 := allCodes_pairwise.filter (· != a1)
  have first1 : firstByCount m.count allCodes = a1 :=
    firstByCount_eq allCodes_pairwise (mem_allCodes a1) fun c _ => h1 c
  have first2 : firstByCount m.count (allCodes.filter (· != a1)) = a2 :=
    firstByCount_eq asc2 (by simp [mem_allCodes, ne12.symm]) fun c hc => h2 c (by simpa [mem_allCodes] using hc)
  have first3 : firstByCount m.count ((allCodes.filter (· != a1)).filter (· != a2)) = a3 := by
    refine firstByCount_eq (asc2.filter _) (by simp [mem_allCodes, ne13.symm, ne23.symm]) fun c hc => ?_
    obtain ⟨hc2, hc1⟩ : c ≠ a2 ∧ c ≠ a1 := by simpa [mem_allCodes] using hc
    exact h3 c hc1 hc2
  simp only [topThree, first1, first2, first3]

/-! ### What Adapt selects -/

/-- The counters in the order of the codes. -/
theorem CodeModel.map_count_allCodes (m : CodeModel) : allCodes.map m.count = m.cnt.toList := by
  refine List.ext_getElem (by simp [allCodes]) fun i hi _ => ?_
  have hlt : i < 64 := by simpa [allCodes] using hi
  simp [allCodes, count, Nat.mod_eq_of_lt hlt]

theorem CodeModel.total_eq_sum (m : CodeModel) : m.total = (allCodes.map m.count).sum := by
  rw [map_count_allCodes, total]

/-- Everything Adapt can do, with the sizes that decide it (40_code_model R148, R149). -/
theorem CodeModel.adapt_spec {m : CodeModel} {a1 a2 a3 : Code} (h : m.topThree = (a1, a2, a3)) :
    let n1 := m.count a1
    let n2 := m.count a2
    let n3 := m.count a3
    let size1 := m.total * 6
    let size2 := n1 * 1 + (m.total - n1) * 7
    let size3 := n1 * 1 + n2 * 2 + (m.total - n1 - n2) * 8
    let size4 := n1 * 1 + n2 * 2 + n3 * 3 + (m.total - n1 - n2 - n3) * 9
    let cleared := { m with cnt := Vector.replicate 64 0, since := 0 }
    (size1 ≤ size2 ∧ size1 ≤ size3 ∧ size1 ≤ size4 ∧ m.adapt = { cleared with mode := .mode1 }) ∨
    (size2 < size1 ∧ size2 ≤ size3 ∧ size2 ≤ size4 ∧ m.adapt = { cleared with mode := .mode2, mode2_1 := a1 }) ∨
    (size3 < size1 ∧ size3 < size2 ∧ size3 ≤ size4 ∧
      m.adapt = { cleared with mode := .mode3, mode3_1 := a1, mode3_01 := a2 }) ∨
    (size4 < size1 ∧ size4 < size2 ∧ size4 < size3 ∧
      m.adapt = { cleared with mode := .mode4, mode4_1 := a1, mode4_01 := a2, mode4_001 := a3 }) := by
  intro n1 n2 n3 size1 size2 size3 size4 cleared
  have hmode : m.chosenMode = leastMode (size1, size2, size3, size4) := by rw [chosenMode, h]; rfl
  have hleast := leastMode_spec size1 size2 size3 size4
  rw [← hmode] at hleast
  obtain ⟨hm, ha⟩ | ⟨hm, ha⟩ | ⟨hm, ha⟩ | ⟨hm, ha⟩ := adapt_cases h <;>
    simp only [hm, reduceCtorEq, false_and, true_and, false_or, or_false] at hleast <;>
    obtain ⟨hfst, hsnd, hthd⟩ := hleast
  · exact .inl ⟨hfst, hsnd, hthd, ha⟩
  · exact .inr (.inl ⟨hfst, hsnd, hthd, ha⟩)
  · exact .inr (.inr (.inl ⟨hfst, hsnd, hthd, ha⟩))
  · exact .inr (.inr (.inr ⟨hfst, hsnd, hthd, ha⟩))

/-- Settles O12: the first three codes of the sorted order are the model's (`CodeModel.topThree_eq`), and Adapt compares
the sizes that they give (`CodeModel.adapt_spec`). -/
theorem adaptSelectsTheCheapestMode : Obligations.AdaptSelectsTheCheapestMode := by
  unfold Obligations.AdaptSelectsTheCheapestMode
  intro m a1 a2 a3 h1 h2 h3 ne12 ne13 ne23
  rw [← m.total_eq_sum]
  exact CodeModel.adapt_spec (CodeModel.topThree_eq h1 h2 h3 ne12 ne13 ne23)

/-! ### When Adapt runs -/

/-- The counter and the epoch of a model that has counted `n` codes since its creation (40_code_model R146). -/
structure CodeModel.Counted (n : Nat) (m : CodeModel) : Prop where
  since : m.since = if n < 6 then n else if n < 27 then n - 6 else (n - 27) % 101
  epoch : m.epoch = if n < 6 then 0 else if n < 27 then 1 else 2

theorem CodeModel.initial_counted : CodeModel.initial.Counted 0 := ⟨rfl, rfl⟩

/-- The code after `n` codes retrains the model when it is number 6, 27, 128 and so on (40_code_model R145, R146). -/
theorem CodeModel.Counted.updateStats_eq {n : Nat} {m : CodeModel} (h : m.Counted n) (c : Code) :
    m.updateStats c =
      if n + 1 = 6 then { m.countCode c with epoch := 1 }.adapt
      else if 27 ≤ n + 1 ∧ (n + 1 - 27) % 101 = 0 then { m.countCode c with epoch := 2 }.adapt
      else m.countCode c := by
  obtain ⟨hsince, hepoch⟩ := h
  obtain ⟨he, hs, hr⟩ | ⟨he, hs, hr⟩ | ⟨he, hs, hr⟩ | ⟨he, hs, hs2, hr⟩ := (m.countCode c).retrain_cases <;>
    rw [CodeModel.updateStats, hr] <;>
    simp only [countCode_since, countCode_epoch] at he hs
  · rw [if_pos (by grind)]
  · rw [if_neg (by grind), if_pos (by grind)]
  · have hsame : { m.countCode c with epoch := 2 } = m.countCode c := by rw [← he]; rfl
    rw [if_neg (by grind), if_pos (by grind), hsame]
  · simp only [countCode_since, countCode_epoch] at hs2
    rw [if_neg (by grind), if_neg (by grind)]

theorem CodeModel.Counted.updateStats {n : Nat} {m : CodeModel} (h : m.Counted n) (c : Code) :
    (m.updateStats c).Counted (n + 1) := by
  rw [h.updateStats_eq]
  obtain ⟨hsince, hepoch⟩ := h
  split_ifs with h6 h27
  · obtain ⟨-, hs, he⟩ := CodeModel.adapt_statistics { m.countCode c with epoch := 1 }
    exact ⟨by rw [hs]; grind, by rw [he]; grind⟩
  · obtain ⟨-, hs, he⟩ := CodeModel.adapt_statistics { m.countCode c with epoch := 2 }
    exact ⟨by rw [hs]; grind, by rw [he]; grind⟩
  · exact ⟨by rw [countCode_since]; grind, by rw [countCode_epoch]; grind⟩

theorem CodeModel.counted_foldl (cs : List Code) :
    (cs.foldl CodeModel.updateStats CodeModel.initial).Counted cs.length := by
  induction cs using List.reverseRecOn with
  | nil => exact initial_counted
  | append_singleton cs c ih =>
    rw [List.foldl_concat, List.length_append]
    exact ih.updateStats c

/-- Settles O11: the counter and the epoch after each code (`CodeModel.counted_foldl`) say when the thresholds of R145
are met. -/
theorem retrainsAfterCodes6And27And128 : Obligations.RetrainsAfterCodes6And27And128 := by
  unfold Obligations.RetrainsAfterCodes6And27And128
  intro cs c m n
  have h : m.Counted cs.length := CodeModel.counted_foldl cs
  exact ⟨by rw [h.since]; grind, h.updateStats_eq c⟩

/-! ### One code only -/

/-- Since its last retrain the model has counted code `c` only (40_code_model R153). -/
structure CodeModel.CountsOnly (c : Code) (m : CodeModel) : Prop where
  self : m.count c = m.total
  other : ∀ d, d ≠ c → m.count d = 0

theorem CodeModel.count_of_cleared {m : CodeModel} (h : m.cnt = Vector.replicate 64 0) (c : Code) : m.count c = 0 := by
  simp [count, h]

/-- A model without statistics has counted no other code than `c`. -/
theorem CodeModel.countsOnly_of_cleared {m : CodeModel} (h : m.cnt = Vector.replicate 64 0) (c : Code) :
    m.CountsOnly c :=
  ⟨by rw [count_of_cleared h, total, h, total_cleared], fun d _ => count_of_cleared h d⟩

theorem CodeModel.adapt_cnt (m : CodeModel) : m.adapt.cnt = Vector.replicate 64 0 := by
  obtain ⟨⟨a1, a2, a3⟩, h⟩ : ∃ a, m.topThree = a := ⟨_, rfl⟩
  obtain ⟨-, ha⟩ | ⟨-, ha⟩ | ⟨-, ha⟩ | ⟨-, ha⟩ := adapt_cases h <;> rw [ha]

/-- Counting a code raises its counter by one and leaves the others (40_code_model R145). -/
theorem CodeModel.countCode_count (m : CodeModel) (c d : Code) :
    (m.countCode c).count d = if d = c then m.count d + 1 else m.count d := by
  by_cases hd : d = c
  · subst hd
    simp [count]
  · have hne : c.toNat ≠ d.toNat := fun h => hd (BitVec.eq_of_toNat_eq h.symm)
    simp [count, hd, hne]

theorem CodeModel.CountsOnly.countCode {c : Code} {m : CodeModel} (h : m.CountsOnly c) :
    (m.countCode c).CountsOnly c where
  self := by rw [countCode_count, if_pos rfl, countCode_total, h.self]
  other d hd := by rw [countCode_count, if_neg hd, h.other d hd]

/-- When `c` alone was counted, mode 2 with escape `c` costs one bit a code, and no mode costs less (40_code_model
R148, R153). -/
theorem CodeModel.CountsOnly.adapt_mode2 {c : Code} {m : CodeModel} (h : m.CountsOnly c) (hpos : 0 < m.total) :
    m.adapt.mode = .mode2 ∧ m.adapt.mode2_1 = c := by
  obtain ⟨⟨a1, a2, a3⟩, htop⟩ : ∃ a, m.topThree = a := ⟨_, rfl⟩
  obtain ⟨ne21, -, -, -, le32⟩ := topThree_spec htop
  have hfirst : firstByCount m.count allCodes = c :=
    firstByCount_eq allCodes_pairwise (mem_allCodes c) fun d _ hd => .inl (by rw [h.other d hd, h.self]; exact hpos)
  obtain rfl : c = a1 := hfirst.symm.trans (congrArg Prod.fst htop)
  have h1 := h.self
  have h2 := h.other a2 ne21
  obtain ⟨_, _, _, -⟩ | ⟨-, -, -, ha⟩ | ⟨_, _, _, -⟩ | ⟨_, _, _, -⟩ := adapt_spec htop
  · omega
  · exact ⟨by rw [ha], by rw [ha]⟩
  · omega
  · omega

/-- A retrain after one more code `c`, in whatever epoch. -/
theorem CodeModel.CountsOnly.retrained {c : Code} {m : CodeModel} (h : m.CountsOnly c) (epoch : Nat) :
    let m' := { m.countCode c with epoch := epoch }.adapt
    m'.CountsOnly c ∧ m'.mode = .mode2 ∧ m'.mode2_1 = c := by
  have honly : CountsOnly c { m.countCode c with epoch := epoch } := ⟨h.countCode.self, h.countCode.other⟩
  have hpos : 0 < (m.countCode c).total := by rw [countCode_total]; omega
  exact ⟨countsOnly_of_cleared (adapt_cnt _) c, honly.adapt_mode2 hpos⟩

/-- The model after `n` codes `c` (40_code_model R153). -/
theorem CodeModel.replicate_mode (c : Code) (n : Nat) :
    let m := (List.replicate n c).foldl CodeModel.updateStats CodeModel.initial
    m.CountsOnly c ∧ (n < 6 → m.mode = .mode1) ∧ (6 ≤ n → m.mode = .mode2 ∧ m.mode2_1 = c) := by
  induction n with
  | zero => exact ⟨countsOnly_of_cleared rfl c, fun _ => rfl, fun h => absurd h (by decide)⟩
  | succ n ih =>
    have hcounted := counted_foldl (List.replicate n c)
    rw [List.length_replicate] at hcounted
    rw [List.replicate_succ', List.foldl_concat, hcounted.updateStats_eq]
    obtain ⟨honly, hmode1, hmode2⟩ := ih
    split_ifs with h6 h27
    · obtain ⟨honly', hmode'⟩ := honly.retrained 1
      exact ⟨honly', fun h => by omega, fun _ => hmode'⟩
    · obtain ⟨honly', hmode'⟩ := honly.retrained 2
      exact ⟨honly', fun h => by omega, fun _ => hmode'⟩
    · exact ⟨honly.countCode, fun h => hmode1 (by omega), fun h => hmode2 (by omega)⟩

/-- Settles O14: until the sixth code the model is the initial one but for its statistics, and every retrain from then
on sees `c` alone (`CodeModel.replicate_mode`). -/
theorem repeatedCodeConvergesToOneBit : Obligations.RepeatedCodeConvergesToOneBit := by
  unfold Obligations.RepeatedCodeConvergesToOneBit
  intro c n m
  obtain ⟨-, hmode1, hmode2⟩ := CodeModel.replicate_mode c n
  refine ⟨fun hn => ?_, fun hn => ?_⟩
  · have hm : m.mode = .mode1 := hmode1 hn
    exact ⟨hm, by rw [CodeModel.codeLength, hm]⟩
  · obtain ⟨hm, hc⟩ : m.mode = .mode2 ∧ m.mode2_1 = c := hmode2 hn
    exact ⟨hm, hc, by rw [CodeModel.codeLength, hm]; exact if_pos hc.symm⟩

end Sys2Proof.Machine
end

section
/-!
PROOFS. Reading and writing a code with its model (40_code_model R141 to R144): the length of the code word, and the
model that is used and counts the code.
-/

namespace Sys2Proof.Machine

/-! ### The length of a code word -/

theorem codeWord_nil_length (c : Code) : (codeWord [] c).length = 6 :=
  bitsOf_length c

/-- The pattern of the first escape is one bit, and every other word has one bit more than without that escape
(30_encoding R102). -/
theorem codeWord_cons_length (e : Code) (es : List Code) (c : Code) :
    (codeWord (e :: es) c).length = if c = e then 1 else (codeWord es c).length + 1 := by
  rw [codeWord]
  split <;> rfl

/-- CodeLength(M, c) is the length of the code word (40_code_model R144). -/
theorem CodeModel.codeWord_length (m : CodeModel) (c : Code) : (codeWord m.escapes c).length = m.codeLength c := by
  cases hm : m.mode <;>
    simp only [escapes, codeLength, hm, codeWord_cons_length, codeWord_nil_length] <;>
    split_ifs <;> rfl

/-- The reader takes a code word that the unread bits begin with (40_code_model R142). -/
theorem Dec.readCodeWord_of_codeWord {es : List Code} {c : Code} {d : Dec} {rest : List Bool} (hcnt : d.rcnt ≤ 8)
    (h : d.unreadBits = codeWord es c ++ rest) : ∃ d', Dec.readCodeWord es d = .ok c d' ∧ d'.unreadBits = rest := by
  have hmatch := codeWordReaderMatchesTheParse es d hcnt
  rw [h, parseCodeWord_codeWord] at hmatch
  obtain ⟨d', hread, -, hrest⟩ := hmatch
  exact ⟨d', hread, hrest⟩

/-- Settles O4: CodeLength is the length of the code word (`CodeModel.codeWord_length`), which is what WriteCode writes
and what the reader takes (`Dec.readCodeWord_of_codeWord`). -/
theorem codeWordLengthByMode : Obligations.CodeWordLengthByMode := by
  unfold Obligations.CodeWordLengthByMode
  refine fun m c => ⟨rfl, m.codeWord_length c, ?_, fun d rest => Dec.readCodeWord_of_codeWord⟩
  rintro e rfl
  rfl

/-! ### The current model -/

theorem Stream.target?_of_empty {st : Stream} (h : st.pts = []) : st.target? = none := by
  rw [target?, h]; rfl

theorem Stream.curModel_of_empty {st : Stream} (h : st.pts = []) : st.curModel = st.boot := by
  rw [curModel, target?_of_empty h]

theorem Stream.curModel_of_target {st : Stream} {p : Point} (h : st.target? = some p) : st.curModel = p.model := by
  rw [curModel, h]

/-- While no point exists a code is counted in S.boot (40_code_model R141). -/
theorem Stream.countCode_of_empty {st : Stream} (h : st.pts = []) (c : Code) :
    st.countCode c = { st with boot := st.boot.updateStats c } := by
  rw [countCode, target?_of_empty h]

/-- A code is counted in the model of the point at the cursor, and no other point changes (40_code_model R141). -/
theorem Stream.countCode_of_target {st : Stream} {p : Point} (h : st.pts[st.cursor.toNat]? = some p) (c : Code) :
    st.countCode c =
      { st with pts := st.pts.set st.cursor.toNat { p with model := p.model.updateStats c } } := by
  have htarget : st.target? = some p := h
  rw [countCode, htarget]
  simp [mapTarget, List.modify_eq_set_getElem?, h]

/-- Settles O15: reading and writing both take CurModel(), and `Stream.countCode` counts the code there. -/
theorem codeIsCountedInTheCurrentModel : Obligations.CodeIsCountedInTheCurrentModel := by
  unfold Obligations.CodeIsCountedInTheCurrentModel
  refine ⟨fun d d' c hread => ?_, fun e c => ⟨fun hnone => ?_, fun p hp => ?_⟩⟩
  · obtain ⟨d1, hword, rfl⟩ := Dec.readCode_eq_ok hread
    refine ⟨fun hnone => ⟨d1, ?_, ?_⟩, fun p hp => ⟨d1, ?_, ?_⟩⟩
    · rwa [← Stream.curModel_of_empty hnone]
    · rw [Stream.countCode_of_empty hnone]
    · rwa [← Stream.curModel_of_target hp]
    · rw [Stream.countCode_of_target hp]
  · rw [Enc.writeCode, Stream.curModel_of_empty hnone, Stream.countCode_of_empty hnone]
  · rw [Enc.writeCode, Stream.curModel_of_target hp, Stream.countCode_of_target hp]

end Sys2Proof.Machine
end

section
/-!
PROOFS. The ID codes (41_point_id R180, R181, R184 to R190): the payload is XORed into the cursor, and CheckCursor asks
whether that names a registered point.
-/

namespace Sys2Proof.Machine

/-- CheckCursor at a cursor that names a point (41_point_id R181). -/
theorem Dec.checkCursor_registered {d : Dec} (h : d.stream.cursor.toNat < d.stream.pts.length) :
    d.checkCursor = .ok () d :=
  if_neg (Nat.not_le_of_lt h)

/-- CheckCursor at a cursor that names no point. -/
theorem Dec.checkCursor_unregistered {d : Dec} (h : d.stream.pts.length ≤ d.stream.cursor.toNat) :
    d.checkCursor = .raised .malformedStream d :=
  if_pos h

/-- DecodeId moves the read cursor and the point cursor, and then asks CheckCursor (41_point_id R180). -/
theorem Dec.decodeId_of_readXor {w : Nat} {d d' : Dec} {x : BitVec w} (hread : d.readXor w = .ok x d') :
    d.decodeId w = { d.movedTo d' with stream := d.stream.moveCursor (x.setWidth 32) }.checkCursor := by
  have hmoved : d' = d.movedTo d' := by simpa [hread] using (Dec.readXor_law w d).moved
  rw [Dec.decodeId, hread, ReadResult.bind_ok, hmoved]
  rfl

/-- Settles O19: every ID code is allowed at the start of a record, so it answers what CheckCursor says of the moved
cursor (`Dec.decodeId_of_readXor`). -/
theorem pointIdCodesMoveTheCursor : Obligations.PointIdCodesMoveTheCursor := by
  unfold Obligations.PointIdCodesMoveTheCursor
  intro i w hi s g x d' hg hphase hne hread
  obtain ⟨c, hc, hexec⟩ := exec_idCode hi
  have hallowed : allowedAt g.phase s.dec.stream.pts.length c = true :=
    hphase ▸ allowedAt_start (List.length_pos_iff.2 hne) (idCodes_range hc)
  have hbody := Dec.decodeId_of_readXor hread
  rw [hexec]
  refine ⟨fun hlt => ?_, fun hge => ?_⟩
  · exact runCode_of_ok hg hallowed (hbody.trans (Dec.checkCursor_registered hlt))
  · have hrun : runIdCode c w s = _ := runCode_of_raised hg hallowed (hbody.trans (Dec.checkCursor_unregistered hge))
    rw [hrun, State.takeDecError, Dec.faultRecord, hphase]
    rfl

end Sys2Proof.Machine
end

section
/-!
PROOFS. What ENC_WRITE sends (47_stream_engine R356): each phase of the encoder is the equation that its rule gives
(41_point_id R182, 42_timestamp R213, 43_quality R234, 44_value32 R265, 45_value64 R283).
-/

namespace Sys2Proof.Machine

/-! ### The lowest time code that applies -/

/-- A chain of tests over codes one after the other ends at the least code that passes: each test that fails raises the
lower bound by one. -/
theorem isLeast_ite {P : Code → Prop} {k x : Code} {b : Prop} [Decidable b] (hb : b ↔ P k)
    (hlow : ∀ c, P c → k.toNat ≤ c.toNat) (hx : (∀ c, P c → k.toNat + 1 ≤ c.toNat) → IsLeast {c | P c} x) :
    IsLeast {c | P c} (if b then k else x) := by
  split
  · rename_i h
    exact ⟨hb.1 h, hlow⟩
  · rename_i h
    refine hx fun c hc => Nat.lt_of_le_of_ne (hlow c hc) fun hkc => h (hb.2 ?_)
    rwa [BitVec.eq_of_toNat_eq hkc]

theorem slotApplies_iff {slot moved ts : Word64} : slotApplies slot moved ts = true ↔ slot ≠ i64Max ∧ moved = ts := by
  simp [slotApplies]

theorem Stream.timeCodeApplies_ge {st : Stream} {ts : Word64} {c : Code} (h : st.timeCodeApplies ts c) :
    11 ≤ c.toNat := by
  unfold Stream.timeCodeApplies at h
  split at h
  case h_11 => exact h.elim
  all_goals omega

/-- The encoder takes the lowest time code that applies (42_timestamp R213). -/
theorem chooseTimeCode_isLeast (st : Stream) (ts : Word64) :
    IsLeast {c | st.timeCodeApplies ts c} (chooseTimeCode st ts) := by
  unfold chooseTimeCode
  refine isLeast_ite slotApplies_iff (fun _ => Stream.timeCodeApplies_ge) fun h12 => ?_
  refine isLeast_ite slotApplies_iff h12 fun h13 => ?_
  refine isLeast_ite slotApplies_iff h13 fun h14 => ?_
  refine isLeast_ite slotApplies_iff h14 fun h15 => ?_
  refine isLeast_ite slotApplies_iff h15 fun h16 => ?_
  refine isLeast_ite slotApplies_iff h16 fun h17 => ?_
  refine isLeast_ite slotApplies_iff h17 fun h18 => ?_
  refine isLeast_ite slotApplies_iff h18 fun h19 => ?_
  exact isLeast_ite Iff.rfl h19 fun h20 => ⟨trivial, h20⟩

/-! ### The phases -/

theorem encodeId_sends (id : Word32) (r : EncRun) : r.enc.SendsId id (encodeId id r).enc := by
  unfold Enc.SendsId
  obtain ⟨h, he⟩ | ⟨h, c, w, hw, he⟩ := encodeId_cases id r <;> rw [he]
  · rw [if_pos h]
  · rw [if_neg h]
    exact ⟨c, w, hw, rfl⟩

theorem encodeTime_sends (ts : Word64) (r : EncRun) : r.enc.SendsTime ts (encodeTime ts r).enc := by
  obtain ⟨happlies, hleast⟩ := chooseTimeCode_isLeast r.enc.stream ts
  unfold Enc.SendsTime
  obtain ⟨h, he⟩ | ⟨h, hc, he⟩ | ⟨h, hc, he⟩ := encodeTime_cases ts r <;> rw [he]
  · rw [if_pos h]
  · rw [hc] at happlies hleast
    rw [if_neg h]
    exact ⟨20, happlies, hleast, rfl⟩
  · rw [if_neg h]
    exact ⟨_, happlies, hleast, by rw [if_neg hc]; rfl⟩

theorem encodeQuality_sends (p : Point) (q : Word32) (r : EncRun) :
    r.enc.SendsQuality p q (encodeQuality p q r).enc := by
  unfold Enc.SendsQuality
  dsimp only
  obtain ⟨h, he⟩ | ⟨h, h2, he⟩ | ⟨h, h2, he⟩ := encodeQuality_cases p q r <;> rw [he]
  · rw [if_pos h]
  · rw [if_neg h, if_pos h2]
    rfl
  · rw [if_neg h, if_neg h2]
    rfl

/-- The value phase never fails (44_value32 R266). The hypothesis says that the coder's code for a width is that of the
list `codes`; `leastWidth_value32` and `leastWidth_value64` are the two coders'. -/
theorem encodeValue_sends {n : Nat} {codes : List (Code × Nat)} {widths : List Nat} {unit : Nat}
    (hcodes : ∀ x, x < 2 ^ n →
      LeastWidth codes x (BitVec.ofNat 6 (35 + leastWidth widths x / unit)) (leastWidth widths x))
    (wrap : History n → PointValues) (h : History n) (v : BitVec n) (r : EncRun) :
    ∃ r', encodeValue widths unit wrap h v r = .done r' ∧ r.enc.SendsValue codes wrap h v r'.enc := by
  unfold Enc.SendsValue History.afterWrite
  dsimp only
  obtain ⟨h1, he⟩ | ⟨h1, h0, he⟩ | ⟨h1, h0, h2, he⟩ | ⟨h1, h0, h2, h3, he⟩ | ⟨h1, h0, h2, h3, he⟩ :=
    encodeValue_cases widths unit wrap h v r <;> refine ⟨_, he, ?_⟩
  · simp only [if_pos h1]
    rfl
  · simp only [if_neg h1, if_pos h0]
    rfl
  · simp only [if_neg h1, if_neg h0, if_pos h2]
    rfl
  · simp only [if_neg h1, if_neg h0, if_neg h2, if_pos h3]
    rfl
  · simp only [if_neg h1, if_neg h0, if_neg h2, if_neg h3]
    exact ⟨_, _, hcodes _ (BitVec.isLt _), rfl⟩

/-- ENC_WRITE for a registered point and a value of its type: after the phases before the value it sends the value and
ends with the capacity check. -/
theorem State.encWrite_sendsValue {s : State} {id : Word32} {p : Point} {value : Value}
    (hp : s.enc.stream.pts[id.toNat]? = some p) (htag : value.tag = p.type) (ts : Word64) (q : Word32) :
    ∃ e', (encodePhases id ts q p (.start s.enc)).enc.SendsValueOf p value e' ∧
      s.encWrite id ts q value = s.finishEnc e' .ok := by
  unfold Enc.SendsValueOf State.encWrite
  simp only [hp, Point.type] at htag ⊢
  cases hv : p.values with
  | narrow t h =>
    cases value with
    | narrow t' v =>
      obtain rfl : t' = t := by simpa [hv, PointValues.type, Value.tag] using htag
      obtain ⟨r', he, hsends⟩ := encodeValue_sends (fun _ => leastWidth_value32) (.narrow t') h v
        (encodePhases id ts q p (.start s.enc))
      refine ⟨r'.enc, hsends, ?_⟩
      simp only [if_true, encodeValue32, he, State.finishWrite]
    | wide t' v => simp [hv, PointValues.type, Value.tag] at htag
  | wide t h =>
    cases value with
    | wide t' v =>
      obtain rfl : t' = t := by simpa [hv, PointValues.type, Value.tag] using htag
      obtain ⟨r', he, hsends⟩ := encodeValue_sends (fun _ => leastWidth_value64) (.wide t') h v
        (encodePhases id ts q p (.start s.enc))
      refine ⟨r'.enc, hsends, ?_⟩
      simp only [if_true, encodeValue64, he, State.finishWrite]
    | narrow t' v => simp [hv, PointValues.type, Value.tag] at htag

/-- ENC_WRITE for a registered point and a value of its type: the four phases, then the capacity check. -/
theorem State.encWrite_sends {s : State} {id : Word32} {p : Point} {value : Value}
    (hp : s.enc.stream.pts[id.toNat]? = some p) (htag : value.tag = p.type) (ts : Word64) (q : Word32) :
    ∃ e1 e2 e3 e' : Enc, s.enc.SendsId id e1 ∧ e1.SendsTime ts e2 ∧ e2.SendsQuality p q e3 ∧
      e3.SendsValueOf p value e' ∧ s.encWrite id ts q value = s.finishEnc e' .ok := by
  obtain ⟨e', hvalue, hrun⟩ := State.encWrite_sendsValue hp htag ts q
  exact ⟨_, _, _, e', encodeId_sends id (.start s.enc), encodeTime_sends ts _, encodeQuality_sends p q _, hvalue, hrun⟩

end Sys2Proof.Machine
end

section
/-!
PROOFS. How much ENC_WRITE writes (20_memory R69 to R75, 47_stream_engine R354): the bits of a code word and of its
payload add up, and forty bytes hold the longest record.
-/

namespace Sys2Proof.Machine

/-! ### The length in bits -/

/-- The bits written so far: those of the output but the ones of the reserved byte that are still to come (20_memory
R69, R70). -/
def Enc.bitLength (e : Enc) : Nat :=
  8 * e.out.length - (if e.wcnt = 0 then 0 else 8 - e.wcnt)

/-- The write state stays in range and at most `n` bits are written. -/
def Enc.Adds (n : Nat) (e e' : Enc) : Prop :=
  e.Ranges → e'.Ranges ∧ e'.bitLength ≤ e.bitLength + n

theorem Enc.Adds.refl (n : Nat) (e : Enc) : e.Adds n e :=
  fun hr => ⟨hr, Nat.le_add_right _ _⟩

theorem Enc.Adds.trans {m n : Nat} {e e' e'' : Enc} (h : e.Adds m e') (h' : e'.Adds n e'') : e.Adds (m + n) e'' := by
  intro hr
  obtain ⟨hr', hle⟩ := h hr
  obtain ⟨hr'', hle'⟩ := h' hr'
  exact ⟨hr'', by omega⟩

theorem Enc.Adds.mono {m n : Nat} {e e' : Enc} (h : e.Adds m e') (hmn : m ≤ n) : e.Adds n e' := by
  intro hr
  obtain ⟨hr', hle⟩ := h hr
  exact ⟨hr', by omega⟩

/-- The footprint is the bit length, rounded up to whole bytes, and a byte in hand while bits are pending
(47_stream_engine R354). -/
theorem Enc.footprint_le_of_bitLength {n : Nat} {e e' : Enc} (hr : e.Ranges) (h : e.Adds n e') :
    8 * e'.footprint ≤ 8 * e.footprint + n + 15 := by
  obtain ⟨hr', hle⟩ := h hr
  have hslot := hr'.slot_lt
  unfold Enc.bitLength at hle
  unfold Enc.footprint
  split_ifs at hle ⊢ <;> omega

theorem Enc.writeBit_adds (e : Enc) (b : Bool) : e.Adds 1 (e.writeBit b) := by
  refine fun hr => ⟨Enc.writeBit_ranges hr b, ?_⟩
  have hslot := hr.slot_lt
  unfold Enc.bitLength
  obtain ⟨h0, he⟩ | ⟨hpos, -, he⟩ | ⟨h7, he⟩ := Enc.writeBit_cases hr b <;> rw [he]
  · simp [h0]; omega
  · simp [hpos.ne']; omega
  · simp [h7]; omega

theorem Enc.writeBitString_adds (bits : List Bool) (e : Enc) : e.Adds bits.length (e.writeBitString bits) := by
  induction bits generalizing e with
  | nil => exact .refl 0 e
  | cons b bits ih => exact ((e.writeBit_adds b).trans (ih _)).mono (by rw [List.length_cons, Nat.add_comm])

theorem Enc.writeBytes_adds (bs : List Byte) (e : Enc) : e.Adds (8 * bs.length) (e.writeBytes bs) := by
  refine fun hr => ⟨Enc.writeBytes_ranges hr bs, ?_⟩
  rw [Enc.writeBytes_eq]
  simp only [Enc.bitLength, List.length_append]
  omega

/-! ### Codes and payloads -/

theorem CodeModel.codeLength_le (m : CodeModel) (c : Code) : m.codeLength c ≤ 9 := by
  unfold CodeModel.codeLength
  split
  · decide
  all_goals split_ifs <;> decide

/-- A code word takes at most nine bits (40_code_model R144). -/
theorem Enc.writeCode_adds (c : Code) (e : Enc) : e.Adds 9 (e.writeCode c) := by
  have hlen := (e.stream.curModel.codeWord_length c).trans_le (e.stream.curModel.codeLength_le c)
  intro hr
  obtain ⟨-, hle⟩ := (Enc.writeBitString_adds (codeWord e.stream.curModel.escapes c) e).mono hlen hr
  exact ⟨Enc.writeCode_ranges hr c, hle⟩

/-- What the payload of a code does to the encoder: it writes at most `n` bits. -/
structure Enc.Payload (n : Nat) (write : Enc → Enc) : Prop where
  adds : ∀ e : Enc, e.Adds n (write e)
  stream : ∀ e : Enc, (write e).stream = e.stream
  err : ∀ e, (write e).err = e.err
  finfo : ∀ e, (write e).finfo = e.finfo

theorem Enc.Payload.none (n : Nat) : Enc.Payload n fun e => e :=
  ⟨Enc.Adds.refl n, fun _ => rfl, fun _ => rfl, fun _ => rfl⟩

/-- A varint takes at most ten bytes (20_memory R74). -/
theorem Enc.Payload.varint {n : Nat} (hn0 : 0 < n) (hn : n ≤ 64) (v : BitVec n) :
    Enc.Payload 80 (Enc.writeVarint v) where
  adds e := by
    have hlimit : 2 ^ n ≤ 128 ^ 10 := (Nat.pow_le_pow_right (by decide) hn).trans (by decide)
    have hlen := varintBytes_length_le hn0 hn hlimit v
    exact (Enc.writeBytes_adds (varintBytes v) e).mono (by omega)
  stream := Enc.writeVarint_stream v
  err := Enc.writeVarint_err v
  finfo := Enc.writeVarint_finfo v

/-- An XOR payload takes the bits of its width (20_memory R75). -/
theorem Enc.Payload.xor {w n : Nat} (hw : w ≤ n) (x : BitVec w) : Enc.Payload n (Enc.writeXor x) where
  adds e := by
    unfold Enc.writeXor
    split
    · refine ((Enc.writeBitString_adds _ e).trans (Enc.writeBytes_adds _ _)).mono ?_
      rw [bitsOf_length, xorBytes_length]
      omega
    · refine (Enc.writeBytes_adds _ e).mono ?_
      rw [xorBytes_length]
      omega
  stream := Enc.writeXor_stream x
  err := Enc.writeXor_err x
  finfo := Enc.writeXor_finfo x

/-! ### What a phase sends -/

/-- A code was sent with a payload of at most `n` bits, and `change` made of the stream state. -/
def Enc.Sent (n : Nat) (change : Stream → Stream) (e e' : Enc) : Prop :=
  ∃ c payload, Enc.Payload n payload ∧ e' = e.sends c payload change

/-- What every phase leaves alone, with the bits it may write. -/
structure Enc.Phase (n : Nat) (e e' : Enc) : Prop where
  adds : e.Adds n e'
  err : e'.err = e.err
  finfo : e'.finfo = e.finfo

theorem Enc.Phase.refl (n : Nat) (e : Enc) : e.Phase n e :=
  ⟨.refl n e, rfl, rfl⟩

theorem Enc.Phase.trans {m n : Nat} {e e' e'' : Enc} (h : e.Phase m e') (h' : e'.Phase n e'') :
    e.Phase (m + n) e'' :=
  ⟨h.adds.trans h'.adds, h'.err.trans h.err, h'.finfo.trans h.finfo⟩

theorem Enc.Sent.phase {n : Nat} {change : Stream → Stream} {e e' : Enc} (h : e.Sent n change e') :
    e.Phase (9 + n) e' := by
  obtain ⟨c, payload, hpay, rfl⟩ := h
  refine ⟨fun hr => ?_, (hpay.err _).trans (e.writeCode_err c), (hpay.finfo _).trans (e.writeCode_finfo c)⟩
  obtain ⟨hr', hle⟩ := (Enc.writeCode_adds c e).trans (hpay.adds _) hr
  exact ⟨⟨hr'.wcnt_le, hr'.slot_lt⟩, hle⟩

/-- A phase counts its code and then makes its change (47_stream_engine R356). -/
theorem Enc.Sent.stream {n : Nat} {change : Stream → Stream} {e e' : Enc} (h : e.Sent n change e') :
    ∃ c, e'.stream = change (e.stream.countCode c) := by
  obtain ⟨c, payload, hpay, rfl⟩ := h
  exact ⟨c, congrArg change (hpay.stream _)⟩

theorem Enc.SendsId.sent {id : Word32} {e e' : Enc} (h : e.SendsId id e') :
    (id = e.stream.cursor ∧ e' = e) ∨
      (id ≠ e.stream.cursor ∧ e.Sent 32 (fun st => { st with cursor := id }) e') := by
  unfold Enc.SendsId at h
  split at h
  case isTrue hid => exact .inl ⟨hid, h⟩
  case isFalse hid =>
    obtain ⟨c, w, ⟨hmem, -, -⟩, rfl⟩ := h
    have hw : w ≤ 32 := (by decide : ∀ p ∈ idCodes, p.2 ≤ 32) _ hmem
    exact .inr ⟨hid, c, _, .xor hw _, rfl⟩

theorem Enc.SendsTime.sent {ts : Word64} {e e' : Enc} (h : e.SendsTime ts e') :
    (ts = e.stream.t1 ∧ e' = e) ∨ (ts ≠ e.stream.t1 ∧ e.Sent 80 (Stream.updateTime ts) e') := by
  unfold Enc.SendsTime at h
  split at h
  case isTrue hts => exact .inl ⟨hts, h⟩
  case isFalse hts =>
    obtain ⟨c, -, -, rfl⟩ := h
    refine .inr ⟨hts, c, _, ?_, rfl⟩
    split
    · exact .varint (by decide) (by decide) _
    · exact .none 80

theorem Enc.SendsQuality.sent {p : Point} {q : Word32} {e e' : Enc} (h : e.SendsQuality p q e') :
    (q = p.q1 ∧ e' = e) ∨ (q ≠ p.q1 ∧ e.Sent 80 (Stream.updateQuality q) e') := by
  unfold Enc.SendsQuality at h
  dsimp only at h
  split_ifs at h with hq hq2
  · exact .inl ⟨hq, h⟩
  · exact .inr ⟨hq, 21, _, .none 80, h⟩
  · exact .inr ⟨hq, 22, _, .varint (by decide) (by decide) q, h⟩

theorem Enc.SendsValue.sent {n : Nat} {codes : List (Code × Nat)} (hcodes : ∀ p ∈ codes, p.2 ≤ 64)
    {wrap : History n → PointValues} {h : History n} {v : BitVec n} {e e' : Enc}
    (hsends : e.SendsValue codes wrap h v e') : e.Sent 64 (Stream.setValues (wrap (h.afterWrite v))) e' := by
  unfold Enc.SendsValue at hsends
  dsimp only at hsends
  split_ifs at hsends
  case neg =>
    obtain ⟨c, w, ⟨hmem, -, -⟩, rfl⟩ := hsends
    exact ⟨c, _, .xor (hcodes _ hmem) _, rfl⟩
  all_goals exact ⟨_, _, .none 64, hsends⟩

theorem Enc.SendsValueOf.sent {p : Point} {value : Value} {e e' : Enc} (h : e.SendsValueOf p value e') :
    e.Sent 64 (Stream.setValues (p.values.afterWrite value)) e' := by
  unfold Enc.SendsValueOf at h
  split at h
  case h_1 tag hist _ v hv => rw [hv]; exact h.sent (by decide)
  case h_2 tag hist _ v hv => rw [hv]; exact h.sent (by decide)
  case h_3 => exact h.elim
  case h_4 => exact h.elim

/-- The longest record: four code words, an ID, two varints and a value. -/
theorem Enc.record_phase {id : Word32} {ts : Word64} {p : Point} {q : Word32} {value : Value} {e e1 e2 e3 e' : Enc}
    (hid : e.SendsId id e1) (htime : e1.SendsTime ts e2) (hquality : e2.SendsQuality p q e3)
    (hvalue : e3.SendsValueOf p value e') : e.Phase 292 e' := by
  have h1 : e.Phase 41 e1 := by
    obtain ⟨-, rfl⟩ | ⟨-, h⟩ := hid.sent
    exacts [.refl _ _, h.phase]
  have h2 : e1.Phase 89 e2 := by
    obtain ⟨-, rfl⟩ | ⟨-, h⟩ := htime.sent
    exacts [.refl _ _, h.phase]
  have h3 : e2.Phase 89 e3 := by
    obtain ⟨-, rfl⟩ | ⟨-, h⟩ := hquality.sent
    exacts [.refl _ _, h.phase]
  exact ((h1.trans h2).trans h3).trans hvalue.sent.phase

end Sys2Proof.Machine
end

section
/-!
PROOFS. What ENC_WRITE makes of the stream state (47_stream_engine R356, R363): the time part is that of one UpdateTime,
and of the points only the one written changes, but for the code that the ID phase counts at the old cursor.
-/

namespace Sys2Proof.Machine

/-! ### Changes of the points -/

/-- The stream state with another point at the cursor. -/
def Stream.setTarget (p : Point) (st : Stream) : Stream :=
  { st with pts := st.pts.set st.cursor.toNat p }

/-- The stream state with another table and cursor. -/
def Stream.withTable (pts : List Point) (cursor : Word32) (st : Stream) : Stream :=
  { st with pts := pts, cursor := cursor }

@[simp] theorem Stream.setTarget_setTarget (p p' : Point) (st : Stream) :
    (st.setTarget p).setTarget p' = st.setTarget p' := by
  simp [Stream.setTarget]

theorem Stream.setTarget_self {st : Stream} {p : Point} (h : st.target? = some p) : st.setTarget p = st := by
  obtain ⟨hlt, hget⟩ := List.getElem?_eq_some_iff.1 h
  rw [Stream.setTarget, ← hget, List.set_getElem_self]

theorem Stream.target?_setTarget {st : Stream} {p : Point} (h : st.target? = some p) (p' : Point) :
    (st.setTarget p').target? = some p' := by
  obtain ⟨hlt, -⟩ := List.getElem?_eq_some_iff.1 h
  exact List.getElem?_set_self hlt

theorem Stream.mapTarget_of_target {st : Stream} {p : Point} (h : st.target? = some p) (f : Point → Point) :
    st.mapTarget f = st.setTarget (f p) := by
  have hget : st.pts[st.cursor.toNat]? = some p := h
  simp [Stream.mapTarget, Stream.setTarget, List.modify_eq_set_getElem?, hget]

/-- A code that is counted at a point, and then a change of that point. -/
theorem Stream.mapTarget_countCode {st : Stream} {p : Point} (h : st.target? = some p) (c : Code) (f : Point → Point) :
    (st.countCode c).mapTarget f = st.setTarget (f { p with model := p.model.updateStats c }) := by
  have hcount : st.countCode c = st.setTarget { p with model := p.model.updateStats c } :=
    Stream.countCode_of_target h c
  rw [hcount, Stream.mapTarget_of_target (Stream.target?_setTarget h _), Stream.setTarget_setTarget]

/-! ### The time part -/

/-- The stream state after a record with timestamp `ts` (42_timestamp R211 to R213): UpdateTime, unless it is the last
timestamp. -/
def Stream.timed (ts : Word64) (st : Stream) : Stream :=
  if ts = st.t1 then st else st.updateTime ts

theorem Stream.insertDelta_withTable (d : Nat) (pts : List Point) (cursor : Word32) (st : Stream) :
    (st.withTable pts cursor).insertDelta d = (st.insertDelta d).withTable pts cursor := by
  simp only [Stream.insertDelta, apply_ite (Stream.withTable pts cursor)]
  rfl

/-- UpdateTime neither reads nor writes the points and the cursor. -/
theorem Stream.updateTime_withTable (ts : Word64) (pts : List Point) (cursor : Word32) (st : Stream) :
    (st.withTable pts cursor).updateTime ts = (st.updateTime ts).withTable pts cursor := by
  have hvalid : (st.withTable pts cursor).tvalid = st.tvalid := rfl
  unfold Stream.updateTime
  rw [hvalid, Stream.insertDelta_withTable]
  cases st.tvalid <;> rfl

theorem Stream.updateTime_setTarget (ts : Word64) (p : Point) (st : Stream) :
    (st.setTarget p).updateTime ts = (st.updateTime ts).setTarget p := by
  refine (st.updateTime_withTable ts (st.pts.set st.cursor.toNat p) st.cursor).trans ?_
  simp [Stream.setTarget, Stream.withTable]

theorem Stream.timed_withTable (ts : Word64) (pts : List Point) (cursor : Word32) (st : Stream) :
    (st.withTable pts cursor).timed ts = (st.timed ts).withTable pts cursor := by
  unfold Stream.timed
  rw [Stream.updateTime_withTable, apply_ite (Stream.withTable pts cursor)]
  rfl

theorem Stream.timed_t1 (ts : Word64) (st : Stream) : (st.timed ts).t1 = ts := by
  unfold Stream.timed
  split
  case isTrue h => exact h.symm
  case isFalse => rfl

theorem Stream.timed_pts (ts : Word64) (st : Stream) : (st.timed ts).pts = st.pts := by
  unfold Stream.timed
  split <;> simp

theorem Stream.timed_cursor (ts : Word64) (st : Stream) : (st.timed ts).cursor = st.cursor := by
  unfold Stream.timed
  split <;> simp

theorem Stream.timed_boot (ts : Word64) (st : Stream) : (st.timed ts).boot = st.boot := by
  unfold Stream.timed
  split <;> simp

theorem Stream.target?_timed (ts : Word64) (st : Stream) : (st.timed ts).target? = st.target? := by
  rw [Stream.target?, Stream.timed_pts, Stream.timed_cursor, Stream.target?]

/-! ### The phases -/

/-- The ID phase moves the cursor, and may count a code at the point where it was. -/
theorem Enc.SendsId.stream {id : Word32} {e e' : Enc} {p : Point} (h : e.SendsId id e')
    (hp : e.stream.target? = some p) :
    ∃ m, e'.stream = e.stream.withTable (e.stream.pts.set e.stream.cursor.toNat { p with model := m }) id := by
  obtain ⟨rfl, rfl⟩ | ⟨-, h⟩ := h.sent
  · exact ⟨p.model, (Stream.setTarget_self hp).symm⟩
  · obtain ⟨c, hstream⟩ := h.stream
    exact ⟨p.model.updateStats c, by rw [hstream, Stream.countCode_of_target hp]; rfl⟩

/-- The time phase updates the time part and may count a code at the target. -/
theorem Enc.SendsTime.stream {ts : Word64} {e e' : Enc} {p : Point} (h : e.SendsTime ts e')
    (hp : e.stream.target? = some p) : ∃ m, e'.stream = (e.stream.timed ts).setTarget { p with model := m } := by
  obtain ⟨hts, rfl⟩ | ⟨hts, h⟩ := h.sent
  · refine ⟨p.model, ?_⟩
    rw [Stream.timed, if_pos hts]
    exact (Stream.setTarget_self hp).symm
  · obtain ⟨c, hstream⟩ := h.stream
    refine ⟨p.model.updateStats c, ?_⟩
    rw [hstream, Stream.timed, if_neg hts, ← Stream.updateTime_setTarget]
    exact congrArg (Stream.updateTime ts) (Stream.countCode_of_target hp c)

/-- The point `p` after a record's quality `q` (43_quality R230, R234), with the model `m`. -/
def Point.afterQuality (p : Point) (q : Word32) (m : CodeModel) : Point :=
  { p with q1 := q, q2 := if q = p.q1 then p.q2 else p.q1, model := m }

/-- The quality phase for a target whose qualities are those of `p`. -/
theorem Enc.SendsQuality.stream {p : Point} {q : Word32} {m : CodeModel} {e e' : Enc} (h : e.SendsQuality p q e')
    (hp : e.stream.target? = some { p with model := m }) :
    ∃ m', e'.stream = e.stream.setTarget (p.afterQuality q m') := by
  unfold Point.afterQuality
  obtain ⟨rfl, rfl⟩ | ⟨hq, h⟩ := h.sent
  · exact ⟨m, by rw [if_pos rfl]; exact (Stream.setTarget_self hp).symm⟩
  · obtain ⟨c, hstream⟩ := h.stream
    exact ⟨m.updateStats c, by rw [hstream, Stream.updateQuality, Stream.mapTarget_countCode hp, if_neg hq]; rfl⟩

/-- The value phase. -/
theorem Enc.SendsValueOf.stream {p p' : Point} {value : Value} {e e' : Enc} (h : e.SendsValueOf p value e')
    (hp : e.stream.target? = some p') :
    ∃ m, e'.stream = e.stream.setTarget { p' with values := p.values.afterWrite value, model := m } := by
  obtain ⟨c, hstream⟩ := h.sent.stream
  exact ⟨p'.model.updateStats c, by rw [hstream, Stream.setValues, Stream.mapTarget_countCode hp]⟩

/-- The point `p` after a record of it, with the model `m`. -/
def Point.afterRecord (p : Point) (q : Word32) (value : Value) (m : CodeModel) : Point :=
  { p.afterQuality q m with values := p.values.afterWrite value }

/-- The phases after the ID, for the point `p` at the cursor. -/
theorem Enc.phases_stream {ts : Word64} {p : Point} {q : Word32} {value : Value} {m : CodeModel} {e1 e2 e3 e' : Enc}
    (htime : e1.SendsTime ts e2) (hquality : e2.SendsQuality p q e3) (hvalue : e3.SendsValueOf p value e')
    (hp : e1.stream.target? = some { p with model := m }) :
    ∃ m', e'.stream = (e1.stream.timed ts).setTarget (p.afterRecord q value m') := by
  obtain ⟨m2, h2⟩ := htime.stream hp
  have hp2 : e2.stream.target? = some { p with model := m2 } := by
    rw [h2]
    exact Stream.target?_setTarget ((e1.stream.target?_timed ts).trans hp) _
  obtain ⟨m3, h3⟩ := hquality.stream hp2
  have hp3 : e3.stream.target? = some (p.afterQuality q m3) := by
    rw [h3]
    exact Stream.target?_setTarget hp2 _
  obtain ⟨m4, h4⟩ := hvalue.stream hp3
  exact ⟨m4, by rw [h4, h3, h2, Stream.setTarget_setTarget, Stream.setTarget_setTarget]; rfl⟩

/-! ### The record -/

/-- The points of `pts'` are those of `pts`, but for the model of the one at `k`. -/
def CountedAt (k : Nat) (pts pts' : List Point) : Prop :=
  pts'.length = pts.length ∧
  ∀ j p, pts[j]? = some p → ∃ m, pts'[j]? = some { p with model := m } ∧ (j ≠ k → m = p.model)

theorem countedAt_set {k : Nat} {pts : List Point} {p : Point} (hp : pts[k]? = some p) (m : CodeModel) :
    CountedAt k pts (pts.set k { p with model := m }) := by
  refine ⟨List.length_set, fun j p' hp' => ?_⟩
  by_cases hj : j = k
  · subst hj
    obtain rfl := Option.some.inj (hp.symm.trans hp')
    obtain ⟨hlt, -⟩ := List.getElem?_eq_some_iff.1 hp
    exact ⟨m, List.getElem?_set_self hlt, fun h => absurd rfl h⟩
  · exact ⟨p'.model, by rw [List.getElem?_set_ne (Ne.symm hj), hp'], fun _ => rfl⟩

/-- The stream state after a record of the point `p` (47_stream_engine R356). -/
theorem Enc.record_stream {id : Word32} {ts : Word64} {p : Point} {q : Word32} {value : Value} {e e1 e2 e3 e' : Enc}
    (hid : e.SendsId id e1) (htime : e1.SendsTime ts e2) (hquality : e2.SendsQuality p q e3)
    (hvalue : e3.SendsValueOf p value e') (hp : e.stream.pts[id.toNat]? = some p)
    (hcursor : e.stream.cursor.toNat < e.stream.pts.length) :
    ∃ pts m, CountedAt e.stream.cursor.toNat e.stream.pts pts ∧
      e'.stream = (e.stream.timed ts).withTable (pts.set id.toNat (p.afterRecord q value m)) id := by
  have htarget : e.stream.target? = some _ := List.getElem?_eq_getElem hcursor
  obtain ⟨m0, h1⟩ := hid.stream htarget
  have hcounted := countedAt_set htarget m0
  obtain ⟨m1, hp1, -⟩ := hcounted.2 id.toNat p hp
  obtain ⟨m, h⟩ := Enc.phases_stream htime hquality hvalue (m := m1) (h1 ▸ hp1)
  exact ⟨_, m, hcounted, by rw [h, h1, Stream.timed_withTable]; rfl⟩

/-- Settles O36: the request sends its four phases (`State.encWrite_sends`), which fit where forty bytes are left
(`Enc.record_phase`) and move the stream state as `Enc.record_stream` says. -/
theorem encWriteMovesTheStreamState : Obligations.EncWriteMovesTheStreamState := by
  unfold Obligations.EncWriteMovesTheStreamState
  intro s id ts q value p hg hlive hbuf htable hroom hp htag
  obtain ⟨e1, e2, e3, e', hid, htime, hquality, hvalue, hrun⟩ := State.encWrite_sends hp htag ts q
  have hphase := Enc.record_phase hid htime hquality hvalue
  have hfits : e'.fits s.cfg = true := by
    have hfootprint := Enc.footprint_le_of_bitLength hbuf.ranges hphase.adds
    exact decide_eq_true (by omega)
  have hne : s.enc.stream.pts ≠ [] := by
    intro hnil
    simp [hnil] at hp
  obtain ⟨pts, m, ⟨hlength, hpoints⟩, hstream⟩ :=
    Enc.record_stream hid htime hquality hvalue hp (htable.cursor_lt hne)
  obtain ⟨hlt, -⟩ := List.getElem?_eq_some_iff.1 hp
  refine ⟨e1, e2, e3, e', hid, htime, hquality, hvalue, ?_, hphase.err.trans hlive, hphase.finfo, ?_⟩
  · have hexec : exec (.encWrite id ts q value) s = betweenRequests s (s.unlessEncFailed (s.encWrite id ts q value)) :=
      rfl
    rw [hexec, betweenRequests_idle hg, State.unlessEncFailed_live hlive, hrun, State.finishEnc_fits hfits]
    rfl
  · rw [hstream]
    refine ⟨Stream.timed_boot ts _, rfl, Stream.timed_t1 ts _, ⟨rfl, rfl, rfl, rfl, rfl, rfl⟩,
      List.length_set.trans hlength, ⟨m, List.getElem?_set_self (hlength ▸ hlt)⟩, fun j p' hj hp' => ?_⟩
    obtain ⟨m', hm', hkept⟩ := hpoints j p' hp'
    exact ⟨m', (List.getElem?_set_ne (Ne.symm hj)).trans hm', hkept⟩

end Sys2Proof.Machine
end

section
/-!
PROOFS. The timestamps (42_timestamp R200 to R214): UpdateTime inserts into the sorted delta cache, the encoder takes
the lowest time code that applies, and every time code of the decoder sets the timestamp and updates the time.
-/

namespace Sys2Proof.Machine

/-! ### The delta cache as a sorted list -/

/-- The delta cache as integers, in its order (10_state R27). -/
def Stream.deltas (st : Stream) : List Int :=
  [st.dt1, st.dt2, st.dt3, st.dt4].map BitVec.toInt

theorem Stream.mem_deltas {st : Stream} {x : Int} :
    x ∈ st.deltas ↔ x = st.dt1.toInt ∨ x = st.dt2.toInt ∨ x = st.dt3.toInt ∨ x = st.dt4.toInt := by
  simp [Stream.deltas]

/-- A delta that is present already does not enter the cache (42_timestamp R211). -/
theorem Stream.insertDelta_of_mem {st : Stream} {d : Nat} (h : (d : Int) ∈ st.deltas) : st.insertDelta d = st := by
  rw [Stream.mem_deltas] at h
  exact if_neg (by omega)

/-- A delta past the fourth entry does not enter the cache. -/
theorem Stream.insertDelta_of_ge {st : Stream} {d : Nat} (h : st.dt4.toInt ≤ d) : st.insertDelta d = st :=
  if_neg fun hlt => absurd hlt.1 (Int.not_lt.2 h)

/-- A new delta goes before the first entry that is greater, and the fifth entry leaves. -/
theorem take_orderedInsert_of_not_mem {x a b c e : Int} (h : x ∉ [a, b, c, e]) :
    ([a, b, c, e].orderedInsert (· ≤ ·) x).take 4 =
      if x < a then [x, a, b, c] else if x < b then [a, x, b, c] else if x < c then [a, b, x, c]
      else if x < e then [a, b, c, x] else [a, b, c, e] := by
  simp only [List.mem_cons, List.not_mem_nil, or_false, not_or] at h
  obtain ⟨ha, hb, hc, he⟩ := h
  simp only [List.orderedInsert, Int.le_iff_lt_or_eq, ha, hb, hc, he, or_false]
  split_ifs <;> rfl

/-- The cache insertion is the sorted insertion of a new delta; the largest of the five leaves (42_timestamp R211). -/
theorem Stream.DeltaCacheWf.deltas_insertDelta {st : Stream} (h : st.DeltaCacheWf) (d : Nat) :
    (st.insertDelta d).deltas =
      if (d : Int) ∉ st.deltas then (st.deltas.orderedInsert (· ≤ ·) (d : Int)).take 4 else st.deltas := by
  by_cases hmem : (d : Int) ∈ st.deltas
  · rw [if_neg (not_not_intro hmem), Stream.insertDelta_of_mem hmem]
  rw [if_pos hmem]
  refine Eq.trans ?_ (take_orderedInsert_of_not_mem hmem).symm
  obtain ⟨n1, n2, n3, n4⟩ := by simpa [Stream.mem_deltas, not_or] using hmem
  obtain hlt | hge := lt_or_ge (d : Int) st.dt4.toInt
  · have hv := toInt_ofNat_delta hlt
    simp only [Stream.insertDelta, hlt, n1, n2, n3, ne_eq, not_false_eq_true, and_self, if_true]
    split_ifs <;> simp [Stream.deltas, hv]
  · have h12 := h.le12
    have h23 := h.le23
    have h34 := h.le34
    rw [Stream.insertDelta_of_ge hge, if_neg (by omega), if_neg (by omega), if_neg (by omega), if_neg (by omega)]
    rfl

/-- UpdateTime writes the time part alone (42_timestamp R211). -/
theorem Stream.updateTime_frame (st : Stream) (ts : Word64) :
    st.updateTime ts = { st with
      t1 := ts, t2 := st.t1, tvalid := true, dt1 := (st.updateTime ts).dt1, dt2 := (st.updateTime ts).dt2
      dt3 := (st.updateTime ts).dt3, dt4 := (st.updateTime ts).dt4 } := by
  rw [← st.updateTime_pts ts, ← st.updateTime_cursor ts, ← st.updateTime_boot ts]
  rfl

/-- UpdateTime inserts `|S.t1 - ts|` while S.tvalid is set (42_timestamp R211). -/
theorem Stream.deltas_updateTime (st : Stream) (ts : Word64) :
    (st.updateTime ts).deltas =
      if st.tvalid = true then (st.insertDelta (timeDelta st.t1 ts)).deltas else st.deltas := by
  unfold Stream.updateTime
  cases st.tvalid <;> rfl

/-- Settles O16: UpdateTime writes the time part alone (`Stream.updateTime_frame`), and its insertion into the sorted
cache is that of the list (`Stream.DeltaCacheWf.deltas_insertDelta`). -/
theorem deltaCacheKeepsTheFourSmallest : Obligations.DeltaCacheKeepsTheFourSmallest := by
  unfold Obligations.DeltaCacheKeepsTheFourSmallest
  intro st ts hwf
  refine ⟨st.updateTime_frame ts, ?_⟩
  refine (st.deltas_updateTime ts).trans ?_
  rw [hwf.deltas_insertDelta, timeDelta, Int.natCast_natAbs, ← ite_and]
  rfl

/-! ### The encoder's time phase -/

/-- Settles O17: the choice is the least of the codes that apply (`chooseTimeCode_isLeast`), and each case of EncodeTime
sends it. -/
theorem encoderTakesTheLowestTimeCode : Obligations.EncoderTakesTheLowestTimeCode := by
  unfold Obligations.EncoderTakesTheLowestTimeCode
  refine ⟨fun st ts => ?_, fun ts r => ?_⟩
  · obtain ⟨happlies, hleast⟩ := chooseTimeCode_isLeast st ts
    exact ⟨happlies, fun _ hc => hleast hc⟩
  · obtain ⟨h, he⟩ | ⟨h, hc, he⟩ | ⟨h, hc, he⟩ := encodeTime_cases ts r
    · exact ⟨fun _ => he, fun hne => absurd h hne⟩
    · refine ⟨fun heq => absurd heq h, fun _ => ?_⟩
      rw [he, if_pos hc]
      rfl
    · refine ⟨fun heq => absurd heq h, fun _ => ?_⟩
      rw [he, if_neg hc]
      rfl

/-! ### The time codes -/

/-- A time code without a payload computes the timestamp from the stream state (42_timestamp R201 to R209). -/
theorem exec_timeCode {i : Instr} {ts : Word64} {st : Stream}
    (h : (i, ts) ∈ [(Instr.timeDelta1Forward, st.t1 + st.dt1), (Instr.timeDelta2Forward, st.t1 + st.dt2),
      (Instr.timeDelta3Forward, st.t1 + st.dt3), (Instr.timeDelta4Forward, st.t1 + st.dt4),
      (Instr.timeDelta1Reverse, st.t1 - st.dt1), (Instr.timeDelta2Reverse, st.t1 - st.dt2),
      (Instr.timeDelta3Reverse, st.t1 - st.dt3), (Instr.timeDelta4Reverse, st.t1 - st.dt4),
      (Instr.timestamp2, st.t2)]) :
    ∃ c f, (11 ≤ c.toNat ∧ c.toNat ≤ 20) ∧ exec i = runTimeCode c (timeFrom f) ∧ f st = ts := by
  simp only [List.mem_cons, Prod.mk.injEq, List.not_mem_nil, or_false] at h
  obtain ⟨rfl, rfl⟩ | ⟨rfl, rfl⟩ | ⟨rfl, rfl⟩ | ⟨rfl, rfl⟩ | ⟨rfl, rfl⟩ | ⟨rfl, rfl⟩ | ⟨rfl, rfl⟩ | ⟨rfl, rfl⟩ |
    ⟨rfl, rfl⟩ := h
  exacts [⟨11, _, by decide, rfl, rfl⟩, ⟨12, _, by decide, rfl, rfl⟩, ⟨13, _, by decide, rfl, rfl⟩,
    ⟨14, _, by decide, rfl, rfl⟩, ⟨15, _, by decide, rfl, rfl⟩, ⟨16, _, by decide, rfl, rfl⟩,
    ⟨17, _, by decide, rfl, rfl⟩, ⟨18, _, by decide, rfl, rfl⟩, ⟨19, _, by decide, rfl, rfl⟩]

/-- TimeXOR7Bit reads its varint, and moves the read cursor alone (42_timestamp R210). -/
theorem Dec.timeXor_of_readVarint {d d' : Dec} {r : Word64} (hread : d.readVarint 64 = .ok r d') :
    d.timeXor = .ok (d.stream.t1 ^^^ r) (d.movedTo d') := by
  have hmoved : d' = d.movedTo d' := by simpa [hread] using (Dec.readVarint_law 64 d).moved
  rw [Dec.timeXor, hread, ReadResult.bind_ok, hmoved]
  rfl

/-- Settles O20: a time code is allowed at both positions (`allowedAt_time`), and its rule answers the timestamp. -/
theorem timeCodesSetTheTimestamp : Obligations.TimeCodesSetTheTimestamp := by
  unfold Obligations.TimeCodesSetTheTimestamp
  intro s g hg hphase
  have hposition : g.phase = .start ∧ 0 < s.dec.stream.pts.length ∨ g.phase = .afterId :=
    hphase.imp_left fun ⟨hstart, hne⟩ => ⟨hstart, List.length_pos_iff.2 hne⟩
  refine ⟨fun i ts hi => ?_, fun r d' hread => ?_⟩
  · obtain ⟨c, f, hc, hexec, rfl⟩ := exec_timeCode hi
    rw [hexec]
    exact runCode_of_ok hg (allowedAt_time hposition hc) rfl
  · exact runCode_of_ok hg (allowedAt_time hposition (by decide)) (Dec.timeXor_of_readVarint hread)

end Sys2Proof.Machine
end

section
/-!
PROOFS. The value codes without a payload (44_value32 R252 to R255; 45_value64 R284 to R287): the record ends with a
value of the history.
-/

namespace Sys2Proof.Machine

/-- The end of a record of the point at the cursor: its history is written there (47_stream_engine R332). -/
theorem State.finishMeasurement_of_target {d : Dec} {p : Point} (hp : d.stream.target? = some p) (s : State)
    (vs : PointValues) (v : Value) :
    s.finishMeasurement p vs v d =
      s.finishGet { d with stream := d.stream.setTarget { p with values := vs } }
        (.measurementRead p.id d.stream.t1 p.q1 v) := by
  rw [State.finishMeasurement, Stream.setValues, Stream.mapTarget_of_target hp]

/-- A value code of the 32-bit coder whose rule answers ends the record, at every position (47_stream_engine R331,
R332). -/
theorem runValue32_ends {c : Code} {s : State} {g : GetContext} {rule : ValueRule 32} {p : Point} {tag : Tag32}
    {h h' : History 32} {v : Word32} (hg : s.get = some g) (hp : s.dec.stream.target? = some p)
    (hv : p.values = .narrow tag h) (hc : 32 ≤ c.toNat ∧ c.toNat ≤ 43) (hr : rule h s.dec = .ok (v, h') s.dec) :
    runValue32 c rule s =
      .next (s.finishGet { s.dec with stream := s.dec.stream.setTarget { p with values := .narrow tag h' } }
        (.measurementRead p.id s.dec.stream.t1 p.q1 (.narrow tag v))) := by
  rw [runValue32_of_ok hg (allowedAt_value (Stream.pts_pos_of_target hp) hc) hp hv hr,
    State.finishMeasurement_of_target hp]

/-- As `runValue32_ends`, for the 64-bit coder. -/
theorem runValue64_ends {c : Code} {s : State} {g : GetContext} {rule : ValueRule 64} {p : Point} {tag : Tag64}
    {h h' : History 64} {v : Word64} (hg : s.get = some g) (hp : s.dec.stream.target? = some p)
    (hv : p.values = .wide tag h) (hc : 32 ≤ c.toNat ∧ c.toNat ≤ 43) (hr : rule h s.dec = .ok (v, h') s.dec) :
    runValue64 c rule s =
      .next (s.finishGet { s.dec with stream := s.dec.stream.setTarget { p with values := .wide tag h' } }
        (.measurementRead p.id s.dec.stream.t1 p.q1 (.wide tag v))) := by
  rw [runValue64_of_ok hg (allowedAt_value (Stream.pts_pos_of_target hp) hc) hp hv hr,
    State.finishMeasurement_of_target hp]

/-- Settles O22: the rules of codes 32 to 35 answer from the history without a read, and the record ends with what they
answer (`runValue32_ends`, `runValue64_ends`). -/
theorem repeatAndZeroCodesYieldTheHistory : Obligations.RepeatAndZeroCodesYieldTheHistory := by
  unfold Obligations.RepeatAndZeroCodesYieldTheHistory
  intro s g p hg hp ends
  refine ⟨fun tag h hv => ?narrow, fun tag h hv => ?wide⟩
  case narrow =>
    rw [hv]
    exact ⟨runValue32_ends (c := 32) (rule := .value1) hg hp hv (by decide) rfl,
      runValue32_ends (c := 33) (rule := .value2) hg hp hv (by decide) rfl,
      runValue32_ends (c := 34) (rule := .value3) hg hp hv (by decide) rfl,
      runValue32_ends (c := 35) (rule := .valueZero) hg hp hv (by decide) rfl⟩
  case wide =>
    rw [hv]
    exact ⟨runValue64_ends (c := 32) (rule := .value1) hg hp hv (by decide) rfl,
      runValue64_ends (c := 33) (rule := .value2) hg hp hv (by decide) rfl,
      runValue64_ends (c := 34) (rule := .value3) hg hp hv (by decide) rfl,
      runValue64_ends (c := 35) (rule := .valueZero) hg hp hv (by decide) rfl⟩

end Sys2Proof.Machine
end

section
/-!
PROOFS. The quality codes (43_quality R230 to R232): the new quality enters the history of the point at the cursor.
-/

namespace Sys2Proof.Machine

/-- A quality code before the quality whose read answers `q`: the target point takes `q`, the read cursor moves with the
read, and the record goes on after the quality (43_quality R230, 47_stream_engine R331). -/
theorem runQualityCode_of_ok {c : Code} {s : State} {g : GetContext} {newQuality : Point → Dec → ReadResult Word32}
    {p : Point} {q : Word32} {d : Dec} (hg : s.get = some g) (hphase : g.phase ≠ .afterQuality)
    (hp : s.dec.stream.target? = some p) (hc : 21 ≤ c.toNat ∧ c.toNat ≤ 22)
    (hlaw : ReadLaw s.dec (newQuality p s.dec)) (hread : newQuality p s.dec = .ok q d) :
    runQualityCode c newQuality s =
      .next (s.continueAt g .afterQuality
        { s.dec.movedTo d with stream := s.dec.stream.setTarget (p.updateQuality q) }) := by
  have hallowed := allowedAt_quality hphase (Stream.pts_pos_of_target hp) hc
  have hbody : s.dec.target.bind newQuality = .ok q d := by rw [Dec.target_of_some hp, ReadResult.bind_ok, hread]
  have hmoved : d = s.dec.movedTo d := by simpa [hread] using hlaw.moved
  have hstream : d.stream.updateQuality q = s.dec.stream.setTarget (p.updateQuality q) := by
    rw [hmoved, Dec.movedTo_stream, Stream.updateQuality, Stream.mapTarget_of_target hp]
  refine (runCode_of_ok hg hallowed hbody).trans ?_
  rw [hstream, ← hmoved]

/-- Settles O21: code 21 takes P.q2 without a read, code 22 reads its varint, and the target takes what they answer
(`runQualityCode_of_ok`). -/
theorem qualityCodesUpdateTheTarget : Obligations.QualityCodesUpdateTheTarget := by
  unfold Obligations.QualityCodesUpdateTheTarget
  intro s g p hg hphase hp
  refine ⟨?quality2, fun q d' hread => ?quality7Bit32⟩
  case quality2 => exact runQualityCode_of_ok (c := 21) hg hphase hp (by decide) (.ok _ _) rfl
  case quality7Bit32 =>
    exact runQualityCode_of_ok (c := 22) hg hphase hp (by decide) (Dec.readVarint_law 32 s.dec) hread

end Sys2Proof.Machine
end

section
/-!
PROOFS. The XOR codes of both value coders (44_value32 R256 to R266; 45_value64 R283, R288 to R295): when the encoder
takes one and at which width, and what the decoder makes of its payload.
-/

namespace Sys2Proof.Machine

/-! ### The encoder's choice -/

/-- The value encoder XORs only a new nonzero value, with the latest one, at the least width that holds the delta
(44_value32 R265, 45_value64 R283). -/
theorem chooseValue_eq_xor {n w : Nat} {widths : List Nat} {h : History n} {v x : BitVec n}
    (hchoice : chooseValue widths h v = .xor w x) :
    v ∉ [h.v1, h.v2, h.v3, 0] ∧ x = v ^^^ h.v1 ∧ w = leastWidth widths x.toNat := by
  unfold chooseValue at hchoice
  dsimp only at hchoice
  split_ifs at hchoice with h1 h0 h2 h3 hx
  cases hchoice
  exact ⟨by simpa [h1, h2, h3] using h0, rfl, rfl⟩

/-- For the ascending widths of a coder, the last of which holds every delta, `chooseValue_eq_xor` with the least width
spelt out. -/
theorem chooseValue_xor_isLeast {n w : Nat} {widths : List Nat} (hasc : widths.Pairwise (· < ·)) (hn : n ∈ widths)
    {h : History n} {v x : BitVec n} (hchoice : chooseValue widths h v = .xor w x) :
    v ∉ [h.v1, h.v2, h.v3, 0] ∧ x = v ^^^ h.v1 ∧ w ∈ widths ∧ x.toNat < 2 ^ w ∧
      ∀ w' ∈ widths, x.toNat < 2 ^ w' → w ≤ w' := by
  obtain ⟨hnew, hx, rfl⟩ := chooseValue_eq_xor hchoice
  obtain ⟨hmem, hlt⟩ := leastWidth_mem hn x.isLt
  exact ⟨hnew, hx, hmem, hlt, fun _ => leastWidth_le hasc⟩

/-- Settles O18: the choice is never a violation (`chooseValue_ne_violation`) and an XOR is of the least width
(`chooseValue_xor_isLeast`); EncodeValue sends what was chosen (`encodeValue_sends`). -/
theorem valueXorIsOfLeastWidth : Obligations.ValueXorIsOfLeastWidth := by
  unfold Obligations.ValueXorIsOfLeastWidth
  refine ⟨fun h v => ⟨chooseValue_ne_violation _ h v, fun w x => ?choice32⟩,
    fun h v => ⟨chooseValue_ne_violation _ h v, fun w x => ?choice64⟩, fun tag => ?encode32, fun tag => ?encode64⟩
  case choice32 => exact chooseValue_xor_isLeast (by decide) (by decide)
  case choice64 => exact chooseValue_xor_isLeast (by decide) (by decide)
  case encode32 => exact encodeValue_sends (fun _ => leastWidth_value32) (.narrow tag)
  case encode64 => exact encodeValue_sends (fun _ => leastWidth_value64) (.wide tag)

/-! ### The decoder's XOR codes -/

/-- ValueXORw pushes the latest value XORed with the payload, and moves the read cursor alone (44_value32 R264). -/
theorem ValueRule.valueXor_of_readXor {n w : Nat} {d d' : Dec} {x : BitVec w} (hread : d.readXor w = .ok x d')
    (h : History n) :
    ValueRule.valueXor w h d = .ok (h.v1 ^^^ x.setWidth n, h.push (h.v1 ^^^ x.setWidth n)) (d.movedTo d') := by
  have hmoved : d' = d.movedTo d' := by simpa [hread] using (Dec.readXor_law w d).moved
  rw [ValueRule.valueXor, hread, ReadResult.bind_ok, ← hmoved]

/-- Settles O23: an XOR code is allowed at every position (`allowedAt_value`), its rule answers the pushed value
(`ValueRule.valueXor_of_readXor`), and the record of the point at the cursor ends with it
(`State.finishMeasurement_of_target`). -/
theorem valueXorCodesPushTheValue : Obligations.ValueXorCodesPushTheValue := by
  unfold Obligations.ValueXorCodesPushTheValue
  intro s g p w x d' hg hp hread ends
  have hpts := Stream.pts_pos_of_target hp
  have ended := State.finishMeasurement_of_target (d := s.dec.movedTo d') hp s
  refine ⟨fun i tag h hi hv => ?narrow, fun i tag h hi hv => ?wide⟩
  case narrow =>
    obtain ⟨c, hc, hexec⟩ := exec_valueXor32 hi
    have hallowed := allowedAt_value (k := g.phase) hpts (valueCodes32_range hc)
    rw [hexec, runValue32_of_ok hg hallowed hp hv (ValueRule.valueXor_of_readXor hread h), ended]
    rfl
  case wide =>
    obtain ⟨c, hc, hexec⟩ := exec_valueXor64 hi
    have hallowed := allowedAt_value (k := g.phase) hpts (valueCodes64_range hc)
    rw [hexec, runValue64_of_ok hg hallowed hp hv (ValueRule.valueXor_of_readXor hread h), ended]
    rfl

end Sys2Proof.Machine
end

section
/-!
PROOFS. The control codes of the decoder (46_control_codes R300 to R304; 47_stream_engine R331): what the phase check
refuses, the errors that NewPointId raises between its reads, and the operands of the user commands.
-/

namespace Sys2Proof.Machine

/-! ### The phase check (47_stream_engine R331) -/

theorem allowedAt_start_iff {npts : Nat} {c : Code} : allowedAt .start npts c = true ↔
    c.toNat ≤ 3 ∨ (0 < npts ∧ (4 ≤ c.toNat ∧ c.toNat ≤ 22 ∨ 32 ≤ c.toNat ∧ c.toNat ≤ 43)) := by
  simp [allowedAt]

theorem allowedAt_afterId_iff {npts : Nat} {c : Code} : allowedAt .afterId npts c = true ↔
    11 ≤ c.toNat ∧ c.toNat ≤ 22 ∨ 32 ≤ c.toNat ∧ c.toNat ≤ 43 := by
  simp [allowedAt]

theorem allowedAt_afterTime_iff {npts : Nat} {c : Code} : allowedAt .afterTime npts c = true ↔
    21 ≤ c.toNat ∧ c.toNat ≤ 22 ∨ 32 ≤ c.toNat ∧ c.toNat ≤ 43 := by
  simp [allowedAt]

theorem allowedAt_afterQuality_iff {npts : Nat} {c : Code} : allowedAt .afterQuality npts c = true ↔
    32 ≤ c.toNat ∧ c.toNat ≤ 43 := by
  simp [allowedAt]

/-- The start of a record allows the control codes, with or without a point. -/
theorem allowedAt_control {k : Phase} {npts : Nat} {c : Code} (hk : k = .start) (hc : c.toNat ≤ 3) :
    allowedAt k npts c = true := by
  rw [hk]
  exact allowedAt_start_iff.2 (.inl hc)

theorem runAtTarget_of_refused {c : Code} {s : State} {g : GetContext}
    {k : GetContext → Point → Dec → StepOutcome} (hg : s.get = some g)
    (hc : allowedAt g.phase s.dec.stream.pts.length c = false) :
    runAtTarget c s k = .next (s.takeDecError g s.dec .malformedStream) := by
  simp [runAtTarget, duringGet, hg, hc]

/-- The meaning of every local code asks the phase check first, with the code that the row is sent as. -/
theorem exec_of_refused {i : Instr} {c : Code} {s : State} {g : GetContext} (hi : encode i = .localCode c)
    (hg : s.get = some g) (hc : allowedAt g.phase s.dec.stream.pts.length c = false) :
    exec i s = .next (s.takeDecError g s.dec .malformedStream) := by
  cases i with
  | value1W32 | value2W32 | value3W32 | valueZeroW32 | valueXOR4W32 | valueXOR8W32 | valueXOR12W32 | valueXOR16W32
  | valueXOR20W32 | valueXOR24W32 | valueXOR28W32 | valueXOR32W32 | value1W64 | value2W64 | value3W64 | valueZeroW64
  | valueXOR8W64 | valueXOR16W64 | valueXOR24W64 | valueXOR32W64 | valueXOR40W64 | valueXOR48W64 | valueXOR56W64
  | valueXOR64W64 =>
    obtain rfl := Encoded.localCode.inj hi
    exact runAtTarget_of_refused hg hc
  | newPointId | userCommand | userCommandWithData | flushBits
  | pointIDXOR4 | pointIDXOR8 | pointIDXOR12 | pointIDXOR16 | pointIDXOR20 | pointIDXOR24 | pointIDXOR32
  | timeDelta1Forward | timeDelta2Forward | timeDelta3Forward | timeDelta4Forward
  | timeDelta1Reverse | timeDelta2Reverse | timeDelta3Reverse | timeDelta4Reverse | timestamp2 | timeXOR7Bit
  | quality2 | quality7Bit32 | reserved23 | reserved24to31 | reserved44to47 | reserved48to63 =>
    obtain rfl := Encoded.localCode.inj hi
    exact runCode_of_refused hg hc
  | decReset | decLoad | decGet | decStatus | reservedHost4to7 | encReset | encRegister | encWrite | encUser
  | encUserData | encFlush | encTake | encStatus => cases hi

/-- Settles O30: the codes of each position are those of `allowedAt`, and any other is refused where the decoder stands
(`exec_of_refused`). -/
theorem phaseCheckRaisesMalformedStream : Obligations.PhaseCheckRaisesMalformedStream := by
  unfold Obligations.PhaseCheckRaisesMalformedStream
  intro i c s g hi hg hnot
  have hrefused : allowedAt g.phase s.dec.stream.pts.length c = false := by
    rw [Bool.eq_false_iff]
    rw [← List.length_pos_iff] at hnot
    cases hk : g.phase <;> rw [hk] at hnot
    case start => exact mt allowedAt_start_iff.1 hnot
    case afterId => exact mt allowedAt_afterId_iff.1 hnot
    case afterTime => exact mt allowedAt_afterTime_iff.1 hnot
    case afterQuality => exact mt allowedAt_afterQuality_iff.1 hnot
  exact exec_of_refused hi hg hrefused

/-! ### The errors of NewPointId (46_control_codes R300, R301) -/

/-- After the type byte comes the check of the type. -/
theorem Dec.decodeNewPoint_of_unknownType {p : Config} {d d1 : Dec} {tb : Byte} (htb : d.readByte = .ok tb d1)
    (htag : p.typeCodes.tagOf tb = none) : d.decodeNewPoint p = .raised .unsupportedType d1 := by
  rw [Dec.decodeNewPoint, htb, ReadResult.bind_ok, Dec.typeOfByte, htag]
  rfl

/-- After the check of the type comes that of the table, before the length is read. -/
theorem Dec.decodeNewPoint_of_fullTable {p : Config} {d d1 : Dec} {tb : Byte} (htb : d.readByte = .ok tb d1)
    (htag : p.typeCodes.tagOf tb ≠ none) (hfull : d.stream.pts.length = p.maxPoints) :
    d.decodeNewPoint p = .raised .capacityExceeded d1 := by
  obtain ⟨tag, htag⟩ := Option.ne_none_iff_exists'.1 htag
  have hfull' : d1.stream.pts.length = p.maxPoints := by rwa [d.readByte_law.stream_of_ok htb]
  simp [Dec.decodeNewPoint, htb, Dec.typeOfByte, htag, Dec.within, hfull']

/-- After the length comes its check, before the metadata is read. -/
theorem Dec.decodeNewPoint_of_longMetadata {p : Config} {d d1 d2 : Dec} {tb : Byte} {len : Word32}
    (htb : d.readByte = .ok tb d1) (htag : p.typeCodes.tagOf tb ≠ none) (hroom : d.stream.pts.length ≠ p.maxPoints)
    (hlen : d1.readVarint 32 = .ok len d2) (hmax : p.maxMetaBytes < len.toNat) :
    d.decodeNewPoint p = .raised .capacityExceeded d2 := by
  obtain ⟨tag, hbody⟩ := Dec.decodeNewPoint_of_type htb htag hroom
  simp [hbody, hlen, Dec.within, Nat.not_le.2 hmax]

/-- Settles O25: code 0 is allowed at the start of a record, so what DecodeNewPoint raises is taken
where it raises it. -/
theorem newPointIdErrorsInOrder : Obligations.NewPointIdErrorsInOrder := by
  unfold Obligations.NewPointIdErrorsInOrder
  intro s g tb d1 hg hk htb failed
  have taken {code : ErrorCode} {d : Dec} (hraised : Dec.decodeNewPoint s.cfg s.dec = .raised code d) :
      exec .newPointId s = .next (failed code d) := by
    have hfailed : s.takeDecError g d code = failed code d := by
      rw [State.takeDecError, Dec.faultRecord, hk]
      rfl
    rw [← hfailed]
    exact runCode_of_raised hg (allowedAt_control hk (by decide)) hraised
  exact ⟨fun htag => taken (Dec.decodeNewPoint_of_unknownType htb htag),
    fun htag hfull => taken (Dec.decodeNewPoint_of_fullTable htb htag hfull),
    fun _ _ htag hroom hlen hmax => taken (Dec.decodeNewPoint_of_longMetadata htb htag hroom hlen hmax)⟩

/-! ### User commands -/

/-- Settles O26: codes 1 and 2 are allowed at the start of a record, and reading their operands moves the read cursor
alone (`ReadLaw.moved`). -/
theorem userCommandsAreReturned : Obligations.UserCommandsAreReturned := by
  unfold Obligations.UserCommandsAreReturned
  refine ⟨fun s g cmd d1 hg hk hcmd => ?command, fun s g cmd len payload d1 d2 d3 hg hk hcmd hlen hpayload => ?data⟩
  case command =>
    have hmoved : d1 = s.dec.movedTo d1 := by simpa [hcmd] using (Dec.readVarint_law 32 s.dec).moved
    rw [← hmoved]
    exact runCode_of_ok hg (allowedAt_control hk (by decide)) hcmd
  case data =>
    have hread : s.dec.readCommandWithData = .ok (cmd, payload) d3 := by
      simp only [Dec.readCommandWithData, hcmd, hlen, hpayload, ReadResult.bind_ok]
    have hmoved : d3 = s.dec.movedTo d3 := by simpa [hread] using s.dec.readCommandWithData_law.moved
    rw [← hmoved]
    exact runCode_of_ok hg (allowedAt_control hk (by decide)) hread

end Sys2Proof.Machine
end

section
/-!
PROOFS. The control requests of the encoder (47_stream_engine R354, R355, R357, R358, R361): each writes what its rule
names and, where the result fits, becomes the encoder.
-/

namespace Sys2Proof.Machine

/-- A byte that names a tag is the tag's byte (30_encoding R108). -/
theorem TypeCodes.byteOf_of_tagOf {m : TypeCodes} {b : Byte} {tag : TypeTag} (h : m.tagOf b = some tag) :
    m.byteOf tag = b := by
  simpa using List.find?_some h

/-- A request on a live encoder between requests whose result fits (47_stream_engine R354). -/
theorem encRequest_of_fits {s : State} {e : Enc} {r : Response} (hg : s.get = none) (herr : s.enc.err = .none)
    (hfits : e.footprint ≤ s.cfg.encBufMax) :
    betweenRequests s (s.unlessEncFailed (s.finishEnc e r)) = .next ({ s with enc := e }.respond r) := by
  rw [betweenRequests_idle hg, State.unlessEncFailed_live herr, State.finishEnc_fits (decide_eq_true hfits)]

/-- EncodeNewPoint with the record that it registers (46_control_codes R300). -/
theorem encodeNewPoint_enc {p : Config} {e : Enc} {tb : Byte} {tag : TypeTag} (htag : p.typeCodes.tagOf tb = some tag)
    (md : List Byte) :
    (encodeNewPoint p tag md (.start e)).enc =
      { (((e.writeCode 0).writeByte tb).writeVarint (BitVec.ofNat 32 md.length)).writeBytes md with
        stream := { e.stream.countCode 0 with
          pts := (e.stream.countCode 0).pts ++ [Point.create e.stream.nextId tag md]
          cursor := e.stream.nextId } } := by
  have hid : (e.stream.countCode 0).nextId = e.stream.nextId := by simp [Stream.nextId]
  simp only [encodeNewPoint, EncRun.mapStream, EncRun.payload, EncRun.writeCode, EncRun.start,
    TypeCodes.byteOf_of_tagOf htag, Enc.writeBytes_stream, Enc.writeVarint_stream, Enc.writeByte_stream,
    Enc.writeCode_stream, Stream.register, hid]

/-- Settles O35: the three checks pass, so the encoder is the one that EncodeNewPoint leaves (`encodeNewPoint_enc`). -/
theorem encRegisterWritesANewPoint : Obligations.EncRegisterWritesANewPoint := by
  unfold Obligations.EncRegisterWritesANewPoint
  intro s tb tag md hg herr htag hroom hmax e id p hfits
  have hregister : s.encRegister tb md =
      s.finishEnc (encodeNewPoint s.cfg tag md (.start s.enc)).enc (.okId s.enc.stream.nextId) := by
    simp only [State.encRegister, htag, hroom, if_false, Nat.not_lt.2 hmax]
  have hpoint : Point.create s.enc.stream.nextId tag md = p := by cases tag <;> rfl
  have hfits' : (encodeNewPoint s.cfg tag md (.start s.enc)).enc.footprint ≤ s.cfg.encBufMax := by
    rw [encodeNewPoint_enc htag]
    exact hfits
  have hdone := encRequest_of_fits (r := .okId s.enc.stream.nextId) hg herr hfits'
  rw [← hregister, encodeNewPoint_enc htag, hpoint] at hdone
  exact hdone

/-- Settles O37: the request writes what its rule names, and of the stream state only WriteCode changes anything. -/
theorem encUserWritesACommand : Obligations.EncUserWritesACommand := by
  unfold Obligations.EncUserWritesACommand
  intro s command payload hg herr
  constructor
  · intro e hfits
    exact ⟨encRequest_of_fits hg herr hfits, Enc.writeVarint_stream _ _⟩
  · intro e hfits
    exact ⟨encRequest_of_fits hg herr hfits, by simp [e]⟩

/-- Settles O39: with no bits pending the encoder is taken as it is, and otherwise after EncodeFlush, which leaves none
pending. -/
theorem encTakeHandsOutTheBytes : Obligations.EncTakeHandsOutTheBytes := by
  unfold Obligations.EncTakeHandsOutTheBytes
  intro s hg herr
  have htake : exec .encTake s = .next s.encTake := by
    refine (betweenRequests_idle hg).trans ?_
    rw [State.unlessEncFailed_live herr]
  refine ⟨fun h0 => ?_, fun hpos => ⟨?_, Enc.padBits_wcnt _⟩⟩
  · have hflushed : s.enc.flushed = s.enc := if_neg (by omega)
    rw [htake, State.encTake, hflushed]
    rfl
  · have hflushed : s.enc.flushed = (s.enc.writeCode 3).padBits := if_pos hpos
    rw [htake, State.encTake, hflushed]
    rfl

end Sys2Proof.Machine
end

section
/-!
PROOFS. What the encoder wrote read back as a whole (47_stream_engine R363): a write and the read of it are paired once
for each field (`Enc.ReadBack`), and the pairs of a control record are chained in the order of its fields
(46_control_codes R300, R302, R304, R308).
-/

namespace Sys2Proof.Machine

/-! ### Writes that a read gives back -/

theorem Enc.Writes.ranges {e e' : Enc} (h : e.Writes e') (hr : e.Ranges) : e'.Ranges :=
  (h.grows hr).ranges

/-- Writes lead from `e` to `e'`, and a decoder in step with `e` on bytes that extend `e'` reads them as `a` and is in
step with `e'`. -/
structure Enc.ReadBack {α : Type} (e e' : Enc) (read : Dec → ReadResult α) (a : α) : Prop where
  writes : e.Writes e'
  reads : e.Ranges → ∀ {d : Dec} {pre f : List Byte}, d.InStep e pre f → e'.Extends f →
    ∃ d', read d = .ok a d' ∧ d'.InStep e' pre f

/-- Fields that follow each other are read back in their order (00_scope R13). -/
theorem Enc.ReadBack.bind {α β : Type} {e e' e'' : Enc} {read : Dec → ReadResult α} {a : α}
    {next : α → Dec → ReadResult β} {b : β} (h : e.ReadBack e' read a) (h' : e'.ReadBack e'' (next a) b) :
    e.ReadBack e'' (fun d => (read d).bind next) b where
  writes := h.writes.trans h'.writes
  reads hr d pre f hd hf := by
    have hr' := h.writes.ranges hr
    obtain ⟨d1, hread, h1⟩ := h.reads hr hd ((h'.writes.grows hr').of_extends hf)
    obtain ⟨d2, hnext, h2⟩ := h'.reads hr' h1 hf
    exact ⟨d2, by rw [hread]; exact hnext, h2⟩

/-- Nothing written, and an answer that depends on the stream state alone. -/
theorem Enc.ReadBack.of_stream {α : Type} {e : Enc} {read : Dec → ReadResult α} {a : α}
    (h : ∀ d : Dec, d.stream = e.stream → read d = .ok a d) : e.ReadBack e read a where
  writes := .refl
  reads _ d _ _ hd _ := ⟨d, h d hd.2, hd⟩

/-- The same change of the stream state on both sides keeps them in step. -/
theorem Enc.ReadBack.mapStream {α : Type} (e : Enc) (change : Stream → Stream) (answer : Stream → α) :
    e.ReadBack { e with stream := change e.stream }
      (fun d => .ok (answer d.stream) { d with stream := change d.stream }) (answer e.stream) where
  writes := e.writes_stream _
  reads _ d _ _ := fun ⟨hat, hstream⟩ _ =>
    ⟨{ d with stream := change d.stream }, by rw [hstream], hat, congrArg change hstream⟩

/-- A field: its read is a read, finds what was written and stands where the encoder stands. -/
theorem Enc.ReadBack.of_field {α : Type} {e e' : Enc} {read : Dec → ReadResult α} {a : α} (hwrites : e.Writes e')
    (hstream : e'.stream = e.stream) (hlaw : ∀ d, ReadLaw d (read d))
    (hread : e.Ranges → ∀ {d : Dec} {pre f : List Byte}, d.At e pre f → e'.Extends f →
      ∃ d', read d = .ok a d' ∧ d'.At e' pre f) : e.ReadBack e' read a where
  writes := hwrites
  reads hr d pre f := fun ⟨hat, hd⟩ hf => by
    obtain ⟨d', hok, hat'⟩ := hread hr hat hf
    exact ⟨d', hok, hat', by rw [(hlaw d).stream_of_ok hok, hd, hstream]⟩

/-! ### The fields -/

/-- The code word that WriteCode writes, ReadCode reads (40_code_model R142, R143; 30_encoding R102, R104). -/
theorem Dec.At.readCodeWord {d : Dec} {e : Enc} {pre f : List Byte} (h : d.At e pre f) (hr : e.Ranges)
    (es : List Code) (c : Code) (hf : (e.writeBitString (codeWord es c)).Extends f) :
    ∃ d', Dec.readCodeWord es d = .ok c d' ∧ d'.At (e.writeBitString (codeWord es c)) pre f := by
  induction es generalizing d e with
  | nil => exact h.readBits hr c hf
  | cons x es ih =>
    by_cases hc : c = x
    · have hword : codeWord (x :: es) c = [true] := if_pos hc
      rw [hword] at hf ⊢
      obtain ⟨d', hbit, h'⟩ := h.readBit hr true hf
      exact ⟨d', by rw [Dec.readCodeWord, hbit, hc]; rfl, h'⟩
    · have hword : codeWord (x :: es) c = false :: codeWord es c := if_neg hc
      rw [hword] at hf ⊢
      have hr1 := Enc.writeBit_ranges hr false
      have hf1 := ((Enc.writes_bits (e.writeBit false) (codeWord es c)).grows hr1).of_extends hf
      obtain ⟨d1, hbit, h1⟩ := h.readBit hr false hf1
      obtain ⟨d2, hrest, h2⟩ := ih h1 hr1 hf
      exact ⟨d2, by rw [Dec.readCodeWord, hbit]; exact hrest, h2⟩

/-- Both sides find the escapes in the same model and count the code in it (40_code_model R141 to R143). -/
theorem Enc.ReadBack.code (e : Enc) (c : Code) : e.ReadBack (e.writeCode c) Dec.readCode c where
  writes := e.writes_code c
  reads hr d pre f := fun ⟨hat, hstream⟩ hf => by
    have hfword : (e.writeBitString (codeWord d.stream.curModel.escapes c)).Extends f := hstream ▸ hf
    obtain ⟨d1, hword, h1⟩ := hat.readCodeWord hr _ c hfword
    have hstream1 := (Dec.readCodeWord_law _ d).stream_of_ok hword
    refine ⟨{ d1 with stream := d1.stream.countCode c }, by rw [Dec.readCode, hword]; rfl, ?_, ?_⟩
    · rw [hstream] at h1
      exact h1
    · rw [Enc.writeCode_stream, ← hstream, ← hstream1]

theorem Enc.ReadBack.byte (e : Enc) (b : Byte) : e.ReadBack (e.writeByte b) Dec.readByte b :=
  .of_field (.single (.byte b)) rfl Dec.readByte_law fun hr _ _ _ hat hf => hat.readByte hr b hf

theorem Enc.ReadBack.varint {n : Nat} (hn : n ≤ 64) (e : Enc) (v : BitVec n) :
    e.ReadBack (e.writeVarint v) (Dec.readVarint n) v :=
  .of_field (e.writes_varint v) (e.writeVarint_stream v) (Dec.readVarint_law n) fun hr _ _ _ hat hf => by
    obtain ⟨rest, hdrop⟩ := hat.drop_of_writeBytes hr hf
    exact ⟨_, Dec.readVarint_varintBytes hn v hdrop, hat.writeBytes _⟩

theorem Enc.ReadBack.bytes (e : Enc) (bs : List Byte) :
    e.ReadBack (e.writeBytes bs) (Dec.readBytes bs.length) bs :=
  .of_field (e.writes_bytes bs) (e.writeBytes_stream bs) (Dec.readBytes_law _) fun hr _ _ _ hat hf => by
    obtain ⟨rest, hdrop⟩ := hat.drop_of_writeBytes hr hf
    exact ⟨_, Dec.readBytes_of_drop hdrop, hat.writeBytes bs⟩

/-- What PadBits fills up, DiscardBits drops (20_memory R66, R73). -/
theorem Enc.ReadBack.padding (e : Enc) : e.ReadBack e.padBits (fun d => .ok () d.discardBits) () where
  writes := .single .pad
  reads hr d pre f := fun ⟨⟨hbuf, hpos, _, _⟩, hstream⟩ _ => by
    have hcnt : e.padBits.wcnt = 0 := e.padBits_wcnt
    have hlen : e.padBits.out.length = e.out.length := by
      rw [Enc.padBits_eq hr]
      split <;> simp
    exact ⟨_, rfl, ⟨hbuf, by rw [hlen]; exact hpos, fun _ => rfl, by omega⟩, hstream.trans e.padBits_stream.symm⟩

/-! ### The control records -/

/-- A counted byte sequence whose length is a u32 (30_encoding R107). -/
theorem length_of_u32 {bs : List Byte} (h : bs.length < 2 ^ 32) : (BitVec.ofNat 32 bs.length).toNat = bs.length := by
  rw [BitVec.toNat_ofNat, Nat.mod_eq_of_lt h]

theorem Enc.ReadBack.countedBytes {e : Enc} {bs : List Byte} (h : bs.length < 2 ^ 32) :
    e.ReadBack (e.writeBytes bs) (Dec.readBytes (BitVec.ofNat 32 bs.length).toNat) bs := by
  rw [length_of_u32 h]
  exact .bytes e bs

/-- The operands of UserCommandWithData (46_control_codes R304). -/
theorem Enc.ReadBack.commandWithData (e : Enc) (command : Word32) {payload : List Byte}
    (h : payload.length < 2 ^ 32) :
    e.ReadBack (((e.writeVarint command).writeVarint (BitVec.ofNat 32 payload.length)).writeBytes payload)
      Dec.readCommandWithData (command, payload) :=
  .bind (.varint (by decide) e command) (.bind (.varint (by decide) _ _)
    (.bind (.countedBytes h) (.of_stream fun _ _ => rfl)))

/-- The fields of NewPointId, with the checks between them that ENC_REGISTER made before it wrote (46_control_codes
R300; 47_stream_engine R355). -/
theorem Enc.ReadBack.newPoint {p : Config} {e : Enc} {tag : TypeTag} {md : List Byte} (hp : p.InRange)
    (hroom : e.stream.pts.length ≠ p.maxPoints) (hmax : md.length ≤ p.maxMetaBytes) :
    let e' := ((e.writeByte (p.typeCodes.byteOf tag)).writeVarint (BitVec.ofNat 32 md.length)).writeBytes md
    e.ReadBack { e' with stream := e'.stream.register tag md } (Dec.decodeNewPoint p) (e.stream.nextId, tag, md) := by
  intro e'
  obtain ⟨-, -, hmeta, -, -, -, hinj⟩ := hp
  have hlen : md.length < 2 ^ 32 := by omega
  have htag : p.typeCodes.tagOf (p.typeCodes.byteOf tag) = some tag := (TypeCodes.tagOf_of_injective hinj).1 tag
  have hstream : e'.stream = e.stream := by simp [e', Enc.writeBytes_stream, Enc.writeVarint_stream]
  have htype (e : Enc) : e.ReadBack e (Dec.typeOfByte p (p.typeCodes.byteOf tag)) tag :=
    .of_stream fun d _ => by rw [Dec.typeOfByte, htag]
  have htable : (e.writeByte (p.typeCodes.byteOf tag)).ReadBack (e.writeByte (p.typeCodes.byteOf tag))
      (fun d => d.within (d.stream.pts.length != p.maxPoints)) () :=
    .of_stream fun d hd => by rw [hd, Enc.writeByte_stream]; exact if_pos (bne_iff_ne.2 hroom)
  have hwithin (e : Enc) : e.ReadBack e
      (Dec.within (decide ((BitVec.ofNat 32 md.length).toNat ≤ p.maxMetaBytes))) () :=
    .of_stream fun d _ => by rw [length_of_u32 hlen]; exact if_pos (decide_eq_true hmax)
  have hregister := Enc.ReadBack.mapStream e' (Stream.register tag md) fun st => (st.nextId, tag, md)
  rw [show e'.stream.nextId = e.stream.nextId from congrArg Stream.nextId hstream] at hregister
  exact .bind (.byte e _) (.bind (htype _) (.bind htable (.bind (.varint (by decide) _ _)
    (.bind (hwithin _) (.bind (.countedBytes hlen) hregister)))))

theorem Enc.length_le_footprint_writeBytes (e : Enc) (bs : List Byte) : bs.length ≤ (e.writeBytes bs).footprint := by
  rw [Enc.writeBytes_eq, Enc.footprint, List.length_append]
  omega

/-! ### Requests that succeeded -/

theorem State.respond_answers {s : State} {r answer : Response}
    (h : (s.respond r).responses = s.responses ++ [answer]) :
    answer = r :=
  (List.singleton_inj.1 (List.append_cancel_left h)).symm

/-- A refusal is no success (60_exceptions R402). -/
theorem State.refuse_not_succeeds {s : State} {c : ErrorCode} {answer : Response}
    (h : (s.refuse c).responses = s.responses ++ [answer]) : answer.succeeds = false := by
  rw [State.respond_answers h]
  rfl

/-- A request of the encoder that succeeded found no error stored (47_stream_engine R342). -/
theorem encRequest_of_succeeds {s t next : State} {answer : Response}
    (h : betweenRequests s (s.unlessEncFailed next) = .next t) (hanswer : t.responses = s.responses ++ [answer])
    (hok : answer.succeeds = true) : t = next := by
  obtain ⟨-, rfl⟩ := betweenRequests_eq_next.1 h
  by_cases herr : s.enc.err = .none
  · exact State.unlessEncFailed_live herr
  · rw [State.unlessEncFailed_failed herr] at hanswer
    rw [State.respond_answers hanswer] at hok
    cases hok

/-- A request that succeeded passed the capacity check (47_stream_engine R354). -/
theorem State.finishEnc_of_succeeds {s : State} {e : Enc} {r answer : Response}
    (h : (s.finishEnc e r).responses = s.responses ++ [answer]) (hok : answer.succeeds = true) :
    e.footprint ≤ s.cfg.encBufMax ∧ s.finishEnc e r = { s with enc := e }.respond r := by
  cases hfits : e.fits s.cfg with
  | true => exact ⟨of_decide_eq_true hfits, State.finishEnc_fits hfits⟩
  | false =>
    rw [State.finishEnc, hfits] at h
    rw [State.refuse_not_succeeds h] at hok
    cases hok

/-- A registration that succeeded passed the three checks before its effect (47_stream_engine R355). -/
theorem State.encRegister_of_succeeds {s : State} {tb : Byte} {tag : TypeTag} {md : List Byte} {answer : Response}
    (htag : s.cfg.typeCodes.tagOf tb = some tag)
    (h : (s.encRegister tb md).responses = s.responses ++ [answer]) (hok : answer.succeeds = true) :
    s.enc.stream.pts.length ≠ s.cfg.maxPoints ∧ md.length ≤ s.cfg.maxMetaBytes ∧
      s.encRegister tb md =
        { s with enc := (encodeNewPoint s.cfg tag md (.start s.enc)).enc }.respond (.okId s.enc.stream.nextId) := by
  simp only [State.encRegister, htag] at h ⊢
  split_ifs at h ⊢ with hroom hmax
  · rw [State.refuse_not_succeeds h] at hok
    cases hok
  · rw [State.refuse_not_succeeds h] at hok
    cases hok
  · exact ⟨hroom, by omega, (State.finishEnc_of_succeeds h hok).2⟩

/-! ### The decoder's request -/

/-- A decoder that reads a code is not at the end of the stream (47_stream_engine R330). -/
theorem Dec.atEos_of_readCode {d d' : Dec} {c : Code} (h : d.readCode = .ok c d') : d.atEos = false := by
  obtain ⟨d1, hword, -⟩ := Dec.readCode_eq_ok h
  have hbits := Dec.readCodeWord_bitsLeft hword
  simp only [Dec.bitsLeft] at hbits
  simp only [Dec.atEos, Bool.and_eq_false_iff, decide_eq_false_iff_not]
  omega

/-- DEC_GET at a code: one step opens the request, and the next runs the code (47_stream_engine R330). -/
theorem decGet_stepsTo {t u : State} {c : Code} {d : Dec} (hg : t.get = none) (herr : t.dec.err = .none)
    (hcode : t.dec.readCode = .ok c d)
    (hrun : exec (decodeCode d.stream.targetWidth c)
      { t with dec := d, get := some { saved := t.dec, code := codeField c, phase := .start }, pending := [] } =
        .next u) :
    StepsTo 2 { t with pending := [{ opcode := 0x2 }] } u := by
  let idle : State := { t with pending := [] }
  let opened := idle.continueAt (.start t.dec) .start t.dec
  have hhead : idle.loopHead (.start t.dec) t.dec = opened := if_neg (Bool.eq_false_iff.1 (Dec.atEos_of_readCode hcode))
  have hopen : step { t with pending := [{ opcode := 0x2 }] } = .next opened := calc
    _ = exec .decGet idle := step_of_pending (s := { t with pending := [{ opcode := 0x2 }] }) hg rfl
    _ = .next (idle.unlessDecFailed (idle.loopHead (.start t.dec) t.dec)) := betweenRequests_idle hg
    _ = .next opened := by rw [State.unlessDecFailed_live (s := idle) herr, hhead]
  exact ⟨opened, hopen, u, (step_of_readCode (s := opened) rfl hcode).trans hrun, rfl⟩

/-- One DEC_GET answers a control record: where the encoder wrote the code and its fields, the decoder reads them and is
in step again (47_stream_engine R363). -/
theorem decGet_answers {α : Type} {t : State} {e : Enc} {pre f : List Byte} {c : Code} {body : Dec → ReadResult α}
    {a : α} {answer : α → Response} (hf : t.enc.Extends f) (hg : t.get = none) (herr : t.dec.err = .none)
    (hc : c.toNat ≤ 3)
    (hrow : ∀ w s, s.cfg = t.cfg →
      exec (decodeCode w c) s = runCode c s body fun _ a d => s.finishGet d (answer a))
    (hstep : t.dec.InStep e pre f) (hr : e.Ranges) (hbody : (e.writeCode c).ReadBack t.enc body a) :
    ∃ u, StepsTo 2 { t with pending := [{ opcode := 0x2 }] } u ∧ u.get = none ∧ u.pending = [] ∧
      u.responses = t.responses ++ [answer a] ∧ u.dec.InStep t.enc pre f ∧ u.enc = t.enc := by
  have hr1 := Enc.writeCode_ranges hr c
  obtain ⟨d1, hcode, h1⟩ := (Enc.ReadBack.code e c).reads hr hstep ((hbody.writes.grows hr1).of_extends hf)
  obtain ⟨d2, hread, h2⟩ := hbody.reads hr1 h1 hf
  have hallowed : allowedAt .start d1.stream.pts.length c = true := allowedAt_control rfl hc
  let fetched : State :=
    { t with dec := d1, get := some { saved := t.dec, code := codeField c, phase := .start }, pending := [] }
  have hrun := (hrow d1.stream.targetWidth fetched rfl).trans (runCode_of_ok rfl hallowed hread)
  exact ⟨_, decGet_stepsTo hg herr hcode hrun, rfl, rfl, rfl, h2, rfl⟩

/-- Where the encoder stands at the end of what was loaded, so does the decoder. -/
theorem Dec.At.pos_eq_end_iff {d : Dec} {e : Enc} {pre f : List Byte} (h : d.At e pre f) :
    d.pos = d.inBuf.length ↔ e.out.length = f.length := by
  obtain ⟨hbuf, hpos, -, -⟩ := h
  rw [hbuf, hpos, List.length_append, Nat.add_left_cancel_iff]

/-- An open DEC_GET passes over what ENC_FLUSH wrote, up to the next code or the end of the buffer (46_control_codes
R303, R308). -/
theorem step_passes_flush {t : State} {g : GetContext} {e : Enc} {pre f : List Byte} (hk : g.phase = .start)
    (hf : t.enc.Extends f) (hstep : t.dec.InStep e pre f) (hr : e.Ranges) (hsent : t.enc = (e.writeCode 3).padBits) :
    ∃ u, step { t with get := some g } = .next u ∧ u.dec.InStep t.enc pre f ∧ u.enc = t.enc ∧
      if t.enc.out.length = f.length then u.get = none ∧ u.responses = t.responses ++ [.endOfStream]
      else u.get = some { g with code := 3 } ∧ u.responses = t.responses := by
  have hr1 := Enc.writeCode_ranges hr 3
  have hpad := Enc.ReadBack.padding (e.writeCode 3)
  rw [← hsent] at hpad
  obtain ⟨d1, hcode, h1⟩ := (Enc.ReadBack.code e 3).reads hr hstep ((hpad.writes.grows hr1).of_extends hf)
  obtain ⟨d2, hdiscard, h2⟩ := hpad.reads hr1 h1 hf
  obtain rfl : d1.discardBits = d2 := by simpa using hdiscard
  let fetched : State := { t with dec := d1, get := some { g with code := 3 } }
  have hrun : step { t with get := some g } = exec .flushBits fetched :=
    step_of_readCode (s := { t with get := some g }) rfl hcode
  have hat : fetched.dec.pos = fetched.dec.inBuf.length ↔ t.enc.out.length = f.length := h2.1.pos_eq_end_iff
  rw [hrun, flushBitsDropsTheCachedBits fetched { g with code := 3 } rfl hk]
  by_cases hend : t.enc.out.length = f.length
  · rw [if_pos (hat.2 hend)]
    exact ⟨_, rfl, h2, rfl, by rw [if_pos hend]; exact ⟨rfl, rfl⟩⟩
  · rw [if_neg (mt hat.1 hend)]
    exact ⟨_, rfl, h2, rfl, by rw [if_neg hend]; exact ⟨rfl, rfl⟩⟩

/-- The meaning of NewPointId under the parameters that it has (46_control_codes R300). -/
theorem exec_newPointId {s : State} {p : Config} (h : s.cfg = p) :
    exec .newPointId s =
      runCode 0 s (Dec.decodeNewPoint p) fun _ r d => s.finishGet d (.newPointRegistered r.1 r.2.1 r.2.2) := by
  subst h
  rfl

/-- Settles O58: each request wrote its code and its fields, which the decoder reads back one after the other
(`Enc.ReadBack`), so that the code's meaning answers with them and leaves the decoder in step; FlushBits drops what
ENC_FLUSH padded. -/
theorem decoderReadsTheControlRecords : Obligations.DecoderReadsTheControlRecords := by
  unfold Obligations.DecoderReadsTheControlRecords
  intro s t pre f hg herr htables hbuffers hstep hf
  obtain ⟨hcfg, -⟩ := htables
  have hr : s.enc.Ranges := hbuffers.2.ranges
  refine ⟨fun i sent answer hi hexec hsent => ?record, fun g hexec hsent hk => ?flush⟩
  case record =>
    obtain ⟨tb, md, tag, id, htag, rfl, rfl, rfl⟩ | ⟨c, rfl, rfl, rfl⟩ | ⟨c, b, rfl, rfl, rfl⟩ := hi
    case inl =>
      obtain rfl := encRequest_of_succeeds hexec hsent rfl
      obtain ⟨hroom, hmax, hdone⟩ := State.encRegister_of_succeeds htag hsent rfl
      rw [hdone] at hsent hf ⊢
      obtain rfl := Response.okId.inj (State.respond_answers hsent)
      have hbody := Enc.ReadBack.newPoint (e := s.enc.writeCode 0) (tag := tag) hcfg (by simpa using hroom) hmax
      have hid : (s.enc.writeCode 0).stream.nextId = s.enc.stream.nextId := by simp [Stream.nextId]
      rw [hid] at hbody
      exact decGet_answers (c := 0)
        (answer := fun r : Word32 × TypeTag × List Byte => .newPointRegistered r.1 r.2.1 r.2.2)
        hf hg herr (by decide) (fun _ _ hs => exec_newPointId hs) hstep hr hbody
    case inr.inl =>
      obtain rfl := encRequest_of_succeeds hexec hsent rfl
      obtain ⟨-, hdone⟩ := State.finishEnc_of_succeeds hsent rfl
      rw [hdone] at hf ⊢
      exact decGet_answers (c := 1) hf hg herr (by decide) (fun _ _ _ => rfl) hstep hr (.varint (by decide) _ c)
    case inr.inr =>
      obtain rfl := encRequest_of_succeeds hexec hsent rfl
      obtain ⟨hfits, hdone⟩ := State.finishEnc_of_succeeds hsent rfl
      rw [hdone] at hf ⊢
      have hlen : b.length < 2 ^ 32 := by
        have hle : b.length ≤ _ := (Enc.length_le_footprint_writeBytes _ b).trans hfits
        obtain ⟨-, -, -, -, -, hmax, -⟩ := hcfg
        omega
      exact decGet_answers (c := 2) (answer := fun r : Word32 × List Byte => .userDataWithValue r.1 r.2)
        hf hg herr (by decide) (fun _ _ _ => rfl) hstep hr (.commandWithData _ c hlen)
  case flush =>
    obtain rfl := encRequest_of_succeeds hexec hsent rfl
    obtain ⟨-, hdone⟩ := State.finishEnc_of_succeeds hsent rfl
    rw [hdone] at hf ⊢
    exact step_passes_flush hk hf hstep hr rfl

end Sys2Proof.Machine
end

section
/-!
PROOFS. The requests that answer without a local code (47_stream_engine R330, R333, R334, R342, R350, R352, R353,
R355, R356; 60_exceptions R402, R407, R408): DEC_LOAD, the head of DEC_GET, the status requests and the refusals.
-/

namespace Sys2Proof.Machine

/-! ### Requests of a live and of a failed engine -/

/-- A request of a live decoder between requests. -/
theorem decRequest_of_live {s next : State} (hg : s.get = none) (herr : s.dec.err = .none) :
    betweenRequests s (s.unlessDecFailed next) = .next next := by
  rw [betweenRequests_idle hg, State.unlessDecFailed_live herr]

/-- A request of a failed decoder (47_stream_engine R342). -/
theorem decRequest_of_failed {s next : State} (hg : s.get = none) (herr : s.dec.err ≠ .none) :
    betweenRequests s (s.unlessDecFailed next) = .next (s.respond (.error s.dec.err s.dec.finfo)) := by
  rw [betweenRequests_idle hg, State.unlessDecFailed_failed herr]

/-- A request of a live encoder between requests. -/
theorem encRequest_of_live {s next : State} (hg : s.get = none) (herr : s.enc.err = .none) :
    betweenRequests s (s.unlessEncFailed next) = .next next := by
  rw [betweenRequests_idle hg, State.unlessEncFailed_live herr]

/-- A request of a failed encoder (47_stream_engine R342). -/
theorem encRequest_of_failed {s next : State} (hg : s.get = none) (herr : s.enc.err ≠ .none) :
    betweenRequests s (s.unlessEncFailed next) = .next (s.respond (.error s.enc.err s.enc.finfo)) := by
  rw [betweenRequests_idle hg, State.unlessEncFailed_failed herr]

/-! ### DEC_LOAD, DEC_GET and the status requests -/

/-- Settles O32: a failed decoder answers its error, a buffer past the limit is refused, and any other one is loaded. -/
theorem decLoadReplacesTheBuffer : Obligations.DecLoadReplacesTheBuffer := by
  unfold Obligations.DecLoadReplacesTheBuffer
  intro s bytes hg
  split_ifs with hfailed hlong
  · exact decRequest_of_failed hg hfailed
  · refine (decRequest_of_live hg (not_not.1 hfailed)).trans ?_
    rw [if_pos hlong]
    rfl
  · refine (decRequest_of_live hg (not_not.1 hfailed)).trans ?_
    rw [if_neg hlong]
    rfl

/-- Settles O33: DEC_GET of a live decoder is the head of the loop, with nothing read yet (`State.loopHead_cases`). -/
theorem decGetOpensOrEndsTheStream : Obligations.DecGetOpensOrEndsTheStream := by
  unfold Obligations.DecGetOpensOrEndsTheStream
  intro s hg herr
  have hexec : exec .decGet s = .next (s.loopHead (.start s.dec) s.dec) := decRequest_of_live hg herr
  rw [hexec]
  obtain ⟨hpos, hcnt, hhead⟩ | ⟨hmore, hhead⟩ := s.loopHead_cases (.start s.dec) s.dec <;> rw [hhead]
  · have hclosed : s.finishGet s.dec .endOfStream = s.respond .endOfStream := by
      rw [State.finishGet, ← hg]
    rw [if_pos ⟨hpos, hcnt⟩, hclosed]
    rfl
  · rw [if_neg (by omega)]
    rfl

/-- Settles O34: the record of each engine is its status record, whose first field is the number of the error. -/
theorem statusReportsTheEngine : Obligations.StatusReportsTheEngine := by
  unfold Obligations.StatusReportsTheEngine
  intro number s hg
  have hnumber (e : ErrorCode) : e.number = number e := by cases e <;> rfl
  have heos : s.dec.atEos = decide (s.dec.pos = s.dec.inBuf.length ∧ s.dec.rcnt = 0) :=
    (Bool.decide_and _ _).symm
  exact ⟨⟨s.dec.status, betweenRequests_idle hg, hnumber _, rfl, heos, rfl, rfl, rfl, rfl, rfl, rfl⟩,
    ⟨s.enc.status, betweenRequests_idle hg, hnumber _, rfl, rfl, rfl, rfl, rfl, rfl, rfl, rfl⟩⟩

/-! ### Refusals -/

theorem State.encRegister_unknownType {s : State} {tb : Byte} (h : s.cfg.typeCodes.tagOf tb = none) (md : List Byte) :
    s.encRegister tb md = s.refuse .unsupportedType := by
  simp only [State.encRegister, h]

/-- A full table and metadata past the limit are refused alike (47_stream_engine R355). -/
theorem State.encRegister_overLimit {s : State} {tb : Byte} {md : List Byte} (htag : s.cfg.typeCodes.tagOf tb ≠ none)
    (h : s.enc.stream.pts.length = s.cfg.maxPoints ∨ s.cfg.maxMetaBytes < md.length) :
    s.encRegister tb md = s.refuse .capacityExceeded := by
  obtain ⟨tag, htag⟩ := Option.ne_none_iff_exists'.1 htag
  simp only [State.encRegister, htag]
  split_ifs with hfull hlong
  · rfl
  · rfl
  · exact (h.elim hfull hlong).elim

theorem State.encWrite_unregistered {s : State} {id : Word32} (h : s.enc.stream.pts[id.toNat]? = none) (ts : Word64)
    (q : Word32) (v : Value) : s.encWrite id ts q v = s.refuse .invalidRequest := by
  simp only [State.encWrite, h]

/-- A value of another type than the point's is refused (47_stream_engine R356). -/
theorem State.encWrite_wrongTag {s : State} {id : Word32} {p : Point} {v : Value}
    (hp : s.enc.stream.pts[id.toNat]? = some p) (h : v.tag ≠ p.type) (ts : Word64) (q : Word32) :
    s.encWrite id ts q v = s.refuse .invalidRequest := by
  unfold Point.type at h
  simp only [State.encWrite, hp]
  cases hv : p.values with
  | narrow t hist =>
    cases v with
    | narrow t' b => exact if_neg fun ht => h (by rw [hv, ht]; rfl)
    | wide t' b => rfl
  | wide t hist =>
    cases v with
    | narrow t' b => rfl
    | wide t' b => exact if_neg fun ht => h (by rw [hv, ht]; rfl)

/-- Settles O41: each refusal is the body's answer on a live engine, before anything is written. -/
theorem refusalsChangeNothing : Obligations.RefusalsChangeNothing := by
  unfold Obligations.RefusalsChangeNothing
  intro s hg refused
  refine ⟨fun low => betweenRequests_idle hg, fun bytes herr hlong => ?load, fun herr => ⟨fun tb md htag => ?type,
    fun tb md htag hfull => ?full, fun tb md htag hlong => ?metadata, fun id ts q v hid => ?id,
    fun id ts q v p hp htag => ?tag⟩⟩
  case load => exact (decRequest_of_live hg herr).trans (by rw [if_pos hlong]; rfl)
  case type => exact (encRequest_of_live hg herr).trans (by rw [State.encRegister_unknownType htag]; rfl)
  case full => exact (encRequest_of_live hg herr).trans (by rw [State.encRegister_overLimit htag (.inl hfull)]; rfl)
  case metadata =>
    exact (encRequest_of_live hg herr).trans (by rw [State.encRegister_overLimit htag (.inr hlong)]; rfl)
  case id =>
    have hnone := List.getElem?_eq_none hid
    exact (encRequest_of_live hg herr).trans (by rw [State.encWrite_unregistered hnone]; rfl)
  case tag => exact (encRequest_of_live hg herr).trans (by rw [State.encWrite_wrongTag hp htag]; rfl)

/-- Settles O42: each of these requests asks first whether its engine failed, and a reserved opcode does not ask. -/
theorem failedEngineAnswersItsError : Obligations.FailedEngineAnswersItsError := by
  unfold Obligations.FailedEngineAnswersItsError
  intro s hg
  refine ⟨fun hdec => ?_, fun henc => ?_, fun low => betweenRequests_idle hg⟩
  · exact ⟨fun _ => decRequest_of_failed hg hdec, decRequest_of_failed hg hdec⟩
  · exact ⟨fun _ _ => encRequest_of_failed hg henc, fun _ _ _ _ => encRequest_of_failed hg henc,
      fun _ => encRequest_of_failed hg henc, fun _ _ => encRequest_of_failed hg henc, encRequest_of_failed hg henc,
      encRequest_of_failed hg henc⟩

end Sys2Proof.Machine
end

section
/-!
PROOFS. How a DEC_GET runs (47_stream_engine R330, R340, R341; 60_exceptions R401, R409; 70_reset_and_hazards R471): a
step inside it goes on, answers, or takes an error (`CodeOutcome`), and each code that it reads leaves fewer bits to
read, so it comes to its one answer.
-/

namespace Sys2Proof.Machine

/-! ### What a rule leaves to read -/

/-- A rule that raises nothing leads from `d` to `d'`: it stores no error and gives no bit back. -/
structure Dec.ReadsOn (d d' : Dec) : Prop where
  err : d'.err = d.err
  bitsLeft_le : d'.bitsLeft ≤ d.bitsLeft

theorem Dec.ReadsOn.trans {d d' d'' : Dec} (h : d.ReadsOn d') (h' : d'.ReadsOn d'') : d.ReadsOn d'' :=
  ⟨h'.err.trans h.err, h'.bitsLeft_le.trans h.bitsLeft_le⟩

/-- The bits left to read do not depend on the stream state. -/
theorem Dec.ReadsOn.withStream {d d' : Dec} (h : d.ReadsOn d') (st : Stream) : d.ReadsOn { d' with stream := st } :=
  ⟨h.err, h.bitsLeft_le⟩

theorem Dec.readsOn_discardBits (d : Dec) : d.ReadsOn d.discardBits :=
  ⟨rfl, Nat.le_add_right _ _⟩

theorem ReadLaw.readsOn {α : Type} {d d' : Dec} {r : ReadResult α} {a : α} (h : ReadLaw d r) (hr : r = .ok a d') :
    d.ReadsOn d' := by
  subst hr
  exact ⟨h.err, h.bitsLeft_le⟩

theorem Dec.typeOfByte_eq_ok {p : Config} {b : Byte} {d d' : Dec} {tag : TypeTag}
    (h : d.typeOfByte p b = .ok tag d') : d' = d := by
  unfold Dec.typeOfByte at h
  split at h <;> cases h
  rfl

theorem Dec.target_eq_ok {d d' : Dec} {p : Point} (h : d.target = .ok p d') : d' = d := by
  unfold Dec.target at h
  split at h <;> cases h
  rfl

theorem Dec.checkCursor_eq_ok {d d' : Dec} {u : Unit} (h : d.checkCursor = .ok u d') : d' = d := by
  unfold Dec.checkCursor at h
  split at h <;> cases h
  rfl

/-- Between the reads of NewPointId stand only checks (46_control_codes R300). -/
theorem Dec.decodeNewPoint_readsOn {p : Config} {d d' : Dec} {r : Word32 × TypeTag × List Byte}
    (h : d.decodeNewPoint p = .ok r d') : d.ReadsOn d' := by
  simp only [Dec.decodeNewPoint, ReadResult.bind_eq_ok] at h
  obtain ⟨tb, d1, htb, tag, d2, htag, _, d3, hroom, len, d4, hlen, _, d5, hmax, md, d6, hmd, hdone⟩ := h
  obtain rfl := Dec.typeOfByte_eq_ok htag
  obtain ⟨-, rfl⟩ := Dec.within_eq_ok hroom
  obtain ⟨-, rfl⟩ := Dec.within_eq_ok hmax
  obtain ⟨-, rfl⟩ := by simpa using hdone
  exact (((d.readByte_law.readsOn htb).trans ((Dec.readVarint_law 32 _).readsOn hlen)).trans
    ((Dec.readBytes_law _ _).readsOn hmd)).withStream _

theorem Dec.decodeId_readsOn {w : Nat} {d d' : Dec} {u : Unit} (h : d.decodeId w = .ok u d') : d.ReadsOn d' := by
  obtain ⟨x, d1, hx, hcheck⟩ := ReadResult.bind_eq_ok.1 h
  obtain rfl := Dec.checkCursor_eq_ok hcheck
  exact ((Dec.readXor_law w d).readsOn hx).withStream _

/-- A code that was read leaves fewer bits (30_encoding R104). -/
theorem Dec.readCode_readsOn {d d' : Dec} {c : Code} (h : d.readCode = .ok c d') :
    d'.err = d.err ∧ d'.bitsLeft < d.bitsLeft := by
  obtain ⟨d1, hword, rfl⟩ := Dec.readCode_eq_ok h
  have hmoved : d1 = d.movedTo d1 := by
    simpa [hword] using (Dec.readCodeWord_law d.stream.curModel.escapes d).moved
  have hlt := Dec.readCodeWord_bitsLeft hword
  rw [hmoved] at hlt
  exact ⟨rfl, hlt⟩

/-! ### What a local code comes to -/

/-- Everything the meaning of a local code makes of the state that it runs in: the DEC_GET goes on at a position, ends
with its response, or takes an error (47_stream_engine R331, R332, R340, R341). -/
inductive CodeOutcome (s : State) (g : GetContext) : State → Prop
  | goesOn (k : Phase) {d : Dec} (reads : s.dec.ReadsOn d) : CodeOutcome s g (s.continueAt g k d)
  | answers (r : Response) {d : Dec} (reads : s.dec.ReadsOn d) : CodeOutcome s g (s.finishGet d r)
  | fails (d : Dec) {e : ErrorCode} (raised : e ∈ raisedErrors) : CodeOutcome s g (s.takeDecError g d e)

theorem State.loopHead_outcome {s : State} {d : Dec} (g : GetContext) (h : s.dec.ReadsOn d) :
    CodeOutcome s g (s.loopHead g d) := by
  obtain ⟨-, -, hhead⟩ | ⟨-, hhead⟩ := s.loopHead_cases g d <;> rw [hhead]
  · exact .answers _ h
  · exact .goesOn _ h

theorem runCode_outcome {α : Type} {c : Code} {s t : State} {g : GetContext} {body : Dec → ReadResult α}
    {done : GetContext → α → Dec → State} (hg : s.get = some g) (hlaw : AdvancingLaw s.cfg s.dec (body s.dec))
    (hdone : ∀ a d, body s.dec = .ok a d → CodeOutcome s g (done g a d)) (h : runCode c s body done = .next t) :
    CodeOutcome s g t := by
  obtain ⟨hnone, -⟩ | ⟨g', hg', hrun⟩ := runCode_cases c s body done
  · rw [hg] at hnone
    cases hnone
  obtain rfl := Option.some.inj (hg.symm.trans hg')
  obtain ⟨-, hrun⟩ | ⟨-, ⟨a, d, hbody, hrun⟩ | ⟨e, d, hbody, hrun⟩⟩ := hrun <;>
    obtain rfl := Host.Outcome.next.inj (hrun.symm.trans h)
  · exact .fails _ (by decide)
  · exact hdone a d hbody
  · exact .fails d (hlaw.raised_mem e d hbody)

/-- A rule that does nothing but read, with the end of its code. -/
theorem settleRead_outcome {α : Type} {s t : State} {g : GetContext} {r : ReadResult α} {done : α → Dec → State}
    (hlaw : ReadLaw s.dec r) (hdone : ∀ a d, r = .ok a d → CodeOutcome s g (done a d))
    (h : settleRead s g r done = .next t) : CodeOutcome s g t := by
  obtain ⟨a, d, hr, hrun⟩ | ⟨e, d, hr, hrun⟩ := settleRead_cases s g r done <;>
    obtain rfl := Host.Outcome.next.inj (hrun.symm.trans h)
  · exact hdone a d hr
  · exact .fails d (by simp [hlaw.raised_underrun e d hr, raisedErrors])

theorem settleValue32_outcome {rule : ValueRule 32} (reads : ∀ h d, ReadLaw d (rule h d)) {s t : State}
    {g : GetContext} {p : Point} (h : settleValue32 rule s g p s.dec = .next t) : CodeOutcome s g t := by
  unfold settleValue32 at h
  split at h
  case h_1 tag hist _ =>
    exact settleRead_outcome (reads hist s.dec)
      (fun _ _ hr => .answers _ (((reads hist s.dec).readsOn hr).withStream _)) h
  case h_2 => cases h

theorem settleValue64_outcome {rule : ValueRule 64} (reads : ∀ h d, ReadLaw d (rule h d)) {s t : State}
    {g : GetContext} {p : Point} (h : settleValue64 rule s g p s.dec = .next t) : CodeOutcome s g t := by
  unfold settleValue64 at h
  split at h
  case h_1 tag hist _ =>
    exact settleRead_outcome (reads hist s.dec)
      (fun _ _ hr => .answers _ (((reads hist s.dec).readsOn hr).withStream _)) h
  case h_2 => cases h

theorem runAtTarget_outcome {c : Code} {s t : State} {g : GetContext} {k : GetContext → Point → Dec → StepOutcome}
    (hg : s.get = some g) (hk : ∀ p, k g p s.dec = .next t → CodeOutcome s g t) (h : runAtTarget c s k = .next t) :
    CodeOutcome s g t := by
  obtain rfl | ⟨p, hp⟩ := runAtTarget_next hg h
  · exact .fails _ (by decide)
  · exact hk p hp

/-- Every local code that gives a next state goes on, answers or takes an error. -/
theorem CodeShape.outcome {m : State → StepOutcome} (hm : CodeShape m) {s t : State} {g : GetContext}
    (hg : s.get = some g) (h : m s = .next t) : CodeOutcome s g t := by
  cases hm with
  | newPointId =>
    exact runCode_outcome hg (s.dec.decodeNewPoint_advancing s.cfg)
      (fun _ _ hr => .answers _ (Dec.decodeNewPoint_readsOn hr)) h
  | userCommand =>
    have hlaw := s.dec.readVarint_law 32
    exact runCode_outcome hg hlaw.advancing (fun _ _ hr => .answers _ (hlaw.readsOn hr)) h
  | userCommandWithData =>
    have hlaw := s.dec.readCommandWithData_law
    exact runCode_outcome hg hlaw.advancing (fun _ _ hr => .answers _ (hlaw.readsOn hr)) h
  | flushBits =>
    have hadvances : s.dec.Advances s.cfg s.dec.discardBits := ⟨.refl, rfl, fun hp => hp, fun _ => Nat.zero_le 8, rfl⟩
    refine runCode_outcome (body := fun d => .ok () d.discardBits) hg (.ok hadvances) (fun _ _ hr => ?_) h
    obtain ⟨-, rfl⟩ := by simpa using hr
    exact s.loopHead_outcome g s.dec.readsOn_discardBits
  | id c w =>
    exact runCode_outcome hg (Dec.decodeId_advancing s.cfg w s.dec)
      (fun _ _ hr => .goesOn _ (Dec.decodeId_readsOn hr)) h
  | time c reads =>
    exact runCode_outcome hg (reads s.dec).advancing
      (fun _ _ hr => .goesOn _ (((reads s.dec).readsOn hr).withStream _)) h
  | quality c reads =>
    refine runCode_outcome hg ((s.dec.target_advancing _).bind fun p d _ => (reads p d).advancing)
      (fun q d hr => ?_) h
    obtain ⟨p, d1, htarget, hq⟩ := ReadResult.bind_eq_ok.1 hr
    obtain rfl := Dec.target_eq_ok htarget
    exact .goesOn _ (((reads p _).readsOn hq).withStream _)
  | value32 c reads =>
    rw [runValue32_eq] at h
    exact runAtTarget_outcome hg (fun _ => settleValue32_outcome reads) h
  | value64 c reads =>
    rw [runValue64_eq] at h
    exact runAtTarget_outcome hg (fun _ => settleValue64_outcome reads) h
  | reserved c =>
    exact runCode_outcome hg (.raised (by decide)) (fun _ _ hr => nomatch hr) h

/-! ### Taking an error -/

/-- A step inside a DEC_GET: the error of a code word that is cut off, or what the code that was read comes to. -/
theorem step_outcome {s t : State} {g : GetContext} (hg : s.get = some g) (h : step s = .next t) :
    (∃ e d, s.dec.readCode = .raised e d ∧ t = s.takeDecError g d e) ∨
    ∃ c d, s.dec.readCode = .ok c d ∧ CodeOutcome (s.fetched g c d) { g with code := codeField c } t := by
  cases hc : s.dec.readCode with
  | raised e d =>
    rw [step_of_readCode_raised hg hc] at h
    exact .inl ⟨e, d, rfl, (Host.Outcome.next.inj h).symm⟩
  | ok c d =>
    rw [step_of_readCode hg hc] at h
    exact .inr ⟨c, d, rfl, (exec_codeShape (encode_decodeCode _ c)).outcome rfl h⟩

/-- Settles O43: only a step that takes an error stores one (`step_outcome`), and `State.takeDecError` is that next
state. -/
theorem stickyErrorUndoesTheRequest : Obligations.StickyErrorUndoesTheRequest := by
  unfold Obligations.StickyErrorUndoesTheRequest
  intro s t g hg hlive _ hstep hfailed
  obtain ⟨e, d, hc, rfl⟩ | ⟨c, d, hc, hout⟩ := step_outcome hg hstep
  · obtain ⟨rfl, -⟩ := Dec.readCode_eq_raised hc
    exact ⟨_, rfl, by simp, rfl, .inl ⟨_, d, hc, rfl, rfl⟩⟩
  · have hread : d.err = .none := (Dec.readCode_readsOn hc).1.trans hlive
    cases hout with
    | goesOn k reads => exact absurd (reads.err.trans hread) hfailed
    | answers r reads => exact absurd (reads.err.trans hread) hfailed
    | fails d' raised => exact ⟨_, rfl, raised, rfl, .inr ⟨c, d, hc, rfl⟩⟩

/-! ### Steps inside a DEC_GET always go on -/

theorem runCode_next {α : Type} {s : State} {g : GetContext} (hg : s.get = some g) (c : Code)
    (body : Dec → ReadResult α) (done : GetContext → α → Dec → State) : ∃ t, runCode c s body done = .next t := by
  obtain ⟨hnone, -⟩ | ⟨g', -, ⟨-, hrun⟩ | ⟨-, ⟨a, d, -, hrun⟩ | ⟨e, d, -, hrun⟩⟩⟩ := runCode_cases c s body done
  · rw [hg] at hnone
    cases hnone
  all_goals exact ⟨_, hrun⟩

theorem settleRead_next {α : Type} (s : State) (g : GetContext) (r : ReadResult α) (done : α → Dec → State) :
    ∃ t, settleRead s g r done = .next t := by
  obtain ⟨_, _, -, h⟩ | ⟨_, _, -, h⟩ := settleRead_cases s g r done <;> exact ⟨_, h⟩

/-- The frame of the value codes gives a next state where what follows it does at the target point. -/
theorem runAtTarget_next_exists {s : State} {g : GetContext} {k : GetContext → Point → Dec → StepOutcome}
    (hg : s.get = some g) (c : Code)
    (hk : ∀ p, s.dec.stream.target? = some p → ∃ t, k g p s.dec = .next t) : ∃ t, runAtTarget c s k = .next t := by
  simp only [runAtTarget, duringGet, hg]
  cases hc : allowedAt g.phase s.dec.stream.pts.length c with
  | false => exact ⟨_, by rw [checkPhase_refused hc]; rfl⟩
  | true =>
    rw [checkPhase_allowed hc, ReadResult.bind_ok]
    cases hp : s.dec.stream.target? with
    | none => exact ⟨s.takeDecError g s.dec .malformedStream, by simp only [Dec.target, hp]⟩
    | some p =>
      rw [Dec.target_of_some hp]
      exact hk p hp

/-- A value code of the width-32 rows meets no point of the other width. -/
theorem runValue32_next_exists {s : State} {g : GetContext} (hg : s.get = some g) (c : Code) (rule : ValueRule 32)
    (hw : s.dec.stream.targetWidth = .w32) : ∃ t, runValue32 c rule s = .next t := by
  rw [runValue32_eq]
  refine runAtTarget_next_exists hg c fun p hp => ?_
  simp only [Stream.targetWidth, hp, Point.type] at hw
  unfold settleValue32
  cases hv : p.values with
  | narrow tag h => exact settleRead_next ..
  | wide tag h => simp [hv, PointValues.type, TypeTag.width] at hw

/-- As `runValue32_next_exists`, for the width-64 rows. -/
theorem runValue64_next_exists {s : State} {g : GetContext} (hg : s.get = some g) (c : Code) (rule : ValueRule 64)
    (hw : s.dec.stream.targetWidth = .w64) : ∃ t, runValue64 c rule s = .next t := by
  rw [runValue64_eq]
  refine runAtTarget_next_exists hg c fun p hp => ?_
  simp only [Stream.targetWidth, hp, Point.type] at hw
  unfold settleValue64
  cases hv : p.values with
  | narrow tag h => simp [hv, PointValues.type, TypeTag.width] at hw
  | wide tag h => exact settleRead_next ..

/-- The row that a code has for the width of the target point runs (30_encoding R111). -/
theorem exec_localCode_next {i : Instr} {c : Code} {s : State} {g : GetContext} (hi : encode i = .localCode c)
    (hg : s.get = some g) (hw : i.fitsWidth s.dec.stream.targetWidth = true) : ∃ t, exec i s = .next t := by
  cases i with
  | value1W32 | value2W32 | value3W32 | valueZeroW32 | valueXOR4W32 | valueXOR8W32 | valueXOR12W32 | valueXOR16W32
  | valueXOR20W32 | valueXOR24W32 | valueXOR28W32 | valueXOR32W32 =>
    exact runValue32_next_exists hg _ _ (beq_iff_eq.1 hw)
  | value1W64 | value2W64 | value3W64 | valueZeroW64 | valueXOR8W64 | valueXOR16W64 | valueXOR24W64 | valueXOR32W64
  | valueXOR40W64 | valueXOR48W64 | valueXOR56W64 | valueXOR64W64 =>
    exact runValue64_next_exists hg _ _ (beq_iff_eq.1 hw)
  | newPointId | userCommand | userCommandWithData | flushBits
  | pointIDXOR4 | pointIDXOR8 | pointIDXOR12 | pointIDXOR16 | pointIDXOR20 | pointIDXOR24 | pointIDXOR32
  | timeDelta1Forward | timeDelta2Forward | timeDelta3Forward | timeDelta4Forward
  | timeDelta1Reverse | timeDelta2Reverse | timeDelta3Reverse | timeDelta4Reverse | timestamp2 | timeXOR7Bit
  | quality2 | quality7Bit32 | reserved23 | reserved24to31 | reserved44to47 | reserved48to63 =>
    exact runCode_next hg _ _ _
  | decReset | decLoad | decGet | decStatus | reservedHost4to7 | encReset | encRegister | encWrite | encUser
  | encUserData | encFlush | encTake | encStatus => cases hi

/-- Inside a DEC_GET every step gives a next state. -/
theorem openStep_next {s : State} {g : GetContext} (hg : s.get = some g) : ∃ t, step s = .next t := by
  cases hc : s.dec.readCode with
  | raised e d => exact ⟨_, step_of_readCode_raised hg hc⟩
  | ok c d =>
    rw [step_of_readCode hg hc]
    exact exec_localCode_next (encode_decodeCode _ c) rfl (decodeCode_fitsWidth _ c)

/-! ### One answer -/

/-- From `s` to `t` one response was given, and no request was accepted or opened. -/
structure State.AnswersOnce (s t : State) : Prop where
  get : t.get = s.get
  pending : t.pending = s.pending
  answer : ∃ a, t.responses = s.responses ++ [a]

theorem State.answersOnce_respond (s : State) (r : Response) : s.AnswersOnce (s.respond r) := ⟨rfl, rfl, r, rfl⟩

theorem State.AnswersOnce.unlessDecFailed {s t : State} (h : s.AnswersOnce t) :
    s.AnswersOnce (s.unlessDecFailed t) := by
  unfold State.unlessDecFailed
  split
  · exact s.answersOnce_respond _
  · exact h

theorem State.AnswersOnce.unlessEncFailed {s t : State} (h : s.AnswersOnce t) :
    s.AnswersOnce (s.unlessEncFailed t) := by
  unfold State.unlessEncFailed
  split
  · exact s.answersOnce_respond _
  · exact h

theorem State.answersOnce_finishEnc (s : State) (e : Enc) (r : Response) : s.AnswersOnce (s.finishEnc e r) := by
  unfold State.finishEnc
  split
  · exact ⟨rfl, rfl, r, rfl⟩
  · exact s.answersOnce_respond _

theorem State.answersOnce_encRegister (s : State) (tb : Byte) (md : List Byte) :
    s.AnswersOnce (s.encRegister tb md) := by
  unfold State.encRegister
  split
  · exact s.answersOnce_respond _
  · split_ifs
    · exact s.answersOnce_respond _
    · exact s.answersOnce_respond _
    · exact s.answersOnce_finishEnc _ _

theorem State.answersOnce_encWrite (s : State) (id : Word32) (ts : Word64) (q : Word32) (v : Value) :
    s.AnswersOnce (s.encWrite id ts q v) := by
  have finish (v : ValueEncoded) : s.AnswersOnce (s.finishWrite v) := by
    cases v with
    | done r => exact s.answersOnce_finishEnc _ _
    | violated r => exact ⟨rfl, rfl, _, rfl⟩
  obtain h | ⟨p, -, ⟨_, _, _, -, -, h⟩ | ⟨_, _, _, -, -, h⟩⟩ := s.encWrite_cases id ts q v <;> rw [h]
  · exact s.answersOnce_respond _
  · exact finish _
  · exact finish _

/-- A request of the encoder is answered in the step that accepts it. -/
theorem exec_encoderRequest_answersOnce {r : Request} (hr : 8 ≤ r.opcode.toNat) {s t : State}
    (h : exec (decodeRequest r) s = .next t) : s.AnswersOnce t := by
  obtain ⟨-, hi⟩ | hi | hi | hi | hi | hi | hi | hi := decodeRequest_encoder hr <;> rw [hi] at h <;>
    obtain ⟨-, rfl⟩ := betweenRequests_eq_next.1 h
  · exact ⟨rfl, rfl, .ok, rfl⟩
  · exact (s.answersOnce_encRegister _ _).unlessEncFailed
  · exact (s.answersOnce_encWrite _ _ _ _).unlessEncFailed
  · exact (s.answersOnce_finishEnc _ _).unlessEncFailed
  · exact (s.answersOnce_finishEnc _ _).unlessEncFailed
  · exact (s.answersOnce_finishEnc _ _).unlessEncFailed
  · exact State.AnswersOnce.unlessEncFailed ⟨rfl, rfl, _, rfl⟩
  · exact s.answersOnce_respond _

/-- A request of the decoder is answered in the step that accepts it, or is a DEC_GET that stays open. -/
theorem exec_decoderRequest_answersOnce {r : Request} (hr : r.opcode.toNat < 8) {s t : State}
    (h : exec (decodeRequest r) s = .next t) :
    s.AnswersOnce t ∨ t = s.continueAt (.start s.dec) .start s.dec := by
  obtain ⟨-, hi⟩ | hi | hi | hi | ⟨low, hi⟩ := decodeRequest_decoder hr <;> rw [hi] at h <;>
    obtain ⟨hidle, rfl⟩ := betweenRequests_eq_next.1 h
  · exact .inl ⟨rfl, rfl, .ok, rfl⟩
  · refine .inl (State.AnswersOnce.unlessDecFailed ?_)
    split
    · exact s.answersOnce_respond _
    · exact ⟨rfl, rfl, .ok, rfl⟩
  · by_cases herr : s.dec.err = .none
    · rw [State.unlessDecFailed_live herr]
      obtain ⟨-, -, hhead⟩ | ⟨-, hhead⟩ := s.loopHead_cases (.start s.dec) s.dec <;> rw [hhead]
      · exact .inl ⟨hidle.symm, rfl, .endOfStream, rfl⟩
      · exact .inr rfl
    · rw [State.unlessDecFailed_failed herr]
      exact .inl (s.answersOnce_respond _)
  · exact .inl (s.answersOnce_respond _)
  · exact .inl (s.answersOnce_respond _)

theorem exec_request_next {s : State} (hg : s.get = none) (r : Request) :
    ∃ t, exec (decodeRequest r) s = .next t := by
  rcases Nat.lt_or_ge r.opcode.toNat 8 with hr | hr
  · obtain ⟨-, hi⟩ | hi | hi | hi | ⟨low, hi⟩ := decodeRequest_decoder hr <;> rw [hi] <;>
      exact ⟨_, betweenRequests_idle hg⟩
  · obtain ⟨-, hi⟩ | hi | hi | hi | hi | hi | hi | hi := decodeRequest_encoder hr <;> rw [hi] <;>
      exact ⟨_, betweenRequests_idle hg⟩

/-- An open DEC_GET with fewer than `b` bits left is answered within `b` steps: every code that is read leaves fewer
bits, and with none left the code word is cut off. -/
theorem openGet_answered (b : Nat) {s : State} {g : GetContext} (hg : s.get = some g) (hb : s.dec.bitsLeft < b) :
    ∃ n t answer, n ≤ b ∧ StepsTo n s t ∧ t.get = none ∧ t.pending = s.pending ∧
      t.responses = s.responses ++ [answer] := by
  induction b generalizing s g with
  | zero => exact absurd hb (Nat.not_lt_zero _)
  | succ b ih =>
    obtain ⟨t, hstep⟩ := openStep_next hg
    obtain ⟨e, d, -, rfl⟩ | ⟨c, d, hc, hout⟩ := step_outcome hg hstep
    · exact ⟨1, _, _, by omega, ⟨_, hstep, rfl⟩, rfl, rfl, rfl⟩
    · have hlt := (Dec.readCode_readsOn hc).2
      cases hout with
      | @goesOn k d' reads =>
        have hle : d'.bitsLeft ≤ d.bitsLeft := reads.bitsLeft_le
        have hd' : d'.bitsLeft < b := by omega
        obtain ⟨n, u, answer, hn, hsteps, hdone⟩ :=
          ih ((s.fetched g c d).continueAt_get { g with code := codeField c } k d') hd'
        exact ⟨n + 1, u, answer, by omega, ⟨_, hstep, hsteps⟩, hdone⟩
      | answers r reads => exact ⟨1, _, r, by omega, ⟨_, hstep, rfl⟩, rfl, rfl, rfl⟩
      | fails d' raised => exact ⟨1, _, _, by omega, ⟨_, hstep, rfl⟩, rfl, rfl, rfl⟩

/-- Settles O49: the step that accepts a request answers it, or opens a DEC_GET (`exec_decoderRequest_answersOnce`),
which runs out of bits unless it is answered before (`openGet_answered`). -/
theorem everyRequestIsAnsweredOnce : Obligations.EveryRequestIsAnsweredOnce := by
  unfold Obligations.EveryRequestIsAnsweredOnce
  intro s r rest hg hp
  have hidle : (s.accepted rest).get = none := hg
  obtain ⟨t, hexec⟩ := exec_request_next hidle r
  have hstep : step s = .next t := (step_of_pending hg hp).trans hexec
  have done : (s.accepted rest).AnswersOnce t → ∃ n t answer, n ≤ s.dec.bitsLeft + 2 ∧ StepsTo n s t ∧
      t.get = none ∧ t.pending = rest ∧ t.responses = s.responses ++ [answer] :=
    fun ⟨hget, hpending, answer, hanswer⟩ => ⟨1, t, answer, by omega, ⟨t, hstep, rfl⟩, hget.trans hg, hpending, hanswer⟩
  rcases Nat.lt_or_ge r.opcode.toNat 8 with hr | hr
  · obtain h | rfl := exec_decoderRequest_answersOnce hr hexec
    · exact done h
    · obtain ⟨n, u, answer, hn, hsteps, hdone⟩ := openGet_answered (s.dec.bitsLeft + 1)
        ((s.accepted rest).continueAt_get (.start s.dec) .start s.dec) (Nat.lt_succ_self _)
      exact ⟨n + 1, u, answer, by omega, ⟨_, hstep, hsteps⟩, hdone⟩
  · exact done (exec_encoderRequest_answersOnce hr hexec)

end Sys2Proof.Machine
end

section
/-!
PROOFS. The capacity check of the encoder (47_stream_engine R354): a request writes without asking for the limit, and
the limit decides only whether what it wrote becomes the encoder.
-/

namespace Sys2Proof.Machine

/-! ### The byte in hand -/

theorem Enc.padBits_out_length {e : Enc} (h : e.Ranges) : e.padBits.out.length = e.out.length := by
  rw [Enc.padBits_eq h]
  split
  · rfl
  · exact List.length_set

/-- Code 3 takes at most nine bits, which a pending group and one byte more can hold. -/
theorem Enc.writeCode_flush_length_le {e : Enc} (hr : e.Ranges) (hpos : 0 < e.wcnt) :
    (e.writeCode 3).out.length ≤ e.out.length + 1 := by
  obtain ⟨hr', hle⟩ := Enc.writeCode_adds 3 e hr
  have hcnt := hr.wcnt_le
  have hslot := hr.slot_lt hpos
  unfold Enc.bitLength at hle
  split_ifs at hle <;> omega

/-! ### Requests under another limit -/

/-- The same state with another limit for the output. -/
def State.withLimit (s : State) (n : Nat) : State :=
  { s with cfg := { s.cfg with encBufMax := n } }

theorem State.withLimit_self (s : State) : s.withLimit s.cfg.encBufMax = s := rfl

/-- The body of a request that asks for the limit only at its end: it is refused under every limit, or under every
limit it ends with the capacity check of the same encoder. -/
def State.LimitDecides (s : State) (body : State → State) : Prop :=
  (∃ code, ∀ n, body (s.withLimit n) = (s.withLimit n).refuse code) ∨
  ∃ e r, ∀ n, body (s.withLimit n) = (s.withLimit n).finishEnc e r

theorem State.limitDecides_encRegister (s : State) (tb : Byte) (md : List Byte) :
    s.LimitDecides fun s => s.encRegister tb md := by
  have henc (n : Nat) : (s.withLimit n).enc = s.enc := rfl
  have htags (n : Nat) : (s.withLimit n).cfg.typeCodes = s.cfg.typeCodes := rfl
  cases htag : s.cfg.typeCodes.tagOf tb with
  | none => exact .inl ⟨_, fun n => State.encRegister_unknownType (s := s.withLimit n) htag md⟩
  | some tag =>
    by_cases hover : s.enc.stream.pts.length = s.cfg.maxPoints ∨ s.cfg.maxMetaBytes < md.length
    · have htag' (n : Nat) : (s.withLimit n).cfg.typeCodes.tagOf tb ≠ none := by rw [htags, htag]; simp
      exact .inl ⟨_, fun n => State.encRegister_overLimit (htag' n) hover⟩
    · obtain ⟨hroom, hmax⟩ := not_or.1 hover
      refine .inr ⟨(encodeNewPoint s.cfg tag md (.start s.enc)).enc, .okId s.enc.stream.nextId, fun n => ?_⟩
      simp only [State.encRegister, htags, htag, henc]
      exact (if_neg hroom).trans (if_neg hmax)

/-- ENC_WRITE for a registered point and a value of its type ends with the capacity check of what it wrote
(`encodeValue_writes`: the value phase never fails). -/
theorem State.encWrite_finishEnc {s : State} {id : Word32} {p : Point} {v : Value}
    (hp : s.enc.stream.pts[id.toNat]? = some p) (htag : v.tag = p.type) (ts : Word64) (q : Word32) :
    ∃ e, ∀ n, (s.withLimit n).encWrite id ts q v = (s.withLimit n).finishEnc e .ok := by
  have hp' (n : Nat) : (s.withLimit n).enc.stream.pts[id.toNat]? = some p := hp
  unfold Point.type at htag
  simp only [State.encWrite, hp']
  cases hv : p.values with
  | narrow t h =>
    cases v with
    | narrow t' b =>
      obtain rfl : t' = t := by simpa [hv, PointValues.type, Value.tag] using htag
      obtain ⟨r, he, -⟩ := encodeValue_writes valueWidths32 4 (.narrow t') h b (encodePhases id ts q p (.start s.enc))
      exact ⟨r.enc, fun n => (if_pos rfl).trans (congrArg (s.withLimit n).finishWrite he)⟩
    | wide t' b => simp [hv, PointValues.type, Value.tag] at htag
  | wide t h =>
    cases v with
    | narrow t' b => simp [hv, PointValues.type, Value.tag] at htag
    | wide t' b =>
      obtain rfl : t' = t := by simpa [hv, PointValues.type, Value.tag] using htag
      obtain ⟨r, he, -⟩ := encodeValue_writes valueWidths64 8 (.wide t') h b (encodePhases id ts q p (.start s.enc))
      exact ⟨r.enc, fun n => (if_pos rfl).trans (congrArg (s.withLimit n).finishWrite he)⟩

theorem State.limitDecides_encWrite (s : State) (id : Word32) (ts : Word64) (q : Word32) (v : Value) :
    s.LimitDecides fun s => s.encWrite id ts q v := by
  cases hp : s.enc.stream.pts[id.toNat]? with
  | none => exact .inl ⟨_, fun n => State.encWrite_unregistered (s := s.withLimit n) hp ts q v⟩
  | some p =>
    by_cases htag : v.tag = p.type
    · obtain ⟨e, he⟩ := State.encWrite_finishEnc hp htag ts q
      exact .inr ⟨e, .ok, he⟩
    · exact .inl ⟨_, fun n => State.encWrite_wrongTag (s := s.withLimit n) hp htag ts q⟩

/-- The requests that are checked (47_stream_engine R354), each with the body that it has on a live encoder. -/
theorem exec_of_limited {i : Instr}
    (hi : (∃ tb md, i = .encRegister tb md) ∨ (∃ id ts q v, i = .encWrite id ts q v) ∨ (∃ c, i = .encUser c) ∨
      (∃ c b, i = .encUserData c b) ∨ i = .encFlush) :
    ∃ body : State → State, (∀ s : State, exec i s = betweenRequests s (s.unlessEncFailed (body s))) ∧
      ∀ s : State, s.LimitDecides body := by
  obtain ⟨tb, md, rfl⟩ | ⟨id, ts, q, v, rfl⟩ | ⟨c, rfl⟩ | ⟨c, b, rfl⟩ | rfl := hi
  · exact ⟨_, fun _ => rfl, fun s => s.limitDecides_encRegister tb md⟩
  · exact ⟨_, fun _ => rfl, fun s => s.limitDecides_encWrite id ts q v⟩
  · exact ⟨_, fun _ => rfl, fun s => .inr ⟨(encodeUserCommand c (.start s.enc)).enc, .ok, fun _ => rfl⟩⟩
  · exact ⟨_, fun _ => rfl, fun s => .inr ⟨(encodeUserCommandWithData c b (.start s.enc)).enc, .ok, fun _ => rfl⟩⟩
  · exact ⟨_, fun _ => rfl, fun s => .inr ⟨(encodeFlush (.start s.enc)).enc, .ok, fun _ => rfl⟩⟩

/-- A failed encoder's answer is no success (47_stream_engine R342). -/
theorem encRequest_live_of_succeeds {s t next : State} {answer : Response}
    (h : betweenRequests s (s.unlessEncFailed next) = .next t) (hanswer : t.responses = s.responses ++ [answer])
    (hok : answer.succeeds = true) : s.enc.err = .none := by
  obtain ⟨-, rfl⟩ := betweenRequests_eq_next.1 h
  by_contra hfailed
  rw [State.unlessEncFailed_failed hfailed] at hanswer
  rw [State.respond_answers hanswer] at hok
  cases hok

/-- The capacity check, by the limit (47_stream_engine R354). -/
theorem State.finishEnc_eq (s : State) (e : Enc) (r : Response) :
    s.finishEnc e r =
      if e.footprint ≤ s.cfg.encBufMax then { s with enc := e }.respond r else s.refuse .capacityExceeded := by
  simp only [State.finishEnc, Enc.fits, decide_eq_true_eq]

/-- Settles O40: the flush of a pending group takes at most the byte in hand (`Enc.writeCode_flush_length_le`), and of
the checked requests only the last step asks for the limit (`exec_of_limited`). -/
theorem outputOverTheLimitIsRefused : Obligations.OutputOverTheLimitIsRefused := by
  unfold Obligations.OutputOverTheLimitIsRefused
  refine ⟨fun s hbuf hpos => ?_, fun i hi s u n r hexec hanswer hok => ?_⟩
  · have hle := Enc.writeCode_flush_length_le hbuf.ranges hpos
    have hfits := hbuf.footprint_le
    rw [Enc.footprint, if_pos hpos] at hfits
    rw [Enc.padBits_out_length (Enc.writeCode_ranges hbuf.ranges 3)]
    omega
  · obtain ⟨body, hbody, hdecides⟩ := exec_of_limited hi
    have hexec : betweenRequests (s.withLimit n) ((s.withLimit n).unlessEncFailed (body (s.withLimit n))) = .next u :=
      (hbody (s.withLimit n)).symm.trans hexec
    have hg : s.get = none := (betweenRequests_eq_next.1 hexec).1
    have herr : s.enc.err = .none := encRequest_live_of_succeeds (s := s.withLimit n) hexec hanswer hok
    have hlive : exec i s = .next (body s) := (hbody s).trans (encRequest_of_live hg herr)
    obtain rfl : u = body (s.withLimit n) := encRequest_of_succeeds (s := s.withLimit n) hexec hanswer hok
    obtain ⟨code, hrefuse⟩ | ⟨e, answer, hfinish⟩ := hdecides s
    · rw [hrefuse n] at hanswer
      rw [State.refuse_not_succeeds (s := s.withLimit n) hanswer] at hok
      cases hok
    · have hself : body s = s.finishEnc e answer := hfinish s.cfg.encBufMax
      rw [hfinish n] at hanswer ⊢
      obtain ⟨-, hdone⟩ := State.finishEnc_of_succeeds (s := s.withLimit n) hanswer hok
      rw [hlive, hself, hdone, State.finishEnc_eq, apply_ite Host.Outcome.next]
      rfl

end Sys2Proof.Machine
end

section
/-!
PROOFS. A record read back (47_stream_engine R330 to R332, R362, R363): where the encoder wrote a record, an open
DEC_GET that stands there runs to the record's answer and is in step again (`Enc.Answered`). A record is said from its last code
back to its first, each code with its payload put before the rest of the record (`Enc.Answered.of_code`).
-/

namespace Sys2Proof.Machine

/-! ### Runs -/

theorem StepsTo.trans {m n : Nat} {s t u : State} (h : StepsTo m s t) (h' : StepsTo n t u) : StepsTo (m + n) s u := by
  induction m generalizing s with
  | zero =>
    obtain rfl : t = s := h
    rwa [Nat.zero_add]
  | succ m ih =>
    obtain ⟨s1, hstep, hrest⟩ := h
    rw [Nat.add_right_comm]
    exact ⟨s1, hstep, ih hrest⟩

/-- Between requests a DEC_GET of a live decoder asks the head of the loop (47_stream_engine R330). -/
theorem step_decGet {s : State} {rest : List Request} (hg : s.get = none) (herr : s.dec.err = .none)
    (hp : s.pending = { opcode := 0x2 } :: rest) :
    step s = .next ((s.accepted rest).loopHead (.start s.dec) s.dec) :=
  (step_of_pending hg hp).trans (decRequest_of_live (s := s.accepted rest) hg herr)

theorem State.loopHead_of_more {d : Dec} (h : d.atEos = false) (s : State) (g : GetContext) :
    s.loopHead g d = s.continueAt g .start d :=
  if_neg (Bool.eq_false_iff.1 h)

/-- What may become the output after more writes may become it now. -/
theorem Enc.Writes.of_extends {e e' : Enc} (h : e.Writes e') (hr : e.Ranges) {f : List Byte} (hf : e'.Extends f) :
    e.Extends f :=
  (h.grows hr).of_extends hf

/-! ### Records -/

/-- Writes lead from `e` to `e'`, and an open DEC_GET at position `k` whose decoder is in step with `e`, on bytes that
extend `e'`, is not at the end of the stream, and ends with the response `answer` and the decoder in step with `e'`. -/
structure Enc.Answered (p : Config) (k : Machine.Phase) (e e' : Enc) (answer : Response) : Prop where
  writes : e.Writes e'
  runs : e.Ranges → ∀ {s : State} {g : GetContext} {d : Dec} {pre f : List Byte}, s.cfg = p → d.InStep e pre f →
    e'.Extends f → d.atEos = false ∧ ∃ n d', StepsTo n (s.continueAt g k d) (s.finishGet d' answer) ∧
      d'.InStep e' pre f ∧ d'.err = d.err

/-- An open DEC_GET in step with the encoder reads the code that was written next, and runs it where its payload was
written. -/
theorem Dec.InStep.step_code {e e1 : Enc} {pre f : List Byte} {d : Dec} {c : Code} (hd : d.InStep e pre f)
    (hr : e.Ranges) (hwrites : (e.writeCode c).Writes e1) (hf : e1.Extends f) (s : State) (g : GetContext) (k : Phase) :
    ∃ d1, d.readCode = .ok c d1 ∧ d1.InStep (e.writeCode c) pre f ∧
      step (s.continueAt g k d) =
        exec (decodeCode e.stream.targetWidth c) (s.fetched { g with phase := k } c d1) := by
  have hfcode := hwrites.of_extends (Enc.writeCode_ranges hr c) hf
  obtain ⟨d1, hread, h1⟩ := (Enc.ReadBack.code e c).reads hr hd hfcode
  refine ⟨d1, hread, h1, ?_⟩
  have hwidth : d1.stream.targetWidth = e.stream.targetWidth := by
    rw [h1.2, Enc.writeCode_stream, Stream.countCode_targetWidth]
  rw [← hwidth]
  exact step_of_readCode (s := s.continueAt g k d) rfl hread

/-- A code whose meaning goes on, before the rest of its record: what `body` reads of the payload, `change` makes of the
stream state on both sides. -/
theorem Enc.Answered.of_code {α : Type} {p : Config} {k k' : Machine.Phase} {c : Code} {e e1 e' : Enc}
    {answer : Response} {body : Dec → ReadResult α} {change : α → Stream → Stream} {a : α}
    (hrow : ∀ w s, exec (decodeCode w c) s =
      runCode c s body fun g a d => s.continueAt g k' { d with stream := change a d.stream })
    (hallowed : allowedAt k e.stream.pts.length c = true) (hlaw : ∀ d, AdvancingLaw p d (body d))
    (hbody : (e.writeCode c).ReadBack e1 body a)
    (hrest : Enc.Answered p k' { e1 with stream := change a e1.stream } e' answer) : Enc.Answered p k e e' answer where
  writes := ((e.writes_code c).trans (hbody.writes.trans (e1.writes_stream _))).trans hrest.writes
  runs hr s g d pre f hs hd hf := by
    have hr1 := hbody.writes.ranges (Enc.writeCode_ranges hr c)
    have hr2 := (e1.writes_stream (change a e1.stream)).ranges hr1
    have hf1 : e1.Extends f := Enc.Writes.of_extends ((e1.writes_stream _).trans hrest.writes) hr1 hf
    obtain ⟨d1, hread, h1, hstep⟩ := hd.step_code hr hbody.writes hf1 s g k
    obtain ⟨d2, hpayload, h2⟩ := hbody.reads (Enc.writeCode_ranges hr c) h1 hf1
    have h3 : { d2 with stream := change a d2.stream }.InStep { e1 with stream := change a e1.stream } pre f :=
      ⟨h2.1, congrArg (change a) h2.2⟩
    have hallowed1 : allowedAt k d1.stream.pts.length c = true := by rw [h1.2]; simpa using hallowed
    have hrun := (hrow e.stream.targetWidth _).trans
      (runCode_of_ok (s := s.fetched { g with phase := k } c d1) rfl hallowed1 hpayload)
    obtain ⟨-, n, d', hsteps, hd', herr⟩ := hrest.runs hr2 (s := s) (g := { g with code := codeField c }) hs h3 hf
    have herr2 : d2.err = d.err := ((hlaw d1).advances a d2 hpayload).err.trans (Dec.readCode_readsOn hread).1
    exact ⟨Dec.atEos_of_readCode hread, n + 1, d', ⟨_, hstep.trans hrun, hsteps⟩, hd', herr.trans herr2⟩

/-- A code whose meaning ends the record. -/
theorem Enc.Answered.of_last {p : Config} {k : Machine.Phase} {c : Code} {e e' : Enc} {answer : Response}
    (hwrites : (e.writeCode c).Writes e')
    (hrun : ∀ {s : State} {g : GetContext} {pre f : List Byte}, s.cfg = p → s.get = some g → g.phase = k →
      s.dec.InStep (e.writeCode c) pre f → e'.Extends f → (e.writeCode c).Ranges →
      ∃ d', exec (decodeCode e.stream.targetWidth c) s = .next (s.finishGet d' answer) ∧ d'.InStep e' pre f ∧
        d'.err = s.dec.err) : Enc.Answered p k e e' answer where
  writes := (e.writes_code c).trans hwrites
  runs hr s g d pre f hs hd hf := by
    obtain ⟨d1, hread, h1, hstep⟩ := hd.step_code hr hwrites hf s g k
    obtain ⟨d', hexec, hd', herr⟩ := hrun (s := s.fetched { g with phase := k } c d1) hs rfl rfl h1 hf
      (Enc.writeCode_ranges hr c)
    exact ⟨Dec.atEos_of_readCode hread, 1, d', ⟨_, hstep.trans hexec, rfl⟩, hd',
      herr.trans (Dec.readCode_readsOn hread).1⟩

/-- A control code that reads fields and answers with them (46_control_codes R300, R302, R304). -/
theorem Enc.Answered.control {α : Type} {p : Config} {c : Code} {e e' : Enc} {body : Dec → ReadResult α} {a : α}
    {answer : α → Response} (hc : c.toNat ≤ 3)
    (hrow : ∀ w s, s.cfg = p → exec (decodeCode w c) s = runCode c s body fun _ a d => s.finishGet d (answer a))
    (hlaw : ∀ d, AdvancingLaw p d (body d)) (hbody : (e.writeCode c).ReadBack e' body a) :
    Enc.Answered p .start e e' (answer a) :=
  .of_last hbody.writes fun {s g _ _} hs hg hk hd hf hr => by
    obtain ⟨d', hread, hd'⟩ := hbody.reads hr hd hf
    exact ⟨d', (hrow _ s hs).trans (runCode_of_ok hg (allowedAt_control hk hc) hread), hd',
      ((hlaw s.dec).advances a d' hread).err⟩

end Sys2Proof.Machine
end

section
/-!
PROOFS. A measurement read back (47_stream_engine R331, R332, R356, R362, R363): every phase that ENC_WRITE sends one
local code of a DEC_GET reads, and a phase that sends nothing leaves the position, so that the next code is allowed at
every position where it can stand (41_point_id R180 to R182; 42_timestamp R200 to R213; 43_quality R230 to R234;
44_value32 R250 to R265; 45_value64 R280 to R283).
-/

namespace Sys2Proof.Machine

/-! ### The ID phase -/

theorem Enc.ReadBack.xor (e : Enc) {w : Nat} (hw : w % 8 = 0 ∨ w % 8 = 4) (x : BitVec w) :
    e.ReadBack (e.writeXor x) (Dec.readXor w) x :=
  .of_field (e.writes_xor x) (Enc.writeXor_stream x e) (Dec.readXor_law w)
    fun hr _ _ _ hat hf => hat.readXor hr hw x hf

/-- The width of a payload holds the number, so that widening gives it back. -/
theorem setWidth_setWidth_of_lt {n w : Nat} {x : BitVec n} (h : x.toNat < 2 ^ w) : (x.setWidth w).setWidth n = x := by
  apply BitVec.eq_of_toNat_eq
  rw [BitVec.toNat_setWidth, BitVec.toNat_setWidth, Nat.mod_eq_of_lt h, Nat.mod_eq_of_lt x.isLt]

/-- CheckCursor passes where the encoder moved to a registered point (41_point_id R181). -/
theorem Enc.ReadBack.cursor {e : Enc} {x id : Word32} (hx : e.stream.cursor ^^^ x = id)
    (hid : id.toNat < e.stream.pts.length) :
    e.ReadBack { e with stream := { e.stream with cursor := id } }
      (fun d => { d with stream := d.stream.moveCursor x }.checkCursor) () := by
  subst hx
  let moved : Enc := { e with stream := e.stream.moveCursor x }
  have hcheck : moved.ReadBack moved Dec.checkCursor () :=
    .of_stream fun d hd => Dec.checkCursor_registered (by rw [hd]; exact hid)
  exact (Enc.ReadBack.mapStream e (Stream.moveCursor x) fun _ => ()).bind (next := fun _ => Dec.checkCursor) hcheck

/-- The ID codes, by their number (30_encoding R101). -/
theorem exec_decodeCode_id {c : Code} {w : Nat} (h : (c, w) ∈ idCodes) (width : Width) :
    exec (decodeCode width c) = runIdCode c w := by
  simp only [idCodes, List.mem_cons, Prod.mk.injEq, List.not_mem_nil, or_false] at h
  obtain ⟨rfl, rfl⟩ | ⟨rfl, rfl⟩ | ⟨rfl, rfl⟩ | ⟨rfl, rfl⟩ | ⟨rfl, rfl⟩ | ⟨rfl, rfl⟩ | ⟨rfl, rfl⟩ := h <;> rfl

theorem Enc.Answered.id {p : Config} {id : Word32} {e e1 e' : Enc} {answer : Response} (h : e.SendsId id e1)
    (hid : id.toNat < e.stream.pts.length)
    (hrest : ∀ k : Machine.Phase, k = .start ∨ k = .afterId → Enc.Answered p k e1 e' answer) :
    Enc.Answered p .start e e' answer := by
  unfold Enc.SendsId at h
  split_ifs at h
  · subst h
    exact hrest .start (.inl rfl)
  · obtain ⟨c, w, ⟨hmem, hlt, -⟩, rfl⟩ := h
    have hw : w % 8 = 0 ∨ w % 8 = 4 := (by decide : ∀ q ∈ idCodes, q.2 % 8 = 0 ∨ q.2 % 8 = 4) _ hmem
    have hx : ((e.writeCode c).writeXor ((id ^^^ e.stream.cursor).setWidth w)).stream.cursor ^^^
        ((id ^^^ e.stream.cursor).setWidth w).setWidth 32 = id := by
      rw [setWidth_setWidth_of_lt hlt, Enc.writeXor_stream, Enc.writeCode_stream, Stream.countCode_cursor,
        BitVec.xor_comm id, ← BitVec.xor_assoc, BitVec.xor_self, BitVec.zero_xor]
    refine .of_code (change := fun _ st => st) (a := ()) (fun width s => congrFun (exec_decodeCode_id hmem width) s)
      (allowedAt_start (Nat.zero_lt_of_lt hid) (idCodes_range hmem)) (Dec.decodeId_advancing p w)
      (.bind (.xor _ hw _) (.cursor hx ?_)) (hrest .afterId (.inr rfl))
    rwa [Enc.writeXor_stream, Enc.writeCode_stream, Stream.countCode_length]

/-! ### The time phase -/

/-- Counting a code leaves the timestamps and the delta cache. -/
theorem Stream.timeCodeApplies_countCode {st : Stream} {ts : Word64} {c : Code} (h : st.timeCodeApplies ts c)
    (c' : Code) : (st.countCode c').timeCodeApplies ts c := by
  simpa [Stream.timeCodeApplies] using h

theorem Stream.timeCodeApplies_le {st : Stream} {ts : Word64} {c : Code} (h : st.timeCodeApplies ts c) :
    c.toNat ≤ 20 := by
  unfold Stream.timeCodeApplies at h
  split at h
  case h_11 => exact h.elim
  all_goals omega

/-- A time code that applies and has no payload computes the timestamp from the stream state (42_timestamp R201 to R209,
R213). -/
theorem exec_of_timeCodeApplies {st : Stream} {ts : Word64} {c : Code} (h : st.timeCodeApplies ts c) (hc : c ≠ 20) :
    ∃ f, (∀ width, exec (decodeCode width c) = runTimeCode c (timeFrom f)) ∧ f st = ts := by
  have code {k : Nat} (hn : c.toNat = k) : c = BitVec.ofNat 6 k := by rw [← hn, BitVec.ofNat_toNat, BitVec.setWidth_eq]
  unfold Stream.timeCodeApplies at h
  split at h
  case h_1 hn | h_2 hn | h_3 hn | h_4 hn | h_5 hn | h_6 hn | h_7 hn | h_8 hn =>
    obtain rfl := code hn
    exact ⟨_, fun _ => rfl, h.2⟩
  case h_9 hn =>
    obtain rfl := code hn
    exact ⟨_, fun _ => rfl, h.symm⟩
  case h_10 hn => exact absurd (code hn) hc
  case h_11 => exact h.elim

theorem Enc.Answered.time {p : Config} {ts : Word64} {k : Machine.Phase} {e e1 e' : Enc} {answer : Response}
    (h : e.SendsTime ts e1) (hk : k = .start ∨ k = .afterId) (hpts : 0 < e.stream.pts.length)
    (hrest : ∀ k : Machine.Phase, k ≠ .afterQuality → Enc.Answered p k e1 e' answer) :
    Enc.Answered p k e e' answer := by
  unfold Enc.SendsTime at h
  split_ifs at h
  · subst h
    exact hrest k (by rintro rfl; simp at hk)
  · obtain ⟨c, happlies, -, rfl⟩ := h
    have hposition : k = .start ∧ 0 < e.stream.pts.length ∨ k = .afterId := hk.imp_left fun hstart => ⟨hstart, hpts⟩
    have hnext := hrest .afterTime (by decide)
    by_cases hc : c = 20
    · subst hc
      have hxor : e.stream.t1 ^^^ (ts ^^^ e.stream.t1) = ts := by
        rw [BitVec.xor_comm ts, ← BitVec.xor_assoc, BitVec.xor_self, BitVec.zero_xor]
      have hbody : (e.writeCode 20).ReadBack ((e.writeCode 20).writeVarint (ts ^^^ e.stream.t1)) Dec.timeXor ts :=
        .bind (.varint le_rfl _ _) (.of_stream fun d hd => by simp [hd, hxor])
      exact .of_code (change := Stream.updateTime) (a := ts) (fun _ _ => rfl) (allowedAt_time hposition (by decide))
        (fun d => d.timeXor_law.advancing) hbody hnext
    · obtain ⟨f, hexec, hf⟩ := exec_of_timeCodeApplies (Stream.timeCodeApplies_countCode happlies c) hc
      have hrange := And.intro (Stream.timeCodeApplies_ge happlies) (Stream.timeCodeApplies_le happlies)
      have hbody : (e.writeCode c).ReadBack (e.writeCode c) (timeFrom f) ts :=
        .of_stream fun d hd => by rw [timeFrom, hd, Enc.writeCode_stream, hf]
      rw [if_neg hc] at hnext
      exact .of_code (change := Stream.updateTime) (a := ts) (fun width => congrFun (hexec width))
        (allowedAt_time hposition hrange) (fun d => (ReadLaw.ok (f d.stream) d).advancing) hbody hnext

/-! ### The quality phase -/

theorem Enc.ReadBack.target {e : Enc} {p : Point} (h : e.stream.target? = some p) : e.ReadBack e Dec.target p :=
  .of_stream fun _ hd => Dec.target_of_some (hd ▸ h)

theorem Enc.Answered.quality {p : Config} {pt : Point} {q : Word32} {m : CodeModel} {k : Machine.Phase}
    {e e1 e' : Enc} {answer : Response} (h : e.SendsQuality pt q e1)
    (hpt : e.stream.target? = some { pt with model := m }) (hk : k ≠ .afterQuality)
    (hrest : ∀ k : Machine.Phase, Enc.Answered p k e1 e' answer) : Enc.Answered p k e e' answer := by
  have hpts := Stream.pts_pos_of_target hpt
  have htarget (c : Code) : (e.writeCode c).stream.target? = some { pt with model := m.updateStats c } := by
    rw [Enc.writeCode_stream, Stream.countCode_target, hpt]
    rfl
  unfold Enc.SendsQuality at h
  dsimp only at h
  split_ifs at h with hq hq2
  · subst h
    exact hrest k
  · have hbody : (e.writeCode 21).ReadBack (e.writeCode 21) (fun d => d.target.bind fun p d => .ok p.q2 d) q :=
      .bind (.target (htarget 21)) (.of_stream fun d _ => by rw [hq2])
    subst h
    exact .of_code (change := Stream.updateQuality) (a := q) (fun _ _ => rfl) (allowedAt_quality hk hpts (by decide))
      (fun d => (d.target_advancing p).bind fun _ _ _ => .ok (.refl p _)) hbody (hrest .afterQuality)
  · have hbody : (e.writeCode 22).ReadBack ((e.writeCode 22).writeVarint q)
        (fun d => d.target.bind fun _ d => d.readVarint 32) q :=
      .bind (.target (htarget 22)) (.varint (by decide) _ q)
    subst h
    exact .of_code (change := Stream.updateQuality) (a := q) (fun _ _ => rfl) (allowedAt_quality hk hpts (by decide))
      (fun d => (d.target_advancing p).bind fun _ d _ => (d.readVarint_law 32).advancing) hbody (hrest .afterQuality)

/-! ### The value phase -/

/-- The value codes of a coder whose XOR codes are `codes`, with their rules (30_encoding R101). -/
inductive ValueRow {n : Nat} (codes : List (Code × Nat)) : Code → ValueRule n → Prop
  | value1 : ValueRow codes 32 .value1
  | value2 : ValueRow codes 33 .value2
  | value3 : ValueRow codes 34 .value3
  | valueZero : ValueRow codes 35 .valueZero
  | valueXor {c : Code} {w : Nat} (mem : (c, w) ∈ codes) : ValueRow codes c (.valueXor w)

theorem ValueRow.reads {n : Nat} {codes : List (Code × Nat)} {c : Code} {rule : ValueRule n}
    (h : ValueRow codes c rule) (hist : History n) (d : Dec) : ReadLaw d (rule hist d) := by
  cases h with
  | value1 | value2 | value3 | valueZero => exact .ok _ d
  | valueXor => exact ValueRule.valueXor_law _ hist d

/-- What the value phase sends, its code's rule reads back: the value and the history after it (44_value32 R264, R265;
45_value64 R283). -/
theorem Enc.SendsValue.readBack {n : Nat} {codes : List (Code × Nat)}
    (hcodes : ∀ q ∈ codes, q.2 % 8 = 0 ∨ q.2 % 8 = 4) {wrap : History n → PointValues} {h : History n} {v : BitVec n}
    {e e' : Enc} (hsends : e.SendsValue codes wrap h v e') :
    ∃ c rule e1, ValueRow codes c rule ∧ (e.writeCode c).ReadBack e1 (rule h) (v, h.afterWrite v) ∧
      e' = { e1 with stream := e1.stream.setValues (wrap (h.afterWrite v)) } := by
  unfold Enc.SendsValue at hsends
  dsimp only at hsends
  split_ifs at hsends with h1 h0 h2 h3
  · have hafter : h.afterWrite v = h := if_pos h1
    exact ⟨32, .value1, _, .value1, .of_stream fun d _ => by rw [hafter, h1]; rfl, hsends⟩
  · have hafter : h.afterWrite v = h.push 0 := (if_neg h1).trans (if_pos h0)
    exact ⟨35, .valueZero, _, .valueZero, .of_stream fun d _ => by rw [hafter, h0]; rfl, hsends⟩
  · have hafter : h.afterWrite v = h.hit2 := (if_neg h1).trans ((if_neg h0).trans (if_pos h2))
    exact ⟨33, .value2, _, .value2, .of_stream fun d _ => by rw [hafter, h2]; rfl, hsends⟩
  · have hafter : h.afterWrite v = h.hit3 := (if_neg h1).trans ((if_neg h0).trans ((if_neg h2).trans (if_pos h3)))
    exact ⟨34, .value3, _, .value3, .of_stream fun d _ => by rw [hafter, h3]; rfl, hsends⟩
  · obtain ⟨c, w, ⟨hmem, hlt, -⟩, hsends⟩ := hsends
    have hafter : h.afterWrite v = h.push v :=
      (if_neg h1).trans ((if_neg h0).trans ((if_neg h2).trans (if_neg h3)))
    have hv : h.v1 ^^^ ((v ^^^ h.v1).setWidth w).setWidth n = v := by
      rw [setWidth_setWidth_of_lt hlt, BitVec.xor_comm v, ← BitVec.xor_assoc, BitVec.xor_self, BitVec.zero_xor]
    refine ⟨c, .valueXor w, _, .valueXor hmem, .bind (.xor _ (hcodes _ hmem) _) (.of_stream fun d _ => ?_), hsends⟩
    simp only [hv, hafter]

/-- The row of code `c` for points of width `width` ends a record with what `rule` answers; `wrap` and `value` make the
values of a point and a value of its type. -/
def EndsRecord {n : Nat} (width : Width) (wrap : History n → PointValues) (value : BitVec n → Value) (c : Code)
    (rule : ValueRule n) : Prop :=
  ∀ (s : State) (g : GetContext) (p : Point) (h h' : History n) (v : BitVec n) (d : Dec), s.get = some g →
    s.dec.stream.target? = some p → p.values = wrap h → rule h s.dec = .ok (v, h') d →
    exec (decodeCode width c) s = .next (s.finishMeasurement p (wrap h') (value v) d)

theorem ValueRow.endsRecord32 {c : Code} {rule : ValueRule 32} (h : ValueRow valueCodes32 c rule) (tag : Tag32) :
    EndsRecord .w32 (.narrow tag) (.narrow tag) c rule := by
  have ends (hc : 32 ≤ c.toNat ∧ c.toNat ≤ 43) (hexec : exec (decodeCode .w32 c) = runValue32 c rule) :
      EndsRecord .w32 (.narrow tag) (.narrow tag) c rule := fun s g p h h' v d hg hp hv hr => by
    rw [hexec]
    exact runValue32_of_ok hg (allowedAt_value (Stream.pts_pos_of_target hp) hc) hp hv hr
  cases h with
  | value1 | value2 | value3 | valueZero => exact ends (by decide) rfl
  | valueXor hmem =>
    refine ends (valueCodes32_range hmem) ?_
    simp only [valueCodes32, List.mem_cons, Prod.mk.injEq, List.not_mem_nil, or_false] at hmem
    obtain ⟨rfl, rfl⟩ | ⟨rfl, rfl⟩ | ⟨rfl, rfl⟩ | ⟨rfl, rfl⟩ | ⟨rfl, rfl⟩ | ⟨rfl, rfl⟩ | ⟨rfl, rfl⟩ | ⟨rfl, rfl⟩ :=
      hmem <;> rfl

/-- As `ValueRow.endsRecord32`, for a width-64 point. -/
theorem ValueRow.endsRecord64 {c : Code} {rule : ValueRule 64} (h : ValueRow valueCodes64 c rule) (tag : Tag64) :
    EndsRecord .w64 (.wide tag) (.wide tag) c rule := by
  have ends (hc : 32 ≤ c.toNat ∧ c.toNat ≤ 43) (hexec : exec (decodeCode .w64 c) = runValue64 c rule) :
      EndsRecord .w64 (.wide tag) (.wide tag) c rule := fun s g p h h' v d hg hp hv hr => by
    rw [hexec]
    exact runValue64_of_ok hg (allowedAt_value (Stream.pts_pos_of_target hp) hc) hp hv hr
  cases h with
  | value1 | value2 | value3 | valueZero => exact ends (by decide) rfl
  | valueXor hmem =>
    refine ends (valueCodes64_range hmem) ?_
    simp only [valueCodes64, List.mem_cons, Prod.mk.injEq, List.not_mem_nil, or_false] at hmem
    obtain ⟨rfl, rfl⟩ | ⟨rfl, rfl⟩ | ⟨rfl, rfl⟩ | ⟨rfl, rfl⟩ | ⟨rfl, rfl⟩ | ⟨rfl, rfl⟩ | ⟨rfl, rfl⟩ | ⟨rfl, rfl⟩ :=
      hmem <;> rfl

/-- The value phase of one coder, for the point `pt` at the cursor (47_stream_engine R332). -/
theorem Enc.Answered.valueOf {n : Nat} {codes : List (Code × Nat)} {wrap : History n → PointValues}
    {value : BitVec n → Value} {h : History n} {v : BitVec n} {e e' : Enc} {pt : Point}
    (hcodes : ∀ q ∈ codes, q.2 % 8 = 0 ∨ q.2 % 8 = 4)
    (hrow : ∀ {c : Code} {rule : ValueRule n}, ValueRow codes c rule →
      EndsRecord e.stream.targetWidth wrap value c rule)
    (hpt : e.stream.target? = some pt) (hv : pt.values = wrap h) (hsends : e.SendsValue codes wrap h v e')
    (p : Config) (k : Machine.Phase) :
    Enc.Answered p k e e' (.measurementRead pt.id e.stream.t1 pt.q1 (value v)) := by
  obtain ⟨c, rule, e1, hc, hbody, rfl⟩ := hsends.readBack hcodes
  refine .of_last (hbody.writes.trans (e1.writes_stream _)) fun {s g pre f} _ hg _ hd hf hr => ?_
  have hf1 := Enc.Writes.of_extends (e1.writes_stream _) (hbody.writes.ranges hr) hf
  obtain ⟨d', hread, hd'⟩ := hbody.reads hr hd hf1
  have hlaw := hc.reads h s.dec
  have hstream : s.dec.stream = e.stream.countCode c := hd.2
  have htarget : s.dec.stream.target? = some { pt with model := pt.model.updateStats c } := by
    rw [hstream, Stream.countCode_target, hpt]
    rfl
  have ht1 : d'.stream.t1 = e.stream.t1 := by rw [hlaw.stream_of_ok hread, hstream, Stream.countCode_t1]
  have hexec := hrow hc _ _ _ _ _ _ _ hg htarget hv hread
  rw [State.finishMeasurement, ht1] at hexec
  exact ⟨_, hexec, ⟨hd'.1, congrArg (Stream.setValues _) hd'.2⟩, (hlaw.readsOn hread).err⟩

/-- The value phase, for the point `pt` at the cursor whose values are those of `p`. -/
theorem Enc.Answered.value {p pt : Point} {value : Value} {e e' : Enc} (h : e.SendsValueOf p value e')
    (htag : value.tag = p.type) (hpt : e.stream.target? = some pt) (hvalues : pt.values = p.values) (cfg : Config)
    (k : Machine.Phase) : Enc.Answered cfg k e e' (.measurementRead pt.id e.stream.t1 pt.q1 value) := by
  have hwidth : e.stream.targetWidth = p.type.width := by
    simp only [Stream.targetWidth, hpt, Point.type, hvalues]
  unfold Enc.SendsValueOf at h
  rw [Point.type] at htag hwidth
  split at h
  case h_1 tag hist tag' v hv =>
    rw [hv] at htag hwidth
    obtain rfl : tag' = tag := by simpa [Value.tag, PointValues.type] using htag
    exact .valueOf (by decide) (fun hrow => hwidth ▸ hrow.endsRecord32 tag') hpt (hvalues.trans hv) h cfg k
  case h_2 tag hist tag' v hv =>
    rw [hv] at htag hwidth
    obtain rfl : tag' = tag := by simpa [Value.tag, PointValues.type] using htag
    exact .valueOf (by decide) (fun hrow => hwidth ▸ hrow.endsRecord64 tag') hpt (hvalues.trans hv) h cfg k
  case h_3 => exact h.elim
  case h_4 => exact h.elim

/-! ### The record -/

/-- The phases of ENC_WRITE for the registered point `pt`, read back as its measurement (47_stream_engine R356,
R362). -/
theorem Enc.Answered.measurement {p : Config} {id : Word32} {ts : Word64} {q : Word32} {value : Value} {pt : Point}
    {e e1 e2 e3 e' : Enc} (hid : e.SendsId id e1) (htime : e1.SendsTime ts e2) (hquality : e2.SendsQuality pt q e3)
    (hvalue : e3.SendsValueOf pt value e') (hpt : e.stream.pts[id.toNat]? = some pt) (htag : value.tag = pt.type)
    (hcursor : e.stream.cursor.toNat < e.stream.pts.length) :
    Enc.Answered p .start e e' (.measurementRead pt.id ts q value) := by
  obtain ⟨hlt, -⟩ := List.getElem?_eq_some_iff.1 hpt
  have htarget : e.stream.target? = some _ := List.getElem?_eq_getElem hcursor
  obtain ⟨m0, h1⟩ := hid.stream htarget
  obtain ⟨m1, hpt1, -⟩ := (countedAt_set htarget m0).2 id.toNat pt hpt
  have htarget1 : e1.stream.target? = some { pt with model := m1 } := h1 ▸ hpt1
  obtain ⟨m2, h2⟩ := htime.stream htarget1
  have htarget2 : e2.stream.target? = some { pt with model := m2 } :=
    h2 ▸ Stream.target?_setTarget ((e1.stream.target?_timed ts).trans htarget1) _
  obtain ⟨m3, h3⟩ := hquality.stream htarget2
  have htarget3 : e3.stream.target? = some (pt.afterQuality q m3) := h3 ▸ Stream.target?_setTarget htarget2 _
  have ht1 : e3.stream.t1 = ts := by
    rw [h3, h2]
    exact Stream.timed_t1 ts e1.stream
  refine .id hid hlt fun _ hk1 => .time htime hk1 (Stream.pts_pos_of_target htarget1) fun _ hk2 =>
    .quality hquality htarget2 hk2 fun k3 => ?_
  have hread := Enc.Answered.value hvalue htag htarget3 rfl p k3
  rwa [ht1] at hread

/-- An ENC_WRITE that succeeded wrote its record, which is read back. -/
theorem encWrite_answered {s t : State} {id : Word32} {ts : Word64} {q : Word32} {value : Value} {answer : Response}
    (hexec : exec (.encWrite id ts q value) s = .next t) (hanswer : t.responses = s.responses ++ [answer])
    (hok : answer.succeeds = true) (htable : s.enc.stream.TableWf s.cfg) :
    ∃ e', t = { s with enc := e' }.respond .ok ∧
      Enc.Answered s.cfg .start s.enc e' (.measurementRead id ts q value) := by
  have hrun : t = s.encWrite id ts q value := encRequest_of_succeeds hexec hanswer hok
  rw [hrun] at hanswer ⊢
  cases hpt : s.enc.stream.pts[id.toNat]? with
  | none =>
    rw [State.encWrite_unregistered hpt] at hanswer
    rw [State.refuse_not_succeeds hanswer] at hok
    cases hok
  | some pt =>
    by_cases htag : value.tag = pt.type
    case neg =>
      rw [State.encWrite_wrongTag hpt htag] at hanswer
      rw [State.refuse_not_succeeds hanswer] at hok
      cases hok
    case pos =>
      obtain ⟨e1, e2, e3, e', hid, htime, hquality, hvalue, hsent⟩ := State.encWrite_sends hpt htag ts q
      rw [hsent] at hanswer ⊢
      have hne : s.enc.stream.pts ≠ [] := fun hnil => by simp [hnil] at hpt
      have hptid : pt.id = id := by rw [htable.ids _ _ hpt, BitVec.ofNat_toNat, BitVec.setWidth_eq]
      have hread := Enc.Answered.measurement (p := s.cfg) hid htime hquality hvalue hpt htag (htable.cursor_lt hne)
      rw [hptid] at hread
      exact ⟨e', (State.finishEnc_of_succeeds hanswer hok).2, hread⟩

/-- Settles O57: the record that ENC_WRITE sent is read back (`encWrite_answered`), so the step that opens the DEC_GET
and those of its codes answer it. -/
theorem decoderReadsWhatEncWriteWrote : Obligations.DecoderReadsWhatEncWriteWrote := by
  unfold Obligations.DecoderReadsWhatEncWriteWrote
  intro s t id ts q v pre f hg herr htables hbuffers hexec hanswer hstep hf
  obtain ⟨-, htable⟩ := htables
  obtain ⟨e', rfl, hread⟩ := encWrite_answered hexec hanswer rfl (htable _ (by simp [State.streams]))
  let asked : State := { { s with enc := e' }.respond .ok with pending := [{ opcode := 0x2 }] }
  obtain ⟨hmore, n, d', hsteps, hd', -⟩ := hread.runs hbuffers.2.ranges (s := asked.accepted []) (g := .start s.dec)
    rfl hstep hf
  have hopen := step_decGet (s := asked) hg herr rfl
  rw [State.loopHead_of_more (d := asked.dec) hmore] at hopen
  exact ⟨n + 1, _, ⟨_, hopen, hsteps⟩, rfl, rfl, rfl, hd', rfl⟩

end Sys2Proof.Machine
end

section
/-!
PROOFS. Everything the encoder wrote, read back (47_stream_engine R330, R362, R363): a run of the encoder is a list of
records, flushes and takes (`Enc.Emits`), and a decoder that has the taken bytes loaded answers its records one after
the other, up to EndOfStream (`Enc.Emits.decoded`).
-/

namespace Sys2Proof.Machine

/-- The encoder comes from `e` to `e2`: on the way it writes records that are read back as `answers`, and
its takes hand out `bytes`. -/
inductive Enc.Emits (p : Config) : Enc → List Response → List Byte → Enc → Prop
  | done (e : Enc) : Enc.Emits p e [] [] e
  | record {e e1 e2 : Enc} {answer : Response} {answers : List Response} {bytes : List Byte}
      (read : Enc.Answered p .start e e1 answer) (rest : Enc.Emits p e1 answers bytes e2) :
      Enc.Emits p e (answer :: answers) bytes e2
  | flush {e e2 : Enc} {answers : List Response} {bytes : List Byte}
      (rest : Enc.Emits p (e.writeCode 3).padBits answers bytes e2) : Enc.Emits p e answers bytes e2
  | take {e e2 : Enc} {answers : List Response} {bytes : List Byte} (wcnt : e.wcnt = 0)
      (rest : Enc.Emits p { e with out := [], wslot := 0 } answers bytes e2) :
      Enc.Emits p e answers (e.out ++ bytes) e2

theorem Enc.Emits.trans {p : Config} {e e1 e2 : Enc} {answers answers' : List Response} {bytes bytes' : List Byte}
    (h : Enc.Emits p e answers bytes e1) (h' : Enc.Emits p e1 answers' bytes' e2) :
    Enc.Emits p e (answers ++ answers') (bytes ++ bytes') e2 := by
  induction h with
  | done => exact h'
  | record read _ ih => exact .record read (ih h')
  | flush _ ih => exact .flush (ih h')
  | take hcnt _ ih =>
    rw [List.append_assoc]
    exact .take hcnt (ih h')

/-- Nothing is left to be taken (47_stream_engine R361). -/
structure Enc.Emptied (e : Enc) : Prop where
  out : e.out = []
  wcnt : e.wcnt = 0

/-- With no bits pending, what was taken may go on with any bytes. -/
theorem Enc.extends_append {e : Enc} (h : e.wcnt = 0) (f : List Byte) : e.Extends (e.out ++ f) :=
  ⟨by simp, fun _ hi _ => List.getElem?_append_left hi, fun hpos => absurd h (Nat.ne_of_gt hpos)⟩

theorem Enc.writes_flush (e : Enc) : e.Writes (e.writeCode 3).padBits :=
  (e.writes_code 3).trans (.single .pad)

/-- ENC_TAKE leaves no write state to be in range. -/
theorem Enc.taken_ranges {e : Enc} (h : e.wcnt = 0) : Enc.Ranges { e with out := [], wslot := 0 } :=
  ⟨h.trans_le (Nat.zero_le 7), fun hpos => absurd h (Nat.ne_of_gt hpos)⟩

/-- Where everything is taken in the end, the output is the beginning of the taken bytes. -/
theorem Enc.Emits.extends {p : Config} {e e2 : Enc} {answers : List Response} {bytes : List Byte}
    (h : Enc.Emits p e answers bytes e2) (he2 : e2.Emptied) (hr : e.Ranges) : e.Extends bytes := by
  induction h with
  | done e =>
    have hext := Enc.extends_append he2.wcnt []
    rwa [he2.out] at hext
  | record read _ ih => exact read.writes.of_extends hr (ih he2 (read.writes.ranges hr))
  | @flush e _ _ _ _ ih => exact e.writes_flush.of_extends hr (ih he2 (e.writes_flush.ranges hr))
  | take hcnt => exact Enc.extends_append hcnt _

/-- After a take the bytes taken are those of earlier takes. -/
theorem Dec.InStep.rebase {d : Dec} {e : Enc} {pre f : List Byte} (h : d.InStep e pre (e.out ++ f))
    (hcnt : e.wcnt = 0) :
    d.InStep { e with out := [], wslot := 0 } (pre ++ e.out) f := by
  obtain ⟨⟨hbuf, hpos, hrcnt, -⟩, hstream⟩ := h
  exact ⟨⟨by rw [hbuf, List.append_assoc], by rw [hpos, List.length_append]; rfl, hrcnt,
    fun hlt => absurd hcnt (Nat.ne_of_gt hlt)⟩, hstream⟩

/-- In step with an encoder of which everything was taken, the decoder is at the end of its buffer (47_stream_engine
R330). -/
theorem Dec.InStep.atEos {d : Dec} {e : Enc} {pre : List Byte} (h : d.InStep e pre []) (he : e.Emptied) :
    d.atEos = true := by
  obtain ⟨⟨hbuf, hpos, hrcnt, -⟩, -⟩ := h
  have hend : d.pos = d.inBuf.length := by rw [hpos, hbuf, he.out, List.append_nil]; rfl
  simp [Dec.atEos, hend, hrcnt he.wcnt]

/-- FlushBits drops the cached bits and asks for the end of the stream (46_control_codes R303). -/
theorem exec_flushBits {s : State} {g : GetContext} (hg : s.get = some g) (hk : g.phase = .start) :
    exec .flushBits s = .next (s.loopHead g s.dec.discardBits) :=
  runCode_of_ok hg (allowedAt_control hk (by decide)) rfl

/-- An open DEC_GET in step with the encoder goes back to the head of the loop where a flush was written
(46_control_codes R303, R308). -/
theorem Dec.InStep.step_flush {e : Enc} {pre f : List Byte} {d : Dec} (hd : d.InStep e pre f) (hr : e.Ranges)
    (hf : (e.writeCode 3).padBits.Extends f) (s : State) (g : GetContext) :
    d.atEos = false ∧ ∃ g' d', step (s.continueAt g .start d) = .next (s.loopHead g' d') ∧
      d'.InStep (e.writeCode 3).padBits pre f ∧ d'.err = d.err := by
  have hpad := Enc.ReadBack.padding (e.writeCode 3)
  obtain ⟨d1, hread, h1, hstep⟩ := hd.step_code hr hpad.writes hf s g .start
  obtain ⟨d2, hdiscard, h2⟩ := hpad.reads (Enc.writeCode_ranges hr 3) h1 hf
  obtain rfl : d1.discardBits = d2 := by simpa using hdiscard
  have hrun : exec .flushBits (s.fetched { g with phase := .start } 3 d1) =
      .next (s.loopHead { g with phase := .start, code := codeField 3 } d1.discardBits) := exec_flushBits rfl rfl
  exact ⟨Dec.atEos_of_readCode hread, _, _, hstep.trans hrun, h2, (Dec.readCode_readsOn hread).1⟩

/-- `u` has answered every request of `s`, with `answers`, and its decoder has the stream state `st`. -/
structure State.Ended (s u : State) (answers : List Response) (st : Stream) : Prop where
  get : u.get = none
  pending : u.pending = []
  responses : u.responses = s.responses ++ answers
  stream : u.dec.stream = st
  enc : u.enc = s.enc

/-- An open DEC_GET in step with the encoder, and as many requests after it as records are to come, end with the answers
of the records and EndOfStream. -/
theorem Enc.Emits.decoded {p : Config} {e e2 : Enc} {answers : List Response} {bytes : List Byte}
    (h : Enc.Emits p e answers bytes e2) (he2 : e2.Emptied) (hr : e.Ranges) {s : State} {g : GetContext} {d : Dec}
    {pre : List Byte} (hs : s.cfg = p) (hp : s.pending = List.replicate answers.length { opcode := 0x2 })
    (herr : d.err = .none) (hd : d.InStep e pre bytes) :
    ∃ n u, StepsTo n (s.loopHead g d) u ∧ s.Ended u (answers ++ [.endOfStream]) e2.stream := by
  induction h generalizing s g d pre with
  | done e =>
    have hhead : s.loopHead g d = s.finishGet d .endOfStream := if_pos (hd.atEos he2)
    exact ⟨0, _, rfl, by rw [hhead]; exact ⟨rfl, hp, rfl, hd.2, rfl⟩⟩
  | @record e e1 e2 answer answers bytes read rest ih =>
    have hr1 := read.writes.ranges hr
    obtain ⟨hmore, m, d', hsteps, hd', herr'⟩ := read.runs hr (g := g) hs hd (rest.extends he2 hr1)
    have hlive : d'.err = .none := herr'.trans herr
    obtain ⟨n, u, hrest, hget, hpending, hresponses, hstream, henc⟩ := ih he2 hr1
      (s := (s.finishGet d' answer).accepted (List.replicate answers.length { opcode := 0x2 })) (g := .start d')
      hs rfl hlive hd'
    have hnext := step_decGet (s := s.finishGet d' answer) rfl hlive hp
    rw [State.loopHead_of_more hmore]
    refine ⟨m + (n + 1), u, hsteps.trans ⟨_, hnext, hrest⟩, hget, hpending, ?_, hstream, henc⟩
    rw [hresponses]
    exact List.append_assoc s.responses [answer] _
  | @flush e e2 answers bytes rest ih =>
    have hr1 := e.writes_flush.ranges hr
    obtain ⟨hmore, g', d', hstep, hd', herr'⟩ := hd.step_flush hr (rest.extends he2 hr1) s g
    obtain ⟨n, u, hrest, hended⟩ := ih he2 hr1 (g := g') hs hp (herr'.trans herr) hd'
    rw [State.loopHead_of_more hmore]
    exact ⟨n + 1, u, ⟨_, hstep, hrest⟩, hended⟩
  | take hcnt _ ih => exact ih he2 (Enc.taken_ranges hcnt) hs hp herr (hd.rebase hcnt)

end Sys2Proof.Machine
end

section
/-!
PROOFS. The encoder requests one after the other (47_stream_engine R355 to R361), and the round trip (R362): every
request that succeeded emits what R362 says of it, so a run of requests emits the answers that DEC_GET is to give.
-/

namespace Sys2Proof.Machine

/-! ### One request -/

/-- A request that writes one record. -/
theorem Enc.Emits.of_record {p : Config} {e e' : Enc} {answer : Response}
    (h : Enc.Answered p .start e e' answer) : Enc.Emits p e [answer] [] e' :=
  .record h (.done e')

/-- ENC_REGISTER (47_stream_engine R355). -/
theorem encRegister_emits {s t : State} {tb : Byte} {md : List Byte} {answer : Response}
    (hexec : exec (.encRegister tb md) s = .next t) (hanswer : t.responses = s.responses ++ [answer])
    (hok : answer.succeeds = true) (hcfg : s.cfg.InRange) :
    ∃ tag id, s.cfg.typeCodes.tagOf tb = some tag ∧ answer = .okId id ∧
      Enc.Emits s.cfg s.enc [.newPointRegistered id tag md] [] t.enc := by
  have hrun : t = s.encRegister tb md := encRequest_of_succeeds hexec hanswer hok
  rw [hrun] at hanswer ⊢
  cases htag : s.cfg.typeCodes.tagOf tb with
  | none =>
    rw [State.encRegister_unknownType htag] at hanswer
    rw [State.refuse_not_succeeds hanswer] at hok
    cases hok
  | some tag =>
    obtain ⟨hroom, hmax, hdone⟩ := State.encRegister_of_succeeds htag hanswer hok
    rw [hdone] at hanswer ⊢
    have hbody := Enc.ReadBack.newPoint (e := s.enc.writeCode 0) (tag := tag) hcfg (by simpa using hroom) hmax
    have hid : (s.enc.writeCode 0).stream.nextId = s.enc.stream.nextId := by simp [Stream.nextId]
    rw [hid] at hbody
    exact ⟨tag, _, rfl, State.respond_answers hanswer, .of_record (.control (c := 0)
      (answer := fun r : Word32 × TypeTag × List Byte => .newPointRegistered r.1 r.2.1 r.2.2) (by decide)
      (fun _ _ hs => exec_newPointId hs) (Dec.decodeNewPoint_advancing s.cfg) hbody)⟩

/-- ENC_USER (47_stream_engine R357). -/
theorem encUser_emits {s t : State} {command : Word32} {answer : Response}
    (hexec : exec (.encUser command) s = .next t) (hanswer : t.responses = s.responses ++ [answer])
    (hok : answer.succeeds = true) : Enc.Emits s.cfg s.enc [.userData command] answer.taken t.enc := by
  obtain rfl := encRequest_of_succeeds hexec hanswer hok
  obtain ⟨-, hdone⟩ := State.finishEnc_of_succeeds hanswer hok
  rw [hdone] at hanswer ⊢
  obtain rfl := State.respond_answers hanswer
  exact .of_record (.control (c := 1) (by decide) (fun _ _ _ => rfl) (fun d => (d.readVarint_law 32).advancing)
    (.varint (by decide) _ command))

/-- ENC_USER_DATA (47_stream_engine R358). The output holds the payload, so its length is a u32. -/
theorem encUserData_emits {s t : State} {command : Word32} {payload : List Byte} {answer : Response}
    (hexec : exec (.encUserData command payload) s = .next t) (hanswer : t.responses = s.responses ++ [answer])
    (hok : answer.succeeds = true) (hcfg : s.cfg.InRange) :
    Enc.Emits s.cfg s.enc [.userDataWithValue command payload] answer.taken t.enc := by
  obtain rfl := encRequest_of_succeeds hexec hanswer hok
  obtain ⟨hfits, hdone⟩ := State.finishEnc_of_succeeds hanswer hok
  rw [hdone] at hanswer ⊢
  obtain rfl := State.respond_answers hanswer
  have hlen : payload.length < 2 ^ 32 := by
    have hle : payload.length ≤ _ := (Enc.length_le_footprint_writeBytes _ payload).trans hfits
    obtain ⟨-, -, -, -, -, hmax, -⟩ := hcfg
    omega
  exact .of_record (.control (c := 2) (answer := fun r : Word32 × List Byte => .userDataWithValue r.1 r.2) (by decide)
    (fun _ _ _ => rfl) (fun d => d.readCommandWithData_law.advancing) (.commandWithData _ command hlen))

/-- ENC_FLUSH (47_stream_engine R359). -/
theorem encFlush_emits {s t : State} {answer : Response} (hexec : exec .encFlush s = .next t)
    (hanswer : t.responses = s.responses ++ [answer]) (hok : answer.succeeds = true) :
    Enc.Emits s.cfg s.enc [] answer.taken t.enc := by
  obtain rfl := encRequest_of_succeeds hexec hanswer hok
  obtain ⟨-, hdone⟩ := State.finishEnc_of_succeeds hanswer hok
  rw [hdone] at hanswer ⊢
  obtain rfl := State.respond_answers hanswer
  exact .flush (.done _)

/-- ENC_TAKE (47_stream_engine R361). -/
theorem encTake_emits {s t : State} {answer : Response} (hexec : exec .encTake s = .next t)
    (hanswer : t.responses = s.responses ++ [answer]) (hok : answer.succeeds = true) :
    Enc.Emits s.cfg s.enc [] answer.taken t.enc ∧ t.enc.Emptied := by
  obtain rfl := encRequest_of_succeeds hexec hanswer hok
  have hcnt := s.enc.flushed_wcnt
  obtain rfl : answer = .bytes s.enc.flushed.out := State.respond_answers hanswer
  have htake : Enc.Emits s.cfg s.enc.flushed [] s.enc.flushed.out s.encTake.enc := by
    have h := Enc.Emits.take (p := s.cfg) hcnt (.done _)
    rwa [List.append_nil] at h
  refine ⟨?_, rfl, hcnt⟩
  by_cases hpos : s.enc.wcnt > 0
  · have hflushed : s.enc.flushed = (s.enc.writeCode 3).padBits := if_pos hpos
    rw [hflushed] at htake ⊢
    exact .flush htake
  · have hflushed : s.enc.flushed = s.enc := if_neg hpos
    rw [hflushed] at htake ⊢
    exact htake

/-- Every encoder request that succeeded, ENC_RESET apart, emits what the decoder is to answer to it and what it handed
out (47_stream_engine R362). -/
theorem encoderRequest_emits {r : Request} (hr : 9 ≤ r.opcode.toNat) {s t : State} {answer : Response}
    (hexec : exec (decodeRequest r) s = .next t) (hanswer : t.responses = s.responses ++ [answer])
    (hok : answer.succeeds = true) (htables : s.TablesInv) :
    Enc.Emits s.cfg s.enc (decodedAnswers s.cfg r answer) answer.taken t.enc := by
  obtain ⟨hcfg, hstreams⟩ := htables
  have hlt := r.opcode.isLt
  have hopcode : r.opcode.toNat = 9 ∨ r.opcode.toNat = 10 ∨ r.opcode.toNat = 11 ∨ r.opcode.toNat = 12 ∨
      r.opcode.toNat = 13 ∨ r.opcode.toNat = 14 ∨ r.opcode.toNat = 15 := by omega
  obtain h | h | h | h | h | h | h := hopcode <;> simp only [decodeRequest, h] at hexec <;>
    simp only [decodedAnswers, h]
  case inl =>
    obtain ⟨tag, id, htag, rfl, hemits⟩ := encRegister_emits hexec hanswer hok hcfg
    rw [htag]
    exact hemits
  case inr.inl =>
    obtain ⟨e', rfl, hread⟩ := encWrite_answered hexec hanswer hok (hstreams _ (by simp [State.streams]))
    obtain rfl := State.respond_answers hanswer
    exact .of_record hread
  case inr.inr.inl => exact encUser_emits hexec hanswer hok
  case inr.inr.inr.inl => exact encUserData_emits hexec hanswer hok hcfg
  case inr.inr.inr.inr.inl => exact encFlush_emits hexec hanswer hok
  case inr.inr.inr.inr.inr.inl => exact (encTake_emits hexec hanswer hok).1
  case inr.inr.inr.inr.inr.inr =>
    obtain ⟨-, rfl⟩ := betweenRequests_eq_next.1 hexec
    obtain rfl := State.respond_answers hanswer
    exact .done s.enc

/-! ### A run of requests -/

theorem StepsTo.split {m n : Nat} {s t : State} (h : StepsTo (m + n) s t) : ∃ u, StepsTo m s u ∧ StepsTo n u t := by
  induction m generalizing s with
  | zero => exact ⟨s, rfl, Nat.zero_add n ▸ h⟩
  | succ m ih =>
    rw [Nat.add_right_comm] at h
    obtain ⟨s1, hstep, hrest⟩ := h
    obtain ⟨u, hfirst, hlast⟩ := ih hrest
    exact ⟨u, ⟨s1, hstep, hfirst⟩, hlast⟩

/-- What the encoder requests `rs` of `s`, answered with `answers`, lead to. -/
structure State.Encoded (s : State) (rs : List Request) (answers : List Response) (t : State) : Prop where
  get : t.get = none
  pending : s.pending = rs ++ t.pending
  cfg : t.cfg = s.cfg
  dec : t.dec = s.dec
  tables : t.TablesInv
  length : rs.length = answers.length
  responses : t.responses = s.responses ++ answers
  emits : (∀ a ∈ answers, a.succeeds = true) →
    Enc.Emits s.cfg s.enc ((rs.zip answers).flatMap fun ra => decodedAnswers s.cfg ra.1 ra.2)
      (answers.flatMap Response.taken) t.enc

theorem State.Encoded.append {s u t : State} {rs rs' : List Request} {answers answers' : List Response}
    (h : s.Encoded rs answers u) (h' : u.Encoded rs' answers' t) : s.Encoded (rs ++ rs') (answers ++ answers') t where
  get := h'.get
  pending := by rw [h.pending, h'.pending, List.append_assoc]
  cfg := h'.cfg.trans h.cfg
  dec := h'.dec.trans h.dec
  tables := h'.tables
  length := by rw [List.length_append, List.length_append, h.length, h'.length]
  responses := by rw [h'.responses, h.responses, List.append_assoc]
  emits hok := by
    obtain ⟨hfirst, hlast⟩ := List.forall_mem_append.1 hok
    rw [List.zip_append h.length, List.flatMap_append, List.flatMap_append]
    have hemits := h'.emits hlast
    rw [h.cfg] at hemits
    exact (h.emits hfirst).trans hemits

theorem State.encoded_of_step {s t : State} {r : Request} {rest : List Request} (hg : s.get = none)
    (hp : s.pending = r :: rest) (hr : 9 ≤ r.opcode.toNat) (htables : s.TablesInv) (hstep : step s = .next t) :
    ∃ answer, s.Encoded [r] [answer] t ∧ t.pending = rest := by
  have hexec : exec (decodeRequest r) (s.accepted rest) = .next t := (step_of_pending hg hp).symm.trans hstep
  obtain ⟨hget, hpending, answer, hanswer⟩ := exec_encoderRequest_answersOnce (Nat.le_of_succ_le hr) hexec
  have hrest : t.pending = rest := hpending
  refine ⟨answer, ⟨hget.trans hg, by rw [hp, hrest]; rfl, (step_law hstep).cfg,
    step_keeps_dec hg hp (Nat.le_of_succ_le hr) hstep, stepKeepsPointTablesDense s t htables hstep, rfl, hanswer,
    fun hok => ?_⟩, hrest⟩
  have hemits := encoderRequest_emits hr hexec hanswer (hok answer (List.mem_singleton_self _)) htables
  simpa using hemits

theorem State.encoded_of_stepsTo {rs rest : List Request} {s t : State} (hg : s.get = none)
    (hp : s.pending = rs ++ rest) (hrs : ∀ r ∈ rs, 9 ≤ r.opcode.toNat) (htables : s.TablesInv)
    (h : StepsTo rs.length s t) : ∃ answers, s.Encoded rs answers t ∧ t.pending = rest := by
  induction rs generalizing s with
  | nil =>
    obtain rfl : t = s := h
    exact ⟨[], ⟨hg, rfl, rfl, rfl, htables, rfl, (List.append_nil _).symm, fun _ => .done t.enc⟩, hp⟩
  | cons r rs ih =>
    obtain ⟨hr, hrs⟩ := List.forall_mem_cons.1 hrs
    obtain ⟨u, hstep, hrest⟩ := h
    obtain ⟨answer, hfirst, hpending⟩ := State.encoded_of_step hg hp hr htables hstep
    obtain ⟨answers, hlast, hend⟩ := ih hfirst.get hpending hrs hfirst.tables hrest
    exact ⟨answer :: answers, hfirst.append hlast, hend⟩

/-! ### The round trip -/

theorem Enc.reset_ranges : Enc.reset.Ranges := ⟨by decide, by decide⟩

/-- From reset, the bytes loaded, the decoder is in step with the encoder from reset. -/
theorem Dec.inStep_reset (bytes : List Byte) : (Dec.reset.load bytes).InStep Enc.reset [] bytes :=
  ⟨⟨rfl, rfl, fun _ => rfl, fun hpos => absurd hpos (Nat.lt_irrefl 0)⟩, rfl⟩

/-- DEC_LOAD within the limit, by a live decoder (47_stream_engine R350). -/
theorem step_decLoad {s : State} {bytes : List Byte} {rest : List Request} (hg : s.get = none)
    (herr : s.dec.err = .none) (hp : s.pending = { opcode := 0x1, bytes := bytes } :: rest)
    (hmax : bytes.length ≤ s.cfg.decBufMax) :
    step s = .next ({ s with pending := rest, dec := s.dec.load bytes }.respond .ok) := by
  refine (step_of_pending hg hp).trans ((decRequest_of_live (s := s.accepted rest) hg herr).trans ?_)
  exact congrArg Host.Outcome.next (if_neg (Nat.not_lt.2 hmax))

/-- Loaded into a decoder from reset, what an encoder from reset emitted is answered record by record, up to EndOfStream
(47_stream_engine R362, R363). -/
theorem Enc.Emits.roundTrip {p : Config} {t : State} {e : Enc} {answers : List Response} {bytes : List Byte}
    (h : Enc.Emits p Enc.reset answers bytes e) (he : e.Emptied) (hcfg : t.cfg = p) (hg : t.get = none)
    (hdec : t.dec = Dec.reset) (hmax : bytes.length ≤ p.decBufMax) :
    ∃ n u, StepsTo n { t with pending :=
        { opcode := 0x1, bytes := bytes } :: List.replicate (answers.length + 1) { opcode := 0x2 } } u ∧
      t.Ended u ([.ok] ++ answers ++ [.endOfStream]) e.stream := by
  let gets : List Request := List.replicate (answers.length + 1) { opcode := 0x2 }
  let loading : State := { t with pending := { opcode := 0x1, bytes := bytes } :: gets }
  let loaded : State := { t with pending := gets, dec := t.dec.load bytes }.respond .ok
  have hlive : t.dec.err = .none := congrArg Dec.err hdec
  have hload : step loading = .next loaded := step_decLoad hg hlive rfl (hcfg ▸ hmax)
  have hopen := step_decGet (s := loaded) hg hlive rfl
  have hfresh : loaded.dec = Dec.reset.load bytes := congrArg (Dec.load bytes) hdec
  have hin : loaded.dec.InStep Enc.reset [] bytes := hfresh ▸ Dec.inStep_reset bytes
  obtain ⟨n, u, hrun, hget, hpending, hresponses, hstream, henc⟩ := h.decoded he Enc.reset_ranges
    (s := loaded.accepted (List.replicate answers.length { opcode := 0x2 })) (g := .start loaded.dec)
    (d := loaded.dec) hcfg rfl hlive hin
  have hanswered : u.responses = t.responses ++ ([.ok] ++ answers ++ [.endOfStream]) := by
    rw [hresponses, List.append_assoc [Response.ok]]
    exact List.append_assoc t.responses [.ok] _
  exact ⟨n + 1 + 1, u, ⟨loaded, hload, _, hopen, hrun⟩, hget, hpending, hanswered, hstream, henc⟩

/-- Settles O59: the requests emit what the decoder is to answer (`State.encoded_of_stepsTo`), the last one takes all
that is left, and the decoder that has the taken bytes loaded answers the records one after the other
(`Enc.Emits.roundTrip`). -/
theorem decodingUndoesEncoding : Obligations.DecodingUndoesEncoding := by
  unfold Obligations.DecodingUndoesEncoding
  intro s t rs last answers hcfg hdec henc hg hresponses hp hrs hlast hsteps hanswers hok bytes decoded hmax
  have htables : s.TablesInv := ⟨hcfg, fun st hst => by
    have hreset : st = Stream.reset := by simpa [State.streams, hg, hdec, henc, Dec.reset, Enc.reset] using hst
    exact hreset ▸ Stream.reset_tableWf s.cfg⟩
  have htake : decodeRequest last = .encTake ∧ 9 ≤ last.opcode.toNat := by simp [decodeRequest, hlast]
  obtain ⟨u, hfirst, t', hstep, rfl⟩ := hsteps.split
  obtain ⟨as, hencoded, hpending⟩ := State.encoded_of_stepsTo hg hp hrs htables hfirst
  obtain ⟨a, hencodedLast, -⟩ :=
    State.encoded_of_step hencoded.get hpending htake.2 hencoded.tables hstep
  have hall := hencoded.append hencodedLast
  obtain rfl : answers = as ++ [a] := by rw [← hanswers, hall.responses, hresponses, List.nil_append]
  have hexec : exec .encTake (u.accepted []) = .next t := by
    rw [← hstep, step_of_pending hencoded.get hpending, htake.1]
  obtain ⟨-, hempty⟩ := encTake_emits hexec hencodedLast.responses (hok a (by simp))
  have hemits := hall.emits hok
  rw [henc] at hemits
  obtain ⟨n, v, hrun, hget, hend, hanswered, hstream, hkept⟩ :=
    hemits.roundTrip hempty hall.cfg hall.get (hall.dec.trans hdec) hmax
  refine ⟨n, v, hrun, hget, hend, ?_, hstream, hkept⟩
  rw [hanswered, hanswers, ← List.append_assoc, ← List.append_assoc]

end Sys2Proof.Machine
end

section
/-!
PROOFS. Resets and failed engines (70_reset_and_hazards R450, R451; 60_exceptions R401, R402, R413): what the resets
write, that a failed engine is left only through its own, and that no step stops.
-/

namespace Sys2Proof.Machine

/-! ### The reset requests -/

theorem exec_decReset {s : State} (hg : s.get = none) : exec .decReset s = .next (s.resetDec.respond .ok) :=
  betweenRequests_idle hg

theorem exec_encReset {s : State} (hg : s.get = none) : exec .encReset s = .next (s.resetEnc.respond .ok) :=
  betweenRequests_idle hg

/-- Settles O31: a reset request gives `State.resetDec` or `State.resetEnc` with its answer, and the reset values are
those of R450 field by field. -/
theorem resetSetsEveryFieldOfItsEngine : Obligations.ResetSetsEveryFieldOfItsEngine := by
  unfold Obligations.ResetSetsEveryFieldOfItsEngine
  intro model stream record dec enc
  have hdec : Dec.reset = dec := rfl
  have henc : Enc.reset = enc := rfl
  refine ⟨hdec, henc, fun s hg => ⟨?_, ?_⟩⟩
  · rw [exec_decReset hg, ← hdec]
    rfl
  · rw [exec_encReset hg, ← henc]
    rfl

/-! ### Failed engines -/

/-- With no request and no DEC_GET a step rests (60_exceptions R421). -/
theorem step_of_rest {s : State} (hg : s.get = none) (hp : s.pending = []) : step s = .next s := by
  simp [step, hg, hp]

theorem State.unlessDecFailed_keeps_dec {s : State} (hfailed : s.dec.err ≠ .none) (next : State) :
    (s.unlessDecFailed next).dec = s.dec := by
  rw [State.unlessDecFailed_failed hfailed, State.respond_dec]

theorem State.unlessEncFailed_keeps_enc {s : State} (hfailed : s.enc.err ≠ .none) (next : State) :
    (s.unlessEncFailed next).enc = s.enc := by
  rw [State.unlessEncFailed_failed hfailed, State.respond_enc]

/-- A request of a failed decoder that is not DEC_RESET keeps it whole: it answers the error, the status or a refusal
(47_stream_engine R342). -/
theorem exec_decoderRequest_of_failed {r : Request} (hr : r.opcode.toNat < 8) {s t : State}
    (hfailed : s.dec.err ≠ .none) (h : exec (decodeRequest r) s = .next t) :
    t.dec = s.dec ∨ r.opcode = 0x0 ∧ t.dec = State.reset.dec := by
  obtain ⟨hop, hi⟩ | hi | hi | hi | ⟨low, hi⟩ := decodeRequest_decoder hr <;> rw [hi] at h <;>
    obtain ⟨-, rfl⟩ := betweenRequests_eq_next.1 h
  · exact .inr ⟨hop, rfl⟩
  · exact .inl (State.unlessDecFailed_keeps_dec hfailed _)
  · exact .inl (State.unlessDecFailed_keeps_dec hfailed _)
  · exact .inl (s.respond_dec _)
  · exact .inl (s.refuse_dec _)

/-- As `exec_decoderRequest_of_failed`, for the encoder. -/
theorem exec_encoderRequest_of_failed {r : Request} (hr : 8 ≤ r.opcode.toNat) {s t : State}
    (hfailed : s.enc.err ≠ .none) (h : exec (decodeRequest r) s = .next t) :
    t.enc = s.enc ∨ r.opcode = 0x8 ∧ t.enc = State.reset.enc := by
  have kept (next : State) : (s.unlessEncFailed next).enc = s.enc := State.unlessEncFailed_keeps_enc hfailed next
  obtain ⟨hop, hi⟩ | hi | hi | hi | hi | hi | hi | hi := decodeRequest_encoder hr <;> rw [hi] at h <;>
    obtain ⟨-, rfl⟩ := betweenRequests_eq_next.1 h
  case inl => exact .inr ⟨hop, rfl⟩
  case inr.inr.inr.inr.inr.inr.inr => exact .inl (s.respond_enc _)
  all_goals exact .inl (kept _)

/-- Settles O46: with no request nothing changes; a request of the other engine leaves the failed one
(`step_keeps_enc`, `step_keeps_dec`), and a request of its own keeps it or is its reset. -/
theorem onlyResetClearsAnError : Obligations.OnlyResetClearsAnError := by
  unfold Obligations.OnlyResetClearsAnError
  intro s t hg h
  cases hp : s.pending with
  | nil =>
    obtain rfl := Host.Outcome.next.inj ((step_of_rest hg hp).symm.trans h)
    exact ⟨fun _ => .inl rfl, fun _ => .inl rfl⟩
  | cons r rest =>
    have hexec : exec (decodeRequest r) (s.accepted rest) = .next t := (step_of_pending hg hp).symm.trans h
    rcases Nat.lt_or_ge r.opcode.toNat 8 with hr | hr
    · refine ⟨fun hfailed => ?_, fun _ => .inl (step_keeps_enc (.inr ⟨r, rest, hp, hr⟩) h)⟩
      exact (exec_decoderRequest_of_failed (s := s.accepted rest) hr hfailed hexec).imp_right
        fun hreset => ⟨r, rest, rfl, hreset⟩
    · refine ⟨fun _ => .inl (step_keeps_dec hg hp hr h), fun hfailed => ?_⟩
      exact (exec_encoderRequest_of_failed (s := s.accepted rest) hr hfailed hexec).imp_right
        fun hreset => ⟨r, rest, rfl, hreset⟩

/-! ### No step stops -/

/-- Settles O48: inside a DEC_GET the row that was fetched fits its place and its point (`openStep_next`), and between
requests every request gives a next state (`exec_request_next`). -/
theorem everyStepAnswersANextState : Obligations.EveryStepAnswersANextState := by
  unfold Obligations.EveryStepAnswersANextState
  intro s
  cases hg : s.get with
  | some g => exact openStep_next hg
  | none =>
    cases hp : s.pending with
    | nil => exact ⟨s, step_of_rest hg hp⟩
    | cons r rest =>
      have hidle : (s.accepted rest).get = none := hg
      rw [step_of_pending hg hp]
      exact exec_request_next hidle r

end Sys2Proof.Machine
end
